-- ==== Sys2Proof/Word.lean ====
section
/-! DEFINITION. The word types of the core (spec/00_scope.md R7, R9, R10). Everything that takes bits
apart or puts them together is in Machine/Bits.lean. -/

namespace Sys2Proof

/-- One byte: a CPU register, a memory cell, an operand byte (R7). -/
abbrev Byte := BitVec 8

/-- A CPU bus address, 16 bits (R9, R100). -/
abbrev Addr := BitVec 16

/-- A picture-generator address, 14 bits (R9, R101). -/
abbrev PpuAddr := BitVec 14

/-- A scroll register `v` or `t`, 15 bits (R51). -/
abbrev Scroll := BitVec 15

end Sys2Proof
end

