-- ==== Sys2Proof/Machine/Bits.lean ====
section
/-! DEFINITION. Bit fields, byte order, sign and zero extension (spec/00_scope.md R10, spec/20_memory.md R110). -/

namespace Sys2Proof.Machine

/-- `hi:lo`, the 16-bit value with `hi` as its high byte (R10). -/
def join (hi lo : Byte) : Addr := hi ++ lo

/-- `a[15:8]`. -/
def hiByte (a : Addr) : Byte := a.extractLsb' 8 8

/-- `a[7:0]`. -/
def loByte (a : Addr) : Byte := a.extractLsb' 0 8

/-- `zext_16(b)`, an address in page 0 (R152). -/
def zext (b : Byte) : Addr := b.setWidth 16

/-- `sext_8` of a branch offset to 16 bits (R153). -/
def sext (b : Byte) : Addr := b.signExtend 16

/-- `v[i]`. -/
def bitAt (v : BitVec w) (i : Nat) : Bool := v.getLsbD i

/-- `Reverse8(b)`: bit `j` of the result is bit `7 - j` of `b` (R537). -/
def reverse8 (b : Byte) : Byte :=
  b.extractLsb' 0 1 ++ b.extractLsb' 1 1 ++ b.extractLsb' 2 1 ++ b.extractLsb' 3 1 ++
  b.extractLsb' 4 1 ++ b.extractLsb' 5 1 ++ b.extractLsb' 6 1 ++ b.extractLsb' 7 1

/-- A Boolean as a number, `bool(x)` of R10. -/
def bitNat (b : Bool) : Nat := if b then 1 else 0

end Sys2Proof.Machine
end

