-- ==== Sys2Proof/Config.lean ====
section
/-! DEFINITION. What is fixed for one machine: the parameters of spec/00_scope.md R8 as plain data, and the
external collaborators (mapper, sound generator, other bus components) as uninterpreted constants, whose
results no proof can see. -/

namespace Sys2Proof.Config

/-- `UNASSIGNED_OPCODE` (R8, R163, R472). -/
inductive Unassigned where
  | nop2
  | refuse
  deriving DecidableEq, Repr

/-- `ODD_FRAME_SKIP` (R8, R501). -/
inductive OddFrameSkip where
  | always
  | whenRendering
  deriving DecidableEq, Repr

/-- `SPRITE0_HIT_X255` (R8, R543). -/
inductive Sprite0HitX255 where
  | allowed
  | excluded
  deriving DecidableEq, Repr

/-- How a divider with a divisor below 1 emits: R207's algorithm once per parent tick at most (`once`), R209's law
`floor(k / divisor)` child ticks after `k` parent ticks (`every`). From 1 on the two are the same. The spec states
both and does not say which is meant below 1. DESIGN CHOICE: a parameter, R207's by default (log 12). -/
inductive DividerLaw where
  | once
  | every
  deriving DecidableEq, Repr

/-- Who reaches the picture generator's ports by the bus. `anyStep`: whatever step makes the access, as R252 to R254 say of
every bus operation. `cpuStep`: the CPU's step alone, as R58's table of writers says; a host's access to them is then not
enabled, and one by an external component's code in a dot, a sound tick or a host operation changes nothing in them. The
spec states both and does not say which gives way. DESIGN CHOICE: a parameter, R252 to R254 by default (log 38). -/
inductive PortLaw where
  | anyStep
  | cpuStep
  deriving DecidableEq, Repr

/-- The named parameters of R8 that a rule of the core reads, with R8's defaults. `SYNC_POLICY`,
`BUS_TABLE`, `MAPPER` and the divisors are fields of State, where the host may change them. -/
structure Params where
  owedMax        : Nat            := 2147483647
  unassigned     : Unassigned     := .nop2
  dummyAccesses  : Bool           := true
  oddFrameSkip   : OddFrameSkip   := .always
  nmiOnEnable    : Bool           := false
  sprite0HitX255 : Sprite0HitX255 := .allowed
  dmaExtraOnOdd  : Bool           := true
  dividerLaw     : DividerLaw     := .once
  portLaw        : PortLaw        := .anyStep
  deriving DecidableEq, Repr

/-- `CPU_DIVISOR` (R8, R219). -/
def cpuDivisor : Nat := 3

/-- `CLOCK_HZ`, read by no rule (R8, R218). DESIGN CHOICE: R200's example value (log 23). -/
def clockHz : Nat := 5369318

/-- The nametable mirroring modes of R622 and R652. -/
inductive Mirroring where
  | horizontal
  | vertical
  | single0
  | single1
  | fourScreen
  deriving DecidableEq, Repr, Inhabited

/-- What a call of the mapper's contract gives back (R650, R651): whether the address is accepted, the
translated offset, a mapper register's data if any, whether the offset names cartridge RAM, the mapper's own
next state, and whether it calls `Bus.IRQ()`. -/
structure MapReply where
  accepted : Bool
  offset   : Nat
  data     : Option Byte
  ram      : Bool
  st       : Nat
  irq      : Bool
  deriving DecidableEq, Repr, Inhabited

/-- What a call of the sound generator gives back: the byte read, its own next state, and whether it calls
`Bus.IRQ()` (R254, R670). -/
structure ExtReply where
  value : Byte
  st    : Nat
  irq   : Bool
  deriving DecidableEq, Repr, Inhabited

/-- What a collaborator's `reset()` gives back: its own next state, and whether it calls `Bus.IRQ()` (R254, R650,
R670). -/
structure ResetReply where
  st  : Nat
  irq : Bool
  deriving DecidableEq, Repr, Inhabited

/-- A call of one of the five functions of a component (R254). -/
inductive ExtCall where
  | read (a : Addr)
  | write (a : Addr) (v : Byte)
  | reset
  | irq
  | nmi
  deriving DecidableEq, Repr

/-- What the code of an external component does next: it returns, giving a byte to a reader, or it calls a bus
operation (R254). Attaching and detaching are host operations (R58, R259), not among these. -/
inductive ExtMove where
  | ret (value : Byte)
  | read (a : Addr)
  | write (a : Addr) (v : Byte)
  | irq
  | nmi
  | reset
  deriving DecidableEq, Repr, Inhabited

/-- One turn of an external component's code: its own next state and its move. -/
structure ExtTurn where
  st   : Nat
  move : ExtMove
  deriving DecidableEq, Repr, Inhabited

/-! ### The external mapper, `MAPPER` (R650-R652): any mapper, named by a number (log 8) -/

opaque mapCpuRead : (id st : Nat) → Addr → MapReply
opaque mapCpuWrite : (id st : Nat) → Addr → Byte → MapReply
opaque mapPpuRead : (id st : Nat) → PpuAddr → MapReply
opaque mapPpuWrite : (id st : Nat) → PpuAddr → MapReply
opaque mapMirroring : (id st : Nat) → Mirroring
opaque mapReset : (id st : Nat) → ResetReply

/-! ### The external sound generator (R670, R671; log 9) -/

opaque soundRead : (st : Nat) → Addr → ExtReply
opaque soundWrite : (st : Nat) → Addr → Byte → ExtReply
opaque soundStep : (st : Nat) → ExtReply
opaque soundReset : (st : Nat) → ResetReply
opaque soundSample : (st channel time timeStep : Nat) → Nat

/-! ### Other components a host may attach to the bus (R254; log 10) -/

/-- The code of component `id`: inside a call, what it does at each turn, from the component's own state and the byte
its last bus read gave (0 before one). -/
opaque extTurn : (id : Nat) → ExtCall → (turn : Nat) → (seen : Byte) → (st : Nat) → ExtTurn

/-- A bound on the turns of a call and on calls inside calls; nothing is known of it (log 10). -/
opaque extBudget : Nat

/-! ### Free values: the spec gives an effect and does not state the value -/

/-- The pattern row of a sprite whose entry does not cover the line that fetches it: R535 and R536 give the
row only inside the sprite's height (log 18). Arguments: scanline, the entry's Y byte, the height. -/
opaque straySpriteRow : (scanline y height : Nat) → Nat

/-- The bit a controller component returns at an address that is neither 0x4016 nor 0x4017: R661 gives the
port number only for those two (log 19). -/
opaque strayPadBit : Addr → BitVec 1

end Sys2Proof.Config
end

