-- ==== Sys2Proof/Syntax.lean ====
section
/-! DEFINITION. The instruction set as syntax. The opcode byte alone fixes the operation and the addressing
mode (spec/30_encoding.md R150, R165), so an instruction is that descriptor: one constructor per mnemonic of
R161, applied to the mode where the mnemonic has several. The 105 unassigned slots are `una op`. -/

namespace Sys2Proof

/-- The thirteen addressing modes of R151. -/
inductive Mode where
  | imp | acc | imm | zp | zpx | zpy | abs | absx | absy | ind | indx | indy | rel
  deriving DecidableEq, Repr

/-- The instructions: the 56 mnemonics of R161 and `UNA` (R163). Every row of spec/opcode_table.json is one
constructor at one mode (for `una`, at one opcode byte). -/
inductive Instr where
  -- loads and stores (R351-R356)
  | lda (m : Mode) | ldx (m : Mode) | ldy (m : Mode)
  | sta (m : Mode) | stx (m : Mode) | sty (m : Mode)
  -- transfers (R357-R362)
  | tax | tay | txa | tya | tsx | txs
  -- stack (R363-R366)
  | pha | php | pla | plp
  -- arithmetic, logic, compare, bit test (R401-R409)
  | adc (m : Mode) | sbc (m : Mode) | and (m : Mode) | ora (m : Mode) | eor (m : Mode)
  | cmp (m : Mode) | cpx (m : Mode) | cpy (m : Mode) | bit (m : Mode)
  -- increment and decrement (R410-R415)
  | inc (m : Mode) | dec (m : Mode) | inx | iny | dex | dey
  -- shifts and rotates (R416-R419)
  | asl (m : Mode) | lsr (m : Mode) | rol (m : Mode) | ror (m : Mode)
  -- jumps, calls, returns, break (R451-R455)
  | jmp (m : Mode) | jsr | rts | rti | brk
  -- branches (R456-R463)
  | bcc | bcs | beq | bmi | bne | bpl | bvc | bvs
  -- flags (R464-R470)
  | clc | sec | cli | sei | clv | cld | sed
  -- no-operations (R471, R472)
  | nop | una (op : Byte)
  deriving DecidableEq, Repr

/-- The operand bytes of an encoded instruction (R150, R151): none, one (`nn`) or two (`ll hh`). -/
inductive Operand where
  | none
  | one (nn : Byte)
  | two (ll hh : Byte)
  deriving DecidableEq, Repr

/-- An encoded instruction with its operand bytes. -/
structure Code where
  instr   : Instr
  operand : Operand
  deriving DecidableEq, Repr

/-- The addressing mode of an instruction (R160, R161). -/
def Instr.mode : Instr → Mode
  | .lda m | .ldx m | .ldy m | .sta m | .stx m | .sty m => m
  | .adc m | .sbc m | .and m | .ora m | .eor m | .cmp m | .cpx m | .cpy m | .bit m => m
  | .inc m | .dec m | .asl m | .lsr m | .rol m | .ror m | .jmp m => m
  | .jsr => .abs
  | .bcc | .bcs | .beq | .bmi | .bne | .bpl | .bvc | .bvs => .rel
  | .tax | .tay | .txa | .tya | .tsx | .txs | .pha | .php | .pla | .plp => .imp
  | .inx | .iny | .dex | .dey | .rts | .rti | .brk => .imp
  | .clc | .sec | .cli | .sei | .clv | .cld | .sed | .nop | .una _ => .imp

end Sys2Proof
end

