-- ==== Sys2Proof/Machine/State.lean ====
section
/-! DEFINITION. The state of the core as plain data (spec/10_state.md R30-R57), the atomic transitions the
outside world can ask for (spec/40_clock_sync.md R212), the reasons a step can stop (spec/60_exceptions.md R700)
and the state at power-on (spec/70_reset_and_hazards.md R750). -/

namespace Sys2Proof.Machine

/-! ### Memories -/

/-- A sparse memory: (address, value) pairs, addresses strictly rising, no entry equal to what an unlisted
address reads as. `Memory 8` is a list of `Host.Cell`. -/
abbrev Memory (w : Nat) := List (Nat × BitVec w)

/-- What an unlisted address reads as: `INIT_MEM` (R8). DESIGN CHOICE: 0 (log 2). -/
def Memory.unlisted : BitVec w := 0

/-- The canonical form of a memory. -/
def Memory.wf : Memory w → Bool
  | [] => true
  | (_, v) :: [] => v != Memory.unlisted
  | (a, v) :: (b, u) :: rest => v != Memory.unlisted && a < b && Memory.wf ((b, u) :: rest)

/-! ### Clock, dividers and units (R30-R32) -/

/-- The tick-synchronised units (R15, R219). -/
inductive UnitId where
  | cpu
  | ppu
  | sound
  deriving DecidableEq, Repr

/-- The two policies of a unit (R213, R214). -/
inductive Policy where
  | async
  | lockstep
  deriving DecidableEq, Repr

/-- A unit's tick counter and gates (R32). Its engine state is `cpu`, `ppu` or `sound` below. -/
structure UnitCtl where
  owed     : Nat
  paused   : Bool
  disposed : Bool
  policy   : Policy
  deriving DecidableEq, Repr

/-- A listener reference: a unit, or a ClockDivider by its number in `dividers` (R30). -/
inductive Listener where
  | unit (u : UnitId)
  | divider (i : Nat)
  deriving DecidableEq, Repr

/-- A ClockDivider (R31): the positive rational divisor is `num / den`, and `acc` counts in units of `1 / den`
(log 12). `parent` is `none` for the Clock. -/
structure Divider where
  num      : Nat
  den      : Nat
  acc      : Nat
  children : List Listener
  parent   : Option Nat
  deriving DecidableEq, Repr

/-- The master Clock (R30). -/
structure Clock where
  tickCount : Nat
  listeners : List Listener
  running   : Bool
  disposed  : Bool
  hz        : Nat
  deriving DecidableEq, Repr

/-! ### Bus (R33) -/

/-- A component's capability set (R33). -/
structure Caps where
  readable   : Bool
  writable   : Bool
  resettable : Bool
  irqCapable : Bool
  nmiCapable : Bool
  deriving DecidableEq, Repr

/-- The components of the bus (R104), and any other one a host attaches (R250), named by a number and its
capability set. -/
inductive Component where
  | cpu | ram | ppu | pads | dma | sound | cart
  | ext (id : Nat) (caps : Caps)
  deriving DecidableEq, Repr

/-- One attachment: an inclusive range of addresses, or the empty range `none` (R33). -/
structure BusEntry where
  range     : Option (Addr × Addr)
  component : Component
  deriving DecidableEq, Repr

/-! ### Processor (R40-R46) -/

/-- The latches of an instruction or sequence under way (R43). -/
structure Lat where
  lo      : Byte := 0
  hi      : Byte := 0
  ptr     : Byte := 0
  ea      : Addr := 0
  crossed : Bool := false
  data    : Byte := 0
  off     : Byte := 0
  vec     : Addr := 0
  deriving DecidableEq, Repr

/-- The three engine sequences (R43). -/
inductive Sequence where
  | reset
  | nmi
  | irq
  deriving DecidableEq, Repr

/-- The engine state (R43): `k` is the index of the next tick. -/
inductive Engine where
  | boundary
  | fetchNext
  | inInstr (op : Byte) (k : Nat) (lat : Lat)
  | inSeq (kind : Sequence) (k : Nat) (lat : Lat)
  deriving DecidableEq, Repr

/-- The processor's registers (R40, R41), its engine state (R43) and its tick counter (R45). -/
structure Cpu where
  a      : Byte
  x      : Byte
  y      : Byte
  sp     : Byte
  pc     : Addr
  p      : Byte
  eng    : Engine
  cycles : Nat
  deriving DecidableEq, Repr

/-- The processor's pending latches (R44). -/
structure Pending where
  reset : Bool
  nmi   : Bool
  irq   : Bool
  deriving DecidableEq, Repr

/-- The DMA state (R46). -/
inductive Dma where
  | idle
  | requested (page : Byte)
  | active (page : Byte) (k : Nat) (data : Byte)
  deriving DecidableEq, Repr

/-! ### Picture generator (R50-R57) -/

/-- One sprite output slot (R54). -/
structure Slot where
  patLo : Byte
  patHi : Byte
  attr  : Byte
  xcnt  : Byte
  deriving DecidableEq, Repr

/-- Control state (R50). -/
structure PpuRegs where
  ctrl           : Byte
  mask           : Byte
  vblank         : Bool
  sprite0Hit     : Bool
  spriteOverflow : Bool
  oamaddr        : Byte
  deriving DecidableEq, Repr

/-- Scroll state (R51). -/
structure PpuScroll where
  v     : Scroll
  t     : Scroll
  fineX : BitVec 3
  w     : Bool
  deriving DecidableEq, Repr

/-- Data-port buffer and I/O latch (R52). -/
structure PpuPort where
  readBuffer : Byte
  ioLatch    : Byte
  deriving DecidableEq, Repr

/-- Background latches and shifters (R53). -/
structure PpuBg where
  nextId   : Byte
  nextAttr : Byte
  nextLo   : Byte
  nextHi   : Byte
  patLo    : BitVec 16
  patHi    : BitVec 16
  attrLo   : BitVec 16
  attrHi   : BitVec 16
  deriving DecidableEq, Repr

/-- Sprite slots, object tables and counts (R54). `sprLo` is the low bitplane of the slot being fetched (R534,
log 17). -/
structure PpuSprites where
  slots     : List Slot
  sprLo     : Byte
  oam       : Memory 8
  oam2      : Memory 8
  countNext : Nat
  countCur  : Nat
  spr0Next  : Bool
  spr0Cur   : Bool
  deriving DecidableEq, Repr

/-- Position (R55). -/
structure PpuPos where
  scanline   : Nat
  dot        : Nat
  frameCount : Nat
  deriving DecidableEq, Repr

/-- Memories (R56). -/
structure PpuMem where
  vram    : Memory 8
  palette : Memory 6
  deriving DecidableEq, Repr

/-- Framebuffers (R57): pixel (x, y) is cell 256 y + x; `back = true` means fb1 is written. -/
structure PpuOut where
  fb0  : Memory 9
  fb1  : Memory 9
  back : Bool
  deriving DecidableEq, Repr

/-- The picture generator (R50-R57). -/
structure Ppu where
  regs : PpuRegs
  scr  : PpuScroll
  port : PpuPort
  bg   : PpuBg
  spr  : PpuSprites
  pos  : PpuPos
  mem  : PpuMem
  out  : PpuOut
  deriving DecidableEq, Repr

/-! ### Devices -/

/-- The controllers (R660). -/
structure Pads where
  buttons0 : Byte
  buttons1 : Byte
  shift0   : Byte
  shift1   : Byte
  strobe   : Bool
  deriving DecidableEq, Repr

/-- One accepted address window of a flat mapper: addresses `lo` to `hi` go to offset `base` on; `ram` says
whether the offsets are writable. -/
structure Window where
  lo   : Nat
  hi   : Nat
  base : Nat
  ram  : Bool
  deriving DecidableEq, Repr

/-- The `MAPPER` parameter (R8, R650): a fixed window map, of which R650's example is one, or any external
mapper, by number (log 8). -/
inductive Mapper where
  | flat (cpu ppu : List Window) (mirroring : Config.Mirroring)
  | external (id : Nat)
  deriving DecidableEq, Repr

/-- The cartridge: its mapper, the mapper's own state, PRG and CHR memory (R650, R651). -/
structure Cart where
  mapper : Mapper
  st     : Nat
  prg    : Memory 8
  chr    : Memory 8
  deriving DecidableEq, Repr

/-- The display sink: whether a FrameFinished callback is registered and how often it was called (R675; log 22). -/
structure Sink where
  registered : Bool
  notices    : Nat
  deriving DecidableEq, Repr

/-! ### Atomic transitions (R212) -/

/-- The host operations, each one atomic transition (R211, R216, R250-R259, R653, R662, R671, R675, R676). -/
inductive HostOp where
  | addListener (parent : Option Nat) (l : Listener)
  | newDivider (parent : Option Nat) (num : Int) (den : Nat)
  | start
  | disposeClock
  | pause (u : UnitId)
  | resume (u : UnitId)
  | disposeUnit (u : UnitId)
  | addComponent (c : Component) (range : Option (Addr × Addr))
  | removeComponent (c : Component)
  | busReset
  | busIrq
  | busNmi
  /-- `ReadData` and `WriteData` by the host (spec/41_bus.md, spec/40_clock_sync.md; log 28). -/
  | busRead (a : Addr)
  | busWrite (a : Addr) (v : Byte)
  | keyDown (port : Fin 2) (button : Fin 8)
  | keyUp (port : Fin 2) (button : Fin 8)
  /-- Program load: `none` when the image's mapper is not supported (R653). -/
  | load (image : Option Cart)
  | registerSink
  | getPixels
  | getSample (channel time timeStep : Nat)
  deriving DecidableEq, Repr

/-- An atomic transition: one emit step, one unit step or one host operation (R212). -/
inductive Event where
  | emit
  | unit (u : UnitId)
  | host (op : HostOp)
  deriving DecidableEq, Repr

/-! ### The whole state -/

/-- The state of the core. `schedule` is the model's own field: the transitions taken next, oldest first; when
it is empty, the registration order of R217 decides (log 3). `sound` and `ext` are the sound generator's state and the
one shared by the other external components, each one number (logs 9, 10). -/
structure State where
  params    : Config.Params
  clock     : Clock
  dividers  : List Divider
  cpuUnit   : UnitCtl
  ppuUnit   : UnitCtl
  soundUnit : UnitCtl
  bus       : List BusEntry
  cpu       : Cpu
  pend      : Pending
  dma       : Dma
  ram       : Memory 8
  ppu       : Ppu
  pads      : Pads
  cart      : Cart
  sound     : Nat
  ext       : Nat
  sink      : Sink
  schedule  : List Event
  deriving DecidableEq, Repr

/-- The faults of R700. A tick-loop fault ends the run and carries the state before the transition that raised it, in
which the run is stuck (R701; log 32); a configuration or load-time fault is given to the host operation's caller. -/
inductive Fault where
  /-- `Clock.Start()` with no listener (R202). Ends the run. Safe: the spec's own fault. -/
  | clockNoListeners (before : State)
  /-- `Clock.Start()` on a running Clock (R202). Given to the caller, the run goes on. Safe: the spec's own. -/
  | clockAlreadyStarted
  /-- A divider with a divisor of 0 or less (R208). Given to the caller. Safe: the spec's own. -/
  | invalidDivisor
  /-- The emit step delivers to a unit that owes `OWED_MAX` ticks (R206). Ends the run. Safe: the spec's own. -/
  | owedOverflow (u : UnitId) (before : State)
  /-- A lock-step unit owes more than one tick (R215). Ends the run. Safe: the spec's own. -/
  | lockstepDesync (u : UnitId) (before : State)
  /-- An attachment with `lo > hi` (R250). Given to the caller. Safe: the spec's own. -/
  | invalidRange
  /-- A program load with an unsupported mapper (R653). Given to the caller. Safe: the spec's own. -/
  | unsupportedMapper
  /-- An unassigned opcode under `UNASSIGNED_OPCODE = refuse` (R472). Ends the run. Safe: the spec's own. -/
  | unassignedOpcode (before : State)
  deriving DecidableEq, Repr

/-- Why the model gives no meaning. -/
inductive Refusal where
  /-- Raised by exec for an instruction that has no meaning yet. Safe: the model stops. -/
  | notModelled (mnemonic : String)
  /-- Raised by exec for a term that no opcode byte stands for (R161, R163); the decoder never gives one.
  Safe: no run reaches it (log 21). -/
  | illFormed
  deriving DecidableEq, Repr

/-- The outcome of a step. -/
abbrev Result := Host.Outcome State Fault Refusal

/-! ### Power-on (R750) -/

/-- `BUS_TABLE`, the NES map in attachment order (R104). -/
def State.defaultBus : List BusEntry :=
  [⟨none, .cpu⟩,
   ⟨some (0x0000, 0x1FFF), .ram⟩,
   ⟨some (0x2000, 0x3FFF), .ppu⟩,
   ⟨some (0x4016, 0x4017), .pads⟩,
   ⟨some (0x4014, 0x4014), .dma⟩,
   ⟨some (0x4000, 0x4013), .sound⟩, ⟨some (0x4015, 0x4015), .sound⟩, ⟨some (0x4017, 0x4017), .sound⟩,
   ⟨some (0x4020, 0xFFFF), .cart⟩]

/-- A unit after construction (R32); the policy is `SYNC_POLICY(u)`. DESIGN CHOICE: lockstep (log 7). -/
def UnitCtl.fresh : UnitCtl := ⟨0, false, false, .lockstep⟩

/-- A sprite slot at power-on (R54). -/
def Slot.zero : Slot := ⟨0, 0, 0, 0⟩

/-- The processor at power-on (R40, R43, R45). The registers are unspecified there. DESIGN CHOICE: the values
the reset sequence leaves, and PC = 0 (log 1). -/
def Cpu.powerOn : Cpu :=
  { a := 0, x := 0, y := 0, sp := 0xFD, pc := 0, p := 0x24, eng := .boundary, cycles := 0 }

/-- The picture generator at power-on (R50-R57). -/
def Ppu.powerOn : Ppu :=
  { regs := ⟨0, 0, false, false, false, 0⟩
    scr := ⟨0, 0, 0, false⟩
    port := ⟨0, 0⟩
    bg := ⟨0, 0, 0, 0, 0, 0, 0, 0⟩
    spr := ⟨List.replicate 8 Slot.zero, 0, [], [], 0, 0, false, false⟩
    pos := ⟨0, 0, 0⟩
    mem := ⟨[], []⟩
    out := ⟨[], [], false⟩ }

/-- The controllers at power-on (R660). -/
def Pads.powerOn : Pads := ⟨0, 0, 0, 0, false⟩

/-- The cartridge of the power-on state: none is loaded, so it accepts no address. DESIGN CHOICE (log 11). -/
def Cart.empty : Cart := ⟨.flat [] [] .horizontal, 0, [], []⟩

/-- Power-on: the state after construction and before the first emit step (R750), with the topology of R219.
The host's `Start()`, R219's last line, is the one transition asked for (log 6). DESIGN CHOICE: the states of the
sound generator, of the other external components and of the mapper, "their own" by R750, are the number 0 (log 35). -/
def State.reset : State :=
  { params := {}
    clock := ⟨0, [.unit .ppu, .divider 0], false, false, Config.clockHz⟩
    dividers := [⟨Config.cpuDivisor, 1, 0, [.unit .cpu], none⟩]
    cpuUnit := UnitCtl.fresh, ppuUnit := UnitCtl.fresh, soundUnit := UnitCtl.fresh
    bus := State.defaultBus
    cpu := Cpu.powerOn
    pend := ⟨true, false, false⟩
    dma := .idle
    ram := []
    ppu := Ppu.powerOn
    pads := Pads.powerOn
    cart := Cart.empty
    sound := 0, ext := 0
    sink := ⟨false, 0⟩
    schedule := [.host .start] }

end Sys2Proof.Machine
end

