-- ==== Sys2Proof/Machine/Memory.lean ====
section
/-! DEFINITION. Reading and writing one cell of a memory, keeping its canonical form. Every memory of the core
(work RAM, nametable RAM, palette, object tables, framebuffers, cartridge memories) is read and written here. -/

namespace Sys2Proof.Machine

/-- The value of cell `a`. -/
def Memory.read : Memory w → Nat → BitVec w
  | [], _ => Memory.unlisted
  | (k, v) :: rest, a => if a = k then v else Memory.read rest a

/-- Store `v` in cell `a`; storing what an unlisted cell reads as removes the entry. -/
def Memory.write : Memory w → Nat → BitVec w → Memory w
  | [], a, v => if v = Memory.unlisted then [] else [(a, v)]
  | (k, u) :: rest, a, v =>
    if a < k then (if v = Memory.unlisted then (k, u) :: rest else (a, v) :: (k, u) :: rest)
    else if a = k then (if v = Memory.unlisted then rest else (a, v) :: rest)
    else (k, u) :: Memory.write rest a v

/-- Every listed cell lies below `n`. -/
def Memory.below (n : Nat) (m : Memory w) : Bool := m.all fun c => c.1 < n

end Sys2Proof.Machine
end

