-- ==== Sys2Proof/Machine/Update.lean ====
section
/-! DEFINITION. The updates of State, one per field, and the updates of the processor's registers and of
the picture generator's parts. The laws of
these updates are in Laws/State.lean. -/

namespace Sys2Proof.Machine

def State.mapClock (f : Clock → Clock) (s : State) : State := { s with clock := f s.clock }
def State.setDividers (d : List Divider) (s : State) : State := { s with dividers := d }
def State.setBus (b : List BusEntry) (s : State) : State := { s with bus := b }
def State.mapCpu (f : Cpu → Cpu) (s : State) : State := { s with cpu := f s.cpu }
def State.mapPend (f : Pending → Pending) (s : State) : State := { s with pend := f s.pend }
def State.setDma (d : Dma) (s : State) : State := { s with dma := d }
def State.setRam (m : Memory 8) (s : State) : State := { s with ram := m }
def State.mapPpu (f : Ppu → Ppu) (s : State) : State := { s with ppu := f s.ppu }
def State.mapPads (f : Pads → Pads) (s : State) : State := { s with pads := f s.pads }
def State.mapCart (f : Cart → Cart) (s : State) : State := { s with cart := f s.cart }
def State.setSound (n : Nat) (s : State) : State := { s with sound := n }
def State.setExt (n : Nat) (s : State) : State := { s with ext := n }
def State.mapSink (f : Sink → Sink) (s : State) : State := { s with sink := f s.sink }
def State.setSchedule (es : List Event) (s : State) : State := { s with schedule := es }

/-- The tick counter of a unit (R32). -/
def State.unit (s : State) : UnitId → UnitCtl
  | .cpu => s.cpuUnit
  | .ppu => s.ppuUnit
  | .sound => s.soundUnit

/-- Change the tick counter of a unit (R32). -/
def State.mapUnit (u : UnitId) (f : UnitCtl → UnitCtl) (s : State) : State :=
  match u with
  | .cpu => { s with cpuUnit := f s.cpuUnit }
  | .ppu => { s with ppuUnit := f s.ppuUnit }
  | .sound => { s with soundUnit := f s.soundUnit }

def Ppu.mapRegs (f : PpuRegs → PpuRegs) (p : Ppu) : Ppu := { p with regs := f p.regs }
def Ppu.mapScr (f : PpuScroll → PpuScroll) (p : Ppu) : Ppu := { p with scr := f p.scr }
def Ppu.mapPort (f : PpuPort → PpuPort) (p : Ppu) : Ppu := { p with port := f p.port }
def Ppu.mapBg (f : PpuBg → PpuBg) (p : Ppu) : Ppu := { p with bg := f p.bg }
def Ppu.mapSpr (f : PpuSprites → PpuSprites) (p : Ppu) : Ppu := { p with spr := f p.spr }
def Ppu.mapPos (f : PpuPos → PpuPos) (p : Ppu) : Ppu := { p with pos := f p.pos }
def Ppu.mapMem (f : PpuMem → PpuMem) (p : Ppu) : Ppu := { p with mem := f p.mem }
def Ppu.mapOut (f : PpuOut → PpuOut) (p : Ppu) : Ppu := { p with out := f p.out }

def Cpu.setA (v : Byte) (c : Cpu) : Cpu := { c with a := v }
def Cpu.setX (v : Byte) (c : Cpu) : Cpu := { c with x := v }
def Cpu.setY (v : Byte) (c : Cpu) : Cpu := { c with y := v }
def Cpu.setSp (v : Byte) (c : Cpu) : Cpu := { c with sp := v }
def Cpu.setPc (v : Addr) (c : Cpu) : Cpu := { c with pc := v }
def Cpu.setP (v : Byte) (c : Cpu) : Cpu := { c with p := v }
def Cpu.setEng (e : Engine) (c : Cpu) : Cpu := { c with eng := e }
def Cpu.tick (c : Cpu) : Cpu := { c with cycles := c.cycles + 1 }

/-- `PC <- PC + 1`, modulo 2^16 (R113). -/
def Cpu.incPc (c : Cpu) : Cpu := c.setPc (c.pc + 1)

/-- `S <- (S - 1) & 0xFF` (R350). -/
def Cpu.decSp (c : Cpu) : Cpu := c.setSp (c.sp - 1)

/-- `S <- (S + 1) & 0xFF` (R350). -/
def Cpu.incSp (c : Cpu) : Cpu := c.setSp (c.sp + 1)

end Sys2Proof.Machine
end

