-- ==== Sys2Proof/Machine/Routing.lean ====
section
/-! DEFINITION. Component capabilities and the routing of interrupt signals over the bus
(spec/41_bus.md R255, R256, R258; spec/20_memory.md R104). -/

namespace Sys2Proof.Machine

/-- The capability sets of R104. -/
def Component.caps : Component → Caps
  | .cpu => ⟨false, false, true, true, true⟩
  | .ram | .ppu | .pads | .sound | .cart => ⟨true, true, true, false, false⟩
  | .dma => ⟨false, true, true, false, false⟩
  | .ext _ caps => caps

/-- The first component, in table order, with a capability (R255, R256). -/
def firstCapable (cap : Caps → Bool) : List BusEntry → Option Component
  | [] => none
  | e :: rest => if cap e.component.caps then some e.component else firstCapable cap rest

/-- How a call of a function of an external component runs: the component's number and the call, from the state before
to the byte given back and the state after (R254). The bus's functions take it as their argument `x`, because the
component's code may itself call the bus; Bus.lean ties the knot (`extRun`). -/
abbrev ExtRun := Nat → Config.ExtCall → State → Byte × State

/-- `Bus.IRQ()`: the first IRQ-capable component takes the signal; for the CPU, `irq_pending <- true` (R255). -/
def busIrqVia (x : ExtRun) (s : State) : State :=
  match firstCapable (·.irqCapable) s.bus with
  | some .cpu => s.mapPend fun l => { l with irq := true }
  | some (.ext id _) => (x id .irq s).2
  | _ => s

/-- `Bus.NMI()`: as `busIrqVia`, with `nmi_pending` (R256). -/
def busNmiVia (x : ExtRun) (s : State) : State :=
  match firstCapable (·.nmiCapable) s.bus with
  | some .cpu => s.mapPend fun l => { l with nmi := true }
  | some (.ext id _) => (x id .nmi s).2
  | _ => s

/-- A collaborator's call of `Bus.IRQ()`, if it makes one. -/
def signalIrqVia (x : ExtRun) (irq : Bool) (s : State) : State := if irq then busIrqVia x s else s

end Sys2Proof.Machine
end

