-- ==== Sys2Proof/Machine/Devices.lean ====
section
/-! DEFINITION. The other bus components: work RAM (spec/20_memory.md R105), the controllers
(spec/48_external.md R660-R662), the DMA trigger (spec/42_cpu_engine.md R340) and the sound generator's window
(spec/48_external.md R670). -/

namespace Sys2Proof.Machine

/-- The work RAM cell behind a bus address (R105). DESIGN CHOICE: attached over an address outside 0x0000-0x1FFF, of which
R105 says nothing, work RAM takes the low 11 bits of it too (log 37). -/
def ramCell (a : Addr) : Nat := (a &&& 0x07FF).toNat

/-- Work RAM `read(a)` (R105). -/
def ramRead (a : Addr) (s : State) : Byte × State := (s.ram.read (ramCell a), s)

/-- Work RAM `write(a, v)` (R105). -/
def ramWrite (a : Addr) (v : Byte) (s : State) : State := s.setRam (s.ram.write (ramCell a) v)

/-- One bit shifted out of a port, 1s shifted in (R661). -/
def shiftOut (b : Byte) : Byte := (b >>> 1) ||| 0x80

/-- The controllers' `read(a)` (R661): bit 0 of the port, bits 7:1 are 0. With the strobe held, always the first
button. An address that is neither port is open (log 19). -/
def padsRead (a : Addr) (s : State) : Byte × State :=
  let c := s.pads
  if a = 0x4016 then
    if c.strobe then (c.buttons0 &&& 1, s)
    else (c.shift0 &&& 1, s.mapPads fun c => { c with shift0 := shiftOut c.shift0 })
  else if a = 0x4017 then
    if c.strobe then (c.buttons1 &&& 1, s)
    else (c.shift1 &&& 1, s.mapPads fun c => { c with shift1 := shiftOut c.shift1 })
  else ((Config.strayPadBit a).setWidth 8, s)

/-- The controllers' `write(a, d)` (R661): only 0x4016 is taken; it latches the buttons. -/
def padsWrite (a : Addr) (d : Byte) (s : State) : State :=
  if a = 0x4016 then
    s.mapPads fun c => { c with strobe := bitAt d 0, shift0 := c.buttons0, shift1 := c.buttons1 }
  else s

/-- The DMA trigger's `write(addr, v)` (R340): a later write before the start replaces the page. -/
def dmaWrite (v : Byte) (s : State) : State :=
  match s.dma with
  | .active _ _ _ => s
  | .idle | .requested _ => s.setDma (.requested v)

/-- The sound generator's next state, and its call of `Bus.IRQ()` if it makes one (R670). -/
def setSoundVia (x : ExtRun) (st : Nat) (irq : Bool) (s : State) : State := signalIrqVia x irq (s.setSound st)

/-- What a call of the sound generator leaves behind (R670). -/
def afterSoundVia (x : ExtRun) (r : Config.ExtReply) (s : State) : State := setSoundVia x r.st r.irq s

/-- The sound generator's `read(a)` (R670; log 9). -/
def soundReadVia (x : ExtRun) (a : Addr) (s : State) : Byte × State :=
  let r := Config.soundRead s.sound a
  (r.value, afterSoundVia x r s)

/-- The sound generator's `write(a, v)` (R670; log 9). -/
def soundWriteVia (x : ExtRun) (a : Addr) (v : Byte) (s : State) : State := afterSoundVia x (Config.soundWrite s.sound a v) s

/-- The sound generator's `reset()`: its own, which may call `Bus.IRQ()` (R254, R670, R752; log 9). -/
def soundResetVia (x : ExtRun) (s : State) : State :=
  setSoundVia x (Config.soundReset s.sound).st (Config.soundReset s.sound).irq s

end Sys2Proof.Machine
end

