-- ==== Sys2Proof/Machine/Cartridge.lean ====
section
/-! DEFINITION. The cartridge component and the mapper contract (spec/48_external.md R650-R652). A flat mapper is
a fixed list of windows; any other mapper is a number whose contract functions are uninterpreted (log 8). -/

namespace Sys2Proof.Machine

/-- The reply of a flat mapper: the first window that holds the address translates it (R650's example). -/
def windowReply (st : Nat) : List Window → Nat → Config.MapReply
  | [], _ => ⟨false, 0, none, false, st, false⟩
  | w :: rest, a =>
    if w.lo ≤ a ∧ a ≤ w.hi then ⟨true, w.base + (a - w.lo), none, w.ram, st, false⟩
    else windowReply st rest a

/-- `MapCPUAddressRead(a)` (R650). -/
def Cart.mapCpuRead (c : Cart) (a : Addr) : Config.MapReply :=
  match c.mapper with
  | .flat cpu _ _ => windowReply c.st cpu a.toNat
  | .external id => Config.mapCpuRead id c.st a

/-- `MapCPUAddressWrite(a, v)` (R650). -/
def Cart.mapCpuWrite (c : Cart) (a : Addr) (v : Byte) : Config.MapReply :=
  match c.mapper with
  | .flat cpu _ _ => windowReply c.st cpu a.toNat
  | .external id => Config.mapCpuWrite id c.st a v

/-- `MapPPUAddressRead(a)` (R651). -/
def Cart.mapPpuRead (c : Cart) (a : PpuAddr) : Config.MapReply :=
  match c.mapper with
  | .flat _ ppu _ => windowReply c.st ppu a.toNat
  | .external id => Config.mapPpuRead id c.st a

/-- `MapPPUAddressWrite(a)` (R651). -/
def Cart.mapPpuWrite (c : Cart) (a : PpuAddr) : Config.MapReply :=
  match c.mapper with
  | .flat _ ppu _ => windowReply c.st ppu a.toNat
  | .external id => Config.mapPpuWrite id c.st a

/-- The mirroring mode, read from the mapper at every nametable access (R622, R652). -/
def Cart.mirroring (c : Cart) : Config.Mirroring :=
  match c.mapper with
  | .flat _ _ m => m
  | .external id => Config.mapMirroring id c.st

/-- The mapper's next state, and its call of `Bus.IRQ()` if it makes one (R650). -/
def setMapperVia (x : ExtRun) (st : Nat) (irq : Bool) (s : State) : State :=
  signalIrqVia x irq (s.mapCart fun c => { c with st := st })

/-- What a contract call leaves behind (R650). -/
def afterMapperVia (x : ExtRun) (r : Config.MapReply) (s : State) : State := setMapperVia x r.st r.irq s

/-- The cartridge's `reset()`: the mapper's own, which may call `Bus.IRQ()`; ROM and RAM keep their contents (R650,
R752). -/
def cartResetVia (x : ExtRun) (s : State) : State :=
  match s.cart.mapper with
  | .flat _ _ _ => s
  | .external id => setMapperVia x (Config.mapReset id s.cart.st).st (Config.mapReset id s.cart.st).irq s

/-- The cartridge's `read(a)` (R650): 0 when refused, a mapper register's data, or the memory byte. -/
def cartReadVia (x : ExtRun) (a : Addr) (s : State) : Byte × State :=
  let r := s.cart.mapCpuRead a
  let v := if r.accepted then r.data.getD (s.cart.prg.read r.offset) else 0
  (v, afterMapperVia x r s)

/-- The cartridge's `write(a, v)` (R650): a write lands in memory only at an offset of cartridge RAM. -/
def cartWriteVia (x : ExtRun) (a : Addr) (v : Byte) (s : State) : State :=
  let r := s.cart.mapCpuWrite a v
  let s := if r.accepted && r.ram then s.mapCart fun c => { c with prg := c.prg.write r.offset v } else s
  afterMapperVia x r s

/-- `ppu_read(a)` (R651): 0 when refused, else the CHR byte at the translated offset. DESIGN CHOICE: after
`RemoveComponent(cart)` the picture generator still reads the detached cartridge, mapper and mirroring mode (log 36). -/
def patternReadVia (x : ExtRun) (a : PpuAddr) (s : State) : Byte × State :=
  let r := s.cart.mapPpuRead a
  let v := if r.accepted then s.cart.chr.read r.offset else 0
  (v, afterMapperVia x r s)

/-- `ppu_write(a, v)` (R651). -/
def patternWriteVia (x : ExtRun) (a : PpuAddr) (v : Byte) (s : State) : State :=
  let r := s.cart.mapPpuWrite a
  let s := if r.accepted && r.ram then s.mapCart fun c => { c with chr := c.chr.write r.offset v } else s
  afterMapperVia x r s

end Sys2Proof.Machine
end

