-- ==== Sys2Proof/Machine/PpuMemory.lean ====
section
/-! DEFINITION. The picture generator's address space: pattern memory through the mapper, nametable RAM through
the mirroring mode, palette RAM (spec/47_ppu_registers.md R620-R623). -/

namespace Sys2Proof.Machine

/-- The physical nametable of logical nametable `n` (R622). -/
def physicalTable (m : Config.Mirroring) (n : Nat) : Nat :=
  match m, n with
  | .horizontal, 0 => 0
  | .horizontal, 1 => 0
  | .horizontal, _ => 1
  | .vertical, 0 => 0
  | .vertical, 1 => 1
  | .vertical, 2 => 0
  | .vertical, _ => 1
  | .single0, _ => 0
  | .single1, _ => 1
  | .fourScreen, n => n % 4

/-- The index into `vram` of a nametable address (R622). -/
def nametableIndex (m : Config.Mirroring) (a : PpuAddr) : Nat :=
  let a' := (a.toNat - 0x2000) % 0x1000
  physicalTable m (a' / 0x400) * 0x400 + a' % 0x400

/-- The palette entry of a palette address, with the four mirrored entries (R623). -/
def paletteIndex (a : PpuAddr) : Nat :=
  let i := a.toNat % 0x20
  if i = 0x10 ∨ i = 0x14 ∨ i = 0x18 ∨ i = 0x1C then i - 0x10 else i

/-- `PaletteRead(a)`, a 6-bit entry (R623). -/
def paletteRead (a : PpuAddr) (p : Ppu) : BitVec 6 := p.mem.palette.read (paletteIndex a)

/-- `PaletteWrite(a, v)`: the low 6 bits are stored (R623). -/
def paletteWrite (a : PpuAddr) (v : Byte) (p : Ppu) : Ppu :=
  p.mapMem fun m => { m with palette := m.palette.write (paletteIndex a) (v.setWidth 6) }

/-- `PpuRead(a)` (R620): only a pattern access can have an effect, the mapper's own. -/
def ppuReadVia (x : ExtRun) (a : PpuAddr) (s : State) : Byte × State :=
  if a.toNat < 0x2000 then patternReadVia x a s
  else if a.toNat < 0x3F00 then (s.ppu.mem.vram.read (nametableIndex s.cart.mirroring a), s)
  else ((paletteRead a s.ppu).setWidth 8, s)

/-- `PpuWrite(a, v)` (R620). -/
def ppuWriteVia (x : ExtRun) (a : PpuAddr) (v : Byte) (s : State) : State :=
  if a.toNat < 0x2000 then patternWriteVia x a v s
  else if a.toNat < 0x3F00 then
    s.mapPpu (Ppu.mapMem fun m => { m with vram := m.vram.write (nametableIndex s.cart.mirroring a) v })
  else s.mapPpu (paletteWrite a v)

end Sys2Proof.Machine
end

