-- ==== Sys2Proof/Machine/PpuPorts.lean ====
section
/-! DEFINITION. The picture generator's registers as the bus sees them (spec/47_ppu_registers.md R600-R613,
R624) and its `reset()` (spec/70_reset_and_hazards.md R752). -/

namespace Sys2Proof.Machine

/-- `ctrl[7]`, the NMI enable (R601). -/
def Ppu.nmiEnabled (p : Ppu) : Bool := bitAt p.regs.ctrl 7

/-- "Rendering enabled": `mask[3]` or `mask[4]` (R602). -/
def Ppu.rendering (p : Ppu) : Bool := bitAt p.regs.mask 3 || bitAt p.regs.mask 4

/-- `io_latch <- r` (R612). -/
def Ppu.setLatch (r : Byte) (p : Ppu) : Ppu := p.mapPort fun q => { q with ioLatch := r }

/-- The status byte a read of PPUSTATUS returns (R603). -/
def Ppu.statusByte (p : Ppu) : Byte :=
  BitVec.ofBool p.regs.vblank ++ BitVec.ofBool p.regs.sprite0Hit ++ BitVec.ofBool p.regs.spriteOverflow ++
    p.port.ioLatch.extractLsb' 0 5

/-- A change of `v` alone. -/
def Ppu.moveV (f : Scroll → Scroll) (p : Ppu) : Ppu := p.mapScr fun q => { q with v := f q.v }

/-- The data-port step of `v` (R624). -/
def Ppu.stepV (p : Ppu) : Ppu := p.moveV (· + (if bitAt p.regs.ctrl 2 then 32 else 1))

/-- The PPU address `v & 0x3FFF` (R608). -/
def Ppu.portAddr (p : Ppu) : PpuAddr := p.scr.v.setWidth 14

/-- PPUCTRL write (R601). -/
def Ppu.writeCtrl (d : Byte) (p : Ppu) : Ppu :=
  (p.mapRegs fun q => { q with ctrl := d }).mapScr fun q =>
    { q with t := (q.t &&& 0x73FF) ||| ((d &&& 0x03).setWidth 15 <<< 10) }

/-- PPUMASK write (R602). -/
def Ppu.writeMask (d : Byte) (p : Ppu) : Ppu := p.mapRegs fun q => { q with mask := d }

/-- OAMADDR write (R604). -/
def Ppu.writeOamAddr (d : Byte) (p : Ppu) : Ppu := p.mapRegs fun q => { q with oamaddr := d }

/-- The byte OAMDATA reads: the attribute bytes have no bits 4:2 (R605). -/
def Ppu.oamByte (p : Ppu) : Byte :=
  let b := p.spr.oam.read p.regs.oamaddr.toNat
  if p.regs.oamaddr &&& 3 = 2 then b &&& 0xE3 else b

/-- OAMDATA write (R605). -/
def Ppu.writeOam (d : Byte) (p : Ppu) : Ppu :=
  (p.mapSpr fun q => { q with oam := q.oam.write p.regs.oamaddr.toNat d }).mapRegs fun q =>
    { q with oamaddr := q.oamaddr + 1 }

/-- PPUSCROLL write (R606). -/
def Ppu.writeScroll (d : Byte) (p : Ppu) : Ppu :=
  p.mapScr fun q =>
    if q.w then
      { q with t := (q.t &&& 0x0C1F) ||| ((d &&& 7).setWidth 15 <<< 12) ||| ((d >>> 3).setWidth 15 <<< 5), w := false }
    else
      { q with t := (q.t &&& 0x7FE0) ||| (d >>> 3).setWidth 15, fineX := (d &&& 7).setWidth 3, w := true }

/-- PPUADDR write (R607). -/
def Ppu.writeAddr (d : Byte) (p : Ppu) : Ppu :=
  p.mapScr fun q =>
    if q.w then
      let t := (q.t &&& 0x7F00) ||| d.setWidth 15
      { q with t := t, v := t, w := false }
    else
      { q with t := (q.t &&& 0x00FF) ||| ((d &&& 0x3F).setWidth 15 <<< 8), w := true }

/-- What a PPUSTATUS read clears (R603). -/
def Ppu.clearStatus (p : Ppu) : Ppu :=
  (p.mapRegs fun q => { q with vblank := false }).mapScr fun q => { q with w := false }

/-- PPUSTATUS read (R603): the flags and the low latch bits; clears `vblank` and `w`. -/
def readStatus (s : State) : Byte × State :=
  let r := s.ppu.statusByte
  (r, s.mapPpu fun p => p.clearStatus.setLatch r)

/-- OAMDATA read (R605, R612). -/
def readOam (s : State) : Byte × State :=
  let r := s.ppu.oamByte
  (r, s.mapPpu (Ppu.setLatch r))

/-- The byte a PPUDATA read returns (R609): the buffer below the palette, the palette entry in it. -/
def Ppu.dataByte (p : Ppu) : Byte :=
  if p.portAddr.toNat < 0x3F00 then p.port.readBuffer
  else (p.port.ioLatch &&& 0xC0) ||| (paletteRead p.portAddr p).setWidth 8

/-- The address a PPUDATA read loads the buffer from (R609): in the palette, the nametable byte under it. -/
def Ppu.bufferAddr (p : Ppu) : PpuAddr := if p.portAddr.toNat < 0x3F00 then p.portAddr else p.portAddr - 0x1000

/-- PPUDATA read (R609): delayed by one below the palette, immediate in the palette. -/
def readDataVia (x : ExtRun) (s : State) : Byte × State :=
  let r := s.ppu.dataByte
  let f := ppuReadVia x s.ppu.bufferAddr s
  (r, f.2.mapPpu fun p => (p.mapPort fun _ => ⟨f.1, r⟩).stepV)

/-- PPUDATA write (R608). -/
def writeDataVia (x : ExtRun) (d : Byte) (s : State) : State := (ppuWriteVia x s.ppu.portAddr d s).mapPpu Ppu.stepV

/-- The PPU component's `read(addr)`: the register is `addr & 7` (R600); a write-only register reads as the I/O
latch and nothing changes (R611). -/
def ppuPortReadVia (x : ExtRun) (a : Addr) (s : State) : Byte × State :=
  match a.toNat % 8 with
  | 2 => readStatus s
  | 4 => readOam s
  | 7 => readDataVia x s
  | _ => (s.ppu.port.ioLatch, s)

/-- PPUCTRL write with `NMI_ON_ENABLE` (R601, R613). -/
def writeControlVia (x : ExtRun) (d : Byte) (s : State) : State :=
  let raise := s.params.nmiOnEnable && bitAt d 7 && !s.ppu.nmiEnabled && s.ppu.regs.vblank
  let s := s.mapPpu (Ppu.writeCtrl d)
  if raise then busNmiVia x s else s

/-- The PPU component's `write(addr, d)`: the latch first (R612), then the register's own effect (R600). A write
of PPUSTATUS changes only the latch (R610). -/
def ppuPortWriteVia (x : ExtRun) (a : Addr) (d : Byte) (s : State) : State :=
  let s := s.mapPpu (Ppu.setLatch d)
  match a.toNat % 8 with
  | 0 => writeControlVia x d s
  | 1 => s.mapPpu (Ppu.writeMask d)
  | 3 => s.mapPpu (Ppu.writeOamAddr d)
  | 4 => s.mapPpu (Ppu.writeOam d)
  | 5 => s.mapPpu (Ppu.writeScroll d)
  | 6 => s.mapPpu (Ppu.writeAddr d)
  | 7 => writeDataVia x d s
  | _ => s

/-- The PPU's `reset()`: registers and pipeline state go to their power-on values; `vram`, `palette`, `oam`,
`oam2`, the framebuffers and `back` stay (R752). -/
def Ppu.reset (p : Ppu) : Ppu :=
  { Ppu.powerOn with
    spr := { Ppu.powerOn.spr with oam := p.spr.oam, oam2 := p.spr.oam2 }
    mem := p.mem
    out := p.out }

end Sys2Proof.Machine
end

