-- ==== Sys2Proof/Machine/Bus.lean ====
section
/-! DEFINITION. The bus: attach, detach, read, write, reset (spec/41_bus.md R250-R259). A write reaches every
writable match in attachment order, a read the first readable match, no match reads 0. -/

namespace Sys2Proof.Machine

/-- The entry's range holds the address; the empty range holds none (R252, R253). -/
def BusEntry.covers (e : BusEntry) (a : Addr) : Bool :=
  match e.range with
  | none => false
  | some (lo, hi) => lo ≤ a && a ≤ hi

/-- A component's `read(addr)` (R254). -/
def componentReadVia (x : ExtRun) (c : Component) (a : Addr) (s : State) : Byte × State :=
  match c with
  | .ram => ramRead a s
  | .ppu => ppuPortReadVia x a s
  | .pads => padsRead a s
  | .sound => soundReadVia x a s
  | .cart => cartReadVia x a s
  | .ext id _ => x id (.read a) s
  | .cpu | .dma => (0, s)

/-- A component's `write(addr, v)` (R254). -/
def componentWriteVia (x : ExtRun) (c : Component) (a : Addr) (v : Byte) (s : State) : State :=
  match c with
  | .ram => ramWrite a v s
  | .ppu => ppuPortWriteVia x a v s
  | .pads => padsWrite a v s
  | .dma => dmaWrite v s
  | .sound => soundWriteVia x a v s
  | .cart => cartWriteVia x a v s
  | .ext id _ => (x id (.write a v) s).2
  | .cpu => s

/-- A component's `reset()` (R752): the CPU's sets `reset_pending`, work RAM's does nothing. -/
def componentResetVia (x : ExtRun) (c : Component) (s : State) : State :=
  match c with
  | .cpu => s.mapPend fun l => { l with reset := true }
  | .ram => s
  | .ppu => s.mapPpu Ppu.reset
  | .pads => s.mapPads fun _ => Pads.powerOn
  | .dma => s.setDma .idle
  | .sound => soundResetVia x s
  | .cart => cartResetVia x s
  | .ext id _ => (x id .reset s).2

/-- The first component, in table order, that covers the address and has the capability. -/
def firstMatch (cap : Caps → Bool) (a : Addr) : List BusEntry → Option Component
  | [] => none
  | e :: rest => if e.covers a && cap e.component.caps then some e.component else firstMatch cap a rest

/-- `ReadData(addr)` (R253). -/
def busReadVia (x : ExtRun) (a : Addr) (s : State) : Byte × State :=
  match firstMatch (·.readable) a s.bus with
  | some c => componentReadVia x c a s
  | none => (0, s)

/-- Call every writable match of a table, in order (R252). -/
def writeMatchesVia (x : ExtRun) (a : Addr) (v : Byte) : List BusEntry → State → State
  | [], s => s
  | e :: rest, s =>
    writeMatchesVia x a v rest
      (if e.covers a && e.component.caps.writable then componentWriteVia x e.component a v s else s)

/-- `WriteData(addr, v)` (R252). -/
def busWriteVia (x : ExtRun) (a : Addr) (v : Byte) (s : State) : State := writeMatchesVia x a v s.bus s

/-- Reset each resettable component once, at its first entry (R257); `seen` are those met already. -/
def resetMatchesVia (x : ExtRun) (seen : List Component) : List BusEntry → State → State
  | [], s => s
  | e :: rest, s =>
    if seen.contains e.component then resetMatchesVia x seen rest s
    else resetMatchesVia x (e.component :: seen) rest
      (if e.component.caps.resettable then componentResetVia x e.component s else s)

/-- `Reset()` (R257, R752). -/
def busResetVia (x : ExtRun) (s : State) : State := resetMatchesVia x [] s.bus s

/-! ### The code of external components (R254; log 10) -/

/-- The picture generator's ports are out of reach: outside the CPU's step (`cpu` false) where R58's table of writers goes
before R252 to R254 (log 38). -/
def portsShut (cpu : Bool) (s : State) : Bool := !cpu && s.params.portLaw == .cpuStep

/-- A bus read by an external component's code (R253). Where the ports are out of reach, a read that they answer gives
their byte and changes nothing. -/
def codeReadVia (cpu : Bool) (x : ExtRun) (a : Addr) (s : State) : Byte × State :=
  let r := busReadVia x a s
  if portsShut cpu s && firstMatch (·.readable) a s.bus == some .ppu then (r.1, s) else r

/-- A bus write by an external component's code (R252). Where the ports are out of reach, it reaches every other writable
match. -/
def codeWriteVia (cpu : Bool) (x : ExtRun) (a : Addr) (v : Byte) (s : State) : State :=
  writeMatchesVia x a v (if portsShut cpu s then s.bus.filter fun e => e.component != .ppu else s.bus) s

/-- A call of a function of component `id`, turn by turn: at each the component's own state moves on, and the code
returns or calls the bus, whose own calls of external components run the same way. `cpu` says whether the call is part
of the CPU's step, `n` bounds the turns. -/
def extLoop (cpu : Bool) : (n : Nat) → (id : Nat) → Config.ExtCall → (turn : Nat) → (seen : Byte) → State → Byte × State
  | 0, _, _, _, _, s => (0, s)
  | n + 1, id, call, turn, seen, s =>
    let t := Config.extTurn id call turn seen s.ext
    let s := s.setExt t.st
    let x : ExtRun := fun id call s => extLoop cpu n id call 0 0 s
    match t.move with
    | .ret v => (v, s)
    | .read a =>
      let r := codeReadVia cpu x a s
      extLoop cpu n id call (turn + 1) r.1 r.2
    | .write a v => extLoop cpu n id call (turn + 1) seen (codeWriteVia cpu x a v s)
    | .irq => extLoop cpu n id call (turn + 1) seen (busIrqVia x s)
    | .nmi => extLoop cpu n id call (turn + 1) seen (busNmiVia x s)
    | .reset => extLoop cpu n id call (turn + 1) seen (busResetVia x s)

/-- A call of a function of an external component in the CPU's step. -/
def extRun : ExtRun := fun id call s => extLoop true Config.extBudget id call 0 0 s

/-- A call of a function of an external component in any other step: a dot, a tick of the sound generator or a host
operation. -/
def quietRun : ExtRun := fun id call s => extLoop false Config.extBudget id call 0 0 s

/-! ### The bus in the CPU's step -/

/-- A component's `read(addr)` (R254). -/
def componentRead (c : Component) (a : Addr) (s : State) : Byte × State := componentReadVia extRun c a s

/-- A component's `write(addr, v)` (R254). -/
def componentWrite (c : Component) (a : Addr) (v : Byte) (s : State) : State := componentWriteVia extRun c a v s

/-- `ReadData(addr)` (R253). -/
def busRead (a : Addr) (s : State) : Byte × State := busReadVia extRun a s

/-- `WriteData(addr, v)` (R252). -/
def busWrite (a : Addr) (v : Byte) (s : State) : State := busWriteVia extRun a v s

/-- `PpuRead(a)` by the data port (R609, R620). -/
def ppuRead (a : PpuAddr) (s : State) : Byte × State := ppuReadVia extRun a s

/-- `PpuWrite(a, v)` by the data port (R608, R620). -/
def ppuWrite (a : PpuAddr) (v : Byte) (s : State) : State := ppuWriteVia extRun a v s

/-! ### The bus in the other steps -/

/-- A component's `reset()` (R752). -/
def componentReset (c : Component) (s : State) : State := componentResetVia quietRun c s

/-- `Reset()` (R257, R752). -/
def busReset (s : State) : State := busResetVia quietRun s

/-- `Bus.IRQ()` (R255). -/
def busIrq (s : State) : State := busIrqVia quietRun s

/-- `Bus.NMI()` (R256). -/
def busNmi (s : State) : State := busNmiVia quietRun s

/-- A fetch of the picture generator in its own step (R505, R620). -/
def ppuFetch (a : PpuAddr) (s : State) : Byte × State := ppuReadVia quietRun a s

/-! ### Attaching and detaching -/

/-- `AddComponent(c, range)`: `none` stands for the fault `InvalidRange` (R250). -/
def addComponent (c : Component) (range : Option (Addr × Addr)) (s : State) : Option State :=
  match range with
  | some (lo, hi) => if hi < lo then none else some (s.setBus (s.bus ++ [⟨range, c⟩]))
  | none => some (s.setBus (s.bus ++ [⟨range, c⟩]))

/-- `RemoveComponent(c)`: every entry of the component goes (R251). The table is all that changes. DESIGN CHOICE: a
detached cartridge still serves the picture generator's pattern accesses and its mirroring mode (log 36). -/
def removeComponent (c : Component) (s : State) : State := s.setBus (s.bus.filter fun e => e.component != c)

/-! ### Dummy accesses -/

/-- A dummy read: its value is dropped, its side effects happen unless `DUMMY_ACCESSES = off` (R14). -/
def dummyRead (a : Addr) (s : State) : State := if s.params.dummyAccesses then (busRead a s).2 else s

/-- A dummy write (R14). -/
def dummyWrite (a : Addr) (v : Byte) (s : State) : State := if s.params.dummyAccesses then busWrite a v s else s

end Sys2Proof.Machine
end

