-- ==== Sys2Proof/Machine/Flags.lean ====
section
/-! DEFINITION. The status register's bits and every flag computation (spec/10_state.md R41, R42;
spec/43_cpu_load_store.md R350; spec/44_cpu_alu.md R400-R419). -/

namespace Sys2Proof.Machine

/-- The flags of P with their bit numbers (R41). -/
inductive Flag where
  | c | z | i | d | b | u | v | n
  deriving DecidableEq, Repr

/-- The bit number of a flag (R41). -/
def Flag.bit : Flag → Nat
  | .c => 0 | .z => 1 | .i => 2 | .d => 3 | .b => 4 | .u => 5 | .v => 6 | .n => 7

/-- The byte with only the flag's bit set. -/
def Flag.mask (f : Flag) : Byte := 1 <<< f.bit

/-- Read one flag of a status byte (R41). -/
def flag (f : Flag) (p : Byte) : Bool := bitAt p f.bit

/-- Write one flag of a status byte, the other bits kept (R41). -/
def putFlag (f : Flag) (b : Bool) (p : Byte) : Byte := if b then p ||| f.mask else p &&& ~~~f.mask

/-- Write one flag of P. -/
def Cpu.putFlag (f : Flag) (b : Bool) (c : Cpu) : Cpu := c.setP (Machine.putFlag f b c.p)

/-- `SetNZ(v)` (R350). -/
def Cpu.setNZ (v : Byte) (c : Cpu) : Cpu := (c.putFlag .z (v == 0)).putFlag .n (bitAt v 7)

/-- The status byte PHP and BRK push: B and U set (R42). -/
def pushedByInstr (p : Byte) : Byte := (p &&& 0xCF) ||| 0x30

/-- The status byte an interrupt pushes, B clear and U set; also what PLP and RTI load (R42). -/
def pushedByInterrupt (p : Byte) : Byte := (p &&& 0xCF) ||| 0x20

/-- The 9-bit sum `zext_9(A) + zext_9(M) + C` (R400, R401). -/
def sum9 (a m : Byte) (c : Bool) : BitVec 9 := a.setWidth 9 + m.setWidth 9 + (BitVec.ofBool c).setWidth 9

/-- The signed-overflow test on the 8-bit result `r` (R400). -/
def overflow (a m r : Byte) : Bool := bitAt ((a ^^^ r) &&& (m ^^^ r)) 7

/-- ADC's operation: C, V, A, then N and Z (R401). -/
def Cpu.addWithCarry (m : Byte) (c : Cpu) : Cpu :=
  let s := sum9 c.a m (flag .c c.p)
  let r : Byte := s.setWidth 8
  ((((c.putFlag .c (bitAt s 8)).putFlag .v (overflow c.a m r)).setA r).setNZ r)

/-- SBC's operation: ADC of the complement (R400, R402). -/
def Cpu.subWithBorrow (m : Byte) (c : Cpu) : Cpu := c.addWithCarry (m ^^^ 0xFF)

/-- The compare of register value `r` with `m`: C, then N and Z of the difference (R406). -/
def Cpu.compare (r m : Byte) (c : Cpu) : Cpu := (c.putFlag .c (decide (m ≤ r))).setNZ (r - m)

/-- BIT's operation (R409). -/
def Cpu.bitTest (m : Byte) (c : Cpu) : Cpu :=
  ((c.putFlag .z (c.a &&& m == 0)).putFlag .n (bitAt m 7)).putFlag .v (bitAt m 6)

/-- A result with its flags: N and Z from the result (R410-R415). -/
def Cpu.result (r : Byte) (c : Cpu) : Byte × Cpu := (r, c.setNZ r)

/-- A shift's result with its flags: C the bit shifted out, N and Z from the result (R416-R419). -/
def Cpu.shifted (out : Bool) (r : Byte) (c : Cpu) : Byte × Cpu := (r, (c.putFlag .c out).setNZ r)

end Sys2Proof.Machine
end

