-- ==== Sys2Proof/Machine/Ops.lean ====
section
/-! DEFINITION. The operations the tick tables are made of: ticks, operand fetch, the stack, taking an interrupt
and returning from one (spec/00_scope.md R12, R14; spec/42_cpu_engine.md R280-R284, R330, R335;
spec/45_cpu_control.md R454, R455). -/

namespace Sys2Proof.Machine

/-- How a tick ends: the instruction or sequence goes on with its latches, or it is done (R280). -/
inductive TickEnd where
  | more (lat : Lat) (s : State)
  | done (s : State)
  deriving DecidableEq, Repr

/-- One tick of a table: whether it is a write tick (R284), and what it does. -/
structure Tick where
  writes : Bool
  act    : Lat → State → TickEnd

/-- A tick table: for an instruction its ticks T2, T3, …; for a sequence T1, T2, …. -/
abbrev Table := List Tick

/-- Run entry `idx` of a table; a table that has no such entry is at its end. -/
def runTick (t : Table) (idx : Nat) (lat : Lat) (s : State) : TickEnd :=
  match t[idx]? with
  | some k => k.act lat s
  | none => .done s

/-- Entry `idx` of a table is a write tick (R284). -/
def tickWrites (t : Table) (idx : Nat) : Bool :=
  match t[idx]? with
  | some k => k.writes
  | none => false

/-- `BusRead(PC); PC <- PC + 1`: fetch one operand byte (R281). -/
def fetchByte (s : State) : Byte × State :=
  let r := busRead s.cpu.pc s
  (r.1, r.2.mapCpu Cpu.incPc)

/-- The stack address `0x0100 + S` (R12). -/
def stackAddr (s : State) : Addr := join 0x01 s.cpu.sp

/-- `Push(v)` (R12, R350). -/
def push (v : Byte) (s : State) : State := (busWrite (stackAddr s) v s).mapCpu Cpu.decSp

/-- The read half of a pull: `BusRead(0x0100 + S)` (R350). -/
def readStack (s : State) : Byte × State := busRead (stackAddr s) s

/-- The tick that opens a pull: `dummy BusRead(0x0100 + S); S <- (S + 1) & 0xFF` (R365). -/
def openPull (s : State) : State := (dummyRead (stackAddr s) s).mapCpu Cpu.incSp

/-- The tick `dummy BusRead(PC)`, PC not incremented (R291). -/
def idleRead : Tick := ⟨false, fun lat s => .more lat (dummyRead s.cpu.pc s)⟩

/-! ### Taking an interrupt (R330, R455, R713) -/

/-- Taking an interrupt, the five ticks that NMI, IRQ and BRK share: push PC high, push PC low, push the status
byte that `status` makes of P, then fetch the vector's low byte and set I, then its high byte into PC. The vector
address is in the latch `vec`. -/
def takeInterrupt (status : Byte → Byte) : Table :=
  [⟨true, fun lat s => .more lat (push (hiByte s.cpu.pc) s)⟩,
   ⟨true, fun lat s => .more lat (push (loByte s.cpu.pc) s)⟩,
   ⟨true, fun lat s => .more lat (push (status s.cpu.p) s)⟩,
   ⟨false, fun lat s =>
     let r := busRead lat.vec s
     .more { lat with lo := r.1 } (r.2.mapCpu (Cpu.putFlag .i true))⟩,
   ⟨false, fun lat s =>
     let r := busRead (lat.vec + 1) s
     .done (r.2.mapCpu (Cpu.setPc (join r.1 lat.lo)))⟩]

/-- Returning from an interrupt, ticks T3 to T6 of RTI: pull P, then PC low, then PC high (R454). -/
def returnFromInterrupt : Table :=
  [⟨false, fun lat s => .more lat (openPull s)⟩,
   ⟨false, fun lat s =>
     let r := readStack s
     .more lat (r.2.mapCpu fun c => (c.setP (pushedByInterrupt r.1)).incSp)⟩,
   ⟨false, fun lat s =>
     let r := readStack s
     .more { lat with lo := r.1 } (r.2.mapCpu Cpu.incSp)⟩,
   ⟨false, fun lat s =>
     let r := readStack s
     .done (r.2.mapCpu (Cpu.setPc (join r.1 lat.lo)))⟩]

/-- The vectors (R106). -/
def Sequence.vector : Sequence → Addr
  | .nmi => 0xFFFA
  | .reset => 0xFFFC
  | .irq => 0xFFFE

/-- BRK's vector, the IRQ one (R106, R455). -/
def brkVector : Addr := 0xFFFE

/-- The interrupt sequence's seven ticks (R330). -/
def interruptTable : Table := idleRead :: idleRead :: takeInterrupt pushedByInterrupt

/-- T1 of the reset sequence: the register values and the three latches (R335). -/
def resetRegisters (s : State) : State :=
  (s.mapCpu fun c => { c with a := 0, x := 0, y := 0, sp := 0xFD, p := 0x24 }).mapPend fun _ => ⟨false, false, false⟩

/-- A tick with no bus access and no effect (R335). -/
def emptyTick : Tick := ⟨false, fun lat s => .more lat s⟩

/-- The reset sequence's eight ticks (R335). -/
def resetTable : Table :=
  [⟨false, fun lat s => .more lat (resetRegisters s)⟩,
   emptyTick, emptyTick, emptyTick, emptyTick, emptyTick,
   ⟨false, fun lat s =>
     let r := busRead lat.vec s
     .more { lat with lo := r.1 } r.2⟩,
   ⟨false, fun lat s =>
     let r := busRead (lat.vec + 1) s
     .done (r.2.mapCpu (Cpu.setPc (join r.1 lat.lo)))⟩]

/-- The table of a sequence. -/
def Sequence.table : Sequence → Table
  | .reset => resetTable
  | .nmi | .irq => interruptTable

end Sys2Proof.Machine
end

