-- ==== Sys2Proof/Machine/Operands.lean ====
section
/-! DEFINITION. The tick tables of the addressing modes, by form: read, write, read-modify-write, implied and
accumulator, and branch (spec/42_cpu_engine.md R283, R290-R300). A mode that a form does not have gets the empty
table. -/

namespace Sys2Proof.Machine

/-- The operation of a read-form instruction: what the operand byte does to the processor (R283). -/
abbrev ReadOp := Byte → Cpu → Cpu

/-- The operation of a read-modify-write instruction: the new byte and the flags (R283). -/
abbrev ModOp := Byte → Cpu → Byte × Cpu

/-- The index register a mode names (R151); 0 for a mode without one. -/
def indexOf (m : Mode) (c : Cpu) : Byte :=
  match m with
  | .zpx | .absx | .indx => c.x
  | .zpy | .absy | .indy => c.y
  | .imp | .acc | .imm | .zp | .abs | .ind | .rel => 0

/-- The latches after indexing a base address: `ea`, `crossed` (R290). The base's high byte stays in `hi`. -/
def Lat.indexed (base : Addr) (i : Byte) (lat : Lat) : Lat :=
  let ea := base + zext i
  { lat with hi := hiByte base, ea := ea, crossed := hiByte ea != hiByte base }

/-- The uncorrected address `base[15:8] : ea[7:0]` (R290). -/
def Lat.partialAddr (lat : Lat) : Addr := join lat.hi (loByte lat.ea)

/-! ### Address ticks -/

/-- `ea <- zext_16(BusRead(PC)); PC <- PC + 1` (R293). -/
def fetchZp : Tick := ⟨false, fun lat s =>
  let r := fetchByte s
  .more { lat with ea := zext r.1 } r.2⟩

/-- `ptr <- BusRead(PC); PC <- PC + 1` (R294, R297, R298). -/
def fetchPtr : Tick := ⟨false, fun lat s =>
  let r := fetchByte s
  .more { lat with ptr := r.1 } r.2⟩

/-- `dummy BusRead(ptr); ea <- (ptr + idx) & 0xFF` (R294). -/
def indexZp (m : Mode) : Tick := ⟨false, fun lat s =>
  let s := dummyRead (zext lat.ptr) s
  .more { lat with ea := zext (lat.ptr + indexOf m s.cpu) } s⟩

/-- `lo <- BusRead(PC); PC <- PC + 1` (R295). -/
def fetchLo : Tick := ⟨false, fun lat s =>
  let r := fetchByte s
  .more { lat with lo := r.1 } r.2⟩

/-- `hi <- BusRead(PC); PC <- PC + 1; ea <- hi:lo` (R295). -/
def fetchHi : Tick := ⟨false, fun lat s =>
  let r := fetchByte s
  .more { lat with hi := r.1, ea := join r.1 lat.lo } r.2⟩

/-- `hi <- BusRead(PC); PC <- PC + 1`, then index the base `hi:lo` (R296). -/
def fetchHiIndexed (m : Mode) : Tick := ⟨false, fun lat s =>
  let r := fetchByte s
  .more (lat.indexed (join r.1 lat.lo) (indexOf m r.2.cpu)) r.2⟩

/-- `dummy BusRead(ptr); ptr <- (ptr + X) & 0xFF` (R297). -/
def indexPtr : Tick := ⟨false, fun lat s =>
  let s := dummyRead (zext lat.ptr) s
  .more { lat with ptr := lat.ptr + s.cpu.x } s⟩

/-- `lo <- BusRead(ptr)` (R297, R298). -/
def pointerLo : Tick := ⟨false, fun lat s =>
  let r := busRead (zext lat.ptr) s
  .more { lat with lo := r.1 } r.2⟩

/-- `hi <- BusRead((ptr + 1) & 0xFF); ea <- hi:lo` (R297). -/
def pointerHi : Tick := ⟨false, fun lat s =>
  let r := busRead (zext (lat.ptr + 1)) s
  .more { lat with hi := r.1, ea := join r.1 lat.lo } r.2⟩

/-- `hi <- BusRead((ptr + 1) & 0xFF)`, then index the base `hi:lo` by Y (R298). -/
def pointerHiIndexed : Tick := ⟨false, fun lat s =>
  let r := busRead (zext (lat.ptr + 1)) s
  .more (lat.indexed (join r.1 lat.lo) r.2.cpu.y) r.2⟩

/-- `dummy BusRead(partial)`, the correction tick (R290). -/
def correct : Tick := ⟨false, fun lat s => .more lat (dummyRead lat.partialAddr s)⟩

/-! ### Data ticks -/

/-- Read the operand at `ea`, run the operation, done. -/
def readEa (op : ReadOp) (lat : Lat) (s : State) : TickEnd :=
  let r := busRead lat.ea s
  .done (r.2.mapCpu (op r.1))

/-- `data <- BusRead(ea); Op(data)`; done (R293). -/
def readOperand (op : ReadOp) : Tick := ⟨false, readEa op⟩

/-- The read tick of an indexed read: the correction read when the index crossed a page, else the operand (R296,
R298). -/
def readOrCorrect (op : ReadOp) : Tick := ⟨false, fun lat s =>
  if lat.crossed then .more lat (dummyRead lat.partialAddr s) else readEa op lat s⟩

/-- `BusWrite(ea, Val())`; done (R293). -/
def storeOperand (val : Cpu → Byte) : Tick := ⟨true, fun lat s => .done (busWrite lat.ea (val s.cpu) s)⟩

/-- `data <- BusRead(ea)` (R293). -/
def loadData : Tick := ⟨false, fun lat s =>
  let r := busRead lat.ea s
  .more { lat with data := r.1 } r.2⟩

/-- `dummy BusWrite(ea, data); data <- Mod(data)` (R293). -/
def modifyData (mod : ModOp) : Tick := ⟨true, fun lat s =>
  let s := dummyWrite lat.ea lat.data s
  let r := mod lat.data s.cpu
  .more { lat with data := r.1 } (s.mapCpu fun _ => r.2)⟩

/-- `BusWrite(ea, data)`; done (R293). -/
def storeData : Tick := ⟨true, fun lat s => .done (busWrite lat.ea lat.data s)⟩

/-- The data ticks of a read-modify-write instruction (R293-R296). -/
def rmwTicks (mod : ModOp) : Table := [loadData, modifyData mod, storeData]

/-! ### The forms -/

/-- The read form (R292-R298). -/
def readForm (m : Mode) (op : ReadOp) : Table :=
  match m with
  | .imm => [⟨false, fun _ s => let r := fetchByte s; .done (r.2.mapCpu (op r.1))⟩]
  | .zp => [fetchZp, readOperand op]
  | .zpx | .zpy => [fetchPtr, indexZp m, readOperand op]
  | .abs => [fetchLo, fetchHi, readOperand op]
  | .absx | .absy => [fetchLo, fetchHiIndexed m, readOrCorrect op, readOperand op]
  | .indx => [fetchPtr, indexPtr, pointerLo, pointerHi, readOperand op]
  | .indy => [fetchPtr, pointerLo, pointerHiIndexed, readOrCorrect op, readOperand op]
  | .imp | .acc | .ind | .rel => []

/-- The write form (R293-R298); indexed stores always take the correction tick (R162). -/
def writeForm (m : Mode) (val : Cpu → Byte) : Table :=
  match m with
  | .zp => [fetchZp, storeOperand val]
  | .zpx | .zpy => [fetchPtr, indexZp m, storeOperand val]
  | .abs => [fetchLo, fetchHi, storeOperand val]
  | .absx | .absy => [fetchLo, fetchHiIndexed m, correct, storeOperand val]
  | .indx => [fetchPtr, indexPtr, pointerLo, pointerHi, storeOperand val]
  | .indy => [fetchPtr, pointerLo, pointerHiIndexed, correct, storeOperand val]
  | .imp | .acc | .imm | .ind | .rel => []

/-- The accumulator form: `dummy BusRead(PC); A <- Mod(A)` (R291). -/
def accumulatorForm (mod : ModOp) : Table :=
  [⟨false, fun _ s =>
    .done ((dummyRead s.cpu.pc s).mapCpu fun c => let r := mod c.a c; r.2.setA r.1)⟩]

/-- The read-modify-write form with the accumulator form (R291, R293-R296); the indexed one always takes the
correction tick (R162). -/
def rmwForm (m : Mode) (mod : ModOp) : Table :=
  match m with
  | .acc => accumulatorForm mod
  | .zp => fetchZp :: rmwTicks mod
  | .zpx => fetchPtr :: indexZp m :: rmwTicks mod
  | .abs => fetchLo :: fetchHi :: rmwTicks mod
  | .absx => fetchLo :: fetchHiIndexed m :: correct :: rmwTicks mod
  | .imp | .imm | .zpy | .absy | .ind | .indx | .indy | .rel => []

/-- The implied form: `dummy BusRead(PC); Op()` (R291). -/
def impliedForm (op : Cpu → Cpu) : Table := [⟨false, fun _ s => .done ((dummyRead s.cpu.pc s).mapCpu op)⟩]

/-- The branch sequence (R299): not taken, taken in the page, taken across a page. -/
def branchForm (cond : Byte → Bool) : Table :=
  [⟨false, fun lat s =>
     let r := fetchByte s
     if cond r.2.cpu.p then .more { lat with off := r.1 } r.2 else .done r.2⟩,
   ⟨false, fun lat s =>
     let s := dummyRead s.cpu.pc s
     let ea := s.cpu.pc + sext lat.off
     if hiByte ea != hiByte s.cpu.pc then .more { lat with ea := ea, crossed := true } s
     else .done (s.mapCpu (Cpu.setPc ea))⟩,
   ⟨false, fun lat s =>
     .done ((dummyRead (join (hiByte s.cpu.pc) (loByte lat.ea)) s).mapCpu (Cpu.setPc lat.ea))⟩]

end Sys2Proof.Machine
end

