-- ==== Sys2Proof/WellFormed.lean ====
section
/-! DEFINITION. Which terms of Syntax an opcode byte stands for: the mnemonic index of spec/30_encoding.md R161
(a mnemonic at one of its modes) and the list of R163 (an unassigned slot). -/

namespace Sys2Proof

/-- The eight modes of the accumulator's read instructions (R161). -/
def readModes : List Mode := [.indx, .zp, .imm, .abs, .indy, .zpx, .absy, .absx]

/-- The four memory modes of the read-modify-write instructions (R161). -/
def rmwModes : List Mode := [.zp, .abs, .zpx, .absx]

/-- The 105 opcode bytes with no assigned instruction (R163), row by row. -/
def unassignedOpcodes : List Byte :=
  [0x02, 0x03, 0x04, 0x07, 0x0B, 0x0C, 0x0F] ++ [0x12, 0x13, 0x14, 0x17, 0x1A, 0x1B, 0x1C, 0x1F] ++
  [0x22, 0x23, 0x27, 0x2B, 0x2F] ++ [0x32, 0x33, 0x34, 0x37, 0x3A, 0x3B, 0x3C, 0x3F] ++
  [0x42, 0x43, 0x44, 0x47, 0x4B, 0x4F] ++ [0x52, 0x53, 0x54, 0x57, 0x5A, 0x5B, 0x5C, 0x5F] ++
  [0x62, 0x63, 0x64, 0x67, 0x6B, 0x6F] ++ [0x72, 0x73, 0x74, 0x77, 0x7A, 0x7B, 0x7C, 0x7F] ++
  [0x80, 0x82, 0x83, 0x87, 0x89, 0x8B, 0x8F] ++ [0x92, 0x93, 0x97, 0x9B, 0x9C, 0x9E, 0x9F] ++
  [0xA3, 0xA7, 0xAB, 0xAF] ++ [0xB2, 0xB3, 0xB7, 0xBB, 0xBF] ++
  [0xC2, 0xC3, 0xC7, 0xCB, 0xCF] ++ [0xD2, 0xD3, 0xD4, 0xD7, 0xDA, 0xDB, 0xDC, 0xDF] ++
  [0xE2, 0xE3, 0xE7, 0xEB, 0xEF] ++ [0xF2, 0xF3, 0xF4, 0xF7, 0xFA, 0xFB, 0xFC, 0xFF]

/-- The instruction is one that R161 or R163 lists. -/
def Instr.wf : Instr → Bool
  | .lda m | .adc m | .sbc m | .and m | .ora m | .eor m | .cmp m => readModes.contains m
  | .ldx m => [Mode.imm, .zp, .abs, .zpy, .absy].contains m
  | .ldy m => [Mode.imm, .zp, .abs, .zpx, .absx].contains m
  | .sta m => [Mode.indx, .zp, .abs, .indy, .zpx, .absy, .absx].contains m
  | .stx m => [Mode.zp, .abs, .zpy].contains m
  | .sty m => [Mode.zp, .abs, .zpx].contains m
  | .cpx m | .cpy m => [Mode.imm, .zp, .abs].contains m
  | .bit m => [Mode.zp, .abs].contains m
  | .inc m | .dec m => rmwModes.contains m
  | .asl m | .lsr m | .rol m | .ror m => m == .acc || rmwModes.contains m
  | .jmp m => [Mode.abs, .ind].contains m
  | .una op => unassignedOpcodes.contains op
  | .tax | .tay | .txa | .tya | .tsx | .txs | .pha | .php | .pla | .plp => true
  | .inx | .iny | .dex | .dey | .jsr | .rts | .rti | .brk => true
  | .bcc | .bcs | .beq | .bmi | .bne | .bpl | .bvc | .bvs => true
  | .clc | .sec | .cli | .sei | .clv | .cld | .sed | .nop => true

/-- Operand bytes that follow the opcode, by mode (R151). -/
def Mode.operandBytes : Mode → Nat
  | .imp | .acc => 0
  | .imm | .zp | .zpx | .zpy | .indx | .indy | .rel => 1
  | .abs | .absx | .absy | .ind => 2

/-- How many operand bytes an `Operand` holds. -/
def Operand.size : Operand → Nat
  | .none => 0
  | .one _ => 1
  | .two _ _ => 2

/-- A well-formed instruction with as many operand bytes as its mode has (R150, R151). Every operand byte is
legal (R164). -/
def Code.wf (c : Code) : Bool := c.instr.wf && c.operand.size == c.instr.mode.operandBytes

end Sys2Proof
end

