-- ==== Sys2Proof/Decode.lean ====
section
/-! DEFINITION. Decoding and encoding. The decoder is the opcode map of spec/30_encoding.md R160, total on the
opcode byte (R165); the encoder is written from the mnemonic index R161, so that their agreement says
something. Operand bytes follow the opcode, low byte first (R110, R151). -/

namespace Sys2Proof

/-- Row 0x of the map of R160. -/
def opcodeRow0 : List (Option Instr) :=
  [some .brk, some (.ora .indx), none, none,
   none, some (.ora .zp), some (.asl .zp), none,
   some .php, some (.ora .imm), some (.asl .acc), none,
   none, some (.ora .abs), some (.asl .abs), none]

/-- Row 1x of the map of R160. -/
def opcodeRow1 : List (Option Instr) :=
  [some .bpl, some (.ora .indy), none, none,
   none, some (.ora .zpx), some (.asl .zpx), none,
   some .clc, some (.ora .absy), none, none,
   none, some (.ora .absx), some (.asl .absx), none]

/-- Row 2x of the map of R160. -/
def opcodeRow2 : List (Option Instr) :=
  [some .jsr, some (.and .indx), none, none,
   some (.bit .zp), some (.and .zp), some (.rol .zp), none,
   some .plp, some (.and .imm), some (.rol .acc), none,
   some (.bit .abs), some (.and .abs), some (.rol .abs), none]

/-- Row 3x of the map of R160. -/
def opcodeRow3 : List (Option Instr) :=
  [some .bmi, some (.and .indy), none, none,
   none, some (.and .zpx), some (.rol .zpx), none,
   some .sec, some (.and .absy), none, none,
   none, some (.and .absx), some (.rol .absx), none]

/-- Row 4x of the map of R160. -/
def opcodeRow4 : List (Option Instr) :=
  [some .rti, some (.eor .indx), none, none,
   none, some (.eor .zp), some (.lsr .zp), none,
   some .pha, some (.eor .imm), some (.lsr .acc), none,
   some (.jmp .abs), some (.eor .abs), some (.lsr .abs), none]

/-- Row 5x of the map of R160. -/
def opcodeRow5 : List (Option Instr) :=
  [some .bvc, some (.eor .indy), none, none,
   none, some (.eor .zpx), some (.lsr .zpx), none,
   some .cli, some (.eor .absy), none, none,
   none, some (.eor .absx), some (.lsr .absx), none]

/-- Row 6x of the map of R160. -/
def opcodeRow6 : List (Option Instr) :=
  [some .rts, some (.adc .indx), none, none,
   none, some (.adc .zp), some (.ror .zp), none,
   some .pla, some (.adc .imm), some (.ror .acc), none,
   some (.jmp .ind), some (.adc .abs), some (.ror .abs), none]

/-- Row 7x of the map of R160. -/
def opcodeRow7 : List (Option Instr) :=
  [some .bvs, some (.adc .indy), none, none,
   none, some (.adc .zpx), some (.ror .zpx), none,
   some .sei, some (.adc .absy), none, none,
   none, some (.adc .absx), some (.ror .absx), none]

/-- Row 8x of the map of R160. -/
def opcodeRow8 : List (Option Instr) :=
  [none, some (.sta .indx), none, none,
   some (.sty .zp), some (.sta .zp), some (.stx .zp), none,
   some .dey, none, some .txa, none,
   some (.sty .abs), some (.sta .abs), some (.stx .abs), none]

/-- Row 9x of the map of R160. -/
def opcodeRow9 : List (Option Instr) :=
  [some .bcc, some (.sta .indy), none, none,
   some (.sty .zpx), some (.sta .zpx), some (.stx .zpy), none,
   some .tya, some (.sta .absy), some .txs, none,
   none, some (.sta .absx), none, none]

/-- Row Ax of the map of R160. -/
def opcodeRowA : List (Option Instr) :=
  [some (.ldy .imm), some (.lda .indx), some (.ldx .imm), none,
   some (.ldy .zp), some (.lda .zp), some (.ldx .zp), none,
   some .tay, some (.lda .imm), some .tax, none,
   some (.ldy .abs), some (.lda .abs), some (.ldx .abs), none]

/-- Row Bx of the map of R160. -/
def opcodeRowB : List (Option Instr) :=
  [some .bcs, some (.lda .indy), none, none,
   some (.ldy .zpx), some (.lda .zpx), some (.ldx .zpy), none,
   some .clv, some (.lda .absy), some .tsx, none,
   some (.ldy .absx), some (.lda .absx), some (.ldx .absy), none]

/-- Row Cx of the map of R160. -/
def opcodeRowC : List (Option Instr) :=
  [some (.cpy .imm), some (.cmp .indx), none, none,
   some (.cpy .zp), some (.cmp .zp), some (.dec .zp), none,
   some .iny, some (.cmp .imm), some .dex, none,
   some (.cpy .abs), some (.cmp .abs), some (.dec .abs), none]

/-- Row Dx of the map of R160. -/
def opcodeRowD : List (Option Instr) :=
  [some .bne, some (.cmp .indy), none, none,
   none, some (.cmp .zpx), some (.dec .zpx), none,
   some .cld, some (.cmp .absy), none, none,
   none, some (.cmp .absx), some (.dec .absx), none]

/-- Row Ex of the map of R160. -/
def opcodeRowE : List (Option Instr) :=
  [some (.cpx .imm), some (.sbc .indx), none, none,
   some (.cpx .zp), some (.sbc .zp), some (.inc .zp), none,
   some .inx, some (.sbc .imm), some .nop, none,
   some (.cpx .abs), some (.sbc .abs), some (.inc .abs), none]

/-- Row Fx of the map of R160. -/
def opcodeRowF : List (Option Instr) :=
  [some .beq, some (.sbc .indy), none, none,
   none, some (.sbc .zpx), some (.inc .zpx), none,
   some .sed, some (.sbc .absy), none, none,
   none, some (.sbc .absx), some (.inc .absx), none]

/-- The row of the map that a high nibble selects (R160). -/
def opcodeRow (hi : Nat) : List (Option Instr) :=
  match hi with
  | 0 => opcodeRow0
  | 1 => opcodeRow1
  | 2 => opcodeRow2
  | 3 => opcodeRow3
  | 4 => opcodeRow4
  | 5 => opcodeRow5
  | 6 => opcodeRow6
  | 7 => opcodeRow7
  | 8 => opcodeRow8
  | 9 => opcodeRow9
  | 10 => opcodeRowA
  | 11 => opcodeRowB
  | 12 => opcodeRowC
  | 13 => opcodeRowD
  | 14 => opcodeRowE
  | _ => opcodeRowF
/-- The descriptor of an opcode byte: the cell of the map, or the unassigned slot it is (R160, R163, R165). No
byte is rejected. -/
def decode (op : Byte) : Instr :=
  (((opcodeRow (op.toNat / 16))[op.toNat % 16]?).join).getD (.una op)

/-- The opcode byte of an instruction, from the index of R161 (for `una`, R163); `none` for a term no byte
stands for. -/
def encode : Instr → Option Byte
  | .lda m => [(.indx, 0xA1), (.zp, 0xA5), (.imm, 0xA9), (.abs, 0xAD), (.indy, 0xB1), (.zpx, 0xB5), (.absy, 0xB9), (.absx, 0xBD)].lookup m
  | .ldx m => [(.imm, 0xA2), (.zp, 0xA6), (.abs, 0xAE), (.zpy, 0xB6), (.absy, 0xBE)].lookup m
  | .ldy m => [(.imm, 0xA0), (.zp, 0xA4), (.abs, 0xAC), (.zpx, 0xB4), (.absx, 0xBC)].lookup m
  | .sta m => [(.indx, 0x81), (.zp, 0x85), (.abs, 0x8D), (.indy, 0x91), (.zpx, 0x95), (.absy, 0x99), (.absx, 0x9D)].lookup m
  | .stx m => [(.zp, 0x86), (.abs, 0x8E), (.zpy, 0x96)].lookup m
  | .sty m => [(.zp, 0x84), (.abs, 0x8C), (.zpx, 0x94)].lookup m
  | .tax => some 0xAA
  | .tay => some 0xA8
  | .txa => some 0x8A
  | .tya => some 0x98
  | .tsx => some 0xBA
  | .txs => some 0x9A
  | .pha => some 0x48
  | .php => some 0x08
  | .pla => some 0x68
  | .plp => some 0x28
  | .adc m => [(.indx, 0x61), (.zp, 0x65), (.imm, 0x69), (.abs, 0x6D), (.indy, 0x71), (.zpx, 0x75), (.absy, 0x79), (.absx, 0x7D)].lookup m
  | .sbc m => [(.indx, 0xE1), (.zp, 0xE5), (.imm, 0xE9), (.abs, 0xED), (.indy, 0xF1), (.zpx, 0xF5), (.absy, 0xF9), (.absx, 0xFD)].lookup m
  | .and m => [(.indx, 0x21), (.zp, 0x25), (.imm, 0x29), (.abs, 0x2D), (.indy, 0x31), (.zpx, 0x35), (.absy, 0x39), (.absx, 0x3D)].lookup m
  | .ora m => [(.indx, 0x01), (.zp, 0x05), (.imm, 0x09), (.abs, 0x0D), (.indy, 0x11), (.zpx, 0x15), (.absy, 0x19), (.absx, 0x1D)].lookup m
  | .eor m => [(.indx, 0x41), (.zp, 0x45), (.imm, 0x49), (.abs, 0x4D), (.indy, 0x51), (.zpx, 0x55), (.absy, 0x59), (.absx, 0x5D)].lookup m
  | .cmp m => [(.indx, 0xC1), (.zp, 0xC5), (.imm, 0xC9), (.abs, 0xCD), (.indy, 0xD1), (.zpx, 0xD5), (.absy, 0xD9), (.absx, 0xDD)].lookup m
  | .cpx m => [(.imm, 0xE0), (.zp, 0xE4), (.abs, 0xEC)].lookup m
  | .cpy m => [(.imm, 0xC0), (.zp, 0xC4), (.abs, 0xCC)].lookup m
  | .bit m => [(.zp, 0x24), (.abs, 0x2C)].lookup m
  | .inc m => [(.zp, 0xE6), (.abs, 0xEE), (.zpx, 0xF6), (.absx, 0xFE)].lookup m
  | .dec m => [(.zp, 0xC6), (.abs, 0xCE), (.zpx, 0xD6), (.absx, 0xDE)].lookup m
  | .inx => some 0xE8
  | .iny => some 0xC8
  | .dex => some 0xCA
  | .dey => some 0x88
  | .asl m => [(.zp, 0x06), (.acc, 0x0A), (.abs, 0x0E), (.zpx, 0x16), (.absx, 0x1E)].lookup m
  | .lsr m => [(.zp, 0x46), (.acc, 0x4A), (.abs, 0x4E), (.zpx, 0x56), (.absx, 0x5E)].lookup m
  | .rol m => [(.zp, 0x26), (.acc, 0x2A), (.abs, 0x2E), (.zpx, 0x36), (.absx, 0x3E)].lookup m
  | .ror m => [(.zp, 0x66), (.acc, 0x6A), (.abs, 0x6E), (.zpx, 0x76), (.absx, 0x7E)].lookup m
  | .jmp m => [(.abs, 0x4C), (.ind, 0x6C)].lookup m
  | .jsr => some 0x20
  | .rts => some 0x60
  | .rti => some 0x40
  | .brk => some 0x00
  | .bcc => some 0x90
  | .bcs => some 0xB0
  | .beq => some 0xF0
  | .bmi => some 0x30
  | .bne => some 0xD0
  | .bpl => some 0x10
  | .bvc => some 0x50
  | .bvs => some 0x70
  | .clc => some 0x18
  | .sec => some 0x38
  | .cli => some 0x58
  | .sei => some 0x78
  | .clv => some 0xB8
  | .cld => some 0xD8
  | .sed => some 0xF8
  | .nop => some 0xEA
  | .una op => if unassignedOpcodes.contains op then some op else none

/-- The opcode byte, 0 for an ill-formed term (only well-formed ones are ever started). -/
def opcodeOf (i : Instr) : Byte := (encode i).getD 0

/-- Length in bytes: the opcode and the mode's operand bytes (R150, R151). BRK's padding byte is not counted
(R154). -/
def Instr.length (i : Instr) : Nat := 1 + i.mode.operandBytes

/-- `assume_page_cross` (R162): the indexed stores and the indexed read-modify-writes. -/
def Instr.assumeCross : Instr → Bool
  | .sta m => m == .absx || m == .absy || m == .indy
  | .inc m | .dec m | .asl m | .lsr m | .rol m | .ror m => m == .absx
  | .lda _ | .ldx _ | .ldy _ | .stx _ | .sty _ | .adc _ | .sbc _ | .and _ | .ora _ | .eor _ => false
  | .cmp _ | .cpx _ | .cpy _ | .bit _ | .jmp _ | .una _ => false
  | .tax | .tay | .txa | .tya | .tsx | .txs | .pha | .php | .pla | .plp => false
  | .inx | .iny | .dex | .dey | .jsr | .rts | .rti | .brk => false
  | .bcc | .bcs | .beq | .bmi | .bne | .bpl | .bvc | .bvs => false
  | .clc | .sec | .cli | .sei | .clv | .cld | .sed | .nop => false

/-- Base ticks of a read-form instruction (R161, R292-R298). -/
def readTickCount : Mode → Nat
  | .imm => 2
  | .zp => 3
  | .zpx | .zpy | .abs | .absx | .absy => 4
  | .indy => 5
  | .indx => 6
  | .imp | .acc | .ind | .rel => 2

/-- Ticks of a write-form instruction (R161, R293-R298). -/
def writeTickCount : Mode → Nat
  | .zp => 3
  | .zpx | .zpy | .abs => 4
  | .absx | .absy => 5
  | .indx | .indy => 6
  | .imp | .acc | .imm | .ind | .rel => 2

/-- Ticks of a read-modify-write instruction, the accumulator form included (R161, R291-R296). -/
def rmwTickCount : Mode → Nat
  | .zp => 5
  | .zpx | .abs => 6
  | .absx => 7
  | .imp | .acc | .imm | .zpy | .absy | .ind | .indx | .indy | .rel => 2

/-- The base tick count of the index R161, T1 included. -/
def Instr.baseTicks : Instr → Nat
  | .lda m | .ldx m | .ldy m | .adc m | .sbc m | .and m | .ora m | .eor m => readTickCount m
  | .cmp m | .cpx m | .cpy m | .bit m => readTickCount m
  | .sta m | .stx m | .sty m => writeTickCount m
  | .inc m | .dec m | .asl m | .lsr m | .rol m | .ror m => rmwTickCount m
  | .jmp m => if m == .ind then 5 else 3
  | .jsr | .rts | .rti => 6
  | .brk => 7
  | .pha | .php => 3
  | .pla | .plp => 4
  | .tax | .tay | .txa | .tya | .tsx | .txs | .inx | .iny | .dex | .dey => 2
  | .bcc | .bcs | .beq | .bmi | .bne | .bpl | .bvc | .bvs => 2
  | .clc | .sec | .cli | .sei | .clv | .cld | .sed | .nop | .una _ => 2

/-- The `+p` mark of R161: one more tick when the index crosses a page. -/
def Instr.pageTick : Instr → Bool
  | .lda m | .ldx m | .ldy m | .adc m | .sbc m | .and m | .ora m | .eor m | .cmp m =>
      m == .absx || m == .absy || m == .indy
  | .sta _ | .stx _ | .sty _ | .cpx _ | .cpy _ | .bit _ => false
  | .inc _ | .dec _ | .asl _ | .lsr _ | .rol _ | .ror _ | .jmp _ | .una _ => false
  | .tax | .tay | .txa | .tya | .tsx | .txs | .pha | .php | .pla | .plp => false
  | .inx | .iny | .dex | .dey | .jsr | .rts | .rti | .brk => false
  | .bcc | .bcs | .beq | .bmi | .bne | .bpl | .bvc | .bvs => false
  | .clc | .sec | .cli | .sei | .clv | .cld | .sed | .nop => false

/-! ### Whole instructions as bytes (R150-R154) -/

/-- Why a list of bytes is no instruction: only that it ends too early (R164 allows every byte value). -/
inductive DecodeError where
  | noOpcode
  | missingOperand (i : Instr)
  deriving DecidableEq, Repr

/-- Read one instruction with its operand bytes from a list of bytes, and give back the rest (R150, R151). -/
def decodeBytes : List Byte → Except DecodeError (Code × List Byte)
  | [] => .error .noOpcode
  | op :: rest =>
    let i := decode op
    match i.mode.operandBytes, rest with
    | 0, rest => .ok (⟨i, .none⟩, rest)
    | 1, nn :: rest => .ok (⟨i, .one nn⟩, rest)
    | 2, ll :: hh :: rest => .ok (⟨i, .two ll hh⟩, rest)
    | _, _ => .error (.missingOperand i)

/-- The operand bytes in memory order, the low byte of a 16-bit operand first (R110). -/
def Operand.bytes : Operand → List Byte
  | .none => []
  | .one nn => [nn]
  | .two ll hh => [ll, hh]

/-- The bytes of an encoded instruction, the opcode first (R150). -/
def Code.bytes (c : Code) : List Byte := opcodeOf c.instr :: c.operand.bytes

/-- The three bytes at the program counter that a table word of `nbits` bits stands for: byte `k` of the word is
its bits `8k+7 .. 8k`, and every bit above `nbits` is 0. -/
def tableWordBytes (nbits w : Nat) : List Byte :=
  let v := BitVec.ofNat 24 (w % 2 ^ nbits)
  [v.extractLsb' 0 8, v.extractLsb' 8 8, v.extractLsb' 16 8]

/-- The instruction the decoder reads from a table word laid out as bytes. -/
def decodeTableWord (nbits w : Nat) : Option Instr :=
  match decodeBytes (tableWordBytes nbits w) with
  | .ok (c, _) => some c.instr
  | .error _ => none

end Sys2Proof
end

