-- ==== Sys2Proof/Machine/Engine.lean ====
section
/-! DEFINITION. The processor's one-tick handler: DMA, opcode fetch, the boundary check, the tick tables
(spec/42_cpu_engine.md R280-R284, R330, R335, R340-R343). The table of the instruction under way is an argument,
so that an instruction's meaning is the table its own file gives. -/

namespace Sys2Proof.Machine

/-- Set the engine state. -/
def setEng (e : Engine) (s : State) : State := s.mapCpu (Cpu.setEng e)

/-! ### DMA (R340-R343) -/

/-- `k` advances by 1 after a DMA tick, the last of which is 514 (R342). A transfer that a `Bus.Reset` inside the tick's
own access has ended stays ended (R753; log 26). -/
def stepDma (data : Byte) (s : State) : State :=
  match s.dma with
  | .active page k _ => s.setDma (if 514 ≤ k then .idle else .active page (k + 1) data)
  | .idle | .requested _ => s

/-- `DmaTick()`: ticks 1 and 2 make no access, tick `3 + 2i` reads byte `i` of the page, tick `4 + 2i` writes it to
0x2004 (R342; log 26). -/
def dmaTick (page : Byte) (k : Nat) (data : Byte) (s : State) : State :=
  if k < 3 then stepDma data s
  else if k % 2 = 1 then
    let r := busRead (join page (BitVec.ofNat 8 ((k - 3) / 2))) s
    stepDma r.1 r.2
  else stepDma data (busWrite 0x2004 data s)

/-- Whether the alignment tick is taken, from `cpu_cycles` before the tick (R341). -/
def dmaAligns (extraOnOdd : Bool) (n : Nat) : Bool := if extraOnOdd then n % 2 == 1 else n % 2 == 0

/-- `StartDma(page, n)`: this tick is the DMA's first (R341). -/
def startDma (page : Byte) (n : Nat) (s : State) : State :=
  let k := if dmaAligns s.params.dmaExtraOnOdd n then 1 else 2
  dmaTick page k 0 (s.setDma (.active page k 0))

/-! ### The engine's ticks -/

/-- `NextTickWrites(eng)` (R284); `T` is the table of the instruction under way. -/
def nextTickWrites (T : Table) (eng : Engine) : Bool :=
  match eng with
  | .boundary | .fetchNext => false
  | .inInstr _ k _ => tickWrites T (k - 2)
  | .inSeq kind k _ => tickWrites kind.table (k - 1)

/-- The opcode fetch T1 (R281). Under `UNASSIGNED_OPCODE = refuse` an unassigned slot stops here (R472). -/
def fetchOpcode (s : State) : Result :=
  let r := fetchByte s
  if s.params.unassigned = .refuse ∧ unassignedOpcodes.contains r.1 then .fault (.unassignedOpcode s)
  else .next (setEng (.inInstr r.1 2 {}) r.2)

/-- Tick `k` of the instruction under way; the last one sets `Boundary` (R280). -/
def instrTick (T : Table) (op : Byte) (k : Nat) (lat : Lat) (s : State) : State :=
  match runTick T (k - 2) lat s with
  | .more lat s => setEng (.inInstr op (k + 1) lat) s
  | .done s => setEng .boundary s

/-- Tick `k` of a sequence; the last one sets `FetchNext` (R280, R330, R335). -/
def seqTick (kind : Sequence) (k : Nat) (lat : Lat) (s : State) : State :=
  match runTick kind.table (k - 1) lat s with
  | .more lat s => setEng (.inSeq kind (k + 1) lat) s
  | .done s => setEng .fetchNext s

/-- T1 of a sequence: its vector stands in the latches (R106, R282). -/
def enterSeq (kind : Sequence) (s : State) : State := seqTick kind 1 { vec := kind.vector } s

/-- `BoundaryTick()`: reset over NMI over IRQ over the opcode fetch (R282). -/
def boundaryTick (s : State) : Result :=
  if s.pend.reset then .next (enterSeq .reset s)
  else if s.pend.nmi then .next (enterSeq .nmi (s.mapPend fun l => { l with nmi := false }))
  else if s.pend.irq && !flag .i s.cpu.p then .next (enterSeq .irq (s.mapPend fun l => { l with irq := false }))
  else fetchOpcode s

/-- The engine's own tick (R280). -/
def engineTick (T : Table) (s : State) : Result :=
  match s.cpu.eng with
  | .boundary => boundaryTick s
  | .fetchNext => fetchOpcode s
  | .inInstr op k lat => .next (instrTick T op k lat s)
  | .inSeq kind k lat => .next (seqTick kind k lat s)

/-- `Handler_cpu()`: one CPU tick (R280). -/
def cpuHandler (T : Table) (s : State) : Result :=
  let n := s.cpu.cycles
  let s := s.mapCpu Cpu.tick
  match s.dma with
  | .active page k data => .next (dmaTick page k data s)
  | .requested page => if nextTickWrites T s.cpu.eng then engineTick T s else .next (startDma page n s)
  | .idle => engineTick T s

end Sys2Proof.Machine
end

