-- ==== Sys2Proof/Machine/Sync.lean ====
section
/-! DEFINITION. The Clock's emit step, delivery through ClockDividers, and the units' tick counters
(spec/40_clock_sync.md R204-R216). -/

namespace Sys2Proof.Machine

/-- Go on with the state of a `next` outcome; a fault or a refusal ends the chain. -/
def andThen (o : Result) (f : State → Result) : Result :=
  match o with
  | .next s => f s
  | .fault r => .fault r
  | .refused r => .refused r

/-! ### Delivery (R206, R207) -/

/-- How a delivery ends: with a state, in the fault `OwedOverflow`, or never, which only dividers that listen to each
other in a circle can give (log 13). -/
inductive Delivery where
  | done (s : State)
  | overflow (u : UnitId)
  | endless
  deriving DecidableEq, Repr

/-- Go on after a delivery that ended with a state. -/
def Delivery.andThen (o : Delivery) (f : State → Delivery) : Delivery :=
  match o with
  | .done s => f s
  | .overflow u => .overflow u
  | .endless => .endless

/-- Deliver to each listener in list order, `f` being the delivery to one (R205, R207). -/
def deliverEach (f : Listener → State → Delivery) : List Listener → State → Delivery
  | [], s => .done s
  | l :: rest, s => (f l s).andThen (deliverEach f rest)

/-- `Deliver(u)` for a unit (R206): a disposed unit is skipped, a full counter faults. -/
def deliverUnit (u : UnitId) (s : State) : Delivery :=
  if (s.unit u).disposed then .done s
  else if (s.unit u).owed = s.params.owedMax then .overflow u
  else .done (s.mapUnit u fun c => { c with owed := c.owed + 1 })

/-- One parent tick fed to a divider (R207): its new accumulator, and how many ticks it emits. R207 emits at most one;
under `every` a divisor below 1 emits as many as R209 counts (log 12). -/
def Divider.feed (law : Config.DividerLaw) (d : Divider) : Divider × Nat :=
  let acc := d.acc + d.den
  match law with
  | .once => if d.num ≤ acc then ({ d with acc := acc - d.num }, 1) else ({ d with acc := acc }, 0)
  | .every => ({ d with acc := acc % d.num }, acc / d.num)

/-- `n` ticks emitted to a divider's children: to each in list order, `n` times over (R207). -/
def Divider.emitted (d : Divider) (n : Nat) : List Listener := (List.replicate n d.children).flatten

/-- `Deliver(L)` (R205-R207), dividers nested at most `depth` deep. -/
def deliver (depth : Nat) (l : Listener) (s : State) : Delivery :=
  match depth, l with
  | _, .unit u => deliverUnit u s
  | 0, .divider _ => .endless
  | depth + 1, .divider i =>
    match s.dividers[i]? with
    | none => .done s
    | some d =>
      let r := d.feed s.params.dividerLaw
      deliverEach (deliver depth) (d.emitted r.2) (s.setDividers (s.dividers.set i r.1))

/-- A depth that every delivery which ends stays within (`emit_of_ends` in Laws/Delivery.lean): more than there are
combinations of a divider, the accumulators and the counters, so a deeper nesting meets one of them again, and goes on
so for ever (log 13). -/
def State.deliveryDepth (s : State) : Nat :=
  s.dividers.length * ((s.dividers.map fun d => d.acc + d.num + 1).foldr (· * ·) 1 * (s.params.owedMax + 2) ^ 3) + 1

/-- The units reachable from a list of listeners, in listener order (R204, R217). -/
def reachable (depth : Nat) (ls : List Listener) (ds : List Divider) : List UnitId :=
  match depth with
  | 0 => []
  | depth + 1 => ls.flatMap fun l =>
    match l with
    | .unit u => [u]
    | .divider i => match ds[i]? with
      | none => []
      | some d => reachable depth d.children ds

/-- The longest way from the Clock to a unit that meets no divider twice. -/
def State.depth (s : State) : Nat := s.dividers.length + 1

/-- The units the Clock reaches, in listener order. -/
def State.reachableUnits (s : State) : List UnitId := reachable s.depth s.clock.listeners s.dividers

/-- The lock-step clause of the emit step (R204, R213). -/
def UnitCtl.drained (c : UnitCtl) : Bool := c.policy == .async || c.disposed || c.owed == 0

/-- `enabled(Emit)` (R204). -/
def emitEnabled (s : State) : Bool :=
  s.clock.running && !s.clock.disposed && s.reachableUnits.all fun u => (s.unit u).drained

/-- `enabled(Step u)` (R210). -/
def unitEnabled (u : UnitId) (s : State) : Bool :=
  0 < (s.unit u).owed && !(s.unit u).paused && !(s.unit u).disposed

/-- The emit step (R205): count, then deliver to every listener in list order. An emit step whose delivery never
ends leads to no state, so no transition of R212 comes of it and the state stays. DEDUCED (log 13). -/
def emit (s : State) : Result :=
  match deliverEach (deliver s.deliveryDepth) s.clock.listeners
      (s.mapClock fun c => { c with tickCount := c.tickCount + 1 }) with
  | .done t => .next t
  | .overflow u => .fault (.owedOverflow u s)
  | .endless => .next s

/-- `owed[u] <- owed[u] - 1`, the first half of a unit step (R210). -/
def consume (u : UnitId) (s : State) : State := s.mapUnit u fun c => { c with owed := c.owed - 1 }

/-- A lock-step unit that owes more than one tick (R215); a disposed one owes none. -/
def UnitCtl.desynced (c : UnitCtl) : Bool := c.policy == .lockstep && !c.disposed && 1 < c.owed

/-- The unit whose state raises `LockstepDesync`, if any (R215; log 16). -/
def desyncedUnit (s : State) : Option UnitId := [UnitId.cpu, .ppu, .sound].find? fun u => (s.unit u).desynced

end Sys2Proof.Machine
end

