-- ==== Sys2Proof/Machine/HostOps.lean ====
section
/-! DEFINITION. The host operations (spec/40_clock_sync.md R201-R203, R208, R211, R216; spec/41_bus.md R250-R259;
spec/48_external.md R653, R662, R671, R675, R676). Each is one atomic transition. -/

namespace Sys2Proof.Machine

/-- What a host operation gives its caller: done, or a fault with nothing changed (R701). -/
inductive HostReply where
  | done (s : State)
  | failed (f : Fault)
  deriving DecidableEq, Repr

/-- `AddListener(L)` on the Clock or on a divider: append (R201, R208). -/
def addListener (parent : Option Nat) (l : Listener) (s : State) : State :=
  match parent with
  | none => s.mapClock fun c => { c with listeners := c.listeners ++ [l] }
  | some i => match s.dividers[i]? with
    | none => s
    | some d => s.setDividers (s.dividers.set i { d with children := d.children ++ [l] })

/-- `ClockDivider(parent, num / den)` (R208): it registers itself with its parent. -/
def newDivider (parent : Option Nat) (num : Int) (den : Nat) (s : State) : HostReply :=
  if num ≤ 0 ∨ den = 0 then .failed .invalidDivisor
  else .done (addListener parent (.divider s.dividers.length)
    (s.setDividers (s.dividers ++ [⟨num.toNat, den, 0, [], parent⟩])))

/-- `Start()` (R202). -/
def startClock (s : State) : HostReply :=
  if s.clock.listeners = [] then .failed (.clockNoListeners s)
  else if s.clock.running then .failed .clockAlreadyStarted
  else .done (s.mapClock fun c => { c with running := true })

/-- `Dispose()` on the Clock (R203). -/
def disposeClock (s : State) : State := s.mapClock fun c => { c with running := false, disposed := true }

/-- `Dispose(u)` (R216). -/
def disposeUnit (u : UnitId) (s : State) : State := s.mapUnit u fun c => { c with owed := 0, disposed := true }

/-- Set or clear one button bit (R662). -/
def setButton (down : Bool) (button : Fin 8) (b : Byte) : Byte :=
  let m : Byte := 1 <<< button.val
  if down then b ||| m else b &&& ~~~m

/-- `KeyDown(p, b)` and `KeyUp(p, b)` (R662). -/
def key (down : Bool) (port : Fin 2) (button : Fin 8) (s : State) : State :=
  s.mapPads fun c =>
    if port = 0 then { c with buttons0 := setButton down button c.buttons0 }
    else { c with buttons1 := setButton down button c.buttons1 }

/-- A successful program load: the old cartridge is detached, the new one attached over 0x4020-0xFFFF (R653). -/
def insertCart (c : Cart) (s : State) : State :=
  let s := removeComponent .cart s
  (s.mapCart fun _ => c).setBus (s.bus ++ [⟨some (0x4020, 0xFFFF), .cart⟩])

/-- `GetPixels`: the last completed frame, `fb[1 - back]` (R676). -/
def getPixels (s : State) : Memory 9 := if s.ppu.out.back then s.ppu.out.fb0 else s.ppu.out.fb1

/-- A host operation and what its caller gets. -/
def hostOp (op : HostOp) (s : State) : HostReply :=
  match op with
  | .addListener parent l => .done (addListener parent l s)
  | .newDivider parent num den => newDivider parent num den s
  | .start => startClock s
  | .disposeClock => .done (disposeClock s)
  | .pause u => .done (s.mapUnit u fun c => { c with paused := true })
  | .resume u => .done (s.mapUnit u fun c => { c with paused := false })
  | .disposeUnit u => .done (disposeUnit u s)
  | .addComponent c range => match addComponent c range s with
    | some s => .done s
    | none => .failed .invalidRange
  | .removeComponent c => .done (removeComponent c s)
  | .busReset => .done (busReset s)
  | .busIrq => .done (busIrq s)
  | .busNmi => .done (busNmi s)
  | .busRead a => .done (busReadVia quietRun a s).2
  | .busWrite a v => .done (busWriteVia quietRun a v s)
  | .keyDown port button => .done (key true port button s)
  | .keyUp port button => .done (key false port button s)
  | .load none => .failed .unsupportedMapper
  | .load (some c) => .done (insertCart c s)
  | .registerSink => .done (s.mapSink fun k => { k with registered := true })
  | .getPixels => .done s
  | .getSample channel time timeStep => .done (s.setSound (Config.soundSample s.sound channel time timeStep))

/-- Operations of the Clock that a disposed Clock no longer allows (R201, R202, R208), and, where R58's table goes before
R252 and R253, bus accesses that would reach the picture generator's ports (logs 28, 38). -/
def hostEnabled (op : HostOp) (s : State) : Bool :=
  match op with
  | .addListener _ _ | .newDivider _ _ _ | .start => !s.clock.disposed
  | .disposeClock | .pause _ | .resume _ | .disposeUnit _ | .addComponent _ _ | .removeComponent _ => true
  | .busRead a => !portsShut false s || firstMatch (·.readable) a s.bus != some .ppu
  | .busWrite a _ => !portsShut false s || s.bus.all fun e => !e.covers a || e.component != .ppu
  | .busReset | .busIrq | .busNmi | .keyDown _ _ | .keyUp _ _ => true
  | .load _ | .registerSink | .getPixels | .getSample _ _ _ => true

/-- The faults of the tick loop, which end the run (R700, R701; log 14). The others go to the caller. -/
def Fault.endsRun : Fault → Bool
  | .clockNoListeners _ | .owedOverflow _ _ | .lockstepDesync _ _ | .unassignedOpcode _ => true
  | .clockAlreadyStarted | .invalidDivisor | .invalidRange | .unsupportedMapper => false

/-- A host operation as a transition: a fault given to the caller changes no state and the run goes on (R701; log 15). -/
def hostStep (op : HostOp) (s : State) : Result :=
  match hostOp op s with
  | .done s => .next s
  | .failed f => if f.endsRun then .fault f else .next s

end Sys2Proof.Machine
end

