-- ==== Sys2Proof/Machine/PpuScroll.lean ====
section
/-! DEFINITION. The scroll register's fields and its increments and copies (spec/10_state.md R51,
spec/46_ppu_pipeline.md R512-R519). -/

namespace Sys2Proof.Machine

def coarseX (v : Scroll) : BitVec 5 := v.extractLsb' 0 5
def coarseY (v : Scroll) : BitVec 5 := v.extractLsb' 5 5
def fineY (v : Scroll) : BitVec 3 := v.extractLsb' 12 3

/-- `IncX()` (R516). -/
def incX (v : Scroll) : Scroll :=
  if coarseX v = 31 then (v &&& 0x7FE0) ^^^ 0x0400 else v + 1

/-- `IncY()` (R517). -/
def incY (v : Scroll) : Scroll :=
  if fineY v ≠ 7 then v + 0x1000
  else
    let v := v &&& 0x0FFF
    if coarseY v = 29 then (v &&& 0x7C1F) ^^^ 0x0800
    else if coarseY v = 31 then v &&& 0x7C1F
    else v + 0x0020

/-- `CopyX()` (R518): coarse X and nametable X from `t`. -/
def copyX (v t : Scroll) : Scroll := (v &&& ~~~0x041F) ||| (t &&& 0x041F)

/-- `CopyY()` (R519): fine Y, nametable Y and coarse Y from `t`. -/
def copyY (v t : Scroll) : Scroll := (v &&& ~~~0x7BE0) ||| (t &&& 0x7BE0)

/-- `NtAddr()` (R512). -/
def ntAddr (v : Scroll) : PpuAddr := 0x2000 ||| (v &&& 0x0FFF).setWidth 14

/-- The attribute address of `AtBits()` (R513). -/
def attrAddr (v : Scroll) : PpuAddr :=
  0x23C0 ||| (v &&& 0x0C00).setWidth 14 ||| ((v >>> 4) &&& 0x38).setWidth 14 ||| ((v >>> 2) &&& 0x07).setWidth 14

/-- The two attribute bits of the tile `v` is in, out of the attribute byte (R513). -/
def attrBits (v : Scroll) (a : Byte) : Byte :=
  let a := if bitAt (coarseY v) 1 then a >>> 4 else a
  let a := if bitAt (coarseX v) 1 then a >>> 2 else a
  a &&& 3

/-- `PatAddr(plane)` (R514), `plane` being 0 or 8. -/
def patAddr (p : Ppu) (plane : PpuAddr) : PpuAddr :=
  (if bitAt p.regs.ctrl 4 then 0x1000 else 0) ||| (p.bg.nextId.setWidth 14 <<< 4) ||| plane ||| (fineY p.scr.v).setWidth 14

end Sys2Proof.Machine
end

