-- ==== Sys2Proof/Machine/PpuPipeline.lean ====
section
/-! DEFINITION. The picture generator's one-tick handler: line events, background and sprite work, the pixel, the
position (spec/46_ppu_pipeline.md R500-R551). -/

namespace Sys2Proof.Machine

/-! ### Background (R510-R520) -/

/-- Background shift (R510). -/
def PpuBg.shift (b : PpuBg) : PpuBg :=
  { b with patLo := b.patLo <<< 1, patHi := b.patHi <<< 1, attrLo := b.attrLo <<< 1, attrHi := b.attrHi <<< 1 }

/-- `LoadBg()` (R515). -/
def PpuBg.load (b : PpuBg) : PpuBg :=
  { b with
    patLo := (b.patLo &&& 0xFF00) ||| b.nextLo.setWidth 16
    patHi := (b.patHi &&& 0xFF00) ||| b.nextHi.setWidth 16
    attrLo := (b.attrLo &&& 0xFF00) ||| (if bitAt b.nextAttr 0 then 0x00FF else 0x0000)
    attrHi := (b.attrHi &&& 0xFF00) ||| (if bitAt b.nextAttr 1 then 0x00FF else 0x0000) }

/-- `bg_next_id <- PpuRead(NtAddr())` (R511, R520). -/
def fetchNametable (s : State) : State :=
  let r := ppuFetch (ntAddr s.ppu.scr.v) s
  r.2.mapPpu (Ppu.mapBg fun b => { b with nextId := r.1 })

/-- `bg_next_attr <- AtBits()` (R511, R513). -/
def fetchAttribute (s : State) : State :=
  let r := ppuFetch (attrAddr s.ppu.scr.v) s
  r.2.mapPpu (Ppu.mapBg fun b => { b with nextAttr := attrBits s.ppu.scr.v r.1 })

/-- `bg_next_lo <- PpuRead(PatAddr(0))` (R511). -/
def fetchPatternLo (s : State) : State :=
  let r := ppuFetch (patAddr s.ppu 0) s
  r.2.mapPpu (Ppu.mapBg fun b => { b with nextLo := r.1 })

/-- `bg_next_hi <- PpuRead(PatAddr(8))` (R511). -/
def fetchPatternHi (s : State) : State :=
  let r := ppuFetch (patAddr s.ppu 8) s
  r.2.mapPpu (Ppu.mapBg fun b => { b with nextHi := r.1 })

/-- The dots that shift and fetch the background (R510, R511). -/
def bgActive (d : Nat) : Bool := (2 ≤ d && d ≤ 257) || (321 ≤ d && d ≤ 337)

/-- The fetch step of a dot, chosen by `(d - 1) mod 8` (R511). -/
def bgFetch (d : Nat) (s : State) : State :=
  match (d - 1) % 8 with
  | 0 => fetchNametable (s.mapPpu (Ppu.mapBg PpuBg.load))
  | 2 => fetchAttribute s
  | 4 => fetchPatternLo s
  | 6 => fetchPatternHi s
  | 7 => s.mapPpu (Ppu.moveV incX)
  | _ => s

/-- Shift and fetch at dot `d` (R510, R511). -/
def bgShiftFetch (d : Nat) (s : State) : State :=
  if bgActive d then bgFetch d (s.mapPpu (Ppu.mapBg PpuBg.shift)) else s

/-- `IncY()` at dot 256 (R517). -/
def bgIncY (d : Nat) (s : State) : State := if d = 256 then s.mapPpu (Ppu.moveV incY) else s

/-- `CopyX()` at dot 257 (R518). -/
def bgCopyX (d : Nat) (s : State) : State := if d = 257 then s.mapPpu (fun p => p.moveV (copyX · p.scr.t)) else s

/-- `CopyY()` at dots 280-304 of line 261 (R519). -/
def bgCopyY (ln d : Nat) (s : State) : State :=
  if ln = 261 ∧ 280 ≤ d ∧ d ≤ 304 then s.mapPpu (fun p => p.moveV (copyY · p.scr.t)) else s

/-- The nametable reads at dots 338 and 340 (R520). -/
def bgReread (d : Nat) (s : State) : State := if d = 338 ∨ d = 340 then fetchNametable s else s

/-- Background work of dot `d` on line `ln` (R510-R520). -/
def bgWork (ln d : Nat) (s : State) : State := bgReread d (bgCopyY ln d (bgCopyX d (bgIncY d (bgShiftFetch d s))))

/-! ### Sprites (R530-R538) -/

/-- The secondary table all 0xFF (R530). -/
def oam2Cleared : Memory 8 := (List.range 32).map fun i => (i, 0xFF)

/-- Secondary-table clear at dot 1 (R530); on line 261 only the counts. -/
def PpuSprites.clear (visible : Bool) (q : PpuSprites) : PpuSprites :=
  { q with oam2 := if visible then oam2Cleared else q.oam2, countNext := 0, spr0Next := false }

/-- The sprite height, 16 if `ctrl[5]` is set (R531). -/
def Ppu.spriteHeight (p : Ppu) : Nat := if bitAt p.regs.ctrl 5 then 16 else 8

/-- Entry `n` of the primary table is in range: `0 ≤ scanline - y < h` (R531). -/
def Ppu.spriteInRange (n : Nat) (p : Ppu) : Bool :=
  let y := (p.spr.oam.read (4 * n)).toNat
  y ≤ p.pos.scanline && p.pos.scanline - y < p.spriteHeight

/-- Copy entry `n` to the secondary slot `c` (R531). -/
def copyEntry (n c : Nat) (oam oam2 : Memory 8) : Memory 8 :=
  (((oam2.write (4 * c) (oam.read (4 * n))).write (4 * c + 1) (oam.read (4 * n + 1))).write
    (4 * c + 2) (oam.read (4 * n + 2))).write (4 * c + 3) (oam.read (4 * n + 3))

/-- Entry `n` joins the secondary table (R531). -/
def PpuSprites.take (n : Nat) (q : PpuSprites) : PpuSprites :=
  { q with oam2 := copyEntry n q.countNext q.oam q.oam2, spr0Next := q.spr0Next || n == 0, countNext := q.countNext + 1 }

/-- Evaluation of entry `n` (R531). -/
def Ppu.evalSprite (n : Nat) (p : Ppu) : Ppu :=
  if p.spriteInRange n then
    if p.spr.countNext < 8 then p.mapSpr (PpuSprites.take n)
    else p.mapRegs fun q => { q with spriteOverflow := true }
  else p

/-- `count_cur <- count_next; spr0_cur <- spr0_next` (R532). -/
def PpuSprites.latch (q : PpuSprites) : PpuSprites := { q with countCur := q.countNext, spr0Cur := q.spr0Next }

/-- `SprAddr(i)` from the entry's fields (R535, R536). `row` is already inside the height. -/
def spriteAddr (p : Ppu) (tile attr : Byte) (row : Nat) : PpuAddr :=
  let tile := tile.toNat
  if bitAt p.regs.ctrl 5 then
    let row := if bitAt attr 7 then 15 - row else row
    let top := tile - tile % 2
    let t2 := if row < 8 then top else top + 1
    BitVec.ofNat 14 ((tile % 2) * 0x1000 + t2 * 16 + row % 8)
  else
    let row := if bitAt attr 7 then 7 - row else row
    BitVec.ofNat 14 ((if bitAt p.regs.ctrl 3 then 0x1000 else 0) + tile * 16 + row)

/-- The pattern row of an entry on a line: `scanline - y` inside the height; outside it the spec states none, and
the row is a free value below the height (log 18). -/
def spriteRow (ln y h : Nat) : Nat :=
  if y ≤ ln ∧ ln - y < h then ln - y else Config.straySpriteRow ln y h % h

/-- The secondary entry of slot `i`: (Y, tile, attr, X). -/
def Ppu.entry (p : Ppu) (i : Nat) : Byte × Byte × Byte × Byte :=
  (p.spr.oam2.read (4 * i), p.spr.oam2.read (4 * i + 1), p.spr.oam2.read (4 * i + 2), p.spr.oam2.read (4 * i + 3))

/-- `SprAddr(i)`, the address slot `i` fetches: an empty slot fetches tile 0xFF, row 0, attribute 0 (R534). -/
def slotAddr (i : Nat) (p : Ppu) : PpuAddr :=
  if i < p.spr.countCur then
    let e := p.entry i
    spriteAddr p e.2.1 e.2.2.1 (spriteRow p.pos.scanline e.1.toNat p.spriteHeight)
  else spriteAddr p 0xFF 0 0

/-- The low-plane fetch of slot `i` at dot `261 + 8i` (R534). -/
def fetchSpriteLo (i : Nat) (s : State) : State :=
  let r := ppuFetch (slotAddr i s.ppu) s
  r.2.mapPpu (Ppu.mapSpr fun q => { q with sprLo := r.1 })

/-- What slot `i` is loaded with from its two bitplanes (R534, R537). -/
def Ppu.loadedSlot (i : Nat) (lo hi : Byte) (p : Ppu) : Slot :=
  if i < p.spr.countCur then
    let e := p.entry i
    if bitAt e.2.2.1 6 then ⟨reverse8 lo, reverse8 hi, e.2.2.1, e.2.2.2⟩ else ⟨lo, hi, e.2.2.1, e.2.2.2⟩
  else ⟨0, 0, 0, 0xFF⟩

/-- Slot `i` is loaded, from the low plane in its latch and the high plane (R534). -/
def Ppu.loadSlot (i : Nat) (hi : Byte) (p : Ppu) : Ppu :=
  p.mapSpr fun q => { q with slots := q.slots.set i (p.loadedSlot i q.sprLo hi) }

/-- The high-plane fetch of slot `i` at dot `263 + 8i`, after which the slot is loaded (R534). -/
def fetchSpriteHi (i : Nat) (s : State) : State :=
  let r := ppuFetch (slotAddr i s.ppu + 8) s
  r.2.mapPpu (Ppu.loadSlot i r.1)

/-- One slot's shift (R538). -/
def Slot.shift (e : Slot) : Slot :=
  if e.xcnt = 0 then { e with patLo := e.patLo <<< 1, patHi := e.patHi <<< 1 } else { e with xcnt := e.xcnt - 1 }

/-- The clear at dot 1 (R530). -/
def sprClear (ln d : Nat) (s : State) : State :=
  if d = 1 then s.mapPpu (Ppu.mapSpr (PpuSprites.clear (decide (ln ≤ 239)))) else s

/-- The evaluation of entry `n` at dot `65 + 3n` (R531). -/
def sprEvaluate (ln d : Nat) (s : State) : State :=
  if ln ≤ 239 ∧ 65 ≤ d ∧ d ≤ 254 ∧ (d - 65) % 3 = 0 then s.mapPpu (Ppu.evalSprite ((d - 65) / 3)) else s

/-- The counts move on at dot 257 (R532). -/
def sprLatch (d : Nat) (s : State) : State := if d = 257 then s.mapPpu (Ppu.mapSpr PpuSprites.latch) else s

/-- The low-plane fetches (R534). -/
def sprFetchLo (d : Nat) (s : State) : State :=
  if 261 ≤ d ∧ d ≤ 317 ∧ (d - 261) % 8 = 0 then fetchSpriteLo ((d - 261) / 8) s else s

/-- The high-plane fetches (R534). -/
def sprFetchHi (d : Nat) (s : State) : State :=
  if 263 ≤ d ∧ d ≤ 319 ∧ (d - 263) % 8 = 0 then fetchSpriteHi ((d - 263) / 8) s else s

/-- The slots' shift at dots 2-257 (R538). -/
def sprShift (d : Nat) (s : State) : State :=
  if 2 ≤ d ∧ d ≤ 257 then s.mapPpu (Ppu.mapSpr fun q => { q with slots := q.slots.map Slot.shift }) else s

/-- Sprite work of dot `d` on line `ln`, 0-239 or 261 (R530-R538). -/
def spriteWork (ln d : Nat) (s : State) : State :=
  sprShift d (sprFetchHi d (sprFetchLo d (sprLatch d (sprEvaluate ln d (sprClear ln d s)))))

/-! ### Pixel (R540-R545) -/

/-- The background pixel and palette at `x` (R540). -/
def Ppu.bgPixel (x : Nat) (p : Ppu) : Nat × Nat :=
  if bitAt p.regs.mask 3 && (bitAt p.regs.mask 1 || 8 ≤ x) then
    let i := 15 - p.scr.fineX.toNat
    (2 * bitNat (bitAt p.bg.patHi i) + bitNat (bitAt p.bg.patLo i),
     2 * bitNat (bitAt p.bg.attrHi i) + bitNat (bitAt p.bg.attrLo i))
  else (0, 0)

/-- A sprite pixel: pixel, palette, in front of the background, slot number (R541). -/
structure FgPixel where
  pix   : Nat
  pal   : Nat
  front : Bool
  slot0 : Bool
  deriving DecidableEq, Repr

/-- No opaque sprite pixel (R541). -/
def FgPixel.clear : FgPixel := ⟨0, 0, false, false⟩

/-- The first opaque pixel of the slots from number `i` on (R541). -/
def firstOpaque : Nat → List Slot → FgPixel
  | _, [] => FgPixel.clear
  | i, e :: rest =>
    let pix := 2 * bitNat (bitAt e.patHi 7) + bitNat (bitAt e.patLo 7)
    if e.xcnt = 0 ∧ pix ≠ 0 then ⟨pix, 4 + (e.attr &&& 3).toNat, !bitAt e.attr 5, i == 0⟩
    else firstOpaque (i + 1) rest

/-- The sprite pixel at `x` (R541). -/
def Ppu.fgPixel (x : Nat) (p : Ppu) : FgPixel :=
  if bitAt p.regs.mask 4 && (bitAt p.regs.mask 2 || 8 ≤ x) then firstOpaque 0 p.spr.slots else FgPixel.clear

/-- The priority table: the pixel and palette shown (R542). -/
def choosePixel (bg : Nat × Nat) (fg : FgPixel) : Nat × Nat :=
  if bg.1 = 0 then (if fg.pix = 0 then (0, 0) else (fg.pix, fg.pal))
  else if fg.pix = 0 then bg
  else if fg.front then (fg.pix, fg.pal) else bg

/-- The palette address of a pixel (R544). -/
def pixelAddr (c : Nat × Nat) : PpuAddr := BitVec.ofNat 14 (if c.1 = 0 then 0x3F00 else 0x3F00 + 4 * c.2 + c.1)

/-- The 9-bit pixel of a palette address: emphasis bits and colour, greyscale applied (R544). -/
def Ppu.pixelOut (a : PpuAddr) (p : Ppu) : BitVec 9 :=
  let colour := paletteRead a p
  p.regs.mask.extractLsb' 5 3 ++ (if bitAt p.regs.mask 0 then colour &&& 0x30 else colour)

/-- Sprite-zero hit at `x` (R543). -/
def Ppu.hitsAt (h255 : Config.Sprite0HitX255) (x : Nat) (bg : Nat × Nat) (fg : FgPixel) (p : Ppu) : Bool :=
  bg.1 != 0 && fg.pix != 0 && p.spr.spr0Cur && fg.slot0 && !(x == 255 && h255 == .excluded)

/-- Store a pixel in the back buffer (R57, R544). -/
def Ppu.storePixel (x y : Nat) (c : BitVec 9) (p : Ppu) : Ppu :=
  p.mapOut fun o =>
    if o.back then { o with fb1 := o.fb1.write (256 * y + x) c } else { o with fb0 := o.fb0.write (256 * y + x) c }

/-- `ComposePixel(x, y)` (R540-R545). With rendering off both pixels are transparent, so the output is the
backdrop (R545). -/
def Ppu.composePixel (h255 : Config.Sprite0HitX255) (x y : Nat) (p : Ppu) : Ppu :=
  let bg := p.bgPixel x
  let fg := p.fgPixel x
  let hit := p.hitsAt h255 x bg fg
  (p.storePixel x y (p.pixelOut (pixelAddr (choosePixel bg fg)))).mapRegs fun q =>
    { q with sprite0Hit := q.sprite0Hit || hit }

/-! ### Line events and position (R501-R503, R550) -/

/-- `vblank <- 1` (R502). -/
def PpuRegs.enterVblank (q : PpuRegs) : PpuRegs := { q with vblank := true }

/-- `vblank <- 0; sprite0_hit <- 0; sprite_overflow <- 0` (R503). -/
def PpuRegs.clearFlags (q : PpuRegs) : PpuRegs :=
  { q with vblank := false, sprite0Hit := false, spriteOverflow := false }

/-- `Bus.NMI()` if `ctrl[7] = 1` (R502). -/
def vblankNmi (s : State) : State := if s.ppu.nmiEnabled then busNmi s else s

/-- Phase 1 (R502, R503). -/
def lineEvents (ln d : Nat) (s : State) : State :=
  if ln = 241 ∧ d = 1 then vblankNmi (s.mapPpu (Ppu.mapRegs PpuRegs.enterVblank))
  else if ln = 261 ∧ d = 1 then s.mapPpu (Ppu.mapRegs PpuRegs.clearFlags)
  else s

/-- `SkipApplies()` (R501). -/
def skipApplies (s : State) : Bool :=
  match s.params.oddFrameSkip with
  | .always => true
  | .whenRendering => s.ppu.rendering

/-- `EndFrame()`: swap, count, notify (R550, R675). -/
def endFrame (s : State) : State :=
  (s.mapPpu fun p => (p.mapOut fun o => { o with back := !o.back }).mapPos fun q =>
    { q with frameCount := q.frameCount + 1 }).mapSink fun k =>
    if k.registered then { k with notices := k.notices + 1 } else k

/-- Move the beam. -/
def Ppu.moveTo (ln d : Nat) (p : Ppu) : Ppu := p.mapPos fun q => { q with scanline := ln, dot := d }

/-- Move the beam along its line. -/
def Ppu.moveDot (d : Nat) (p : Ppu) : Ppu := p.mapPos fun q => { q with dot := d }

/-- The dot (261, 340) of an odd frame is skipped (R501). -/
def skipsLastDot (ln d : Nat) (s : State) : Bool :=
  ln == 261 && d == 339 && s.ppu.pos.frameCount % 2 == 1 && skipApplies s

/-- The end of the last line (R501). -/
def wrapFrame (s : State) : State :=
  if s.ppu.pos.scanline = 262 then endFrame (s.mapPpu fun p => p.moveTo 0 p.pos.dot) else s

/-- `Advance()` from `(ln, d)` (R501): inside a line only the dot is written. -/
def advance (ln d : Nat) (s : State) : State :=
  if skipsLastDot ln d s then endFrame (s.mapPpu (Ppu.moveTo 0 0))
  else wrapFrame (s.mapPpu (if d + 1 = 341 then Ppu.moveTo (ln + 1) 0 else Ppu.moveDot (d + 1)))

/-- Phase 2: rendering work on the visible lines and the pre-render line (R500, R505). -/
def renderWork (ln d : Nat) (s : State) : State :=
  if (ln ≤ 239 ∨ ln = 261) ∧ s.ppu.rendering then spriteWork ln d (bgWork ln d s) else s

/-- Phase 3: the pixel of a visible dot (R500). -/
def pixelWork (ln d : Nat) (s : State) : State :=
  if ln ≤ 239 ∧ 1 ≤ d ∧ d ≤ 256 then s.mapPpu (Ppu.composePixel s.params.sprite0HitX255 (d - 1) ln) else s

/-- `Handler_ppu()`: one dot, four phases in order (R500). The position is read once, before them. DEDUCED: where external
code makes a `Bus.Reset` inside the dot (R752), the rest of the dot goes on from that position, and a rule that names
`scanline` or other state reads it anew (log 39). -/
def ppuHandler (s : State) : State :=
  let ln := s.ppu.pos.scanline
  let d := s.ppu.pos.dot
  advance ln d (pixelWork ln d (renderWork ln d (lineEvents ln d s)))

end Sys2Proof.Machine
end

