-- ==== Sys2Proof/Machine/Run.lean ====
section
/-! DEFINITION. The tick loop: which atomic transition comes next, what it does, and the run of an instruction or
sequence tick by tick with every other unit's transitions between (spec/40_clock_sync.md R204-R217; log 3, 5). -/

namespace Sys2Proof.Machine

/-! ### Which transition comes next -/

/-- `enabled(e)` (R204, R210, R211). -/
def enabled (e : Event) (s : State) : Bool :=
  match e with
  | .emit => emitEnabled s
  | .unit u => unitEnabled u s
  | .host op => hostEnabled op s

/-- The units in the order the deterministic configuration runs them: as the Clock reaches them, then the ones it
does not reach (R217). -/
def stepOrder (s : State) : List UnitId := s.reachableUnits ++ [.ppu, .cpu, .sound]

/-- The `registration` order of R217: after an emit step every owed tick is consumed, unit by unit, before the next
emit step. -/
def defaultEvent (s : State) : Option Event :=
  match (stepOrder s).find? fun u => unitEnabled u s with
  | some u => some (.unit u)
  | none => if emitEnabled s then some .emit else none

/-- The next transition and what is left of the schedule: the first scheduled one that is enabled, those before it
dropped; with none left, the default order (log 3). -/
def nextEvent (s : State) : List Event → Option Event × List Event
  | [] => (defaultEvent s, [])
  | e :: rest => if enabled e s then (some e, rest) else nextEvent s rest

/-! ### What a transition does -/

/-- The fault with the state before the transition that raised it: a fault undoes its step (R701). -/
def Fault.undo (s : State) : Fault → Fault
  | .clockNoListeners _ => .clockNoListeners s
  | .owedOverflow u _ => .owedOverflow u s
  | .lockstepDesync u _ => .lockstepDesync u s
  | .unassignedOpcode _ => .unassignedOpcode s
  | .clockAlreadyStarted => .clockAlreadyStarted
  | .invalidDivisor => .invalidDivisor
  | .invalidRange => .invalidRange
  | .unsupportedMapper => .unsupportedMapper

/-- The outcome of a transition taken from `s`: a fault leaves the state before the transition (R701). -/
def undone (s : State) (r : Result) : Result :=
  match r with
  | .fault f => .fault (f.undo s)
  | .next t => .next t
  | .refused q => .refused q

/-- A transition taken from `s` with outcome `r`: any transition is the fault `LockstepDesync` while some lock-step unit
owes more than one tick (R215, R700). -/
def guarded (s : State) (r : Result) : Result :=
  match desyncedUnit s with
  | some u => .fault (.lockstepDesync u s)
  | none => undone s r

/-- One step of the sound generator: one owed tick, handled outside (R210, R670; log 9). -/
def soundTick (s : State) : State := afterSoundVia quietRun (Config.soundStep s.sound) s

/-- `Step u` (R210): consume one owed tick, then the unit's handler. `T` is the table of the instruction under
way. -/
def unitStep (T : Table) (u : UnitId) (s : State) : Result :=
  let s := consume u s
  match u with
  | .cpu => cpuHandler T s
  | .ppu => .next (ppuHandler s)
  | .sound => .next (soundTick s)

/-- One atomic transition (R212). -/
def fire (T : Table) (e : Event) (s : State) : Result :=
  guarded s <| match e with
    | .emit => emit s
    | .unit u => unitStep T u s
    | .host op => hostStep op s

/-! ### Running the processor -/

/-- Take transitions until one of them was the processor's, at most `n` of them; when none is enabled, or `n` is
used up, the state reached so far is given back and a later step goes on from it (log 5). -/
def untilCpuTick (T : Table) : Nat → State → Result
  | 0, s => .next s
  | n + 1, s =>
    match nextEvent s s.schedule with
    | (none, rest) => .next (s.setSchedule rest)
    | (some (.unit .cpu), rest) => fire T (.unit .cpu) (s.setSchedule rest)
    | (some e, rest) => andThen (fire T e (s.setSchedule rest)) (untilCpuTick T n)

/-- The bound on the transitions taken for one CPU tick: the scheduled ones and 64 more (log 5). -/
def State.waitBudget (s : State) : Nat := s.schedule.length + 64

/-- The transitions up to and with the next CPU tick. -/
def cpuTick (T : Table) (s : State) : Result := untilCpuTick T s.waitBudget s

/-- The engine is between instructions. -/
def Engine.atRest : Engine → Bool
  | .boundary | .fetchNext => true
  | .inInstr _ _ _ | .inSeq _ _ _ => false

/-- CPU ticks until the instruction or sequence under way is done, at most `n` of them. -/
def runTicks (T : Table) : Nat → State → Result
  | 0, s => .next s
  | n + 1, s => andThen (cpuTick T s) fun t =>
    if t.cpu.eng.atRest || t.cpu.cycles == s.cpu.cycles then .next t else runTicks T n t

/-- The bound on the ticks of one instruction or sequence: the longest has 8, and a DMA before and inside it takes
514 each (R301, R335, R342; log 5). -/
def tickBudget : Nat := 1100

/-- The state at T2 of an instruction: its opcode has been fetched (R281). -/
def start (i : Instr) (s : State) : State := setEng (.inInstr (opcodeOf i) 2 {}) s

/-- The meaning of an instruction whose ticks after T1 are `T`: they run one by one, every other unit's transitions
between them, to the boundary (R280, R283). A term that no opcode stands for is refused (log 21). -/
def run (i : Instr) (T : Table) (s : State) : Result :=
  if i.wf then runTicks T tickBudget (start i s) else .refused .illFormed

end Sys2Proof.Machine
end

