-- ==== Sys2Proof/Machine/Alu.lean ====
section
/-! DEFINITION. Arithmetic, logic, compare and bit test (spec/44_cpu_alu.md R400-R409). -/

namespace Sys2Proof.Machine

/-- `ADC`, its operation: add with carry (R401). -/
def adcOp : ReadOp := fun v c => c.addWithCarry v

/-- The ticks of ADC (R283). -/
def adcTicks (m : Mode) : Table := readForm m adcOp

/-- The meaning of ADC (R401). -/
def execAdc (m : Mode) (s : State) : Result := run (.adc m) (adcTicks m) s

/-- `SBC`, its operation: subtract with borrow (R402). -/
def sbcOp : ReadOp := fun v c => c.subWithBorrow v

/-- The ticks of SBC (R283). -/
def sbcTicks (m : Mode) : Table := readForm m sbcOp

/-- The meaning of SBC (R402). -/
def execSbc (m : Mode) (s : State) : Result := run (.sbc m) (sbcTicks m) s

/-- `AND`, its operation: A and the operand (R403). -/
def andOp : ReadOp := fun v c => (c.setA (c.a &&& v)).setNZ (c.a &&& v)

/-- The ticks of AND (R283). -/
def andTicks (m : Mode) : Table := readForm m andOp

/-- The meaning of AND (R403). -/
def execAnd (m : Mode) (s : State) : Result := run (.and m) (andTicks m) s

/-- `ORA`, its operation: A or the operand (R404). -/
def oraOp : ReadOp := fun v c => (c.setA (c.a ||| v)).setNZ (c.a ||| v)

/-- The ticks of ORA (R283). -/
def oraTicks (m : Mode) : Table := readForm m oraOp

/-- The meaning of ORA (R404). -/
def execOra (m : Mode) (s : State) : Result := run (.ora m) (oraTicks m) s

/-- `EOR`, its operation: A exclusive-or the operand (R405). -/
def eorOp : ReadOp := fun v c => (c.setA (c.a ^^^ v)).setNZ (c.a ^^^ v)

/-- The ticks of EOR (R283). -/
def eorTicks (m : Mode) : Table := readForm m eorOp

/-- The meaning of EOR (R405). -/
def execEor (m : Mode) (s : State) : Result := run (.eor m) (eorTicks m) s

/-- `CMP`, its operation: compare A (R406). -/
def cmpOp : ReadOp := fun v c => c.compare c.a v

/-- The ticks of CMP (R283). -/
def cmpTicks (m : Mode) : Table := readForm m cmpOp

/-- The meaning of CMP (R406). -/
def execCmp (m : Mode) (s : State) : Result := run (.cmp m) (cmpTicks m) s

/-- `CPX`, its operation: compare X (R407). -/
def cpxOp : ReadOp := fun v c => c.compare c.x v

/-- The ticks of CPX (R283). -/
def cpxTicks (m : Mode) : Table := readForm m cpxOp

/-- The meaning of CPX (R407). -/
def execCpx (m : Mode) (s : State) : Result := run (.cpx m) (cpxTicks m) s

/-- `CPY`, its operation: compare Y (R408). -/
def cpyOp : ReadOp := fun v c => c.compare c.y v

/-- The ticks of CPY (R283). -/
def cpyTicks (m : Mode) : Table := readForm m cpyOp

/-- The meaning of CPY (R408). -/
def execCpy (m : Mode) (s : State) : Result := run (.cpy m) (cpyTicks m) s

/-- `BIT`, its operation: test bits (R409). -/
def bitOp : ReadOp := fun v c => c.bitTest v

/-- The ticks of BIT (R283). -/
def bitTicks (m : Mode) : Table := readForm m bitOp

/-- The meaning of BIT (R409). -/
def execBit (m : Mode) (s : State) : Result := run (.bit m) (bitTicks m) s

end Sys2Proof.Machine
end

