-- ==== Sys2Proof/Machine/Branch.lean ====
section
/-! DEFINITION. Branches (spec/45_cpu_control.md R456-R463; spec/42_cpu_engine.md R299). -/

namespace Sys2Proof.Machine

/-- `BCC`, its condition: C is clear (R456). -/
def bccCond (p : Byte) : Bool := !flag .c p

/-- The ticks of BCC (R299). -/
def bccTicks : Table := branchForm bccCond

/-- The meaning of BCC (R456). -/
def execBcc (s : State) : Result := run .bcc bccTicks s

/-- `BCS`, its condition: C is set (R457). -/
def bcsCond (p : Byte) : Bool := flag .c p

/-- The ticks of BCS (R299). -/
def bcsTicks : Table := branchForm bcsCond

/-- The meaning of BCS (R457). -/
def execBcs (s : State) : Result := run .bcs bcsTicks s

/-- `BEQ`, its condition: Z is set (R458). -/
def beqCond (p : Byte) : Bool := flag .z p

/-- The ticks of BEQ (R299). -/
def beqTicks : Table := branchForm beqCond

/-- The meaning of BEQ (R458). -/
def execBeq (s : State) : Result := run .beq beqTicks s

/-- `BMI`, its condition: N is set (R459). -/
def bmiCond (p : Byte) : Bool := flag .n p

/-- The ticks of BMI (R299). -/
def bmiTicks : Table := branchForm bmiCond

/-- The meaning of BMI (R459). -/
def execBmi (s : State) : Result := run .bmi bmiTicks s

/-- `BNE`, its condition: Z is clear (R460). -/
def bneCond (p : Byte) : Bool := !flag .z p

/-- The ticks of BNE (R299). -/
def bneTicks : Table := branchForm bneCond

/-- The meaning of BNE (R460). -/
def execBne (s : State) : Result := run .bne bneTicks s

/-- `BPL`, its condition: N is clear (R461). -/
def bplCond (p : Byte) : Bool := !flag .n p

/-- The ticks of BPL (R299). -/
def bplTicks : Table := branchForm bplCond

/-- The meaning of BPL (R461). -/
def execBpl (s : State) : Result := run .bpl bplTicks s

/-- `BVC`, its condition: V is clear (R462). -/
def bvcCond (p : Byte) : Bool := !flag .v p

/-- The ticks of BVC (R299). -/
def bvcTicks : Table := branchForm bvcCond

/-- The meaning of BVC (R462). -/
def execBvc (s : State) : Result := run .bvc bvcTicks s

/-- `BVS`, its condition: V is set (R463). -/
def bvsCond (p : Byte) : Bool := flag .v p

/-- The ticks of BVS (R299). -/
def bvsTicks : Table := branchForm bvsCond

/-- The meaning of BVS (R463). -/
def execBvs (s : State) : Result := run .bvs bvsTicks s

end Sys2Proof.Machine
end

