-- ==== Sys2Proof/Machine/Control.lean ====
section
/-! DEFINITION. Jumps, call, returns and break (spec/45_cpu_control.md R451-R455; spec/42_cpu_engine.md R300). -/

namespace Sys2Proof.Machine

/-- JMP absolute: the target's two bytes follow the opcode (R451). -/
def jmpAbsTicks : Table :=
  [fetchLo,
   ⟨false, fun lat s =>
     let r := busRead s.cpu.pc s
     .done (r.2.mapCpu (Cpu.setPc (join r.1 lat.lo)))⟩]

/-- JMP indirect: the target stands at the pointer, its high byte in the pointer's page (R300). -/
def jmpIndTicks : Table :=
  [fetchLo, fetchHi,
   ⟨false, fun lat s =>
     let r := busRead (join lat.hi lat.lo) s
     .more { lat with data := r.1 } r.2⟩,
   ⟨false, fun lat s =>
     let r := busRead (join lat.hi (lat.lo + 1)) s
     .done (r.2.mapCpu (Cpu.setPc (join r.1 lat.data)))⟩]

/-- The ticks of JMP in its two modes (R451). -/
def jmpTicks (m : Mode) : Table :=
  match m with
  | .abs => jmpAbsTicks
  | .ind => jmpIndTicks
  | .imp | .acc | .imm | .zp | .zpx | .zpy | .absx | .absy | .indx | .indy | .rel => []

/-- The meaning of JMP (R451). -/
def execJmp (m : Mode) (s : State) : Result := run (.jmp m) (jmpTicks m) s

/-- The ticks of JSR: push the address of its last byte, go to the operand (R452). -/
def jsrTicks : Table :=
  [fetchLo,
   ⟨false, fun lat s => .more lat (dummyRead (stackAddr s) s)⟩,
   ⟨true, fun lat s => .more lat (push (hiByte s.cpu.pc) s)⟩,
   ⟨true, fun lat s => .more lat (push (loByte s.cpu.pc) s)⟩,
   ⟨false, fun lat s =>
     let r := busRead s.cpu.pc s
     .done (r.2.mapCpu (Cpu.setPc (join r.1 lat.lo)))⟩]

/-- The meaning of JSR (R452). -/
def execJsr (s : State) : Result := run .jsr jsrTicks s

/-- The ticks of RTS: pull the address and go on behind it (R453). -/
def rtsTicks : Table :=
  [idleRead,
   ⟨false, fun lat s => .more lat (openPull s)⟩,
   ⟨false, fun lat s =>
     let r := readStack s
     .more { lat with lo := r.1 } (r.2.mapCpu Cpu.incSp)⟩,
   ⟨false, fun lat s =>
     let r := readStack s
     .more { lat with hi := r.1 } (r.2.mapCpu (Cpu.setPc (join r.1 lat.lo)))⟩,
   ⟨false, fun _ s => .done ((dummyRead s.cpu.pc s).mapCpu Cpu.incPc)⟩]

/-- The meaning of RTS (R453). -/
def execRts (s : State) : Result := run .rts rtsTicks s

/-- The ticks of RTI: return from an interrupt (R454). -/
def rtiTicks : Table :=
  idleRead :: returnFromInterrupt

/-- The meaning of RTI (R454). -/
def execRti (s : State) : Result := run .rti rtiTicks s

/-- The ticks of BRK: skip the padding byte and take the software interrupt (R455). -/
def brkTicks : Table :=
  ⟨false, fun lat s => .more { lat with vec := brkVector } ((dummyRead s.cpu.pc s).mapCpu Cpu.incPc)⟩ ::
  takeInterrupt pushedByInstr

/-- The meaning of BRK (R455). -/
def execBrk (s : State) : Result := run .brk brkTicks s

end Sys2Proof.Machine
end

