-- ==== Sys2Proof/Machine/FlagOps.lean ====
section
/-! DEFINITION. Flag instructions (spec/45_cpu_control.md R464-R470). -/

namespace Sys2Proof.Machine

/-- `CLC`, its operation: clear C (R464). -/
def clcOp (c : Cpu) : Cpu := c.putFlag .c false

/-- The ticks of CLC (R291). -/
def clcTicks : Table := impliedForm clcOp

/-- The meaning of CLC (R464). -/
def execClc (s : State) : Result := run .clc clcTicks s

/-- `SEC`, its operation: set C (R465). -/
def secOp (c : Cpu) : Cpu := c.putFlag .c true

/-- The ticks of SEC (R291). -/
def secTicks : Table := impliedForm secOp

/-- The meaning of SEC (R465). -/
def execSec (s : State) : Result := run .sec secTicks s

/-- `CLI`, its operation: clear I (R466). -/
def cliOp (c : Cpu) : Cpu := c.putFlag .i false

/-- The ticks of CLI (R291). -/
def cliTicks : Table := impliedForm cliOp

/-- The meaning of CLI (R466). -/
def execCli (s : State) : Result := run .cli cliTicks s

/-- `SEI`, its operation: set I (R467). -/
def seiOp (c : Cpu) : Cpu := c.putFlag .i true

/-- The ticks of SEI (R291). -/
def seiTicks : Table := impliedForm seiOp

/-- The meaning of SEI (R467). -/
def execSei (s : State) : Result := run .sei seiTicks s

/-- `CLV`, its operation: clear V (R468). -/
def clvOp (c : Cpu) : Cpu := c.putFlag .v false

/-- The ticks of CLV (R291). -/
def clvTicks : Table := impliedForm clvOp

/-- The meaning of CLV (R468). -/
def execClv (s : State) : Result := run .clv clvTicks s

/-- `CLD`, its operation: clear D (R469). -/
def cldOp (c : Cpu) : Cpu := c.putFlag .d false

/-- The ticks of CLD (R291). -/
def cldTicks : Table := impliedForm cldOp

/-- The meaning of CLD (R469). -/
def execCld (s : State) : Result := run .cld cldTicks s

/-- `SED`, its operation: set D (R470). -/
def sedOp (c : Cpu) : Cpu := c.putFlag .d true

/-- The ticks of SED (R291). -/
def sedTicks : Table := impliedForm sedOp

/-- The meaning of SED (R470). -/
def execSed (s : State) : Result := run .sed sedTicks s

end Sys2Proof.Machine
end

