-- ==== Sys2Proof/Machine/IncDec.lean ====
section
/-! DEFINITION. Increment and decrement (spec/44_cpu_alu.md R410-R415). -/

namespace Sys2Proof.Machine

/-- `INC`, its operation: the byte plus 1 (R410). -/
def incMod : ModOp := fun v c => c.result (v + 1)

/-- The ticks of INC (R283). -/
def incTicks (m : Mode) : Table := rmwForm m incMod

/-- The meaning of INC (R410). -/
def execInc (m : Mode) (s : State) : Result := run (.inc m) (incTicks m) s

/-- `DEC`, its operation: the byte minus 1 (R411). -/
def decMod : ModOp := fun v c => c.result (v - 1)

/-- The ticks of DEC (R283). -/
def decTicks (m : Mode) : Table := rmwForm m decMod

/-- The meaning of DEC (R411). -/
def execDec (m : Mode) (s : State) : Result := run (.dec m) (decTicks m) s

/-- `INX`, its operation: X plus 1 (R412). -/
def inxOp (c : Cpu) : Cpu := (c.setX (c.x + 1)).setNZ (c.x + 1)

/-- The ticks of INX (R291). -/
def inxTicks : Table := impliedForm inxOp

/-- The meaning of INX (R412). -/
def execInx (s : State) : Result := run .inx inxTicks s

/-- `INY`, its operation: Y plus 1 (R413). -/
def inyOp (c : Cpu) : Cpu := (c.setY (c.y + 1)).setNZ (c.y + 1)

/-- The ticks of INY (R291). -/
def inyTicks : Table := impliedForm inyOp

/-- The meaning of INY (R413). -/
def execIny (s : State) : Result := run .iny inyTicks s

/-- `DEX`, its operation: X minus 1 (R414). -/
def dexOp (c : Cpu) : Cpu := (c.setX (c.x - 1)).setNZ (c.x - 1)

/-- The ticks of DEX (R291). -/
def dexTicks : Table := impliedForm dexOp

/-- The meaning of DEX (R414). -/
def execDex (s : State) : Result := run .dex dexTicks s

/-- `DEY`, its operation: Y minus 1 (R415). -/
def deyOp (c : Cpu) : Cpu := (c.setY (c.y - 1)).setNZ (c.y - 1)

/-- The ticks of DEY (R291). -/
def deyTicks : Table := impliedForm deyOp

/-- The meaning of DEY (R415). -/
def execDey (s : State) : Result := run .dey deyTicks s

end Sys2Proof.Machine
end

