-- ==== Sys2Proof/Machine/LoadStore.lean ====
section
/-! DEFINITION. Loads and stores (spec/43_cpu_load_store.md R351-R356). -/

namespace Sys2Proof.Machine

/-- `LDA`, its operation: load A (R351). -/
def ldaOp : ReadOp := fun v c => (c.setA v).setNZ v

/-- The ticks of LDA (R283). -/
def ldaTicks (m : Mode) : Table := readForm m ldaOp

/-- The meaning of LDA (R351). -/
def execLda (m : Mode) (s : State) : Result := run (.lda m) (ldaTicks m) s

/-- `LDX`, its operation: load X (R352). -/
def ldxOp : ReadOp := fun v c => (c.setX v).setNZ v

/-- The ticks of LDX (R283). -/
def ldxTicks (m : Mode) : Table := readForm m ldxOp

/-- The meaning of LDX (R352). -/
def execLdx (m : Mode) (s : State) : Result := run (.ldx m) (ldxTicks m) s

/-- `LDY`, its operation: load Y (R353). -/
def ldyOp : ReadOp := fun v c => (c.setY v).setNZ v

/-- The ticks of LDY (R283). -/
def ldyTicks (m : Mode) : Table := readForm m ldyOp

/-- The meaning of LDY (R353). -/
def execLdy (m : Mode) (s : State) : Result := run (.ldy m) (ldyTicks m) s

/-- The ticks of STA: it stores A (R354). -/
def staTicks (m : Mode) : Table := writeForm m fun c => c.a

/-- The meaning of STA (R354). -/
def execSta (m : Mode) (s : State) : Result := run (.sta m) (staTicks m) s

/-- The ticks of STX: it stores X (R355). -/
def stxTicks (m : Mode) : Table := writeForm m fun c => c.x

/-- The meaning of STX (R355). -/
def execStx (m : Mode) (s : State) : Result := run (.stx m) (stxTicks m) s

/-- The ticks of STY: it stores Y (R356). -/
def styTicks (m : Mode) : Table := writeForm m fun c => c.y

/-- The meaning of STY (R356). -/
def execSty (m : Mode) (s : State) : Result := run (.sty m) (styTicks m) s

end Sys2Proof.Machine
end

