-- ==== Sys2Proof/Machine/Nop.lean ====
section
/-! DEFINITION. No-operations (spec/45_cpu_control.md R471, R472). -/

namespace Sys2Proof.Machine

/-- `NOP`, its operation: nothing (R471). -/
def nopOp (c : Cpu) : Cpu := c

/-- The ticks of NOP (R291). -/
def nopTicks : Table := impliedForm nopOp

/-- The meaning of NOP (R471). -/
def execNop (s : State) : Result := run .nop nopTicks s

/-- The ticks of an unassigned slot: those of NOP (R472). -/
def unaTicks : Table := impliedForm fun c => c

/-- The meaning of an unassigned slot: as NOP, or under `UNASSIGNED_OPCODE = refuse` the fault (R472; log 27). -/
def execUna (op : Byte) (s : State) : Result :=
  if s.params.unassigned = .refuse then .fault (.unassignedOpcode s) else run (.una op) unaTicks s

end Sys2Proof.Machine
end

