-- ==== Sys2Proof/Machine/Shift.lean ====
section
/-! DEFINITION. Shifts and rotates (spec/44_cpu_alu.md R416-R419). -/

namespace Sys2Proof.Machine

/-- `ASL`, its operation: shift left, bit 7 to C (R416). -/
def aslMod : ModOp := fun v c => c.shifted (bitAt v 7) (v <<< 1)

/-- The ticks of ASL (R283). -/
def aslTicks (m : Mode) : Table := rmwForm m aslMod

/-- The meaning of ASL (R416). -/
def execAsl (m : Mode) (s : State) : Result := run (.asl m) (aslTicks m) s

/-- `LSR`, its operation: shift right, bit 0 to C (R417). -/
def lsrMod : ModOp := fun v c => c.shifted (bitAt v 0) (v >>> 1)

/-- The ticks of LSR (R283). -/
def lsrTicks (m : Mode) : Table := rmwForm m lsrMod

/-- The meaning of LSR (R417). -/
def execLsr (m : Mode) (s : State) : Result := run (.lsr m) (lsrTicks m) s

/-- `ROL`, its operation: rotate left through C (R418). -/
def rolMod : ModOp := fun v c =>
  c.shifted (bitAt v 7) ((v <<< 1) ||| (BitVec.ofBool (flag .c c.p)).setWidth 8)

/-- The ticks of ROL (R283). -/
def rolTicks (m : Mode) : Table := rmwForm m rolMod

/-- The meaning of ROL (R418). -/
def execRol (m : Mode) (s : State) : Result := run (.rol m) (rolTicks m) s

/-- `ROR`, its operation: rotate right through C (R419). -/
def rorMod : ModOp := fun v c =>
  c.shifted (bitAt v 0) ((v >>> 1) ||| ((BitVec.ofBool (flag .c c.p)).setWidth 8 <<< 7))

/-- The ticks of ROR (R283). -/
def rorTicks (m : Mode) : Table := rmwForm m rorMod

/-- The meaning of ROR (R419). -/
def execRor (m : Mode) (s : State) : Result := run (.ror m) (rorTicks m) s

end Sys2Proof.Machine
end

