-- ==== Sys2Proof/Machine/Stack.lean ====
section
/-! DEFINITION. Stack push and pull (spec/43_cpu_load_store.md R363-R366). -/

namespace Sys2Proof.Machine

/-- The ticks of PHA: push A (R363). -/
def phaTicks : Table :=
  [idleRead, ⟨true, fun _ s => .done (push s.cpu.a s)⟩]

/-- The meaning of PHA (R363). -/
def execPha (s : State) : Result := run .pha phaTicks s

/-- The ticks of PHP: push P with B and U set (R364). -/
def phpTicks : Table :=
  [idleRead, ⟨true, fun _ s => .done (push (pushedByInstr s.cpu.p) s)⟩]

/-- The meaning of PHP (R364). -/
def execPhp (s : State) : Result := run .php phpTicks s

/-- The ticks of PLA: pull A, N and Z from it (R365). -/
def plaTicks : Table :=
  [idleRead,
   ⟨false, fun lat s => .more lat (openPull s)⟩,
   ⟨false, fun _ s =>
     let r := readStack s
     .done (r.2.mapCpu fun c => (c.setA r.1).setNZ r.1)⟩]

/-- The meaning of PLA (R365). -/
def execPla (s : State) : Result := run .pla plaTicks s

/-- The ticks of PLP: pull P, bits 4 and 5 of the byte ignored (R366). -/
def plpTicks : Table :=
  [idleRead,
   ⟨false, fun lat s => .more lat (openPull s)⟩,
   ⟨false, fun _ s =>
     let r := readStack s
     .done (r.2.mapCpu (Cpu.setP (pushedByInterrupt r.1)))⟩]

/-- The meaning of PLP (R366). -/
def execPlp (s : State) : Result := run .plp plpTicks s

end Sys2Proof.Machine
end

