-- ==== Sys2Proof/Machine/Transfer.lean ====
section
/-! DEFINITION. Register transfers (spec/43_cpu_load_store.md R357-R362). -/

namespace Sys2Proof.Machine

/-- `TAX`, its operation: X from A (R357). -/
def taxOp (c : Cpu) : Cpu := (c.setX c.a).setNZ c.a

/-- The ticks of TAX (R291). -/
def taxTicks : Table := impliedForm taxOp

/-- The meaning of TAX (R357). -/
def execTax (s : State) : Result := run .tax taxTicks s

/-- `TAY`, its operation: Y from A (R358). -/
def tayOp (c : Cpu) : Cpu := (c.setY c.a).setNZ c.a

/-- The ticks of TAY (R291). -/
def tayTicks : Table := impliedForm tayOp

/-- The meaning of TAY (R358). -/
def execTay (s : State) : Result := run .tay tayTicks s

/-- `TXA`, its operation: A from X (R359). -/
def txaOp (c : Cpu) : Cpu := (c.setA c.x).setNZ c.x

/-- The ticks of TXA (R291). -/
def txaTicks : Table := impliedForm txaOp

/-- The meaning of TXA (R359). -/
def execTxa (s : State) : Result := run .txa txaTicks s

/-- `TYA`, its operation: A from Y (R360). -/
def tyaOp (c : Cpu) : Cpu := (c.setA c.y).setNZ c.y

/-- The ticks of TYA (R291). -/
def tyaTicks : Table := impliedForm tyaOp

/-- The meaning of TYA (R360). -/
def execTya (s : State) : Result := run .tya tyaTicks s

/-- `TSX`, its operation: X from S (R361). -/
def tsxOp (c : Cpu) : Cpu := (c.setX c.sp).setNZ c.sp

/-- The ticks of TSX (R291). -/
def tsxTicks : Table := impliedForm tsxOp

/-- The meaning of TSX (R361). -/
def execTsx (s : State) : Result := run .tsx tsxTicks s

/-- `TXS`, its operation: S from X, no flag changes (R362). -/
def txsOp (c : Cpu) : Cpu := c.setSp c.x

/-- The ticks of TXS (R291). -/
def txsTicks : Table := impliedForm txsOp

/-- The meaning of TXS (R362). -/
def execTxs (s : State) : Result := run .txs txsTicks s

end Sys2Proof.Machine
end

