-- ==== Sys2Proof/Machine/Tables.lean ====
section
/-! DEFINITION. The tick table of every instruction, for a step that goes on in the middle of one (R283; log 5). -/

namespace Sys2Proof.Machine

/-- The ticks T2, T3, … of an instruction. -/
def tableOf (i : Instr) : Table :=
  match i with
  | .lda m => ldaTicks m
  | .ldx m => ldxTicks m
  | .ldy m => ldyTicks m
  | .sta m => staTicks m
  | .stx m => stxTicks m
  | .sty m => styTicks m
  | .tax => taxTicks
  | .tay => tayTicks
  | .txa => txaTicks
  | .tya => tyaTicks
  | .tsx => tsxTicks
  | .txs => txsTicks
  | .pha => phaTicks
  | .php => phpTicks
  | .pla => plaTicks
  | .plp => plpTicks
  | .adc m => adcTicks m
  | .sbc m => sbcTicks m
  | .and m => andTicks m
  | .ora m => oraTicks m
  | .eor m => eorTicks m
  | .cmp m => cmpTicks m
  | .cpx m => cpxTicks m
  | .cpy m => cpyTicks m
  | .bit m => bitTicks m
  | .inc m => incTicks m
  | .dec m => decTicks m
  | .inx => inxTicks
  | .iny => inyTicks
  | .dex => dexTicks
  | .dey => deyTicks
  | .asl m => aslTicks m
  | .lsr m => lsrTicks m
  | .rol m => rolTicks m
  | .ror m => rorTicks m
  | .jmp m => jmpTicks m
  | .jsr => jsrTicks
  | .rts => rtsTicks
  | .rti => rtiTicks
  | .brk => brkTicks
  | .bcc => bccTicks
  | .bcs => bcsTicks
  | .beq => beqTicks
  | .bmi => bmiTicks
  | .bne => bneTicks
  | .bpl => bplTicks
  | .bvc => bvcTicks
  | .bvs => bvsTicks
  | .clc => clcTicks
  | .sec => secTicks
  | .cli => cliTicks
  | .sei => seiTicks
  | .clv => clvTicks
  | .cld => cldTicks
  | .sed => sedTicks
  | .nop => nopTicks
  | .una _ => unaTicks

end Sys2Proof.Machine
end

