-- ==== Sys2Proof/Machine/Step.lean ====
section
/-! DEFINITION. One step: the next instruction or sequence from the boundary to its end (log 5), and the placing of
one instruction where the step fetches it (log 30). -/

namespace Sys2Proof.Machine

/-- What a step does after the CPU tick that it began with: an opcode was fetched and the instruction runs, or a
sequence began and runs to its end, or the tick was a DMA one and the step ends (R280-R282). -/
def afterFirstTick (s : State) : Result :=
  match s.cpu.eng with
  | .inInstr op _ _ => exec (decode op) s
  | .inSeq _ _ _ => runTicks [] tickBudget s
  | .boundary | .fetchNext => .next s

/-- One step. Between instructions: the next CPU tick, then what it began. Inside one: what is left of it. -/
def step (s : State) : Host.Outcome State Fault Refusal :=
  match s.cpu.eng with
  | .boundary | .fetchNext => andThen (cpuTick [] s) afterFirstTick
  | .inInstr op _ _ => runTicks (tableOf (decode op)) tickBudget s
  | .inSeq _ _ _ => runTicks [] tickBudget s

/-! ### Placing an instruction -/

/-- The address holds work RAM and nothing else answers a read there. -/
def ramBacked (s : State) (a : Addr) : Bool := firstMatch (·.readable) a s.bus == some .ram

/-- The PC and its two successors hold work RAM. -/
def fetchesRam (s : State) : Bool :=
  ramBacked s s.cpu.pc && ramBacked s (s.cpu.pc + 1) && ramBacked s (s.cpu.pc + 2)

/-- The program counter the instruction is placed at: the PC where work RAM is fetched from, else 0x0200. -/
def placeAt (s : State) : Addr := if fetchesRam s then s.cpu.pc else 0x0200

/-- The bus an instruction is fetched over: the state's own, or the NES map where that one has no work RAM at the
PC. -/
def placeBus (s : State) : List BusEntry := if fetchesRam s then s.bus else State.defaultBus

/-- Write bytes to work RAM from a bus address on. -/
def placeBytes : List Byte → Addr → Memory 8 → Memory 8
  | [], _, m => m
  | b :: rest, a, m => placeBytes rest (a + 1) (m.write (ramCell a) b)

/-- The unit takes its ticks. -/
def UnitCtl.ready (c : UnitCtl) : UnitCtl := { c with owed := 0, paused := false, disposed := false }

/-- The state whose very next step runs the instruction of a table word: its bytes stand at the PC, the Clock of
R219 runs, no interrupt and no DMA is under way, nothing is scheduled (log 30). -/
def State.withFetchWord (s : State) (nbits w : Nat) : State :=
  { s with
    clock := { s.clock with listeners := [.unit .ppu, .divider 0], running := true, disposed := false }
    dividers := [⟨Config.cpuDivisor, 1, 0, [.unit .cpu], none⟩]
    cpuUnit := s.cpuUnit.ready, ppuUnit := s.ppuUnit.ready, soundUnit := s.soundUnit.ready
    bus := placeBus s
    cpu := { s.cpu with pc := placeAt s, eng := .boundary }
    pend := ⟨false, false, false⟩
    dma := .idle
    ram := placeBytes (tableWordBytes nbits w) (placeAt s) s.ram
    schedule := [] }

end Sys2Proof.Machine
end

