-- ==== Sys2Proof/Safety.lean ====
section
/-! DEFINITION. What claims about the machine are stated in: the states a run is safe in, the invariant, the
situations an instruction is stated in, and instructions as one effect instead of ticks
(spec/42_cpu_engine.md R290-R300, spec/60_exceptions.md R713). -/

namespace Sys2Proof.Machine

/-! ### Reading a state -/

/-- The byte a bus read of an address gives, without the read's side effects. -/
def peek (a : Addr) (s : State) : Byte := (busRead a s).1

/-- The outcome is a next state that satisfies `p`. -/
def Result.ends (r : Result) (p : State → Prop) : Prop := ∃ t, r = .next t ∧ p t

/-- A memory in its canonical form with every cell below a bound. -/
def Memory.ok (n : Nat) (m : Memory w) : Bool := m.wf && m.below n

/-! ### The invariant -/

/-- A tick counter is within its bound (R32, R206). -/
def UnitCtl.ok (owedMax : Nat) (c : UnitCtl) : Bool := c.owed ≤ owedMax

/-- A divider's remainder is below a divisor that is at least 1 (R31, R207). -/
def Divider.ok (d : Divider) : Bool := 0 < d.num && 0 < d.den && (d.num < d.den || d.acc < d.num)

/-- The status register: U set, B clear (R41, R42). -/
def statusOk (p : Byte) : Bool := flag .u p && !flag .b p

/-- The engine's next tick is one that its table has (R43, R280). -/
def Engine.ok : Engine → Bool
  | .boundary | .fetchNext => true
  | .inInstr op k _ => 2 ≤ k && k - 2 < (tableOf (decode op)).length
  | .inSeq kind k _ => 1 ≤ k && k - 1 < kind.table.length

/-- A running DMA is at one of its 514 ticks (R46, R342). -/
def Dma.ok : Dma → Bool
  | .idle | .requested _ => true
  | .active _ k _ => 1 ≤ k && k ≤ 514

/-- A cartridge's memories are in canonical form. -/
def Cart.ok (c : Cart) : Bool := c.prg.wf && c.chr.wf

/-- The picture generator: position, counts, slots and memories within their bounds (R54-R57). -/
def Ppu.ok (p : Ppu) : Bool :=
  p.pos.scanline < 262 && p.pos.dot < 341 && p.spr.slots.length == 8 && p.spr.countNext ≤ 8 && p.spr.countCur ≤ 8 &&
  p.spr.oam.ok 256 && p.spr.oam2.ok 32 && p.mem.vram.ok 0x1000 && p.mem.palette.ok 32 && p.out.fb0.ok 61440 &&
  p.out.fb1.ok 61440

/-- A cartridge that the host is about to load is in order. -/
def Event.ok : Event → Bool
  | .emit | .unit _ => true
  | .host op => match op with
    | .load (some c) => c.ok
    | .load none | .addListener _ _ | .newDivider _ _ _ | .start | .disposeClock | .pause _ | .resume _ => true
    | .disposeUnit _ | .addComponent _ _ | .removeComponent _ | .busReset | .busIrq | .busNmi | .busRead _ => true
    | .busWrite _ _ | .keyDown _ _ | .keyUp _ _ | .registerSink | .getPixels | .getSample _ _ _ => true

/-- The invariant of the machine. -/
def State.ok (s : State) : Bool :=
  statusOk s.cpu.p && s.cpu.eng.ok && s.dma.ok && s.ram.ok 0x800 && s.ppu.ok && s.cart.ok &&
  s.dividers.all Divider.ok && s.cpuUnit.ok s.params.owedMax && s.ppuUnit.ok s.params.owedMax &&
  s.soundUnit.ok s.params.owedMax && s.schedule.all Event.ok

/-! ### Situations -/

/-- The component is one of R104's; an external one runs code of its own, which may call the bus (R254). -/
def Component.own : Component → Bool
  | .ext _ _ => false
  | .cpu | .ram | .ppu | .pads | .dma | .sound | .cart => true

/-- Every component of the table is one of R104's: none is external. -/
def noExternal (table : List BusEntry) : Bool := table.all fun e => e.component.own

/-- `Bus.IRQ()` and `Bus.NMI()` go to one of R104's components or to none (R255, R256): what raises them sets a latch
and runs no external code. -/
def plainSignals (table : List BusEntry) : Bool :=
  (firstCapable (·.irqCapable) table).all Component.own && (firstCapable (·.nmiCapable) table).all Component.own

/-- The processor has at least `n` ticks owed and nothing else happens meanwhile: no transition is scheduled, the
other units take no step, no DMA is asked for (R210, R214), and no component of the bus runs code of its own that could
call the bus (R254). Every other bus table and every instruction fits. -/
def cpuAlone (n : Nat) (s : State) : Bool :=
  s.schedule == [] && s.dma == .idle && n ≤ s.cpuUnit.owed && s.cpuUnit.policy == .async && !s.cpuUnit.paused &&
  !s.cpuUnit.disposed && !unitEnabled .ppu s && !unitEnabled .sound s && !s.ppuUnit.desynced && !s.soundUnit.desynced &&
  noExternal s.bus

/-- The unit owes nothing and takes its ticks. -/
def UnitCtl.idleReady (c : UnitCtl) : Bool := c.owed == 0 && !c.paused && !c.disposed

/-- The dividers are R219's: one, of three Clock ticks, to the processor. -/
def cpuDividerOnly : List Divider → Bool
  | [d] => d.num == 3 && d.den == 1 && d.acc < 3 && d.children == [.unit .cpu]
  | _ => false

/-- The Clock of R219 runs with the picture generator and the processor on it, every owed tick is consumed, nothing
is scheduled and no DMA is asked for. Any bus table of R104's components, any contents. -/
def runningNormally (s : State) : Bool :=
  s.schedule == [] && s.dma == .idle && s.clock.running && !s.clock.disposed &&
  s.clock.listeners == [.unit .ppu, .divider 0] && cpuDividerOnly s.dividers && s.cpuUnit.idleReady &&
  s.ppuUnit.idleReady && !unitEnabled .sound s && !s.soundUnit.desynced && 1 ≤ s.params.owedMax && noExternal s.bus

/-- No interrupt is taken at this boundary (R282). -/
def noneTaken (s : State) : Bool := !s.pend.reset && !s.pend.nmi && !(s.pend.irq && !flag .i s.cpu.p)

/-- An opcode byte that a step runs under the parameter `UNASSIGNED_OPCODE` (R472). -/
def runnable (s : State) (op : Byte) : Bool := s.params.unassigned == .nop2 || !unassignedOpcodes.contains op

/-- The DMA trigger is attached over no address of the stack page. -/
def dmaOffStack (table : List BusEntry) : Bool :=
  table.all fun e => e.component != .dma || (match e.range with
    | none => true
    | some (lo, hi) => 0x01FF < lo || hi < 0x0100)

/-- Work RAM answers a read of an address and nothing but work RAM takes a write of it. -/
def plainRam (s : State) (a : Addr) : Bool :=
  ramBacked s a && s.bus.all fun e => !e.covers a || !e.component.caps.writable || e.component == .ram

/-! ### Instructions as one effect -/

/-- An effective address, whether indexing crossed a page, and the state with the address's bus reads made. -/
structure Located where
  ea      : Addr
  crossed : Bool
  state   : State
  deriving DecidableEq, Repr

/-- Index a base address; the uncorrected address is read when the page was crossed, or `always` (R290). -/
def indexFrom (always : Bool) (base : Addr) (i : Byte) (s : State) : Located :=
  let ea := base + zext i
  let crossed := hiByte ea != hiByte base
  ⟨ea, crossed, if always || crossed then dummyRead (join (hiByte base) (loByte ea)) s else s⟩

/-- Two operand bytes, low byte first (R110). -/
def fetchWord (s : State) : Addr × State :=
  let lo := fetchByte s
  let hi := fetchByte lo.2
  (join hi.1 lo.1, hi.2)

/-- Two bytes of the zero page, low byte first, the pointer wrapping inside the page (R113). -/
def readPointer (ptr : Byte) (s : State) : Addr × State :=
  let lo := busRead (zext ptr) s
  let hi := busRead (zext (ptr + 1)) lo.2
  (join hi.1 lo.1, hi.2)

/-- The effective address of a memory mode (R293-R298); `always` as R162 says of the instruction. -/
def locate (always : Bool) (m : Mode) (s : State) : Located :=
  match m with
  | .zp =>
    let r := fetchByte s
    ⟨zext r.1, false, r.2⟩
  | .zpx | .zpy =>
    let r := fetchByte s
    let s := dummyRead (zext r.1) r.2
    ⟨zext (r.1 + indexOf m s.cpu), false, s⟩
  | .abs =>
    let r := fetchWord s
    ⟨r.1, false, r.2⟩
  | .absx | .absy =>
    let r := fetchWord s
    indexFrom always r.1 (indexOf m r.2.cpu) r.2
  | .indx =>
    let r := fetchByte s
    let s := dummyRead (zext r.1) r.2
    let q := readPointer (r.1 + s.cpu.x) s
    ⟨q.1, false, q.2⟩
  | .indy =>
    let r := fetchByte s
    let q := readPointer r.1 r.2
    indexFrom always q.1 q.2.cpu.y q.2
  | .imp | .acc | .imm | .ind | .rel => ⟨s.cpu.pc, false, s⟩

/-- An operand byte, whether indexing crossed a page, and the state with the operand's bus reads made. -/
structure Fetched where
  value   : Byte
  crossed : Bool
  state   : State
  deriving DecidableEq, Repr

/-- The operand of a read-form instruction (R292-R298). -/
def operand (m : Mode) (s : State) : Fetched :=
  match m with
  | .imm =>
    let r := fetchByte s
    ⟨r.1, false, r.2⟩
  | .imp | .acc | .zp | .zpx | .zpy | .abs | .absx | .absy | .ind | .indx | .indy | .rel =>
    let a := locate false m s
    let r := busRead a.ea a.state
    ⟨r.1, a.crossed, r.2⟩

/-- The tick count of an instruction by R161, the opcode fetch included: the base and one more where the index
crossed a page and the instruction counts it. -/
def tickCount (i : Instr) (crossed : Bool) : Nat := i.baseTicks + bitNat (i.pageTick && crossed)

/-- The processor has handled `n` more ticks and is at the boundary. -/
def finish (n : Nat) (s : State) : State :=
  (s.mapCpu fun c => { c with eng := .boundary, cycles := c.cycles + n }).mapUnit .cpu fun u => { u with owed := u.owed - n }

/-- The processor has handled `n` more ticks and fetches next. -/
def finishSeq (n : Nat) (s : State) : State :=
  (s.mapCpu fun c => { c with eng := .fetchNext, cycles := c.cycles + n }).mapUnit .cpu fun u => { u with owed := u.owed - n }

/-- The processor has handled `n` more ticks; its engine state is as given. -/
def retimed (n : Nat) (s : State) : State :=
  (s.mapCpu fun c => { c with cycles := c.cycles + n }).mapUnit .cpu fun u => { u with owed := u.owed - n }

/-- The read of the program counter whose byte is dropped (R291). -/
def idle (s : State) : State := dummyRead s.cpu.pc s

/-- The effect of a read-modify-write instruction on a located address (R293): read, write back, modify, write. -/
def modifyAt (mod : ModOp) (ea : Addr) (s : State) : State :=
  let r := busRead ea s
  let s := dummyWrite ea r.1 r.2
  let m := mod r.1 s.cpu
  busWrite ea m.1 (s.mapCpu fun _ => m.2)

/-- A value pulled in the tick after `S` was incremented, and the state (R350). -/
def pullNext (s : State) : Byte × State := readStack (s.mapCpu Cpu.incSp)

/-- Taking an interrupt, as one effect (R713): the PC is pushed, high byte first, then the status byte; I is set and
the PC comes from the vector. -/
def enterHandler (status : Byte → Byte) (vec : Addr) (s : State) : State :=
  let s := push (hiByte s.cpu.pc) s
  let s := push (loByte s.cpu.pc) s
  let s := push (status s.cpu.p) s
  let lo := busRead vec s
  let hi := busRead (vec + 1) (lo.2.mapCpu (Cpu.putFlag .i true))
  hi.2.mapCpu (Cpu.setPc (join hi.1 lo.1))

/-! ### The flags of P, bit by bit (R41) -/

/-- P with N and Z from a result: bit 7 of it, and whether it is 0 (R350). -/
def nzOf (v p : Byte) : Byte := (p &&& 0x7D) ||| (v &&& 0x80) ||| (if v = 0 then 0x02 else 0x00)

/-- P with C, bit 0. -/
def withC (b : Bool) (p : Byte) : Byte := (p &&& 0xFE) ||| (if b then 0x01 else 0x00)

/-- P with Z, bit 1. -/
def withZ (b : Bool) (p : Byte) : Byte := (p &&& 0xFD) ||| (if b then 0x02 else 0x00)

/-- P with I, bit 2. -/
def withI (b : Bool) (p : Byte) : Byte := (p &&& 0xFB) ||| (if b then 0x04 else 0x00)

/-- P with D, bit 3. -/
def withD (b : Bool) (p : Byte) : Byte := (p &&& 0xF7) ||| (if b then 0x08 else 0x00)

/-- P with V, bit 6. -/
def withV (b : Bool) (p : Byte) : Byte := (p &&& 0xBF) ||| (if b then 0x40 else 0x00)

/-- P with N, bit 7. -/
def withN (b : Bool) (p : Byte) : Byte := (p &&& 0x7F) ||| (if b then 0x80 else 0x00)

/-- The status byte PHP and BRK push, and the one an interrupt pushes and PLP and RTI load, as R42 writes them. -/
def statusPlus (bits p : Byte) : Byte := (p &&& 0xCF) + bits

/-- The registers after adding `m` and the carry to A: the sum as a number, C where it does not fit a byte, V where the
signed sum does not fit a signed byte (R400, R401). -/
def Cpu.added (m : Byte) (c : Cpu) : Cpu :=
  let n := c.a.toNat + m.toNat + (c.p &&& 1).toNat
  let z := c.a.toInt + m.toInt + ((c.p &&& 1).toNat : Int)
  let r := BitVec.ofNat 8 n
  { c with a := r, p := nzOf r (withV (decide (z < -128 ∨ 127 < z)) (withC (decide (255 < n)) c.p)) }

/-- The registers after comparing `r` with `m` (R406). -/
def Cpu.compared (r m : Byte) (c : Cpu) : Cpu := { c with p := nzOf (r - m) (withC (decide (m.toNat ≤ r.toNat)) c.p) }

/-! ### The sequences, tick by tick -/

/-- What the ticks of a reset or interrupt sequence have done, after each of them but the last (R330, R335); `s` is the
state with the latch of the sequence cleared. -/
def entryStates (kind : Sequence) (s : State) : List State :=
  match kind with
  | .reset =>
    let u := (s.mapCpu fun c => { c with a := 0, x := 0, y := 0, sp := 0xFD, p := 0x24 }).mapPend fun _ =>
      ⟨false, false, false⟩
    List.replicate 6 u ++ [(busRead 0xFFFC u).2]
  | .nmi | .irq =>
    let t2 := idle (idle s)
    let t3 := push (hiByte s.cpu.pc) t2
    let t4 := push (loByte s.cpu.pc) t3
    let t5 := push (statusPlus 0x20 s.cpu.p) t4
    [idle s, t2, t3, t4, t5, (busRead kind.vector t5).2.mapCpu (Cpu.putFlag .i true)]

/-- A step from `s` begins the sequence, and after each tick but the last the effects are those of `entryStates`. -/
def entersBy (kind : Sequence) (v s : State) : Prop :=
  ∀ k t, (entryStates kind v)[k]? = some t → ∃ lat, andThen (cpuTick [] s) (runTicks [] k) =
    .next (retimed (k + 1) (setEng (.inSeq kind (k + 2) lat) t))

/-! ### How an instruction runs when the processor is alone (R283) -/

/-- The opcodes of a mnemonic, by mode: these bytes and no others decode to it (R160, R161). -/
def encodedAs (mk : Mode → Instr) (rows : List (Mode × Byte)) : Prop := ∀ m op, decode op = mk m ↔ (m, op) ∈ rows

/-- The one opcode of a mnemonic. -/
def encodedBy (i : Instr) (op : Byte) : Prop := ∀ b, decode b = i ↔ b = op

/-- A read-form instruction: the operand is fetched as its mode says, and the operation makes the registers. -/
def readsOperand (mk : Mode → Instr) (op : Byte → Cpu → Cpu) : Prop :=
  ∀ (m : Mode) (s : State), (mk m).wf = true → cpuAlone 8 s = true →
    exec (mk m) s = .next (finish (tickCount (mk m) (operand m s).crossed - 1)
      ((operand m s).state.mapCpu (op (operand m s).value)))

/-- A write-form instruction: the byte goes to the effective address. -/
def storesByte (mk : Mode → Instr) (val : Cpu → Byte) : Prop :=
  ∀ (m : Mode) (s : State), (mk m).wf = true → cpuAlone 8 s = true →
    exec (mk m) s = .next (finish ((mk m).baseTicks - 1)
      (busWrite (locate true m s).ea (val s.cpu) (locate true m s).state))

/-- A read-modify-write instruction in its memory modes: the byte at the effective address is read, written back and
written anew. -/
def modifiesMemory (mk : Mode → Instr) (mod : ModOp) : Prop :=
  ∀ (m : Mode) (s : State), (mk m).wf = true → m ≠ .acc → cpuAlone 8 s = true →
    exec (mk m) s = .next (finish ((mk m).baseTicks - 1) (modifyAt mod (locate true m s).ea (locate true m s).state))

/-- An implied or accumulator instruction: one idle read of the PC, and the operation makes the registers. -/
def changesRegisters (i : Instr) (op : Cpu → Cpu) : Prop :=
  ∀ s : State, cpuAlone 8 s = true → exec i s = .next (finish 1 ((idle s).mapCpu op))

/-- A branch with its condition: the offset is fetched; not taken the PC stays behind it; taken the PC is read at and
becomes the target, with one more read in the old page when the target is in another (R299). -/
def branchesIf (i : Instr) (cond : Byte → Bool) : Prop :=
  ∀ s : State, cpuAlone 8 s = true →
    exec i s = .next (
      let f := fetchByte s
      let target := f.2.cpu.pc + sext f.1
      if cond s.cpu.p = false then finish 1 f.2
      else if hiByte target = hiByte f.2.cpu.pc then finish 2 ((idle f.2).mapCpu (Cpu.setPc target))
      else finish 3 ((dummyRead (join (hiByte f.2.cpu.pc) (loByte target)) (idle f.2)).mapCpu (Cpu.setPc target)))

/-- The state in which an opcode has just been fetched at the PC (R281). -/
def opcodeFetched (s : State) : State :=
  retimed 1 (setEng (.inInstr (fetchByte s).1 2 {}) (fetchByte s).2)

/-! ### Memory frames -/

/-- A write of the address reaches a component. -/
def reaches (c : Component) (a : Addr) (s : State) : Bool :=
  s.bus.any fun e => e.component == c && e.covers a && e.component.caps.writable

/-- No memory cell differs: work RAM, cartridge memory, nametable RAM, palette, object table. -/
def sameMemory (s t : State) : Prop :=
  t.ram = s.ram ∧ t.cart.prg = s.cart.prg ∧ t.cart.chr = s.cart.chr ∧ t.ppu.mem = s.ppu.mem ∧ t.ppu.spr.oam = s.ppu.spr.oam

/-- Nothing is stored but at bus address `a`: no work RAM cell but the one of `a` differs, and a component's memory and
latches differ only if a write of `a` reaches it. -/
def storesOnlyAt (a : Addr) (s t : State) : Prop :=
  (∀ n, n ≠ ramCell a → t.ram.read n = s.ram.read n) ∧
  (∀ b, ramBacked s b = true → ramCell b ≠ ramCell a → peek b t = peek b s) ∧
  (reaches .ram a s = false → t.ram = s.ram) ∧
  (reaches .cart a s = false → t.cart.prg = s.cart.prg) ∧
  (reaches .ppu a s = false → t.cart.chr = s.cart.chr ∧ t.ppu.mem = s.ppu.mem ∧ t.ppu.spr.oam = s.ppu.spr.oam ∧
    t.ppu.regs.ctrl = s.ppu.regs.ctrl ∧ t.ppu.regs.mask = s.ppu.regs.mask ∧ t.ppu.regs.oamaddr = s.ppu.regs.oamaddr) ∧
  (reaches .dma a s = false → t.dma = s.dma) ∧
  t.pads.buttons0 = s.pads.buttons0 ∧ t.pads.buttons1 = s.pads.buttons1 ∧ t.bus = s.bus ∧ t.params = s.params

/-! ### Clock and dividers -/

/-- A unit that the Clock reaches: a listener of the Clock, or a child of a reachable divider (R204). -/
inductive Heard (s : State) : Listener → Prop where
  | direct {l : Listener} : l ∈ s.clock.listeners → Heard s l
  | through {i : Nat} {d : Divider} {l : Listener} : Heard s (.divider i) → s.dividers[i]? = some d → l ∈ d.children → Heard s l

/-- `k` parent ticks fed to a divider: its accumulator, and how many child ticks it emitted (R207). -/
def feedTimes (law : Config.DividerLaw) : Nat → Divider → Divider × Nat
  | 0, d => (d, 0)
  | k + 1, d =>
    let r := feedTimes law k d
    let q := r.1.feed law
    (q.1, r.2 + q.2)

/-- `k` emit steps, with no unit step between (R205). -/
def emitTimes : Nat → State → Result
  | 0, s => .next s
  | k + 1, s => andThen (emitTimes k s) emit

/-- `k` steps of the machine. -/
def stepTimes : Nat → State → Result
  | 0, s => .next s
  | k + 1, s => andThen (stepTimes k s) step

/-- `k` dots of the picture generator. -/
def dots : Nat → State → State
  | 0, s => s
  | k + 1, s => ppuHandler (dots k s)

/-- `k` reads of one bus address: the bytes, oldest first, and the state. -/
def readTimes (a : Addr) : Nat → State → List Byte × State
  | 0, s => ([], s)
  | k + 1, s =>
    let r := readTimes a k s
    let q := busRead a r.2
    (r.1 ++ [q.1], q.2)

/-! ### The picture generator's lines -/

/-- Rendering work is done at the beam's position: a visible line or the pre-render line with rendering enabled
(R500, R505). -/
def Ppu.works (p : Ppu) : Bool := (p.pos.scanline ≤ 239 || p.pos.scanline == 261) && p.rendering

/-- `v` after a dot of rendering work, from `v` and `t` before it (R511, R517, R518, R519). -/
def scrollAfter (ln d : Nat) (v t : Scroll) : Scroll :=
  if d % 8 = 0 ∧ (8 ≤ d ∧ d ≤ 248 ∨ 328 ≤ d ∧ d ≤ 336) then incX v
  else if d = 256 then incY (incX v)
  else if d = 257 then copyX v t
  else if ln = 261 ∧ 280 ≤ d ∧ d ≤ 304 then copyY v t
  else v

end Sys2Proof.Machine

namespace Sys2Proof

/-! ### What an instruction may write -/

/-- The instruction's destination is A. -/
def Instr.writesA : Instr → Bool
  | .lda _ | .adc _ | .sbc _ | .and _ | .ora _ | .eor _ | .txa | .tya | .pla => true
  | .asl m | .lsr m | .rol m | .ror m => m == .acc
  | .ldx _ | .ldy _ | .sta _ | .stx _ | .sty _ | .tax | .tay | .tsx | .txs | .pha | .php | .plp => false
  | .cmp _ | .cpx _ | .cpy _ | .bit _ | .inc _ | .dec _ | .inx | .iny | .dex | .dey | .jmp _ | .jsr => false
  | .rts | .rti | .brk | .bcc | .bcs | .beq | .bmi | .bne | .bpl | .bvc | .bvs => false
  | .clc | .sec | .cli | .sei | .clv | .cld | .sed | .nop | .una _ => false

/-- The instruction's destination is X. -/
def Instr.writesX : Instr → Bool
  | .ldx _ | .tax | .tsx | .inx | .dex => true
  | .lda _ | .ldy _ | .sta _ | .stx _ | .sty _ | .tay | .txa | .tya | .txs | .pha | .php | .pla | .plp => false
  | .adc _ | .sbc _ | .and _ | .ora _ | .eor _ | .cmp _ | .cpx _ | .cpy _ | .bit _ | .inc _ | .dec _ => false
  | .iny | .dey | .asl _ | .lsr _ | .rol _ | .ror _ | .jmp _ | .jsr | .rts | .rti | .brk => false
  | .bcc | .bcs | .beq | .bmi | .bne | .bpl | .bvc | .bvs => false
  | .clc | .sec | .cli | .sei | .clv | .cld | .sed | .nop | .una _ => false

/-- The instruction's destination is Y. -/
def Instr.writesY : Instr → Bool
  | .ldy _ | .tay | .iny | .dey => true
  | .lda _ | .ldx _ | .sta _ | .stx _ | .sty _ | .tax | .txa | .tya | .tsx | .txs | .pha | .php | .pla | .plp => false
  | .adc _ | .sbc _ | .and _ | .ora _ | .eor _ | .cmp _ | .cpx _ | .cpy _ | .bit _ | .inc _ | .dec _ => false
  | .inx | .dex | .asl _ | .lsr _ | .rol _ | .ror _ | .jmp _ | .jsr | .rts | .rti | .brk => false
  | .bcc | .bcs | .beq | .bmi | .bne | .bpl | .bvc | .bvs => false
  | .clc | .sec | .cli | .sei | .clv | .cld | .sed | .nop | .una _ => false

/-- The instruction pushes, pulls, or is TXS. -/
def Instr.writesS : Instr → Bool
  | .txs | .pha | .php | .pla | .plp | .jsr | .rts | .rti | .brk => true
  | .lda _ | .ldx _ | .ldy _ | .sta _ | .stx _ | .sty _ | .tax | .tay | .txa | .tya | .tsx => false
  | .adc _ | .sbc _ | .and _ | .ora _ | .eor _ | .cmp _ | .cpx _ | .cpy _ | .bit _ | .inc _ | .dec _ => false
  | .inx | .iny | .dex | .dey | .asl _ | .lsr _ | .rol _ | .ror _ | .jmp _ => false
  | .bcc | .bcs | .beq | .bmi | .bne | .bpl | .bvc | .bvs => false
  | .clc | .sec | .cli | .sei | .clv | .cld | .sed | .nop | .una _ => false

/-- The flags the instruction's rule names (R351-R366, R401-R419, R451-R472). -/
def Instr.flags : Instr → List Machine.Flag
  | .lda _ | .ldx _ | .ldy _ | .tax | .tay | .txa | .tya | .tsx | .pla => [.n, .z]
  | .sta _ | .stx _ | .sty _ | .txs | .pha | .php => []
  | .plp | .rti => [.c, .z, .i, .d, .v, .n]
  | .adc _ | .sbc _ => [.n, .v, .z, .c]
  | .and _ | .ora _ | .eor _ | .inc _ | .dec _ | .inx | .iny | .dex | .dey => [.n, .z]
  | .cmp _ | .cpx _ | .cpy _ | .asl _ | .lsr _ | .rol _ | .ror _ => [.n, .z, .c]
  | .bit _ => [.n, .v, .z]
  | .jmp _ | .jsr | .rts | .bcc | .bcs | .beq | .bmi | .bne | .bpl | .bvc | .bvs | .nop | .una _ => []
  | .brk | .cli | .sei => [.i]
  | .clc | .sec => [.c]
  | .clv => [.v]
  | .cld | .sed => [.d]

/-- The instruction has no tick that stores: a read, implied, accumulator, pull, jump, branch or no-op form. -/
def Instr.storesNothing : Instr → Bool
  | .sta _ | .stx _ | .sty _ | .pha | .php | .inc _ | .dec _ | .jsr | .brk => false
  | .asl m | .lsr m | .rol m | .ror m => m == .acc
  | .lda _ | .ldx _ | .ldy _ | .tax | .tay | .txa | .tya | .tsx | .txs | .pla | .plp => true
  | .adc _ | .sbc _ | .and _ | .ora _ | .eor _ | .cmp _ | .cpx _ | .cpy _ | .bit _ => true
  | .inx | .iny | .dex | .dey | .jmp _ | .rts | .rti => true
  | .bcc | .bcs | .beq | .bmi | .bne | .bpl | .bvc | .bvs => true
  | .clc | .sec | .cli | .sei | .clv | .cld | .sed | .nop | .una _ => true

end Sys2Proof

namespace Sys2Proof.Machine

/-! ### Runs of atomic transitions (R212) -/

/-- The tick table of the instruction under way, if one is. -/
def currentTable (s : State) : Table :=
  match s.cpu.eng with
  | .inInstr op _ _ => tableOf (decode op)
  | .boundary | .fetchNext | .inSeq _ _ _ => []

/-- One state goes to another by one enabled atomic transition (R212); `schedule`, the model's own field, is left
aside. -/
def Transition (s t : State) : Prop :=
  ∃ e es, enabled e s = true ∧ fire (currentTable s) e (s.setSchedule es) = .next t

/-- One state goes to another by a run of atomic transitions (R212), with `schedule` left aside. -/
inductive Reaches : State → State → Prop where
  | refl (s : State) (es : List Event) : Reaches s (s.setSchedule es)
  | tail {s t u : State} (es : List Event) : Reaches s t → Transition t u → Reaches s (u.setSchedule es)

end Sys2Proof.Machine
end

