-- ==== Sys2Proof/Certificates/Slice0/Obligations.lean ====
section
/-! DEFINITION. What is to be proved about the model. Each statement's docstring names the rules of spec/ it
formalises. "The processor is alone" is `cpuAlone`: it owes enough ticks and nothing else steps meanwhile, so that an
instruction's effect is one function of the state; over any bus table of the components of R104 and any contents. -/

open Sys2Proof Sys2Proof.Machine

/-! ### Encoding -/

/-- R150, R151, R161, R163: an encoded well-formed instruction, with every operand byte at every value, decodes to
itself, and what follows it is left over. -/
def Obligations.DecodeOfEncodeIsIdentity : Prop :=
  ∀ (c : Code) (rest : List Byte), c.wf = true → decodeBytes (c.bytes ++ rest) = .ok (c, rest)

/-- R165, R163: the decoder is total, what it gives is well formed, encoding gives the opcode byte back, and a byte is
an unassigned slot exactly when it is one of the 105 listed. -/
def Obligations.EveryByteDecodesAndEncodesBack : Prop :=
  ∀ op : Byte, (decode op).wf = true ∧ encode (decode op) = some op ∧
    (decode op = .una op ↔ op ∈ unassignedOpcodes) ∧ unassignedOpcodes.length = 105

/-- R151, R160, R166: the examples of the assembler syntax, byte for byte. -/
def Obligations.SyntaxExamplesDecode : Prop :=
  decodeBytes [0xE8] = .ok (⟨.inx, .none⟩, []) ∧
  decodeBytes [0x0A] = .ok (⟨.asl .acc, .none⟩, []) ∧
  decodeBytes [0xA9, 0x10] = .ok (⟨.lda .imm, .one 0x10⟩, []) ∧
  decodeBytes [0xA5, 0x10] = .ok (⟨.lda .zp, .one 0x10⟩, []) ∧
  decodeBytes [0xB5, 0x10] = .ok (⟨.lda .zpx, .one 0x10⟩, []) ∧
  decodeBytes [0xB6, 0x10] = .ok (⟨.ldx .zpy, .one 0x10⟩, []) ∧
  decodeBytes [0xAD, 0x34, 0x12] = .ok (⟨.lda .abs, .two 0x34 0x12⟩, []) ∧
  decodeBytes [0xBD, 0x34, 0x12] = .ok (⟨.lda .absx, .two 0x34 0x12⟩, []) ∧
  decodeBytes [0xB9, 0x34, 0x12] = .ok (⟨.lda .absy, .two 0x34 0x12⟩, []) ∧
  decodeBytes [0x6C, 0x34, 0x12] = .ok (⟨.jmp .ind, .two 0x34 0x12⟩, []) ∧
  decodeBytes [0xA1, 0x10] = .ok (⟨.lda .indx, .one 0x10⟩, []) ∧
  decodeBytes [0xB1, 0x10] = .ok (⟨.lda .indy, .one 0x10⟩, []) ∧
  decodeBytes [0xD0, 0xFB] = .ok (⟨.bne, .one 0xFB⟩, [])

/-! ### Loads, stores, transfers, stack -/

/-- R351, R352, R353. -/
def Obligations.LoadsSetRegisterAndNZ : Prop :=
  encodedAs .lda [(.imm, 0xA9), (.zp, 0xA5), (.zpx, 0xB5), (.abs, 0xAD), (.absx, 0xBD), (.absy, 0xB9), (.indx, 0xA1),
    (.indy, 0xB1)] ∧
  encodedAs .ldx [(.imm, 0xA2), (.zp, 0xA6), (.zpy, 0xB6), (.abs, 0xAE), (.absy, 0xBE)] ∧
  encodedAs .ldy [(.imm, 0xA0), (.zp, 0xA4), (.zpx, 0xB4), (.abs, 0xAC), (.absx, 0xBC)] ∧
  readsOperand .lda (fun m c => { c with a := m, p := nzOf m c.p }) ∧
  readsOperand .ldx (fun m c => { c with x := m, p := nzOf m c.p }) ∧
  readsOperand .ldy (fun m c => { c with y := m, p := nzOf m c.p })

/-- R354, R355, R356. -/
def Obligations.StoresWriteRegisterAtAddress : Prop :=
  encodedAs .sta [(.zp, 0x85), (.zpx, 0x95), (.abs, 0x8D), (.absx, 0x9D), (.absy, 0x99), (.indx, 0x81), (.indy, 0x91)] ∧
  encodedAs .stx [(.zp, 0x86), (.zpy, 0x96), (.abs, 0x8E)] ∧
  encodedAs .sty [(.zp, 0x84), (.zpx, 0x94), (.abs, 0x8C)] ∧
  storesByte .sta Cpu.a ∧ storesByte .stx Cpu.x ∧ storesByte .sty Cpu.y ∧
  (Instr.sta .absx).baseTicks = 5 ∧ (Instr.sta .absy).baseTicks = 5 ∧ (Instr.sta .indy).baseTicks = 6

/-- R357 to R362. -/
def Obligations.TransfersCopyRegister : Prop :=
  encodedBy .tax 0xAA ∧ encodedBy .tay 0xA8 ∧ encodedBy .txa 0x8A ∧ encodedBy .tya 0x98 ∧ encodedBy .tsx 0xBA ∧
  encodedBy .txs 0x9A ∧
  changesRegisters .tax (fun c => { c with x := c.a, p := nzOf c.a c.p }) ∧
  changesRegisters .tay (fun c => { c with y := c.a, p := nzOf c.a c.p }) ∧
  changesRegisters .txa (fun c => { c with a := c.x, p := nzOf c.x c.p }) ∧
  changesRegisters .tya (fun c => { c with a := c.y, p := nzOf c.y c.p }) ∧
  changesRegisters .tsx (fun c => { c with x := c.sp, p := nzOf c.sp c.p }) ∧
  changesRegisters .txs (fun c => { c with sp := c.x })

/-- R363 to R366: after an idle read a push stores at `0x0100 + S` and S goes down by one, modulo 256; after an idle read
and a dropped read of the stack, S goes up by one and the byte there is loaded; bits 4 and 5 of a pulled status are
ignored. -/
def Obligations.PushesAndPullsMoveStackPointer : Prop :=
  encodedBy .pha 0x48 ∧ encodedBy .php 0x08 ∧ encodedBy .pla 0x68 ∧ encodedBy .plp 0x28 ∧
  ∀ s : State, cpuAlone 8 s = true →
    let r := busRead (0x0100 + zext (s.cpu.sp + 1)) (dummyRead (0x0100 + zext s.cpu.sp) (idle s))
    exec .pha s = .next (finish 2 ((busWrite (0x0100 + zext s.cpu.sp) s.cpu.a (idle s)).mapCpu fun c =>
      { c with sp := c.sp - 1 })) ∧
    exec .php s = .next (finish 2 ((busWrite (0x0100 + zext s.cpu.sp) (statusPlus 0x30 s.cpu.p) (idle s)).mapCpu fun c =>
      { c with sp := c.sp - 1 })) ∧
    exec .pla s = .next (finish 3 (r.2.mapCpu fun c => { c with sp := c.sp + 1, a := r.1, p := nzOf r.1 c.p })) ∧
    exec .plp s = .next (finish 3 (r.2.mapCpu fun c => { c with sp := c.sp + 1, p := statusPlus 0x20 r.1 }))

/-! ### Arithmetic and logic -/

/-- R401, R402 and law 2 of R400: SBC is ADC of the complement, in result and in every flag. -/
def Obligations.AddAndSubtractWithCarry : Prop :=
  encodedAs .adc [(.imm, 0x69), (.zp, 0x65), (.zpx, 0x75), (.abs, 0x6D), (.absx, 0x7D), (.absy, 0x79), (.indx, 0x61),
    (.indy, 0x71)] ∧
  encodedAs .sbc [(.imm, 0xE9), (.zp, 0xE5), (.zpx, 0xF5), (.abs, 0xED), (.absx, 0xFD), (.absy, 0xF9), (.indx, 0xE1),
    (.indy, 0xF1)] ∧
  readsOperand .adc Cpu.added ∧
  readsOperand .sbc (fun m c => c.added (m ^^^ 0xFF))

/-- R400 item 4, R41: PHP and BRK push P, and no other instruction reads D. Two states that differ only in D, and run one
of the others, end in states that differ only in D; where the instruction writes D, in one state. -/
def Obligations.DecimalFlagIsReadByNoArithmetic : Prop :=
  ∀ (i : Instr) (s t : State), i.wf = true → i ≠ .php → i ≠ .brk → runnable s (opcodeOf i) = true →
    cpuAlone 8 s = true → dmaOffStack s.bus = true → exec i s = .next t →
    ∀ b, exec i (s.mapCpu fun c => { c with p := withD b c.p }) = .next
      (if i ∈ [.cld, .sed, .plp, .rti] then t else t.mapCpu fun c => { c with p := withD b c.p })

/-- R403, R404, R405. -/
def Obligations.LogicCombinesIntoAccumulator : Prop :=
  encodedAs .and [(.imm, 0x29), (.zp, 0x25), (.zpx, 0x35), (.abs, 0x2D), (.absx, 0x3D), (.absy, 0x39), (.indx, 0x21),
    (.indy, 0x31)] ∧
  encodedAs .ora [(.imm, 0x09), (.zp, 0x05), (.zpx, 0x15), (.abs, 0x0D), (.absx, 0x1D), (.absy, 0x19), (.indx, 0x01),
    (.indy, 0x11)] ∧
  encodedAs .eor [(.imm, 0x49), (.zp, 0x45), (.zpx, 0x55), (.abs, 0x4D), (.absx, 0x5D), (.absy, 0x59), (.indx, 0x41),
    (.indy, 0x51)] ∧
  readsOperand .and (fun m c => { c with a := c.a &&& m, p := nzOf (c.a &&& m) c.p }) ∧
  readsOperand .ora (fun m c => { c with a := c.a ||| m, p := nzOf (c.a ||| m) c.p }) ∧
  readsOperand .eor (fun m c => { c with a := c.a ^^^ m, p := nzOf (c.a ^^^ m) c.p })

/-- R406, R407, R408, R409: only flags change. -/
def Obligations.CompareAndBitTestSetFlags : Prop :=
  encodedAs .cmp [(.imm, 0xC9), (.zp, 0xC5), (.zpx, 0xD5), (.abs, 0xCD), (.absx, 0xDD), (.absy, 0xD9), (.indx, 0xC1),
    (.indy, 0xD1)] ∧
  encodedAs .cpx [(.imm, 0xE0), (.zp, 0xE4), (.abs, 0xEC)] ∧
  encodedAs .cpy [(.imm, 0xC0), (.zp, 0xC4), (.abs, 0xCC)] ∧
  readsOperand .cmp (fun m c => c.compared c.a m) ∧
  readsOperand .cpx (fun m c => c.compared c.x m) ∧
  readsOperand .cpy (fun m c => c.compared c.y m) ∧
  encodedAs .bit [(.zp, 0x24), (.abs, 0x2C)] ∧
  readsOperand .bit (fun m c =>
    { c with p := withZ (decide (c.a &&& m = 0)) (withN (decide (128 ≤ m.toNat)) (withV (m.getLsbD 6) c.p)) })

/-- R410 to R415. -/
def Obligations.IncrementAndDecrement : Prop :=
  encodedAs .inc [(.zp, 0xE6), (.zpx, 0xF6), (.abs, 0xEE), (.absx, 0xFE)] ∧
  encodedAs .dec [(.zp, 0xC6), (.zpx, 0xD6), (.abs, 0xCE), (.absx, 0xDE)] ∧
  encodedBy .inx 0xE8 ∧ encodedBy .iny 0xC8 ∧ encodedBy .dex 0xCA ∧ encodedBy .dey 0x88 ∧
  modifiesMemory .inc (fun v c => (v + 1, { c with p := nzOf (v + 1) c.p })) ∧
  modifiesMemory .dec (fun v c => (v - 1, { c with p := nzOf (v - 1) c.p })) ∧
  changesRegisters .inx (fun c => { c with x := c.x + 1, p := nzOf (c.x + 1) c.p }) ∧
  changesRegisters .iny (fun c => { c with y := c.y + 1, p := nzOf (c.y + 1) c.p }) ∧
  changesRegisters .dex (fun c => { c with x := c.x - 1, p := nzOf (c.x - 1) c.p }) ∧
  changesRegisters .dey (fun c => { c with y := c.y - 1, p := nzOf (c.y - 1) c.p }) ∧
  (Instr.inc .zp).baseTicks = 5 ∧ (Instr.inc .absx).baseTicks = 7

/-- R416 to R419, the results as numbers: doubled or halved, with the carry entering where a rotate takes it in. -/
def Obligations.ShiftsMoveBitThroughCarry : Prop :=
  encodedAs .asl [(.acc, 0x0A), (.zp, 0x06), (.zpx, 0x16), (.abs, 0x0E), (.absx, 0x1E)] ∧
  encodedAs .lsr [(.acc, 0x4A), (.zp, 0x46), (.zpx, 0x56), (.abs, 0x4E), (.absx, 0x5E)] ∧
  encodedAs .rol [(.acc, 0x2A), (.zp, 0x26), (.zpx, 0x36), (.abs, 0x2E), (.absx, 0x3E)] ∧
  encodedAs .ror [(.acc, 0x6A), (.zp, 0x66), (.zpx, 0x76), (.abs, 0x6E), (.absx, 0x7E)] ∧
  (∀ (mk : Mode → Instr) (r : Byte → Byte → Byte) (out : Byte → Bool),
    (mk, r, out) ∈ [(Instr.asl, fun v _ => BitVec.ofNat 8 (2 * v.toNat), fun v => decide (128 ≤ v.toNat)),
      (Instr.lsr, fun v _ => BitVec.ofNat 8 (v.toNat / 2), fun v => decide (v.toNat % 2 = 1)),
      (Instr.rol, fun v p => BitVec.ofNat 8 (2 * v.toNat + p.toNat % 2), fun v => decide (128 ≤ v.toNat)),
      (Instr.ror, fun v p => BitVec.ofNat 8 (v.toNat / 2 + 128 * (p.toNat % 2)), fun v => decide (v.toNat % 2 = 1))] →
    modifiesMemory mk (fun v c => (r v c.p, { c with p := nzOf (r v c.p) (withC (out v) c.p) })) ∧
    changesRegisters (mk .acc) (fun c => { c with a := r c.a c.p, p := nzOf (r c.a c.p) (withC (out c.a) c.p) }))

/-! ### Jumps, calls, returns, branches, flags, no-ops -/

/-- R451 to R454, R300: JMP goes to the target behind the opcode, or to the one at the pointer, whose second byte is in the
pointer's page; JSR pushes the address of its last byte, high byte first, and goes to its operand; RTS pulls an address
and goes on behind it; RTI pulls P and then an address, and goes to it. For JSR the DMA trigger stands over no stack
address, so that its pushes ask for no DMA in the middle of it. -/
def Obligations.JumpsCallsAndReturns : Prop :=
  encodedAs .jmp [(.abs, 0x4C), (.ind, 0x6C)] ∧ encodedBy .jsr 0x20 ∧ encodedBy .rts 0x60 ∧ encodedBy .rti 0x40 ∧
  ∀ s : State, cpuAlone 8 s = true →
    (exec (.jmp .abs) s = .next (
      let lo := fetchByte s
      let hi := busRead (s.cpu.pc + 1) lo.2
      finish 2 (hi.2.mapCpu fun c => { c with pc := join hi.1 lo.1 }))) ∧
    (exec (.jmp .ind) s = .next (
      let ptr := fetchWord s
      let lo := busRead ptr.1 ptr.2
      let hi := busRead (join (hiByte ptr.1) (loByte ptr.1 + 1)) lo.2
      finish 4 (hi.2.mapCpu fun c => { c with pc := join hi.1 lo.1 }))) ∧
    (dmaOffStack s.bus = true → exec .jsr s = .next (
      let lo := fetchByte s
      let u := dummyRead (0x0100 + zext s.cpu.sp) lo.2
      let u := busWrite (0x0100 + zext s.cpu.sp) (hiByte (s.cpu.pc + 1)) u
      let u := busWrite (0x0100 + zext (s.cpu.sp - 1)) (loByte (s.cpu.pc + 1)) u
      let hi := busRead (s.cpu.pc + 1) u
      finish 5 (hi.2.mapCpu fun c => { c with sp := c.sp - 2, pc := join hi.1 lo.1 }))) ∧
    (exec .rts s = .next (
      let u := dummyRead (0x0100 + zext s.cpu.sp) (idle s)
      let lo := busRead (0x0100 + zext (s.cpu.sp + 1)) u
      let hi := busRead (0x0100 + zext (s.cpu.sp + 2)) lo.2
      finish 5 ((dummyRead (join hi.1 lo.1) hi.2).mapCpu fun c => { c with sp := c.sp + 2, pc := join hi.1 lo.1 + 1 }))) ∧
    (exec .rti s = .next (
      let u := dummyRead (0x0100 + zext s.cpu.sp) (idle s)
      let v := busRead (0x0100 + zext (s.cpu.sp + 1)) u
      let lo := busRead (0x0100 + zext (s.cpu.sp + 2)) v.2
      let hi := busRead (0x0100 + zext (s.cpu.sp + 3)) lo.2
      finish 5 (hi.2.mapCpu fun c => { c with sp := c.sp + 3, p := statusPlus 0x20 v.1, pc := join hi.1 lo.1 })))

/-- R455: BRK skips its padding byte and pushes the PC behind it and P with B and U, sets I and goes to the IRQ
vector. -/
def Obligations.BreakTakesIrqVector : Prop :=
  encodedBy .brk 0x00 ∧
  ∀ s : State, cpuAlone 8 s = true → dmaOffStack s.bus = true →
    exec .brk s = .next (
      let u := (idle s).mapCpu fun c => { c with pc := c.pc + 1 }
      let u := busWrite (0x0100 + zext s.cpu.sp) (hiByte (s.cpu.pc + 1)) u
      let u := busWrite (0x0100 + zext (s.cpu.sp - 1)) (loByte (s.cpu.pc + 1)) u
      let u := busWrite (0x0100 + zext (s.cpu.sp - 2)) (statusPlus 0x30 s.cpu.p) u
      let lo := busRead 0xFFFE u
      let hi := busRead 0xFFFF lo.2
      finish 6 (hi.2.mapCpu fun c => { c with sp := c.sp - 3, p := withI true c.p, pc := join hi.1 lo.1 }))

/-- R456 to R463, R299, R153. -/
def Obligations.BranchesGoToTargetIfConditionHolds : Prop :=
  encodedBy .bcc 0x90 ∧ encodedBy .bcs 0xB0 ∧ encodedBy .beq 0xF0 ∧ encodedBy .bmi 0x30 ∧ encodedBy .bne 0xD0 ∧
  encodedBy .bpl 0x10 ∧ encodedBy .bvc 0x50 ∧ encodedBy .bvs 0x70 ∧
  branchesIf .bcc (fun p => p.getLsbD 0 == false) ∧ branchesIf .bcs (fun p => p.getLsbD 0) ∧
  branchesIf .beq (fun p => p.getLsbD 1) ∧ branchesIf .bmi (fun p => p.getLsbD 7) ∧
  branchesIf .bne (fun p => p.getLsbD 1 == false) ∧ branchesIf .bpl (fun p => p.getLsbD 7 == false) ∧
  branchesIf .bvc (fun p => p.getLsbD 6 == false) ∧ branchesIf .bvs (fun p => p.getLsbD 6)

/-- R464 to R470: each flag instruction writes its flag; after CLI a pending IRQ is taken at the next boundary, after SEI
none is; D does not enter the sum of ADC and SBC. -/
def Obligations.FlagInstructionsWriteOneFlag : Prop :=
  encodedBy .clc 0x18 ∧ encodedBy .sec 0x38 ∧ encodedBy .cli 0x58 ∧ encodedBy .sei 0x78 ∧ encodedBy .clv 0xB8 ∧
  encodedBy .cld 0xD8 ∧ encodedBy .sed 0xF8 ∧
  changesRegisters .clc (fun c => { c with p := withC false c.p }) ∧
  changesRegisters .sec (fun c => { c with p := withC true c.p }) ∧
  changesRegisters .cli (fun c => { c with p := withI false c.p }) ∧
  changesRegisters .sei (fun c => { c with p := withI true c.p }) ∧
  changesRegisters .clv (fun c => { c with p := withV false c.p }) ∧
  changesRegisters .cld (fun c => { c with p := withD false c.p }) ∧
  changesRegisters .sed (fun c => { c with p := withD true c.p }) ∧
  (∀ s t : State, exec .cli s = .next t → t.pend.irq = true → t.cpu.eng = .boundary → noneTaken t = false) ∧
  (∀ s t : State, exec .sei s = .next t → t.pend.reset = false → t.pend.nmi = false → t.cpu.eng = .boundary →
    noneTaken t = true) ∧
  (∀ (b : Bool) (m : Byte) (c : Cpu), Cpu.added m { c with p := withD b c.p } =
    { c.added m with p := withD b (c.added m).p })

/-- R471, R472: NOP changes no register but the PC and the tick count; under the default `nop2` an unassigned slot is
the same no-op; under `refuse` a step that fetches one stops with its fault in the state before it, and no other
opcode fetched stops so. -/
def Obligations.NoOpsChangeNothing : Prop :=
  encodedBy .nop 0xEA ∧ changesRegisters .nop (fun c => c) ∧
  (∀ (op : Byte) (s : State), op ∈ unassignedOpcodes → s.params.unassigned = .nop2 → cpuAlone 8 s = true →
    exec (.una op) s = .next (finish 1 (idle s))) ∧
  ∀ s : State, s.cpu.eng = .boundary → noneTaken s = true → cpuAlone 9 s = true → s.params.unassigned = .refuse →
    dmaOffStack s.bus = true →
    (step s = .fault (.unassignedOpcode s) ↔ peek s.cpu.pc s ∈ unassignedOpcodes)

/-! ### Frames -/

/-- R351 to R366, R401 to R419, R451 to R472: in every state and in whatever the other units do meanwhile, an
instruction that ends in a next state leaves A, X, Y and S alone unless its rule names the register. -/
def Obligations.RegistersOutsideDestinationUnchanged : Prop :=
  ∀ (i : Instr) (s t : State), exec i s = .next t →
    (i.writesA = false → t.cpu.a = s.cpu.a) ∧ (i.writesX = false → t.cpu.x = s.cpu.x) ∧
    (i.writesY = false → t.cpu.y = s.cpu.y) ∧ (i.writesS = false → t.cpu.sp = s.cpu.sp)

/-- R41, R42 and the "Flags" line of every instruction's rule: a flag the rule does not name is unchanged, whatever the
other units do meanwhile; U and B, which R42 fixes, included. -/
def Obligations.FlagsOutsideRuleUnchanged : Prop :=
  ∀ (i : Instr) (s t : State), statusOk s.cpu.p = true → exec i s = .next t →
    ∀ f : Flag, f ∉ i.flags → flag f t.cpu.p = flag f s.cpu.p

/-- R44, R343, R712, R58: an instruction clears no pending latch and changes no parameter; with no host operation scheduled
it changes neither the bus table nor the Clock's listeners and gates, the dividers' divisors, children and parents, and
the units' gates and policies, and, where no component runs code of its own that could reset the controllers, nor the
buttons. -/
def Obligations.InstructionKeepsLatchesAndWiring : Prop :=
  ∀ (i : Instr) (s t : State), exec i s = .next t →
    (s.pend.reset = true → t.pend.reset = true) ∧ (s.pend.nmi = true → t.pend.nmi = true) ∧
    (s.pend.irq = true → t.pend.irq = true) ∧ t.params = s.params ∧
    (s.schedule = [] → t.schedule = [] ∧ t.bus = s.bus ∧ t.clock.listeners = s.clock.listeners ∧
      t.clock.running = s.clock.running ∧ t.clock.disposed = s.clock.disposed ∧
      (t.dividers.map fun d => (d.num, d.den, d.children, d.parent)) =
        (s.dividers.map fun d => (d.num, d.den, d.children, d.parent)) ∧
      (noExternal s.bus = true → t.pads.buttons0 = s.pads.buttons0 ∧ t.pads.buttons1 = s.pads.buttons1) ∧
      ∀ u, (t.unit u).paused = (s.unit u).paused ∧ (t.unit u).disposed = (s.unit u).disposed ∧
        (t.unit u).policy = (s.unit u).policy)

/-- R283: a form that stores nothing leaves every memory cell as it was, while the picture generator and the sound
generator go on: work RAM read through the bus, cartridge memory, nametable RAM, palette and object table. No component
of the bus runs code of its own that could store. -/
def Obligations.NonStoringFormsKeepMemory : Prop :=
  ∀ (i : Instr) (s t : State), i.storesNothing = true → s.schedule = [] → s.dma = .idle → noExternal s.bus = true →
    exec i s = .next t → sameMemory s t ∧ t.dma = .idle ∧ ∀ a, ramBacked s a = true → peek a t = peek a s

/-- R354 to R356, R410, R411, R416 to R419 with R293 to R298: a store or a read-modify-write stores at the address its
mode gives and nowhere else. -/
def Obligations.StoresTouchOnlyTheirAddress : Prop :=
  ∀ (mk : Mode → Instr) (m : Mode) (s t : State),
    mk ∈ [Instr.sta, .stx, .sty, .inc, .dec, .asl, .lsr, .rol, .ror] → (mk m).wf = true → m ≠ .acc →
    cpuAlone 8 s = true → s.ram.wf = true → exec (mk m) s = .next t → storesOnlyAt (locate true m s).ea s t

/-- R363, R364, R452, R455: a push form stores in the stack cells under S and nowhere else in work RAM, and in no other
memory when nothing but work RAM takes writes of the stack page. -/
def Obligations.PushesTouchOnlyStackCells : Prop :=
  ∀ (i : Instr) (k : Nat) (s t : State), (i, k) ∈ [(Instr.pha, 1), (.php, 1), (.jsr, 2), (.brk, 3)] →
    cpuAlone 8 s = true → dmaOffStack s.bus = true → s.ram.wf = true → exec i s = .next t →
    (∀ n, (∀ j < k, n ≠ ramCell (0x0100 + zext (s.cpu.sp - BitVec.ofNat 8 j))) → t.ram.read n = s.ram.read n) ∧
    ((∀ b : Byte, plainRam s (0x0100 + zext b) = true) → t.cart.prg = s.cart.prg ∧ t.cart.chr = s.cart.chr ∧
      t.ppu.mem = s.ppu.mem ∧ t.ppu.spr.oam = s.ppu.spr.oam ∧ t.dma = s.dma)

/-! ### The processor in the running core -/

/-- R280, R281: at a boundary with no interrupt to take, or behind a sequence, a step fetches the opcode at the PC and
runs the instruction it decodes to; the PC moves by one and one tick passes. -/
def Obligations.StepRunsDecodedInstruction : Prop :=
  ∀ s : State, (s.cpu.eng = .boundary ∧ noneTaken s = true ∨ s.cpu.eng = .fetchNext) → cpuAlone 9 s = true →
    runnable s (peek s.cpu.pc s) = true →
    step s = exec (decode (peek s.cpu.pc s)) (opcodeFetched s) ∧
    (opcodeFetched s).cpu.pc = s.cpu.pc + 1 ∧ (opcodeFetched s).cpu.cycles = s.cpu.cycles + 1 ∧
    (opcodeFetched s).cpu.a = s.cpu.a ∧ (opcodeFetched s).cpu.p = s.cpu.p

/-- R219, R220, R280, R301: with the Clock running, the picture generator drawing, any bus table of R104's components and
any contents, every well-formed instruction runs to its end: between its base ticks and the extra ones of R161, three
dots to a tick. `n` counts the ticks after the opcode fetch. That the transitions come in registration order while
nothing is scheduled is the model's choice (log 3, DESIGN CHOICE), and that `exec` takes them up to the boundary is its
run of one instruction (log 5). -/
def Obligations.EveryInstructionCompletesInRunningCore : Prop :=
  ∀ (i : Instr) (s : State), i.wf = true → runnable s (opcodeOf i) = true → runningNormally s = true →
    dmaOffStack s.bus = true →
    ∃ (t : State) (n : Nat), exec i s = .next t ∧ t.cpu.eng = .boundary ∧
      i.baseTicks ≤ n + 1 ∧ n + 1 ≤ i.baseTicks + bitNat i.pageTick + (if i.mode = .rel then 2 else 0) ∧
      t.cpu.cycles = s.cpu.cycles + n ∧
      ∃ d d', s.dividers = [d] ∧ t.dividers = [d'] ∧ d'.acc = 0 ∧ t.clock.tickCount + d.acc = s.clock.tickCount + 3 * n

/-- R282, R330, R335, R713: what a boundary takes, reset before NMI before IRQ before the opcode fetch, and each tick of the
sequences. Reset: in T1 A, X and Y are 0, S is 0xFD, P is 0x24 and no latch stays set; nothing in T2 to T6; in T7 and T8
the PC comes from 0xFFFC. NMI whatever I holds, IRQ when I is clear: two idle reads, three pushes, PC and the status with
B clear and U set, then I is set and the PC comes from the vector, one access to a tick. The sequences end where the next
opcode is fetched without a check. -/
def Obligations.BoundaryTakesResetNmiIrqInOrder : Prop :=
  ∀ s : State, s.cpu.eng = .boundary → cpuAlone 8 s = true →
    (s.pend.reset = true → step s = .next (
      let u := (s.mapCpu fun c => { c with a := 0, x := 0, y := 0, sp := 0xFD, p := 0x24 }).mapPend fun _ =>
        ⟨false, false, false⟩
      let lo := busRead 0xFFFC u
      let hi := busRead 0xFFFD lo.2
      finishSeq 8 (hi.2.mapCpu fun c => { c with pc := join hi.1 lo.1 })) ∧ entersBy .reset s s) ∧
    (s.pend.reset = false → s.pend.nmi = true → dmaOffStack s.bus = true →
      step s = .next (finishSeq 7 (enterHandler (statusPlus 0x20) 0xFFFA
        (idle (idle (s.mapPend fun l => { l with nmi := false }))))) ∧
      entersBy .nmi (s.mapPend fun l => { l with nmi := false }) s) ∧
    (s.pend.reset = false → s.pend.nmi = false → s.pend.irq = true → flag .i s.cpu.p = false → dmaOffStack s.bus = true →
      step s = .next (finishSeq 7 (enterHandler (statusPlus 0x20) 0xFFFE
        (idle (idle (s.mapPend fun l => { l with irq := false }))))) ∧
      entersBy .irq (s.mapPend fun l => { l with irq := false }) s) ∧
    (noneTaken s = true → runnable s (peek s.cpu.pc s) = true → cpuTick [] s = .next (opcodeFetched s)) ∧
    componentReset .cpu s = { s with pend := { s.pend with reset := true } }

/-- R714, R454, R330: an RTI in a handler whose stack is as NMI entry left it restores the PC, P and S of the
interrupted program. Work RAM alone answers at the three stack addresses. -/
def Obligations.ReturnFromInterruptRestores : Prop :=
  ∀ (s t u : State), s.cpu.eng = .boundary → s.pend.reset = false → s.pend.nmi = true → cpuAlone 8 s = true →
    dmaOffStack s.bus = true → s.ram.wf = true → statusOk s.cpu.p = true →
    (∀ b : Byte, plainRam s (0x0100 + zext b) = true) → step s = .next t →
    cpuAlone 8 u = true → u.bus = t.bus → u.ram = t.ram → u.cpu.sp = t.cpu.sp →
    ∃ v, exec .rti u = .next v ∧ v.cpu.pc = s.cpu.pc ∧ v.cpu.p = s.cpu.p ∧ v.cpu.sp = s.cpu.sp

/-- R41, R42, R44, R31, R32, R46, R54 to R57, R43: the invariant of the machine is kept by every step: U set and B clear
in P, the engine at a tick its table has, a DMA inside its 514 ticks, every memory in canonical form and in its
range, the beam in the frame, at most 8 sprites, remainders below divisors, counters within `OWED_MAX`. -/
def Obligations.EveryStepKeepsInvariant : Prop :=
  ∀ s t : State, s.ok = true → step s = .next t → t.ok = true

/-- R750, with the model's choices for what it leaves open (logs 1, 2, 11): the invariant holds at power-on. -/
def Obligations.PowerOnMeetsInvariant : Prop := State.reset.ok = true

/-- R750, R44, R43, R45, R46, R55, R57: what power-on leaves, every value the spec gives. -/
def Obligations.PowerOnValues : Prop :=
  State.reset.clock.tickCount = 0 ∧ State.reset.clock.running = false ∧ (∀ d ∈ State.reset.dividers, d.acc = 0) ∧
  (∀ u, (State.reset.unit u).owed = 0 ∧ (State.reset.unit u).paused = false ∧ (State.reset.unit u).disposed = false) ∧
  State.reset.cpu.eng = .boundary ∧ State.reset.pend = ⟨true, false, false⟩ ∧ State.reset.cpu.cycles = 0 ∧
  State.reset.dma = .idle ∧ State.reset.ppu.regs = ⟨0, 0, false, false, false, 0⟩ ∧
  State.reset.ppu.scr = ⟨0, 0, 0, false⟩ ∧ State.reset.ppu.port = ⟨0, 0⟩ ∧
  State.reset.ppu.bg = ⟨0, 0, 0, 0, 0, 0, 0, 0⟩ ∧ State.reset.ppu.spr.slots = List.replicate 8 ⟨0, 0, 0, 0⟩ ∧
  State.reset.ppu.spr.countNext = 0 ∧ State.reset.ppu.spr.countCur = 0 ∧ State.reset.ppu.spr.spr0Next = false ∧
  State.reset.ppu.spr.spr0Cur = false ∧ State.reset.ppu.pos = ⟨0, 0, 0⟩ ∧ State.reset.ppu.out.back = false ∧
  (∀ n, State.reset.ppu.out.fb0.read n = 0 ∧ State.reset.ppu.out.fb1.read n = 0) ∧
  State.reset.pads = ⟨0, 0, 0, 0, false⟩

/-- R212, R58: a step is a run of enabled atomic transitions, each an emit step, a unit step or a host operation. -/
def Obligations.EveryStepIsRunOfTransitions : Prop :=
  ∀ s t : State, step s = .next t → Reaches s t

/-- R216, R211, R203: a disposed processor handles no tick, nor does a paused one while no host operation is scheduled;
a disposed Clock emits no tick and stays disposed. -/
def Obligations.GatedUnitsTakeNoTick : Prop :=
  ∀ s t : State, step s = .next t →
    (s.cpuUnit.disposed = true → t.cpu = s.cpu ∧ t.cpuUnit.disposed = true) ∧
    (s.cpuUnit.paused = true → s.schedule = [] → t.cpu = s.cpu) ∧
    (s.clock.disposed = true → t.clock.disposed = true ∧ t.clock.tickCount = s.clock.tickCount)

/-! ### Clock, dividers, bus -/

/-- R204, R213: the emit step is enabled exactly when the Clock runs, is not disposed, and no reachable lock-step unit
that is not disposed owes a tick. -/
def Obligations.EmitEnabledExactly : Prop :=
  ∀ s : State, enabled .emit s = true ↔
    s.clock.running = true ∧ s.clock.disposed = false ∧
    ∀ u, Heard s (.unit u) → (s.unit u).policy = .lockstep → (s.unit u).disposed = false → (s.unit u).owed = 0

/-- R205, R206, R207, R220, R211: `k` emit steps of the Clock of R219 with nothing stepping between: the picture
generator is owed `k` ticks more and the processor one for every three, paused or not. -/
def Obligations.EmitStepsFollowRatioLaw : Prop :=
  ∀ (k : Nat) (s : State) (d : Divider), s.clock.listeners = [.unit .ppu, .divider 0] → s.dividers = [d] →
    cpuDividerOnly s.dividers = true → s.ppuUnit.disposed = false → s.cpuUnit.disposed = false →
    s.ppuUnit.owed + k ≤ s.params.owedMax → s.cpuUnit.owed + k ≤ s.params.owedMax →
    emitTimes k s = .next
      { s with
        clock := { s.clock with tickCount := s.clock.tickCount + k }
        ppuUnit := { s.ppuUnit with owed := s.ppuUnit.owed + k }
        cpuUnit := { s.cpuUnit with owed := s.cpuUnit.owed + (d.acc + k) / 3 }
        dividers := [{ d with acc := (d.acc + k) % 3 }] }

/-- R206, R207, R209: a delivery skips a disposed unit, faults on a full counter, and else adds one, paused or not; the emit
step to one listener shows the three cases. A divider, its remainder 0, has emitted `floor(k / divisor)` ticks after `k`
parent ticks, and its remainder is what is left; below a divisor of 1, where R207's algorithm and R209's law differ, when
the parameter takes the law (log 12). The emit step does what the delivery does at whatever nesting it ends at, and a
delivery that never ends is no step (log 13). -/
def Obligations.DeliveryCountsAndDividerNeverDrifts : Prop :=
  (∀ (u : UnitId) (s : State), s.clock.listeners = [.unit u] →
    ((s.unit u).disposed = true → emit s = .next (s.mapClock fun c => { c with tickCount := c.tickCount + 1 })) ∧
    ((s.unit u).disposed = false → (s.unit u).owed = s.params.owedMax → emit s = .fault (.owedOverflow u s)) ∧
    ((s.unit u).disposed = false → (s.unit u).owed ≠ s.params.owedMax → ∃ t, emit s = .next t ∧
      t.unit u = { s.unit u with owed := (s.unit u).owed + 1 } ∧ t.clock.tickCount = s.clock.tickCount + 1 ∧
      ∀ w, w ≠ u → t.unit w = s.unit w)) ∧
  (∀ (law : Config.DividerLaw) (k : Nat) (d : Divider), d.acc = 0 → 0 < d.den → 0 < d.num →
    (law = .once → d.den ≤ d.num) → feedTimes law k d = ({ d with acc := k * d.den % d.num }, k * d.den / d.num)) ∧
  ∀ s : State,
    let delivery (depth : Nat) := deliverEach (deliver depth) s.clock.listeners
      (s.mapClock fun c => { c with tickCount := c.tickCount + 1 })
    (∀ depth t, delivery depth = .done t → emit s = .next t) ∧
    (∀ depth u, delivery depth = .overflow u → emit s = .fault (.owedOverflow u s)) ∧
    ((∀ depth, delivery depth = .endless) → emit s = .next s)

/-- R201, R202, R203, R208, R701: the Clock's host operations; a fault given to the caller changes nothing. -/
def Obligations.ClockHostOperations : Prop :=
  ∀ s : State,
    (∀ l, hostOp (.addListener none l) s = .done { s with clock := { s.clock with listeners := s.clock.listeners ++ [l] } }) ∧
    (s.clock.listeners = [] → hostOp .start s = .failed (.clockNoListeners s)) ∧
    (s.clock.listeners ≠ [] → s.clock.running = true → hostOp .start s = .failed .clockAlreadyStarted ∧
      hostStep .start s = .next s) ∧
    (s.clock.listeners ≠ [] → s.clock.running = false →
      hostOp .start s = .done { s with clock := { s.clock with running := true } }) ∧
    (∀ (p : Option Nat) (n : Int) (d : Nat), n ≤ 0 → hostOp (.newDivider p n d) s = .failed .invalidDivisor ∧
      hostStep (.newDivider p n d) s = .next s) ∧
    (∀ n d : Nat, 0 < n → 0 < d → hostOp (.newDivider none n d) s = .done
      { s with
        dividers := s.dividers ++ [⟨n, d, 0, [], none⟩]
        clock := { s.clock with listeners := s.clock.listeners ++ [.divider s.dividers.length] } }) ∧
    (∃ t, hostOp .disposeClock s = .done t ∧ enabled .emit t = false ∧ hostOp .disposeClock t = .done t ∧
      enabled (.host .start) t = false) ∧
    (∀ u, ∃ t, hostOp (.disposeUnit u) s = .done t ∧ enabled (.unit u) t = false ∧ (t.unit u).owed = 0)

/-- R252, R253, R255, R256, R258: a write calls every writable entry that covers the address, in attachment order, and with
none nothing happens; a read calls the first readable entry that covers the address and no other, and with none it is 0
and nothing happens. IRQ and NMI go to the first capable entry: the processor's sets its latch, an external component's is
its own code, `x`, in whichever step the signal is made; with no capable entry nothing happens. The processor, attached over no address, takes interrupts and reset, and
no read and no write reaches its entry. -/
def Obligations.BusDispatchesAccessesAndSignals : Prop :=
  (∀ (a : Addr) (v : Byte) (s : State),
    let covers (e : BusEntry) : Bool := match e.range with
      | none => false
      | some (lo, hi) => lo.toNat ≤ a.toNat && a.toNat ≤ hi.toNat
    busWrite a v s = (s.bus.filter fun e => covers e && e.component.caps.writable).foldl
      (fun t e => componentWrite e.component a v t) s ∧
    busRead a s = match (s.bus.filter fun e => covers e && e.component.caps.readable) with
      | [] => (0, s)
      | e :: _ => componentRead e.component a s) ∧
  (∀ (x : ExtRun) (pre post : List BusEntry) (e : BusEntry) (s : State), s.bus = pre ++ e :: post →
    ((∀ d ∈ pre, d.component.caps.irqCapable = false) → e.component.caps.irqCapable = true →
      (e.component = .cpu → busIrqVia x s = { s with pend := { s.pend with irq := true } }) ∧
      (∀ id caps, e.component = .ext id caps → busIrqVia x s = (x id .irq s).2)) ∧
    ((∀ d ∈ pre, d.component.caps.nmiCapable = false) → e.component.caps.nmiCapable = true →
      (e.component = .cpu → busNmiVia x s = { s with pend := { s.pend with nmi := true } }) ∧
      (∀ id caps, e.component = .ext id caps → busNmiVia x s = (x id .nmi s).2))) ∧
  (∀ (x : ExtRun) (s : State), ((∀ e ∈ s.bus, e.component.caps.irqCapable = false) → busIrqVia x s = s) ∧
    ((∀ e ∈ s.bus, e.component.caps.nmiCapable = false) → busNmiVia x s = s)) ∧
  (∀ s : State, busIrq s = busIrqVia quietRun s ∧ busNmi s = busNmiVia quietRun s ∧
    (⟨none, .cpu⟩ ∈ s.bus → (busReset s).pend.reset = true)) ∧
  Component.cpu.caps = ⟨false, false, true, true, true⟩ ∧ ∀ a, (⟨none, .cpu⟩ : BusEntry).covers a = false

/-- R104, R105, R340: the NES map: work RAM mirrored four times, the picture generator's eight registers, the ports, and
the addresses where nothing is. -/
def Obligations.NesMapRoutesAddresses : Prop :=
  State.reset.bus.map (fun e => (e.range, e.component.caps)) =
    [(none, ⟨false, false, true, true, true⟩),
     (some (0x0000, 0x1FFF), ⟨true, true, true, false, false⟩), (some (0x2000, 0x3FFF), ⟨true, true, true, false, false⟩),
     (some (0x4016, 0x4017), ⟨true, true, true, false, false⟩), (some (0x4014, 0x4014), ⟨false, true, true, false, false⟩),
     (some (0x4000, 0x4013), ⟨true, true, true, false, false⟩), (some (0x4015, 0x4015), ⟨true, true, true, false, false⟩),
     (some (0x4017, 0x4017), ⟨true, true, true, false, false⟩), (some (0x4020, 0xFFFF), ⟨true, true, true, false, false⟩)] ∧
  State.reset.bus = State.defaultBus ∧
  ∀ (a : Addr) (v : Byte) (s : State), s.bus = State.defaultBus →
    (a.toNat ≤ 0x1FFF → busRead a s = (s.ram.read (a.toNat % 0x800), s) ∧
      busWrite a v s = s.setRam (s.ram.write (a.toNat % 0x800) v)) ∧
    (0x2000 ≤ a.toNat → a.toNat ≤ 0x3FFF → busRead a s = componentRead .ppu a s ∧ busWrite a v s = componentWrite .ppu a v s) ∧
    (0x4018 ≤ a.toNat → a.toNat ≤ 0x401F → busRead a s = (0, s) ∧ busWrite a v s = s) ∧
    (0x4020 ≤ a.toNat → busRead a s = componentRead .cart a s ∧ busWrite a v s = componentWrite .cart a v s) ∧
    (a = 0x4014 → busRead a s = (0, s) ∧ busWrite a v s = componentWrite .dma a v s) ∧
    (a = 0x4016 → busRead a s = componentRead .pads a s ∧ busWrite a v s = componentWrite .pads a v s) ∧
    (a = 0x4017 → busRead a s = componentRead .pads a s ∧ busWrite a v s = componentWrite .sound a v s) ∧
    (a = 0x4015 ∨ 0x4000 ≤ a.toNat ∧ a.toNat ≤ 0x4013 → busRead a s = componentRead .sound a s ∧
      busWrite a v s = componentWrite .sound a v s) ∧
    (busReset s).ram = s.ram

/-- R250, R251, R653, R676: attaching appends an entry, a range that is upside down is refused with nothing changed, and
detaching takes every entry of the component and keeps the others in their order; a load with an unsupported mapper
changes nothing, a load replaces the cartridge at the end of the table; the pixels a host gets are those of the buffer
not being written. -/
def Obligations.AttachDetachAndLoad : Prop :=
  ∀ (c : Component) (cart : Cart) (s : State),
    (∀ lo hi : Addr, hi.toNat < lo.toNat → hostOp (.addComponent c (some (lo, hi))) s = .failed .invalidRange ∧
      hostStep (.addComponent c (some (lo, hi))) s = .next s) ∧
    (∀ lo hi : Addr, lo.toNat ≤ hi.toNat →
      hostOp (.addComponent c (some (lo, hi))) s = .done { s with bus := s.bus ++ [⟨some (lo, hi), c⟩] }) ∧
    hostOp (.addComponent c none) s = .done { s with bus := s.bus ++ [⟨none, c⟩] } ∧
    (∃ t, hostOp (.removeComponent c) s = .done t ∧ (∀ e, e ∈ t.bus ↔ e ∈ s.bus ∧ e.component ≠ c) ∧
      t.bus.Sublist s.bus ∧ ((∀ e ∈ s.bus, e.component ≠ c) → t = s)) ∧
    hostOp (.load none) s = .failed .unsupportedMapper ∧ hostStep (.load none) s = .next s ∧
    hostOp (.load (some cart)) s = .done { s with
      cart := cart
      bus := (s.bus.filter fun e => e.component != .cart) ++ [⟨some (0x4020, 0xFFFF), .cart⟩] } ∧
    hostOp .getPixels s = .done s ∧ getPixels s = if s.ppu.out.back then s.ppu.out.fb0 else s.ppu.out.fb1

/-- R257, R752, R754: `Bus.Reset()` on the NES map, component by component. Three things are the model's: its own latch
`sprLo` goes to 0 (log 17, DESIGN CHOICE), and the sound generator's and the mapper's own resets are uninterpreted
functions that give their next states and may signal IRQ (logs 8 and 9, DESIGN CHOICE). -/
def Obligations.BusResetResetsComponents : Prop :=
  ∀ s : State, s.bus = State.defaultBus →
    let sound := Config.soundReset s.sound
    let mapper : Config.ResetReply := match s.cart.mapper with
      | .flat _ _ _ => ⟨s.cart.st, false⟩
      | .external id => Config.mapReset id s.cart.st
    busReset s =
      { s with
        pend := ⟨true, s.pend.nmi, s.pend.irq || sound.irq || mapper.irq⟩
        ppu := { Ppu.powerOn with
          spr := { Ppu.powerOn.spr with oam := s.ppu.spr.oam, oam2 := s.ppu.spr.oam2 }, mem := s.ppu.mem, out := s.ppu.out }
        pads := ⟨0, 0, 0, 0, false⟩
        dma := .idle
        sound := sound.st
        cart := { s.cart with st := mapper.st } }

/-! ### Picture generator: the beam -/

/-- R501, R550, R675: the beam moves one dot, line after line; the dot (261, 340) is skipped on an odd frame where the
skip applies; the tick that brings it to (0, 0) swaps the framebuffers, counts the frame and calls the sink. IRQ and NMI set latches:
they go to no external component, here and in the statements about a dot below. -/
def Obligations.BeamAdvancesThroughFrame : Prop :=
  ∀ s : State, s.ppu.pos.scanline < 262 → s.ppu.pos.dot < 341 → plainSignals s.bus = true →
    let p := s.ppu.pos
    let t := ppuHandler s
    let skips := p.scanline = 261 ∧ p.dot = 339 ∧ p.frameCount % 2 = 1 ∧
      (s.params.oddFrameSkip = .always ∨ s.ppu.rendering = true)
    (skips ∨ p.scanline = 261 ∧ p.dot = 340 →
      t.ppu.pos = ⟨0, 0, p.frameCount + 1⟩ ∧ t.ppu.out.back = !s.ppu.out.back ∧
      t.ppu.out.fb0 = s.ppu.out.fb0 ∧ t.ppu.out.fb1 = s.ppu.out.fb1 ∧
      t.sink.notices = s.sink.notices + (if s.sink.registered then 1 else 0)) ∧
    (¬(skips ∨ p.scanline = 261 ∧ p.dot = 340) →
      t.ppu.pos = (if p.dot = 340 then ⟨p.scanline + 1, 0, p.frameCount⟩ else ⟨p.scanline, p.dot + 1, p.frameCount⟩) ∧
      t.ppu.out.back = s.ppu.out.back ∧ t.sink = s.sink)

/-- R551 law 1, R501: from one vblank start to the next it is 89342 dots, or 89341 when the frame it lies in is odd and
the skip always applies, and no dot between starts another. -/
def Obligations.FrameLengthBetweenVblanks : Prop :=
  ∀ s : State, s.ppu.pos.scanline = 241 → s.ppu.pos.dot = 1 → s.params.oddFrameSkip = .always →
    plainSignals s.bus = true →
    let n := 89342 - s.ppu.pos.frameCount % 2
    (dots n s).ppu.pos = ⟨241, 1, s.ppu.pos.frameCount + 1⟩ ∧
    ∀ k, 0 < k → k < n → ¬((dots k s).ppu.pos.scanline = 241 ∧ (dots k s).ppu.pos.dot = 1)

/-- R502, R503, R543: the status flags over a dot: vblank is set at (241, 1) and cleared at (261, 1) with the other two
and at no other dot; away from (261, 1) the other two are only set. At (241, 1) the processor's NMI latch is set when
`ctrl[7]` is, and at no other dot. -/
def Obligations.VblankFlagAndNmi : Prop :=
  ∀ s : State, ∀ rest, s.bus = ⟨none, .cpu⟩ :: rest →
    let p := s.ppu.pos
    let t := ppuHandler s
    (p.scanline = 241 ∧ p.dot = 1 → t.ppu.regs.vblank = true ∧
      t.pend.nmi = (s.pend.nmi || s.ppu.regs.ctrl.getLsbD 7)) ∧
    (p.scanline = 261 ∧ p.dot = 1 → t.ppu.regs.vblank = false ∧ t.ppu.regs.sprite0Hit = false ∧
      t.ppu.regs.spriteOverflow = false) ∧
    (¬(p.scanline = 241 ∧ p.dot = 1) → t.pend.nmi = s.pend.nmi) ∧
    (p.dot ≠ 1 ∨ p.scanline ≠ 241 ∧ p.scanline ≠ 261 → t.ppu.regs.vblank = s.ppu.regs.vblank ∧
      (s.ppu.regs.sprite0Hit = true → t.ppu.regs.sprite0Hit = true) ∧
      (s.ppu.regs.spriteOverflow = true → t.ppu.regs.spriteOverflow = true))

/-- R505, R545, R504: where rendering is off, or the line is post-render or blank, a dot fetches, shifts, counts and
evaluates nothing; with rendering off a visible dot draws `palette[0]`, greyscale and emphasis applied. -/
def Obligations.NoRenderingDrawsBackdrop : Prop :=
  ∀ s : State, s.ppu.works = false → plainSignals s.bus = true →
    let t := ppuHandler s
    t.ppu.bg = s.ppu.bg ∧ t.ppu.scr = s.ppu.scr ∧ t.ppu.spr = s.ppu.spr ∧ t.cart = s.cart ∧
    (s.ppu.pos.scanline ≤ 239 → 1 ≤ s.ppu.pos.dot → s.ppu.pos.dot ≤ 256 → s.ppu.out.fb0.wf = true →
      s.ppu.out.fb1.wf = true →
      (if s.ppu.out.back then t.ppu.out.fb1 else t.ppu.out.fb0).read (256 * s.ppu.pos.scanline + (s.ppu.pos.dot - 1)) =
        s.ppu.regs.mask.extractLsb' 5 3 ++
          (if s.ppu.regs.mask.getLsbD 0 then s.ppu.mem.palette.read 0 &&& 0x30 else s.ppu.mem.palette.read 0))

/-! ### Picture generator: background -/

/-- R516, R517, R518, R519, R511: the increments and copies of `v`, field by field, and the dots at which each happens;
`t`, fine X and the write toggle are never changed by a dot. -/
def Obligations.ScrollIncrementsAndCopies : Prop :=
  (∀ s : State, s.ppu.works = true → plainSignals s.bus = true →
    (ppuHandler s).ppu.scr = { s.ppu.scr with
      v := scrollAfter s.ppu.pos.scanline s.ppu.pos.dot s.ppu.scr.v s.ppu.scr.t }) ∧
  ∀ v t : Scroll,
    (coarseX (incX v) = coarseX v + 1 ∧ (incX v).getLsbD 10 = (v.getLsbD 10 != (coarseX v == 31)) ∧
      coarseY (incX v) = coarseY v ∧ (incX v).getLsbD 11 = v.getLsbD 11 ∧ fineY (incX v) = fineY v) ∧
    (fineY (incY v) = fineY v + 1 ∧ coarseX (incY v) = coarseX v ∧ (incY v).getLsbD 10 = v.getLsbD 10 ∧
      coarseY (incY v) = (if fineY v ≠ 7 then coarseY v else if coarseY v = 29 then 0 else coarseY v + 1) ∧
      (incY v).getLsbD 11 = (v.getLsbD 11 != (fineY v == 7 && coarseY v == 29))) ∧
    (coarseX (copyX v t) = coarseX t ∧ (copyX v t).getLsbD 10 = t.getLsbD 10 ∧ coarseY (copyX v t) = coarseY v ∧
      (copyX v t).getLsbD 11 = v.getLsbD 11 ∧ fineY (copyX v t) = fineY v) ∧
    (fineY (copyY v t) = fineY t ∧ (copyY v t).getLsbD 11 = t.getLsbD 11 ∧ coarseY (copyY v t) = coarseY t ∧
      (copyY v t).getLsbD 10 = v.getLsbD 10 ∧ coarseX (copyY v t) = coarseX v)

/-- R510, R511, R512, R513, R514, R515, R520: the background's shift, load and fetch of a dot. -/
def Obligations.BackgroundFetchSchedule : Prop :=
  ∀ s : State, s.ppu.works = true → plainSignals s.bus = true →
    let d := s.ppu.pos.dot
    let v := s.ppu.scr.v
    let b := s.ppu.bg
    let t := (ppuHandler s).ppu.bg
    let active := 2 ≤ d ∧ d ≤ 257 ∨ 321 ≤ d ∧ d ≤ 337
    let loads := active ∧ d % 8 = 1
    let shifted (r : BitVec 16) : BitVec 16 := if active then r <<< 1 else r
    let loaded (r : BitVec 16) (n : Byte) : BitVec 16 := if loads then (shifted r &&& 0xFF00) ||| n.setWidth 16 else shifted r
    let copies (bit : Bool) : Byte := if bit then 0xFF else 0x00
    t.patLo = loaded b.patLo b.nextLo ∧ t.patHi = loaded b.patHi b.nextHi ∧
    t.attrLo = loaded b.attrLo (copies (b.nextAttr.getLsbD 0)) ∧
    t.attrHi = loaded b.attrHi (copies (b.nextAttr.getLsbD 1)) ∧
    t.nextId = (if loads ∨ d = 338 ∨ d = 340 then (ppuFetch (0x2000 + (v &&& 0x0FFF).setWidth 14) s).1 else b.nextId) ∧
    t.nextAttr = (if active ∧ d % 8 = 3 then
      ((ppuFetch (0x23C0 + (v &&& 0x0C00).setWidth 14 + 8 * ((coarseY v).setWidth 14 / 4) + (coarseX v).setWidth 14 / 4) s).1 >>>
        (4 * (coarseY v / 2 % 2).toNat + 2 * (coarseX v / 2 % 2).toNat)) &&& 3 else b.nextAttr) ∧
    (let row : PpuAddr := (if s.ppu.regs.ctrl.getLsbD 4 then 0x1000 else 0) + 16 * b.nextId.setWidth 14 + (fineY v).setWidth 14
     t.nextLo = (if active ∧ d % 8 = 5 then (ppuFetch row s).1 else b.nextLo) ∧
     t.nextHi = (if active ∧ d % 8 = 7 then (ppuFetch (row + 8) s).1 else b.nextHi))

/-! ### Picture generator: sprites and pixel -/

/-- R530, R531, R532: the secondary table is cleared at dot 1, entry `n` is evaluated at dot `65 + 3n` against the line
and the sprite height, at most 8 are copied and a ninth sets the overflow flag, which no other dot changes but (261, 1), and the counts move on
at dot 257. -/
def Obligations.SpriteEvaluationSelectsEight : Prop :=
  ∀ s : State, s.ppu.works = true → s.ppu.spr.oam2.wf = true → plainSignals s.bus = true →
    let ln := s.ppu.pos.scanline
    let d := s.ppu.pos.dot
    let q := s.ppu.spr
    let t := (ppuHandler s).ppu
    let n := (d - 65) / 3
    let y := (q.oam.read (4 * n)).toNat
    let inRange := y ≤ ln ∧ ln < y + (if s.ppu.regs.ctrl.getLsbD 5 then 16 else 8)
    let evaluates := ln ≤ 239 ∧ 65 ≤ d ∧ d ≤ 254 ∧ d % 3 = 2
    (d = 1 → t.spr.countNext = 0 ∧ t.spr.spr0Next = false ∧
      ∀ i < 32, t.spr.oam2.read i = if ln ≤ 239 then 0xFF else q.oam2.read i) ∧
    (evaluates → inRange → q.countNext < 8 →
      t.spr.countNext = q.countNext + 1 ∧ t.spr.spr0Next = (q.spr0Next || n == 0) ∧
      (∀ j < 4, t.spr.oam2.read (4 * q.countNext + j) = q.oam.read (4 * n + j)) ∧
      (∀ i, i / 4 ≠ q.countNext → t.spr.oam2.read i = q.oam2.read i) ∧
      t.regs.spriteOverflow = s.ppu.regs.spriteOverflow) ∧
    (evaluates → inRange → 8 ≤ q.countNext →
      t.regs.spriteOverflow = true ∧ t.spr.countNext = q.countNext ∧ t.spr.oam2 = q.oam2) ∧
    (¬(evaluates ∧ inRange) → ¬(ln = 261 ∧ d = 1) → t.regs.spriteOverflow = s.ppu.regs.spriteOverflow) ∧
    (d ≠ 1 → ¬(evaluates ∧ inRange) → t.spr.countNext = q.countNext ∧ t.spr.spr0Next = q.spr0Next ∧ t.spr.oam2 = q.oam2) ∧
    (d = 257 → t.spr.countCur = q.countNext ∧ t.spr.spr0Cur = q.spr0Next) ∧
    (d ≠ 257 → t.spr.countCur = q.countCur ∧ t.spr.spr0Cur = q.spr0Cur) ∧
    t.spr.oam = q.oam

/-- R535, R536, R537, R534: the pattern address of a sprite row as numbers, the row and the entry it is taken from, that of
an empty slot, and the bit reversal. -/
def Obligations.SpritePatternAddress : Prop :=
  (∀ (p : Ppu) (tile attr : Byte) (row : Nat), p.regs.ctrl.getLsbD 5 = false → row < 8 →
    (spriteAddr p tile attr row).toNat = 4096 * (p.regs.ctrl.toNat / 8 % 2) + 16 * tile.toNat +
      (if attr.getLsbD 7 then 7 - row else row)) ∧
  (∀ (p : Ppu) (tile attr : Byte) (row : Nat), p.regs.ctrl.getLsbD 5 = true → row < 16 →
    let r := if attr.getLsbD 7 then 15 - row else row
    (spriteAddr p tile attr row).toNat =
      4096 * (tile.toNat % 2) + 16 * (2 * (tile.toNat / 2) + r / 8) + r % 8) ∧
  (∀ (p : Ppu) (i : Nat), i < p.spr.countCur → (p.spr.oam2.read (4 * i)).toNat ≤ p.pos.scanline →
    p.pos.scanline < (p.spr.oam2.read (4 * i)).toNat + (if p.regs.ctrl.getLsbD 5 then 16 else 8) →
    slotAddr i p = spriteAddr p (p.spr.oam2.read (4 * i + 1)) (p.spr.oam2.read (4 * i + 2))
      (p.pos.scanline - (p.spr.oam2.read (4 * i)).toNat)) ∧
  (∀ (p : Ppu) (i : Nat), p.spr.countCur ≤ i → slotAddr i p = spriteAddr p 0xFF 0 0) ∧
  (∀ (b : Byte) (j : Nat), j < 8 → (reverse8 b).getLsbD j = b.getLsbD (7 - j))

/-- R534, R538: slot `i` is loaded at dot `263 + 8i` from the two planes, mirrored when `attr[6]` is set, and made
transparent when the entry is not there, and the other slots stay; at dots 2 to 257 each slot counts down and then shifts,
and at the other dots all stay. The low plane waits in the model's latch `sprLo` (log 17, DEDUCED) from dot `261 + 8i` on,
and no other dot changes it. -/
def Obligations.SpriteSlotsLoadAndShift : Prop :=
  ∀ s : State, s.ppu.works = true → s.ppu.spr.slots.length = 8 → plainSignals s.bus = true →
    let d := s.ppu.pos.dot
    let q := s.ppu.spr
    let t := (ppuHandler s).ppu.spr
    let i := (d - 263) / 8
    (263 ≤ d → d ≤ 319 → d % 8 = 7 → i < q.countCur →
      let e := s.ppu.entry i
      let hi := (ppuFetch (slotAddr i s.ppu + 8) s).1
      t.slots[i]? = some (if e.2.2.1.getLsbD 6 then ⟨reverse8 q.sprLo, reverse8 hi, e.2.2.1, e.2.2.2⟩
        else ⟨q.sprLo, hi, e.2.2.1, e.2.2.2⟩)) ∧
    (263 ≤ d → d ≤ 319 → d % 8 = 7 → q.countCur ≤ i → t.slots[i]? = some ⟨0, 0, 0, 0xFF⟩) ∧
    (263 ≤ d → d ≤ 319 → d % 8 = 7 → ∀ k, k ≠ i → t.slots[k]? = q.slots[k]?) ∧
    (261 ≤ d → d ≤ 317 → d % 8 = 5 →
      t.sprLo = (ppuFetch (slotAddr ((d - 261) / 8) s.ppu) s).1) ∧
    (¬(261 ≤ d ∧ d ≤ 317 ∧ d % 8 = 5) → t.sprLo = q.sprLo) ∧
    (2 ≤ d → d ≤ 257 → ∀ k < 8, ∃ e, q.slots[k]? = some e ∧ t.slots[k]? = some
      (if 0 < e.xcnt.toNat then { e with xcnt := e.xcnt - 1 }
       else { e with patLo := e.patLo <<< 1, patHi := e.patHi <<< 1 })) ∧
    (¬(2 ≤ d ∧ d ≤ 257) → ¬(263 ≤ d ∧ d ≤ 319 ∧ d % 8 = 7) → t.slots = q.slots)

/-- R540, R541, R542, R543, R544: the pixel a visible dot stores, from the background pixel, the sprite pixel and the
priority between them, and the sprite-zero hit; no other pixel and not the displayed buffer changes. Stated of
`ComposePixel`, which phase 3 runs at every visible dot on what phase 2 left. The sprite pixel is that of the
lowest-numbered slot that has counted down and is opaque. -/
def Obligations.PixelPriorityAndColour : Prop :=
  (∀ (x : Nat) (p : Ppu),
    let pix (e : Slot) : Nat := if e.xcnt = 0 then 2 * (e.patHi.getLsbD 7).toNat + (e.patLo.getLsbD 7).toNat else 0
    let on := p.regs.mask.getLsbD 4 = true ∧ (p.regs.mask.getLsbD 2 = true ∨ 8 ≤ x)
    (¬on ∨ (∀ e ∈ p.spr.slots, pix e = 0) → p.fgPixel x = ⟨0, 0, false, false⟩) ∧
    (on → ∀ i e, p.spr.slots[i]? = some e → pix e ≠ 0 → (∀ j < i, ∀ e', p.spr.slots[j]? = some e' → pix e' = 0) →
      p.fgPixel x = ⟨pix e, 4 + e.attr.toNat % 4, !e.attr.getLsbD 5, i == 0⟩)) ∧
  (∀ s : State, s.ppu.pos.scanline ≤ 239 → 1 ≤ s.ppu.pos.dot → s.ppu.pos.dot ≤ 256 → plainSignals s.bus = true →
    let p := (renderWork s.ppu.pos.scanline s.ppu.pos.dot s).ppu.composePixel s.params.sprite0HitX255
      (s.ppu.pos.dot - 1) s.ppu.pos.scanline
    (ppuHandler s).ppu.out = p.out ∧ (ppuHandler s).ppu.regs.sprite0Hit = p.regs.sprite0Hit) ∧
  ∀ (h : Config.Sprite0HitX255) (x y : Nat) (p : Ppu), x < 256 → y < 240 → p.out.fb0.wf = true → p.out.fb1.wf = true →
    let bgOn := p.regs.mask.getLsbD 3 = true ∧ (p.regs.mask.getLsbD 1 = true ∨ 8 ≤ x)
    let b := 15 - p.scr.fineX.toNat
    let bg := if bgOn then 2 * (p.bg.patHi.getLsbD b).toNat + (p.bg.patLo.getLsbD b).toNat else 0
    let bgPal := 2 * (p.bg.attrHi.getLsbD b).toNat + (p.bg.attrLo.getLsbD b).toNat
    let f := p.fgPixel x
    let addr := if bg = 0 ∧ f.pix = 0 then 0x3F00 else if bg ≠ 0 ∧ (f.pix = 0 ∨ f.front = false) then 0x3F00 + 4 * bgPal + bg
      else 0x3F00 + 4 * f.pal + f.pix
    let colour := paletteRead (BitVec.ofNat 14 addr) p
    let out : BitVec 9 := p.regs.mask.extractLsb' 5 3 ++ (if p.regs.mask.getLsbD 0 then colour &&& 0x30 else colour)
    let t := p.composePixel h x y
    (if p.out.back then t.out.fb1 else t.out.fb0).read (256 * y + x) = out ∧
    (if p.out.back then t.out.fb0 = p.out.fb0 else t.out.fb1 = p.out.fb1) ∧
    (∀ n, n ≠ 256 * y + x → (if p.out.back then t.out.fb1 else t.out.fb0).read n =
      (if p.out.back then p.out.fb1 else p.out.fb0).read n) ∧
    (t.regs.sprite0Hit = true ↔ p.regs.sprite0Hit = true ∨
      bg ≠ 0 ∧ f.pix ≠ 0 ∧ p.spr.spr0Cur = true ∧ f.slot0 = true ∧ ¬(x = 255 ∧ h = .excluded))

/-! ### Picture generator: memory and registers -/

/-- R622, R623, R620: a write below and a read of the nametables and the palette meet exactly when their cells are the
same under the mirroring mode and the palette's mirrors; palette entries keep 6 bits. -/
def Obligations.NametableAndPaletteMirrors : Prop :=
  ∀ (a b : PpuAddr) (v : Byte) (s : State), s.ppu.mem.vram.wf = true → s.ppu.mem.palette.wf = true →
    (0x2000 ≤ a.toNat → a.toNat < 0x3F00 → 0x2000 ≤ b.toNat → b.toNat < 0x3F00 →
      (ppuRead b (ppuWrite a v s)).1 =
        if nametableIndex s.cart.mirroring b = nametableIndex s.cart.mirroring a then v else (ppuRead b s).1) ∧
    (0x3F00 ≤ a.toNat → 0x3F00 ≤ b.toNat →
      (ppuRead b (ppuWrite a v s)).1 = if paletteIndex b = paletteIndex a then v &&& 0x3F else (ppuRead b s).1) ∧
    (0x2000 ≤ a.toNat → a.toNat < 0x3F00 → 0x3F00 ≤ b.toNat → (ppuRead b (ppuWrite a v s)).1 = (ppuRead b s).1) ∧
    (∀ m, 0x3000 ≤ a.toNat → a.toNat < 0x3F00 → nametableIndex m a = nametableIndex m (a - 0x1000)) ∧
    (∀ n off, n < 4 → off < 0x400 →
      nametableIndex .horizontal (BitVec.ofNat 14 (0x2000 + 0x400 * n + off)) = 0x400 * (n / 2) + off ∧
      nametableIndex .vertical (BitVec.ofNat 14 (0x2000 + 0x400 * n + off)) = 0x400 * (n % 2) + off ∧
      nametableIndex .single0 (BitVec.ofNat 14 (0x2000 + 0x400 * n + off)) = off ∧
      nametableIndex .single1 (BitVec.ofNat 14 (0x2000 + 0x400 * n + off)) = 0x400 + off ∧
      nametableIndex .fourScreen (BitVec.ofNat 14 (0x2000 + 0x400 * n + off)) = 0x400 * n + off) ∧
    (∀ n i, n < 8 → i < 0x20 → paletteIndex (BitVec.ofNat 14 (0x3F00 + 0x20 * n + i)) =
      if i = 0x10 ∨ i = 0x14 ∨ i = 0x18 ∨ i = 0x1C then i - 0x10 else i)

/-- R603, R610, R611, R612: the status register's read, and the latch that every write and every read of a readable
register leaves; a write-only register reads as the latch and changes nothing; a write of the status register changes
only the latch. -/
def Obligations.StatusReadAndIoLatch : Prop :=
  ∀ (a : Addr) (v : Byte) (s : State), s.bus = State.defaultBus → 0x2000 ≤ a.toNat → a.toNat ≤ 0x3FFF →
    (a.toNat % 8 = 2 →
      let r : Byte := (if s.ppu.regs.vblank then 0x80 else 0) + (if s.ppu.regs.sprite0Hit then 0x40 else 0) +
        (if s.ppu.regs.spriteOverflow then 0x20 else 0) + (s.ppu.port.ioLatch &&& 0x1F)
      busRead a s = (r, { s with ppu := { s.ppu with
        regs := { s.ppu.regs with vblank := false }, scr := { s.ppu.scr with w := false },
        port := { s.ppu.port with ioLatch := r } } }) ∧
      busWrite a v s = { s with ppu := { s.ppu with port := { s.ppu.port with ioLatch := v } } }) ∧
    (a.toNat % 8 ∈ [0, 1, 3, 5, 6] → busRead a s = (s.ppu.port.ioLatch, s)) ∧
    (a.toNat % 8 ∈ [2, 4, 7] → (busRead a s).2.ppu.port.ioLatch = (busRead a s).1) ∧
    (busWrite a v s).ppu.port.ioLatch = v

/-- R601, R602, R604, R605, R613: the control, mask and object-table registers. -/
def Obligations.ControlMaskAndObjectPorts : Prop :=
  ∀ (a : Addr) (d : Byte) (s : State), s.bus = State.defaultBus → 0x2000 ≤ a.toNat → a.toNat ≤ 0x3FFF →
    (a.toNat % 8 = 0 →
      (busWrite a d s).ppu.regs.ctrl = d ∧
      (busWrite a d s).ppu.scr = { s.ppu.scr with t := (s.ppu.scr.t &&& 0x73FF) ||| ((d &&& 3).setWidth 15 <<< 10) } ∧
      (busWrite a d s).pend = { s.pend with nmi := s.pend.nmi ||
        (s.params.nmiOnEnable && d.getLsbD 7 && !s.ppu.regs.ctrl.getLsbD 7 && s.ppu.regs.vblank) }) ∧
    (a.toNat % 8 = 1 → (busWrite a d s).ppu = { s.ppu with regs := { s.ppu.regs with mask := d }, port := { s.ppu.port with ioLatch := d } }) ∧
    (a.toNat % 8 = 3 → (busWrite a d s).ppu = { s.ppu with regs := { s.ppu.regs with oamaddr := d }, port := { s.ppu.port with ioLatch := d } }) ∧
    (a.toNat % 8 = 4 → s.ppu.spr.oam.wf = true →
      (busWrite a d s).ppu.regs.oamaddr = s.ppu.regs.oamaddr + 1 ∧
      (∀ n, (busWrite a d s).ppu.spr.oam.read n = if n = s.ppu.regs.oamaddr.toNat then d else s.ppu.spr.oam.read n) ∧
      (busRead a s).1 = (if s.ppu.regs.oamaddr.toNat % 4 = 2 then s.ppu.spr.oam.read s.ppu.regs.oamaddr.toNat &&& 0xE3
        else s.ppu.spr.oam.read s.ppu.regs.oamaddr.toNat) ∧
      (busRead a s).2.ppu.regs = s.ppu.regs ∧ (busRead a s).2.ppu.spr = s.ppu.spr)

/-- R606, R607: the scroll and address ports, first and second write, field by field. -/
def Obligations.ScrollAndAddressPorts : Prop :=
  ∀ (a : Addr) (d : Byte) (s : State), s.bus = State.defaultBus → 0x2000 ≤ a.toNat → a.toNat ≤ 0x3FFF →
    let q := s.ppu.scr
    let r := (busWrite a d s).ppu.scr
    (a.toNat % 8 = 5 → q.w = false → coarseX r.t = (d >>> 3).setWidth 5 ∧ coarseY r.t = coarseY q.t ∧
      fineY r.t = fineY q.t ∧ r.t.extractLsb' 10 2 = q.t.extractLsb' 10 2 ∧ r.fineX = d.setWidth 3 ∧ r.w = true ∧ r.v = q.v) ∧
    (a.toNat % 8 = 5 → q.w = true → coarseY r.t = (d >>> 3).setWidth 5 ∧ fineY r.t = d.setWidth 3 ∧
      coarseX r.t = coarseX q.t ∧ r.t.extractLsb' 10 2 = q.t.extractLsb' 10 2 ∧ r.fineX = q.fineX ∧ r.w = false ∧ r.v = q.v) ∧
    (a.toNat % 8 = 6 → q.w = false → r.t.toNat = 256 * (d.toNat % 64) + q.t.toNat % 256 ∧ r.w = true ∧ r.v = q.v ∧
      r.fineX = q.fineX) ∧
    (a.toNat % 8 = 6 → q.w = true → r.t.toNat = 256 * (q.t.toNat / 256) + d.toNat ∧ r.v = r.t ∧ r.w = false ∧
      r.fineX = q.fineX)

/-- R608, R609, R624: the data port: a write goes to `v & 0x3FFF`; a read below the palette is delayed by one, in the
palette it is immediate and the buffer takes the nametable byte under it; either steps `v` by 1 or 32. -/
def Obligations.DataPortReadsAndWrites : Prop :=
  ∀ (a : Addr) (d : Byte) (s : State), s.bus = State.defaultBus → 0x2000 ≤ a.toNat → a.toNat ≤ 0x3FFF → a.toNat % 8 = 7 →
    let at14 : PpuAddr := s.ppu.scr.v.setWidth 14
    let next := s.ppu.scr.v + (if s.ppu.regs.ctrl.getLsbD 2 then 32 else 1)
    ((busWrite a d s).ppu.scr = { s.ppu.scr with v := next } ∧
      (busWrite a d s).ppu.mem = (ppuWrite at14 d s).ppu.mem ∧ (busWrite a d s).cart = (ppuWrite at14 d s).cart) ∧
    (at14.toNat < 0x3F00 → busRead a s = (s.ppu.port.readBuffer, (ppuRead at14 s).2.mapPpu fun p =>
      { p with port := ⟨(ppuRead at14 s).1, s.ppu.port.readBuffer⟩, scr := { p.scr with v := next } })) ∧
    (0x3F00 ≤ at14.toNat →
      let r := (s.ppu.port.ioLatch &&& 0xC0) + (ppuRead at14 s).1
      busRead a s = (r, { s with ppu := { s.ppu with
        port := ⟨(ppuRead (at14 - 0x1000) s).1, r⟩, scr := { s.ppu.scr with v := next } } }))

/-! ### Controllers, DMA, display sink, cartridge -/

/-- R661, R660, R662: a strobe of 1 and then 0 latches the buttons; each read of a port then gives the next button, A first,
and 1 after the eighth; with the strobe held a read gives the first button; a write of 0x4017 is not the controllers'. The
host's key operations set and clear one button bit of one port and touch nothing else. -/
def Obligations.ControllersLatchAndShiftButtons : Prop :=
  (∀ (hi lo : Byte) (k : Nat) (s : State), s.bus = State.defaultBus → hi.getLsbD 0 = true → lo.getLsbD 0 = false →
    let u := busWrite 0x4016 lo (busWrite 0x4016 hi s)
    (readTimes 0x4016 k u).1 = (List.range k).map (fun j => if j < 8 then (s.pads.buttons0 >>> j) &&& 1 else 1) ∧
    (readTimes 0x4017 k u).1 = (List.range k).map (fun j => if j < 8 then (s.pads.buttons1 >>> j) &&& 1 else 1) ∧
    (readTimes 0x4016 k (busWrite 0x4016 hi s)).1 = List.replicate k (s.pads.buttons0 &&& 1) ∧
    componentWrite .pads 0x4017 hi s = s) ∧
  ∀ (port : Fin 2) (b : Fin 8) (s : State),
    (∃ t, hostOp (.keyDown port b) s = .done t ∧ t.pads.shift0 = s.pads.shift0 ∧ t.pads.shift1 = s.pads.shift1 ∧
      t.pads.strobe = s.pads.strobe ∧ ∀ (j : Nat), j < 8 →
      t.pads.buttons0.getLsbD j = (s.pads.buttons0.getLsbD j || (port == 0 && j == b.val)) ∧
      t.pads.buttons1.getLsbD j = (s.pads.buttons1.getLsbD j || (port == 1 && j == b.val))) ∧
    (∃ t, hostOp (.keyUp port b) s = .done t ∧ t.pads.shift0 = s.pads.shift0 ∧ t.pads.shift1 = s.pads.shift1 ∧
      t.pads.strobe = s.pads.strobe ∧ ∀ (j : Nat), j < 8 →
      t.pads.buttons0.getLsbD j = (s.pads.buttons0.getLsbD j && !(port == 0 && j == b.val)) ∧
      t.pads.buttons1.getLsbD j = (s.pads.buttons1.getLsbD j && !(port == 1 && j == b.val)))

/-- R340, R341, R342, R343: a DMA asked for over the NES map copies the 256 bytes of a work RAM page into the object
table from `oamaddr` on, takes 513 CPU ticks or 514 on an odd tick, and leaves the processor's registers, its engine and
`oamaddr` as they were. -/
def Obligations.DmaCopiesPageToObjectTable : Prop :=
  ∀ (page : Byte) (s : State), s.dma = .requested page → cpuAlone 514 (s.setDma .idle) = true →
    s.bus = State.defaultBus → page.toNat < 0x20 → s.cpu.eng = .boundary → s.ppu.spr.oam.wf = true →
    let n := 513 + (if s.params.dmaExtraOnOdd then s.cpu.cycles % 2 else 1 - s.cpu.cycles % 2)
    ∃ t, stepTimes n s = .next t ∧ t.dma = .idle ∧ t.cpu = { s.cpu with cycles := s.cpu.cycles + n } ∧
      t.ppu.regs = s.ppu.regs ∧ t.ram = s.ram ∧
      ∀ i, i < 256 → t.ppu.spr.oam.read ((s.ppu.regs.oamaddr.toNat + i) % 256) =
        s.ram.read ((256 * page.toNat + i) % 0x800)

/-- R280, R343, R341: a CPU tick of a running DMA, or the one that starts it, leaves every register, the engine and the
latches that are set, whatever the bus table and whatever tick table `T` the handler is given; a requested DMA does not
start on a write tick of the instruction (`T` is its table) or sequence under way. -/
def Obligations.DmaHoldsProcessor : Prop :=
  ∀ (T : Table) (s t : State), cpuHandler T s = .next t →
    ((∃ page k data, s.dma = .active page k data) → t.cpu = { s.cpu with cycles := s.cpu.cycles + 1 } ∧
      ∀ f ∈ [Pending.reset, Pending.nmi, Pending.irq], f s.pend = true → f t.pend = true) ∧
    ((∃ page, s.dma = .requested page) → nextTickWrites T s.cpu.eng = false →
      t.cpu = { s.cpu with cycles := s.cpu.cycles + 1 } ∧ ∃ page k, s.dma = .requested page ∧ t.dma = .active page k 0 ∧
        k = (if (if s.params.dmaExtraOnOdd then s.cpu.cycles % 2 = 1 else s.cpu.cycles % 2 = 0) then 2 else 3) ∧
        ∀ f ∈ [Pending.reset, Pending.nmi, Pending.irq], f s.pend = true → f t.pend = true) ∧
    (T = currentTable s → (∃ page, s.dma = .requested page) → nextTickWrites T s.cpu.eng = true →
      ∀ page k data, t.dma ≠ .active page k data)

/-- R650, R651: the cartridge over the NES map, whatever its mapper. A read gives 0 when the mapper refuses, the data of a
mapper register when it has any, and else the byte at the translated offset; a write lands only at an accepted offset of
cartridge RAM. The picture generator's accesses below 0x2000, in whichever step, do the same in its own memory. The mapper's state moves on,
and its call of `Bus.IRQ()` sets the latch. R650's example, 32 KiB at 0x8000, as a flat mapper. -/
def Obligations.CartridgeAnswersThroughMapper : Prop :=
  (∀ s : State, s.bus = State.defaultBus →
    let after (st : Nat) (irq : Bool) (prg chr : Memory 8) : State :=
      { s with cart := { s.cart with st := st, prg := prg, chr := chr }, pend := { s.pend with irq := s.pend.irq || irq } }
    let lands (r : Config.MapReply) (v : Byte) (m m' : Memory 8) : Prop :=
      ∀ n, m'.read n = if r.accepted ∧ r.ram ∧ n = r.offset then v else m.read n
    (∀ a : Addr, 0x4020 ≤ a.toNat →
      let r := s.cart.mapCpuRead a
      busRead a s = (if r.accepted then r.data.getD (s.cart.prg.read r.offset) else 0,
        after r.st r.irq s.cart.prg s.cart.chr)) ∧
    (∀ (a : Addr) (v : Byte), 0x4020 ≤ a.toNat → s.cart.prg.wf = true →
      let r := s.cart.mapCpuWrite a v
      ∃ prg, busWrite a v s = after r.st r.irq prg s.cart.chr ∧ lands r v s.cart.prg prg) ∧
    (∀ (x : ExtRun) (a : PpuAddr), a.toNat < 0x2000 →
      let r := s.cart.mapPpuRead a
      ppuReadVia x a s = (if r.accepted then s.cart.chr.read r.offset else 0, after r.st r.irq s.cart.prg s.cart.chr)) ∧
    (∀ (x : ExtRun) (a : PpuAddr) (v : Byte), a.toNat < 0x2000 → s.cart.chr.wf = true →
      let r := s.cart.mapPpuWrite a
      ∃ chr, ppuWriteVia x a v s = after r.st r.irq s.cart.prg chr ∧ lands r v s.cart.chr chr)) ∧
  ∀ (c : Cart) (ppu : List Window) (m : Config.Mirroring), c.mapper = .flat [⟨0x8000, 0xFFFF, 0, false⟩] ppu m →
    ∀ a : Addr, (0x8000 ≤ a.toNat → (c.mapCpuRead a).accepted = true ∧ (c.mapCpuRead a).offset = a.toNat - 0x8000 ∧
      (c.mapCpuRead a).data = none ∧ (c.mapCpuRead a).ram = false) ∧
      (a.toNat < 0x8000 → (c.mapCpuRead a).accepted = false)
end

