-- ==== Sys2Proof/Laws/PerInstr.lean ====
section
/-! SUPPORT. Statements about every instruction as syntax, one lemma per constructor. -/

namespace Sys2Proof.Laws.Encodable

/-- An instruction has an opcode byte exactly when it is well-formed (R161, R163). -/
def Statement (i : Instr) : Prop := (encode i).isSome = i.wf

theorem lda (m : Mode) : Statement (.lda m) := by cases m <;> rfl
theorem ldx (m : Mode) : Statement (.ldx m) := by cases m <;> rfl
theorem ldy (m : Mode) : Statement (.ldy m) := by cases m <;> rfl
theorem sta (m : Mode) : Statement (.sta m) := by cases m <;> rfl
theorem stx (m : Mode) : Statement (.stx m) := by cases m <;> rfl
theorem sty (m : Mode) : Statement (.sty m) := by cases m <;> rfl
theorem tax : Statement .tax := rfl
theorem tay : Statement .tay := rfl
theorem txa : Statement .txa := rfl
theorem tya : Statement .tya := rfl
theorem tsx : Statement .tsx := rfl
theorem txs : Statement .txs := rfl
theorem pha : Statement .pha := rfl
theorem php : Statement .php := rfl
theorem pla : Statement .pla := rfl
theorem plp : Statement .plp := rfl
theorem adc (m : Mode) : Statement (.adc m) := by cases m <;> rfl
theorem sbc (m : Mode) : Statement (.sbc m) := by cases m <;> rfl
theorem and (m : Mode) : Statement (.and m) := by cases m <;> rfl
theorem ora (m : Mode) : Statement (.ora m) := by cases m <;> rfl
theorem eor (m : Mode) : Statement (.eor m) := by cases m <;> rfl
theorem cmp (m : Mode) : Statement (.cmp m) := by cases m <;> rfl
theorem cpx (m : Mode) : Statement (.cpx m) := by cases m <;> rfl
theorem cpy (m : Mode) : Statement (.cpy m) := by cases m <;> rfl
theorem bit (m : Mode) : Statement (.bit m) := by cases m <;> rfl
theorem inc (m : Mode) : Statement (.inc m) := by cases m <;> rfl
theorem dec (m : Mode) : Statement (.dec m) := by cases m <;> rfl
theorem inx : Statement .inx := rfl
theorem iny : Statement .iny := rfl
theorem dex : Statement .dex := rfl
theorem dey : Statement .dey := rfl
theorem asl (m : Mode) : Statement (.asl m) := by cases m <;> rfl
theorem lsr (m : Mode) : Statement (.lsr m) := by cases m <;> rfl
theorem rol (m : Mode) : Statement (.rol m) := by cases m <;> rfl
theorem ror (m : Mode) : Statement (.ror m) := by cases m <;> rfl
theorem jmp (m : Mode) : Statement (.jmp m) := by cases m <;> rfl
theorem jsr : Statement .jsr := rfl
theorem rts : Statement .rts := rfl
theorem rti : Statement .rti := rfl
theorem brk : Statement .brk := rfl
theorem bcc : Statement .bcc := rfl
theorem bcs : Statement .bcs := rfl
theorem beq : Statement .beq := rfl
theorem bmi : Statement .bmi := rfl
theorem bne : Statement .bne := rfl
theorem bpl : Statement .bpl := rfl
theorem bvc : Statement .bvc := rfl
theorem bvs : Statement .bvs := rfl
theorem clc : Statement .clc := rfl
theorem sec : Statement .sec := rfl
theorem cli : Statement .cli := rfl
theorem sei : Statement .sei := rfl
theorem clv : Statement .clv := rfl
theorem cld : Statement .cld := rfl
theorem sed : Statement .sed := rfl
theorem nop : Statement .nop := rfl
theorem una (op : Byte) : Statement (.una op) := by
  simp only [Statement, encode, Instr.wf]
  split <;> simp_all

end Sys2Proof.Laws.Encodable
end

