-- ==== Sys2Proof/Laws/Encoding.lean ====
section
/-! SUPPORT. The decoder and the encoder are inverse, opcode by opcode (spec/30_encoding.md R160-R165). -/

set_option maxRecDepth 100000

namespace Sys2Proof.Machine

theorem decode_unassigned : ∀ op : Byte, unassignedOpcodes.contains op = true → decode op = .una op := by decide

theorem decode_encode {i : Instr} {op : Byte} (h : encode i = some op) : decode op = i := by
  cases i with
  | una o =>
    simp only [encode] at h
    split at h
    · cases h; exact decode_unassigned _ ‹_›
    · cases h
  | lda m | ldx m | ldy m | sta m | stx m | sty m | adc m | sbc m | and m | ora m | eor m | cmp m | cpx m | cpy m | bit m | inc m | dec m | asl m | lsr m | rol m | ror m | jmp m =>
    cases m <;> (cases h <;> rfl)
  | _ => cases h; rfl

theorem decode_opcodeOf {i : Instr} (hw : i.wf = true) : decode (opcodeOf i) = i := by
  have h : (encode i).isSome = true := by
    have : Laws.Encodable.Statement i := by
      cases i with
      | una o => exact Laws.Encodable.una o
      | lda m | ldx m | ldy m | sta m | stx m | sty m | adc m | sbc m | and m | ora m | eor m | cmp m | cpx m | cpy m | bit m | inc m | dec m | asl m | lsr m | rol m | ror m | jmp m =>
        cases m <;> rfl
      | _ => rfl
    rw [this]; exact hw
  obtain ⟨op, ho⟩ := Option.isSome_iff_exists.mp h
  unfold opcodeOf
  rw [ho]
  exact decode_encode ho

theorem encode_decode : ∀ op : Byte, encode (decode op) = some op := by decide

theorem decode_eq_iff {i : Instr} {op : Byte} : decode op = i ↔ encode i = some op :=
  ⟨fun h => h ▸ encode_decode op, decode_encode⟩

theorem encodedAs_of {mk : Mode → Instr} {rows : List (Mode × Byte)}
    (h : ∀ m, ∀ op : Byte, encode (mk m) = some op ↔ (m, op) ∈ rows) : encodedAs mk rows :=
  fun m op => decode_eq_iff.trans (h m op)

theorem encodedBy_of {i : Instr} {op : Byte} (h : encode i = some op) : encodedBy i op := by
  intro b
  rw [decode_eq_iff, h]
  simp [eq_comm]

end Sys2Proof.Machine
end

