-- ==== Sys2Proof/Laws/FlagForms.lean ====
section
/-! SUPPORT. Each flag computation of Flags.lean in plain arithmetic: the status byte after it, bit by bit (spec/10_state.md R41, R42; spec/44_cpu_alu.md R400-R419). -/

set_option maxRecDepth 100000

namespace Sys2Proof.Machine

theorem nz_eq (v p : Byte) : (Machine.putFlag .n (bitAt v 7) (Machine.putFlag .z (v == 0) p)) = nzOf v p := by
  unfold nzOf Machine.putFlag
  have : bitAt v 7 = (v &&& 0x80 == 0x80) := by revert v; decide
  rw [this]
  by_cases h0 : v = 0
  · subst h0
    simp [Flag.mask, Flag.bit]
    revert p; decide
  · have e : (v == 0) = false := by simpa using h0
    rw [e]
    simp only [h0, if_false]
    have : v &&& 0x80 = 0x80 ∨ v &&& 0x80 = 0 := by revert v; decide
    rcases this with h | h <;> rw [h] <;> simp [Flag.mask, Flag.bit] <;> (revert p; decide)

theorem setNZ_eq (v : Byte) (c : Cpu) : c.setNZ v = { c with p := nzOf v c.p } := by
  simp only [Cpu.setNZ, Cpu.putFlag, Cpu.setP, nz_eq]

theorem putC_eq (b : Bool) (p : Byte) : Machine.putFlag .c b p = withC b p := by revert b p; decide

theorem putI_eq (b : Bool) (p : Byte) : Machine.putFlag .i b p = withI b p := by revert b p; decide

theorem putD_eq (b : Bool) (p : Byte) : Machine.putFlag .d b p = withD b p := by revert b p; decide

theorem putV_eq (b : Bool) (p : Byte) : Machine.putFlag .v b p = withV b p := by revert b p; decide

theorem putZ_eq (b : Bool) (p : Byte) : Machine.putFlag .z b p = withZ b p := by revert b p; decide

theorem putN_eq (b : Bool) (p : Byte) : Machine.putFlag .n b p = withN b p := by revert b p; decide

theorem compare_eq (r m : Byte) (c : Cpu) : c.compare r m = c.compared r m := by
  simp only [Cpu.compare, setNZ_eq, Cpu.putFlag, Cpu.setP, putC_eq, Cpu.compared, BitVec.le_def]

theorem bit_eq (m : Byte) (c : Cpu) : c.bitTest m =
    { c with p := withZ (decide (c.a &&& m = 0)) (withN (decide (128 ≤ m.toNat)) (withV (m.getLsbD 6) c.p)) } := by
  simp only [Cpu.bitTest, Cpu.putFlag, Cpu.setP, putZ_eq, putV_eq, putN_eq]
  congr 1
  have h1 : bitAt m 7 = decide (128 ≤ m.toNat) := by revert m; decide
  have h2 : bitAt m 6 = m.getLsbD 6 := rfl
  have h3 : (c.a &&& m == 0) = decide (c.a &&& m = 0) := rfl
  rw [h1, h2, h3]
  generalize c.p = p
  generalize decide (128 ≤ m.toNat) = a
  generalize m.getLsbD 6 = b
  generalize decide (c.a &&& m = 0) = d
  revert a b d p; decide

theorem add_eq (m : Byte) (c : Cpu) : c.addWithCarry m = c.added m := by
  have hc : BitVec.ofBool (flag .c c.p) = (c.p &&& 1).setWidth 1 := by generalize c.p = p; revert p; decide
  have hs : (sum9 c.a m (flag .c c.p)).toNat = c.a.toNat + m.toNat + (c.p &&& 1).toNat := by
    have : (c.p &&& 1).toNat < 2 := by generalize c.p = p; revert p; decide
    simp only [sum9, hc]
    have h1 := c.a.isLt
    have h2 := m.isLt
    simp only [BitVec.toNat_add, BitVec.toNat_setWidth]
    omega
  have hr : (sum9 c.a m (flag .c c.p)).setWidth 8 = BitVec.ofNat 8 (c.a.toNat + m.toNat + (c.p &&& 1).toNat) := by
    apply BitVec.eq_of_toNat_eq
    rw [BitVec.toNat_setWidth, hs, BitVec.toNat_ofNat]
  have h8 : bitAt (sum9 c.a m (flag .c c.p)) 8 = decide (255 < c.a.toNat + m.toNat + (c.p &&& 1).toNat) := by
    have h1 := c.a.isLt
    have h2 := m.isLt
    have : (c.p &&& 1).toNat < 2 := by generalize c.p = p; revert p; decide
    rw [bitAt, ← BitVec.testBit_toNat, hs, Nat.testBit_eq_decide_div_mod_eq]
    congr 1; apply propext; constructor <;> (intro h; omega)
  have hv : overflow c.a m (BitVec.ofNat 8 (c.a.toNat + m.toNat + (c.p &&& 1).toNat)) =
      decide (c.a.toInt + m.toInt + ((c.p &&& 1).toNat : Int) < -128 ∨ 127 < c.a.toInt + m.toInt + ((c.p &&& 1).toNat : Int)) := by
    have : (c.p &&& 1).toNat < 2 := by generalize c.p = p; revert p; decide
    generalize (c.p &&& 1).toNat = k at *
    have h1 := c.a.isLt
    have h2 := m.isLt
    have bit7 : ∀ b : Byte, b.getLsbD 7 = decide (128 ≤ b.toNat) := by decide
    simp only [overflow, bitAt, BitVec.getLsbD_and, BitVec.getLsbD_xor]
    simp only [bit7, BitVec.toNat_ofNat, BitVec.toInt_eq_toNat_cond, Nat.reducePow]
    rw [Bool.eq_iff_iff]
    simp only [Bool.and_eq_true, bne_iff_ne, ne_eq, decide_eq_decide, decide_eq_true_eq]
    split <;> split <;> omega
  simp only [Cpu.addWithCarry, setNZ_eq, Cpu.putFlag, Cpu.setP, Cpu.setA, hr, h8, hv, putV_eq, putC_eq, Cpu.added]

theorem bit7_eq : ∀ v : Byte, bitAt v 7 = decide (128 ≤ v.toNat) := by decide

theorem bit0_eq : ∀ v : Byte, bitAt v 0 = decide (v.toNat % 2 = 1) := by decide

theorem asl_eq (v : Byte) (c : Cpu) : aslMod v c = (BitVec.ofNat 8 (2 * v.toNat), { c with p := nzOf (BitVec.ofNat 8 (2 * v.toNat)) (withC (decide (128 ≤ v.toNat)) c.p) }) := by
  have h1 : v <<< 1 = BitVec.ofNat 8 (2 * v.toNat) := by revert v; decide
  have h2 := bit7_eq v
  simp only [aslMod, Cpu.shifted, setNZ_eq, Cpu.putFlag, Cpu.setP, putC_eq, h1, h2]

theorem lsr_eq (v : Byte) (c : Cpu) : lsrMod v c = (BitVec.ofNat 8 (v.toNat / 2), { c with p := nzOf (BitVec.ofNat 8 (v.toNat / 2)) (withC (decide (v.toNat % 2 = 1)) c.p) }) := by
  have h1 : v >>> 1 = BitVec.ofNat 8 (v.toNat / 2) := by revert v; decide
  have h2 := bit0_eq v
  simp only [lsrMod, Cpu.shifted, setNZ_eq, Cpu.putFlag, Cpu.setP, putC_eq, h1, h2]

theorem rol_eq (v : Byte) (c : Cpu) : rolMod v c = (BitVec.ofNat 8 (2 * v.toNat + c.p.toNat % 2), { c with p := nzOf (BitVec.ofNat 8 (2 * v.toNat + c.p.toNat % 2)) (withC (decide (128 ≤ v.toNat)) c.p) }) := by
  have h1 : (v <<< 1) ||| (BitVec.ofBool (flag .c c.p)).setWidth 8 = BitVec.ofNat 8 (2 * v.toNat + c.p.toNat % 2) := by
    have : flag .c c.p = decide (c.p.toNat % 2 = 1) := by generalize c.p = p; revert p; decide
    rw [this]
    rcases Nat.mod_two_eq_zero_or_one c.p.toNat with h | h <;> rw [h] <;> (revert v; decide)
  have h2 := bit7_eq v
  simp only [rolMod, Cpu.shifted, setNZ_eq, Cpu.putFlag, Cpu.setP, putC_eq, h1, h2]

theorem ror_eq (v : Byte) (c : Cpu) : rorMod v c = (BitVec.ofNat 8 (v.toNat / 2 + 128 * (c.p.toNat % 2)), { c with p := nzOf (BitVec.ofNat 8 (v.toNat / 2 + 128 * (c.p.toNat % 2))) (withC (decide (v.toNat % 2 = 1)) c.p) }) := by
  have h1 : (v >>> 1) ||| ((BitVec.ofBool (flag .c c.p)).setWidth 8 <<< 7) = BitVec.ofNat 8 (v.toNat / 2 + 128 * (c.p.toNat % 2)) := by
    have : flag .c c.p = decide (c.p.toNat % 2 = 1) := by generalize c.p = p; revert p; decide
    rw [this]
    rcases Nat.mod_two_eq_zero_or_one c.p.toNat with h | h <;> rw [h] <;> (revert v; decide)
  have h2 := bit0_eq v
  simp only [rorMod, Cpu.shifted, setNZ_eq, Cpu.putFlag, Cpu.setP, putC_eq, h1, h2]

theorem pushedByInterrupt_eq (p : Byte) : pushedByInterrupt p = statusPlus 0x20 p := by revert p; decide

theorem pushedByInstr_eq (p : Byte) : pushedByInstr p = statusPlus 0x30 p := by revert p; decide

end Sys2Proof.Machine
end

