-- ==== Sys2Proof/Laws/State.lean ====
section
/-! SUPPORT. What every update of Machine/Update.lean does to every field: one lemma per field per update, true by
rfl, so that no proof unfolds a record update. -/

namespace Sys2Proof.Machine

variable (s : State) (c : Cpu)

/-! State.mapClock -/

@[simp] theorem State.mapClock_params (f : Clock → Clock) : (s.mapClock f).params = s.params := rfl
@[simp] theorem State.mapClock_clock (f : Clock → Clock) : (s.mapClock f).clock = f s.clock := rfl
@[simp] theorem State.mapClock_dividers (f : Clock → Clock) : (s.mapClock f).dividers = s.dividers := rfl
@[simp] theorem State.mapClock_cpuUnit (f : Clock → Clock) : (s.mapClock f).cpuUnit = s.cpuUnit := rfl
@[simp] theorem State.mapClock_ppuUnit (f : Clock → Clock) : (s.mapClock f).ppuUnit = s.ppuUnit := rfl
@[simp] theorem State.mapClock_soundUnit (f : Clock → Clock) : (s.mapClock f).soundUnit = s.soundUnit := rfl
@[simp] theorem State.mapClock_bus (f : Clock → Clock) : (s.mapClock f).bus = s.bus := rfl
@[simp] theorem State.mapClock_cpu (f : Clock → Clock) : (s.mapClock f).cpu = s.cpu := rfl
@[simp] theorem State.mapClock_pend (f : Clock → Clock) : (s.mapClock f).pend = s.pend := rfl
@[simp] theorem State.mapClock_dma (f : Clock → Clock) : (s.mapClock f).dma = s.dma := rfl
@[simp] theorem State.mapClock_ram (f : Clock → Clock) : (s.mapClock f).ram = s.ram := rfl
@[simp] theorem State.mapClock_ppu (f : Clock → Clock) : (s.mapClock f).ppu = s.ppu := rfl
@[simp] theorem State.mapClock_pads (f : Clock → Clock) : (s.mapClock f).pads = s.pads := rfl
@[simp] theorem State.mapClock_cart (f : Clock → Clock) : (s.mapClock f).cart = s.cart := rfl
@[simp] theorem State.mapClock_sound (f : Clock → Clock) : (s.mapClock f).sound = s.sound := rfl
@[simp] theorem State.mapClock_ext (f : Clock → Clock) : (s.mapClock f).ext = s.ext := rfl
@[simp] theorem State.mapClock_sink (f : Clock → Clock) : (s.mapClock f).sink = s.sink := rfl
@[simp] theorem State.mapClock_schedule (f : Clock → Clock) : (s.mapClock f).schedule = s.schedule := rfl

/-! State.setDividers -/

@[simp] theorem State.setDividers_params (d : List Divider) : (s.setDividers d).params = s.params := rfl
@[simp] theorem State.setDividers_clock (d : List Divider) : (s.setDividers d).clock = s.clock := rfl
@[simp] theorem State.setDividers_dividers (d : List Divider) : (s.setDividers d).dividers = d := rfl
@[simp] theorem State.setDividers_cpuUnit (d : List Divider) : (s.setDividers d).cpuUnit = s.cpuUnit := rfl
@[simp] theorem State.setDividers_ppuUnit (d : List Divider) : (s.setDividers d).ppuUnit = s.ppuUnit := rfl
@[simp] theorem State.setDividers_soundUnit (d : List Divider) : (s.setDividers d).soundUnit = s.soundUnit := rfl
@[simp] theorem State.setDividers_bus (d : List Divider) : (s.setDividers d).bus = s.bus := rfl
@[simp] theorem State.setDividers_cpu (d : List Divider) : (s.setDividers d).cpu = s.cpu := rfl
@[simp] theorem State.setDividers_pend (d : List Divider) : (s.setDividers d).pend = s.pend := rfl
@[simp] theorem State.setDividers_dma (d : List Divider) : (s.setDividers d).dma = s.dma := rfl
@[simp] theorem State.setDividers_ram (d : List Divider) : (s.setDividers d).ram = s.ram := rfl
@[simp] theorem State.setDividers_ppu (d : List Divider) : (s.setDividers d).ppu = s.ppu := rfl
@[simp] theorem State.setDividers_pads (d : List Divider) : (s.setDividers d).pads = s.pads := rfl
@[simp] theorem State.setDividers_cart (d : List Divider) : (s.setDividers d).cart = s.cart := rfl
@[simp] theorem State.setDividers_sound (d : List Divider) : (s.setDividers d).sound = s.sound := rfl
@[simp] theorem State.setDividers_ext (d : List Divider) : (s.setDividers d).ext = s.ext := rfl
@[simp] theorem State.setDividers_sink (d : List Divider) : (s.setDividers d).sink = s.sink := rfl
@[simp] theorem State.setDividers_schedule (d : List Divider) : (s.setDividers d).schedule = s.schedule := rfl

/-! State.setBus -/

@[simp] theorem State.setBus_params (b : List BusEntry) : (s.setBus b).params = s.params := rfl
@[simp] theorem State.setBus_clock (b : List BusEntry) : (s.setBus b).clock = s.clock := rfl
@[simp] theorem State.setBus_dividers (b : List BusEntry) : (s.setBus b).dividers = s.dividers := rfl
@[simp] theorem State.setBus_cpuUnit (b : List BusEntry) : (s.setBus b).cpuUnit = s.cpuUnit := rfl
@[simp] theorem State.setBus_ppuUnit (b : List BusEntry) : (s.setBus b).ppuUnit = s.ppuUnit := rfl
@[simp] theorem State.setBus_soundUnit (b : List BusEntry) : (s.setBus b).soundUnit = s.soundUnit := rfl
@[simp] theorem State.setBus_bus (b : List BusEntry) : (s.setBus b).bus = b := rfl
@[simp] theorem State.setBus_cpu (b : List BusEntry) : (s.setBus b).cpu = s.cpu := rfl
@[simp] theorem State.setBus_pend (b : List BusEntry) : (s.setBus b).pend = s.pend := rfl
@[simp] theorem State.setBus_dma (b : List BusEntry) : (s.setBus b).dma = s.dma := rfl
@[simp] theorem State.setBus_ram (b : List BusEntry) : (s.setBus b).ram = s.ram := rfl
@[simp] theorem State.setBus_ppu (b : List BusEntry) : (s.setBus b).ppu = s.ppu := rfl
@[simp] theorem State.setBus_pads (b : List BusEntry) : (s.setBus b).pads = s.pads := rfl
@[simp] theorem State.setBus_cart (b : List BusEntry) : (s.setBus b).cart = s.cart := rfl
@[simp] theorem State.setBus_sound (b : List BusEntry) : (s.setBus b).sound = s.sound := rfl
@[simp] theorem State.setBus_ext (b : List BusEntry) : (s.setBus b).ext = s.ext := rfl
@[simp] theorem State.setBus_sink (b : List BusEntry) : (s.setBus b).sink = s.sink := rfl
@[simp] theorem State.setBus_schedule (b : List BusEntry) : (s.setBus b).schedule = s.schedule := rfl

/-! State.mapCpu -/

@[simp] theorem State.mapCpu_params (f : Cpu → Cpu) : (s.mapCpu f).params = s.params := rfl
@[simp] theorem State.mapCpu_clock (f : Cpu → Cpu) : (s.mapCpu f).clock = s.clock := rfl
@[simp] theorem State.mapCpu_dividers (f : Cpu → Cpu) : (s.mapCpu f).dividers = s.dividers := rfl
@[simp] theorem State.mapCpu_cpuUnit (f : Cpu → Cpu) : (s.mapCpu f).cpuUnit = s.cpuUnit := rfl
@[simp] theorem State.mapCpu_ppuUnit (f : Cpu → Cpu) : (s.mapCpu f).ppuUnit = s.ppuUnit := rfl
@[simp] theorem State.mapCpu_soundUnit (f : Cpu → Cpu) : (s.mapCpu f).soundUnit = s.soundUnit := rfl
@[simp] theorem State.mapCpu_bus (f : Cpu → Cpu) : (s.mapCpu f).bus = s.bus := rfl
@[simp] theorem State.mapCpu_cpu (f : Cpu → Cpu) : (s.mapCpu f).cpu = f s.cpu := rfl
@[simp] theorem State.mapCpu_pend (f : Cpu → Cpu) : (s.mapCpu f).pend = s.pend := rfl
@[simp] theorem State.mapCpu_dma (f : Cpu → Cpu) : (s.mapCpu f).dma = s.dma := rfl
@[simp] theorem State.mapCpu_ram (f : Cpu → Cpu) : (s.mapCpu f).ram = s.ram := rfl
@[simp] theorem State.mapCpu_ppu (f : Cpu → Cpu) : (s.mapCpu f).ppu = s.ppu := rfl
@[simp] theorem State.mapCpu_pads (f : Cpu → Cpu) : (s.mapCpu f).pads = s.pads := rfl
@[simp] theorem State.mapCpu_cart (f : Cpu → Cpu) : (s.mapCpu f).cart = s.cart := rfl
@[simp] theorem State.mapCpu_sound (f : Cpu → Cpu) : (s.mapCpu f).sound = s.sound := rfl
@[simp] theorem State.mapCpu_ext (f : Cpu → Cpu) : (s.mapCpu f).ext = s.ext := rfl
@[simp] theorem State.mapCpu_sink (f : Cpu → Cpu) : (s.mapCpu f).sink = s.sink := rfl
@[simp] theorem State.mapCpu_schedule (f : Cpu → Cpu) : (s.mapCpu f).schedule = s.schedule := rfl

/-! State.mapPend -/

@[simp] theorem State.mapPend_params (f : Pending → Pending) : (s.mapPend f).params = s.params := rfl
@[simp] theorem State.mapPend_clock (f : Pending → Pending) : (s.mapPend f).clock = s.clock := rfl
@[simp] theorem State.mapPend_dividers (f : Pending → Pending) : (s.mapPend f).dividers = s.dividers := rfl
@[simp] theorem State.mapPend_cpuUnit (f : Pending → Pending) : (s.mapPend f).cpuUnit = s.cpuUnit := rfl
@[simp] theorem State.mapPend_ppuUnit (f : Pending → Pending) : (s.mapPend f).ppuUnit = s.ppuUnit := rfl
@[simp] theorem State.mapPend_soundUnit (f : Pending → Pending) : (s.mapPend f).soundUnit = s.soundUnit := rfl
@[simp] theorem State.mapPend_bus (f : Pending → Pending) : (s.mapPend f).bus = s.bus := rfl
@[simp] theorem State.mapPend_cpu (f : Pending → Pending) : (s.mapPend f).cpu = s.cpu := rfl
@[simp] theorem State.mapPend_pend (f : Pending → Pending) : (s.mapPend f).pend = f s.pend := rfl
@[simp] theorem State.mapPend_dma (f : Pending → Pending) : (s.mapPend f).dma = s.dma := rfl
@[simp] theorem State.mapPend_ram (f : Pending → Pending) : (s.mapPend f).ram = s.ram := rfl
@[simp] theorem State.mapPend_ppu (f : Pending → Pending) : (s.mapPend f).ppu = s.ppu := rfl
@[simp] theorem State.mapPend_pads (f : Pending → Pending) : (s.mapPend f).pads = s.pads := rfl
@[simp] theorem State.mapPend_cart (f : Pending → Pending) : (s.mapPend f).cart = s.cart := rfl
@[simp] theorem State.mapPend_sound (f : Pending → Pending) : (s.mapPend f).sound = s.sound := rfl
@[simp] theorem State.mapPend_ext (f : Pending → Pending) : (s.mapPend f).ext = s.ext := rfl
@[simp] theorem State.mapPend_sink (f : Pending → Pending) : (s.mapPend f).sink = s.sink := rfl
@[simp] theorem State.mapPend_schedule (f : Pending → Pending) : (s.mapPend f).schedule = s.schedule := rfl

/-! State.setDma -/

@[simp] theorem State.setDma_params (d : Dma) : (s.setDma d).params = s.params := rfl
@[simp] theorem State.setDma_clock (d : Dma) : (s.setDma d).clock = s.clock := rfl
@[simp] theorem State.setDma_dividers (d : Dma) : (s.setDma d).dividers = s.dividers := rfl
@[simp] theorem State.setDma_cpuUnit (d : Dma) : (s.setDma d).cpuUnit = s.cpuUnit := rfl
@[simp] theorem State.setDma_ppuUnit (d : Dma) : (s.setDma d).ppuUnit = s.ppuUnit := rfl
@[simp] theorem State.setDma_soundUnit (d : Dma) : (s.setDma d).soundUnit = s.soundUnit := rfl
@[simp] theorem State.setDma_bus (d : Dma) : (s.setDma d).bus = s.bus := rfl
@[simp] theorem State.setDma_cpu (d : Dma) : (s.setDma d).cpu = s.cpu := rfl
@[simp] theorem State.setDma_pend (d : Dma) : (s.setDma d).pend = s.pend := rfl
@[simp] theorem State.setDma_dma (d : Dma) : (s.setDma d).dma = d := rfl
@[simp] theorem State.setDma_ram (d : Dma) : (s.setDma d).ram = s.ram := rfl
@[simp] theorem State.setDma_ppu (d : Dma) : (s.setDma d).ppu = s.ppu := rfl
@[simp] theorem State.setDma_pads (d : Dma) : (s.setDma d).pads = s.pads := rfl
@[simp] theorem State.setDma_cart (d : Dma) : (s.setDma d).cart = s.cart := rfl
@[simp] theorem State.setDma_sound (d : Dma) : (s.setDma d).sound = s.sound := rfl
@[simp] theorem State.setDma_ext (d : Dma) : (s.setDma d).ext = s.ext := rfl
@[simp] theorem State.setDma_sink (d : Dma) : (s.setDma d).sink = s.sink := rfl
@[simp] theorem State.setDma_schedule (d : Dma) : (s.setDma d).schedule = s.schedule := rfl

/-! State.setRam -/

@[simp] theorem State.setRam_params (m : Memory 8) : (s.setRam m).params = s.params := rfl
@[simp] theorem State.setRam_clock (m : Memory 8) : (s.setRam m).clock = s.clock := rfl
@[simp] theorem State.setRam_dividers (m : Memory 8) : (s.setRam m).dividers = s.dividers := rfl
@[simp] theorem State.setRam_cpuUnit (m : Memory 8) : (s.setRam m).cpuUnit = s.cpuUnit := rfl
@[simp] theorem State.setRam_ppuUnit (m : Memory 8) : (s.setRam m).ppuUnit = s.ppuUnit := rfl
@[simp] theorem State.setRam_soundUnit (m : Memory 8) : (s.setRam m).soundUnit = s.soundUnit := rfl
@[simp] theorem State.setRam_bus (m : Memory 8) : (s.setRam m).bus = s.bus := rfl
@[simp] theorem State.setRam_cpu (m : Memory 8) : (s.setRam m).cpu = s.cpu := rfl
@[simp] theorem State.setRam_pend (m : Memory 8) : (s.setRam m).pend = s.pend := rfl
@[simp] theorem State.setRam_dma (m : Memory 8) : (s.setRam m).dma = s.dma := rfl
@[simp] theorem State.setRam_ram (m : Memory 8) : (s.setRam m).ram = m := rfl
@[simp] theorem State.setRam_ppu (m : Memory 8) : (s.setRam m).ppu = s.ppu := rfl
@[simp] theorem State.setRam_pads (m : Memory 8) : (s.setRam m).pads = s.pads := rfl
@[simp] theorem State.setRam_cart (m : Memory 8) : (s.setRam m).cart = s.cart := rfl
@[simp] theorem State.setRam_sound (m : Memory 8) : (s.setRam m).sound = s.sound := rfl
@[simp] theorem State.setRam_ext (m : Memory 8) : (s.setRam m).ext = s.ext := rfl
@[simp] theorem State.setRam_sink (m : Memory 8) : (s.setRam m).sink = s.sink := rfl
@[simp] theorem State.setRam_schedule (m : Memory 8) : (s.setRam m).schedule = s.schedule := rfl

/-! State.mapPpu -/

@[simp] theorem State.mapPpu_params (f : Ppu → Ppu) : (s.mapPpu f).params = s.params := rfl
@[simp] theorem State.mapPpu_clock (f : Ppu → Ppu) : (s.mapPpu f).clock = s.clock := rfl
@[simp] theorem State.mapPpu_dividers (f : Ppu → Ppu) : (s.mapPpu f).dividers = s.dividers := rfl
@[simp] theorem State.mapPpu_cpuUnit (f : Ppu → Ppu) : (s.mapPpu f).cpuUnit = s.cpuUnit := rfl
@[simp] theorem State.mapPpu_ppuUnit (f : Ppu → Ppu) : (s.mapPpu f).ppuUnit = s.ppuUnit := rfl
@[simp] theorem State.mapPpu_soundUnit (f : Ppu → Ppu) : (s.mapPpu f).soundUnit = s.soundUnit := rfl
@[simp] theorem State.mapPpu_bus (f : Ppu → Ppu) : (s.mapPpu f).bus = s.bus := rfl
@[simp] theorem State.mapPpu_cpu (f : Ppu → Ppu) : (s.mapPpu f).cpu = s.cpu := rfl
@[simp] theorem State.mapPpu_pend (f : Ppu → Ppu) : (s.mapPpu f).pend = s.pend := rfl
@[simp] theorem State.mapPpu_dma (f : Ppu → Ppu) : (s.mapPpu f).dma = s.dma := rfl
@[simp] theorem State.mapPpu_ram (f : Ppu → Ppu) : (s.mapPpu f).ram = s.ram := rfl
@[simp] theorem State.mapPpu_ppu (f : Ppu → Ppu) : (s.mapPpu f).ppu = f s.ppu := rfl
@[simp] theorem State.mapPpu_pads (f : Ppu → Ppu) : (s.mapPpu f).pads = s.pads := rfl
@[simp] theorem State.mapPpu_cart (f : Ppu → Ppu) : (s.mapPpu f).cart = s.cart := rfl
@[simp] theorem State.mapPpu_sound (f : Ppu → Ppu) : (s.mapPpu f).sound = s.sound := rfl
@[simp] theorem State.mapPpu_ext (f : Ppu → Ppu) : (s.mapPpu f).ext = s.ext := rfl
@[simp] theorem State.mapPpu_sink (f : Ppu → Ppu) : (s.mapPpu f).sink = s.sink := rfl
@[simp] theorem State.mapPpu_schedule (f : Ppu → Ppu) : (s.mapPpu f).schedule = s.schedule := rfl

/-! State.mapPads -/

@[simp] theorem State.mapPads_params (f : Pads → Pads) : (s.mapPads f).params = s.params := rfl
@[simp] theorem State.mapPads_clock (f : Pads → Pads) : (s.mapPads f).clock = s.clock := rfl
@[simp] theorem State.mapPads_dividers (f : Pads → Pads) : (s.mapPads f).dividers = s.dividers := rfl
@[simp] theorem State.mapPads_cpuUnit (f : Pads → Pads) : (s.mapPads f).cpuUnit = s.cpuUnit := rfl
@[simp] theorem State.mapPads_ppuUnit (f : Pads → Pads) : (s.mapPads f).ppuUnit = s.ppuUnit := rfl
@[simp] theorem State.mapPads_soundUnit (f : Pads → Pads) : (s.mapPads f).soundUnit = s.soundUnit := rfl
@[simp] theorem State.mapPads_bus (f : Pads → Pads) : (s.mapPads f).bus = s.bus := rfl
@[simp] theorem State.mapPads_cpu (f : Pads → Pads) : (s.mapPads f).cpu = s.cpu := rfl
@[simp] theorem State.mapPads_pend (f : Pads → Pads) : (s.mapPads f).pend = s.pend := rfl
@[simp] theorem State.mapPads_dma (f : Pads → Pads) : (s.mapPads f).dma = s.dma := rfl
@[simp] theorem State.mapPads_ram (f : Pads → Pads) : (s.mapPads f).ram = s.ram := rfl
@[simp] theorem State.mapPads_ppu (f : Pads → Pads) : (s.mapPads f).ppu = s.ppu := rfl
@[simp] theorem State.mapPads_pads (f : Pads → Pads) : (s.mapPads f).pads = f s.pads := rfl
@[simp] theorem State.mapPads_cart (f : Pads → Pads) : (s.mapPads f).cart = s.cart := rfl
@[simp] theorem State.mapPads_sound (f : Pads → Pads) : (s.mapPads f).sound = s.sound := rfl
@[simp] theorem State.mapPads_ext (f : Pads → Pads) : (s.mapPads f).ext = s.ext := rfl
@[simp] theorem State.mapPads_sink (f : Pads → Pads) : (s.mapPads f).sink = s.sink := rfl
@[simp] theorem State.mapPads_schedule (f : Pads → Pads) : (s.mapPads f).schedule = s.schedule := rfl

/-! State.mapCart -/

@[simp] theorem State.mapCart_params (f : Cart → Cart) : (s.mapCart f).params = s.params := rfl
@[simp] theorem State.mapCart_clock (f : Cart → Cart) : (s.mapCart f).clock = s.clock := rfl
@[simp] theorem State.mapCart_dividers (f : Cart → Cart) : (s.mapCart f).dividers = s.dividers := rfl
@[simp] theorem State.mapCart_cpuUnit (f : Cart → Cart) : (s.mapCart f).cpuUnit = s.cpuUnit := rfl
@[simp] theorem State.mapCart_ppuUnit (f : Cart → Cart) : (s.mapCart f).ppuUnit = s.ppuUnit := rfl
@[simp] theorem State.mapCart_soundUnit (f : Cart → Cart) : (s.mapCart f).soundUnit = s.soundUnit := rfl
@[simp] theorem State.mapCart_bus (f : Cart → Cart) : (s.mapCart f).bus = s.bus := rfl
@[simp] theorem State.mapCart_cpu (f : Cart → Cart) : (s.mapCart f).cpu = s.cpu := rfl
@[simp] theorem State.mapCart_pend (f : Cart → Cart) : (s.mapCart f).pend = s.pend := rfl
@[simp] theorem State.mapCart_dma (f : Cart → Cart) : (s.mapCart f).dma = s.dma := rfl
@[simp] theorem State.mapCart_ram (f : Cart → Cart) : (s.mapCart f).ram = s.ram := rfl
@[simp] theorem State.mapCart_ppu (f : Cart → Cart) : (s.mapCart f).ppu = s.ppu := rfl
@[simp] theorem State.mapCart_pads (f : Cart → Cart) : (s.mapCart f).pads = s.pads := rfl
@[simp] theorem State.mapCart_cart (f : Cart → Cart) : (s.mapCart f).cart = f s.cart := rfl
@[simp] theorem State.mapCart_sound (f : Cart → Cart) : (s.mapCart f).sound = s.sound := rfl
@[simp] theorem State.mapCart_ext (f : Cart → Cart) : (s.mapCart f).ext = s.ext := rfl
@[simp] theorem State.mapCart_sink (f : Cart → Cart) : (s.mapCart f).sink = s.sink := rfl
@[simp] theorem State.mapCart_schedule (f : Cart → Cart) : (s.mapCart f).schedule = s.schedule := rfl

/-! State.setSound -/

@[simp] theorem State.setSound_params (n : Nat) : (s.setSound n).params = s.params := rfl
@[simp] theorem State.setSound_clock (n : Nat) : (s.setSound n).clock = s.clock := rfl
@[simp] theorem State.setSound_dividers (n : Nat) : (s.setSound n).dividers = s.dividers := rfl
@[simp] theorem State.setSound_cpuUnit (n : Nat) : (s.setSound n).cpuUnit = s.cpuUnit := rfl
@[simp] theorem State.setSound_ppuUnit (n : Nat) : (s.setSound n).ppuUnit = s.ppuUnit := rfl
@[simp] theorem State.setSound_soundUnit (n : Nat) : (s.setSound n).soundUnit = s.soundUnit := rfl
@[simp] theorem State.setSound_bus (n : Nat) : (s.setSound n).bus = s.bus := rfl
@[simp] theorem State.setSound_cpu (n : Nat) : (s.setSound n).cpu = s.cpu := rfl
@[simp] theorem State.setSound_pend (n : Nat) : (s.setSound n).pend = s.pend := rfl
@[simp] theorem State.setSound_dma (n : Nat) : (s.setSound n).dma = s.dma := rfl
@[simp] theorem State.setSound_ram (n : Nat) : (s.setSound n).ram = s.ram := rfl
@[simp] theorem State.setSound_ppu (n : Nat) : (s.setSound n).ppu = s.ppu := rfl
@[simp] theorem State.setSound_pads (n : Nat) : (s.setSound n).pads = s.pads := rfl
@[simp] theorem State.setSound_cart (n : Nat) : (s.setSound n).cart = s.cart := rfl
@[simp] theorem State.setSound_sound (n : Nat) : (s.setSound n).sound = n := rfl
@[simp] theorem State.setSound_ext (n : Nat) : (s.setSound n).ext = s.ext := rfl
@[simp] theorem State.setSound_sink (n : Nat) : (s.setSound n).sink = s.sink := rfl
@[simp] theorem State.setSound_schedule (n : Nat) : (s.setSound n).schedule = s.schedule := rfl

/-! State.setExt -/

@[simp] theorem State.setExt_params (n : Nat) : (s.setExt n).params = s.params := rfl
@[simp] theorem State.setExt_clock (n : Nat) : (s.setExt n).clock = s.clock := rfl
@[simp] theorem State.setExt_dividers (n : Nat) : (s.setExt n).dividers = s.dividers := rfl
@[simp] theorem State.setExt_cpuUnit (n : Nat) : (s.setExt n).cpuUnit = s.cpuUnit := rfl
@[simp] theorem State.setExt_ppuUnit (n : Nat) : (s.setExt n).ppuUnit = s.ppuUnit := rfl
@[simp] theorem State.setExt_soundUnit (n : Nat) : (s.setExt n).soundUnit = s.soundUnit := rfl
@[simp] theorem State.setExt_bus (n : Nat) : (s.setExt n).bus = s.bus := rfl
@[simp] theorem State.setExt_cpu (n : Nat) : (s.setExt n).cpu = s.cpu := rfl
@[simp] theorem State.setExt_pend (n : Nat) : (s.setExt n).pend = s.pend := rfl
@[simp] theorem State.setExt_dma (n : Nat) : (s.setExt n).dma = s.dma := rfl
@[simp] theorem State.setExt_ram (n : Nat) : (s.setExt n).ram = s.ram := rfl
@[simp] theorem State.setExt_ppu (n : Nat) : (s.setExt n).ppu = s.ppu := rfl
@[simp] theorem State.setExt_pads (n : Nat) : (s.setExt n).pads = s.pads := rfl
@[simp] theorem State.setExt_cart (n : Nat) : (s.setExt n).cart = s.cart := rfl
@[simp] theorem State.setExt_sound (n : Nat) : (s.setExt n).sound = s.sound := rfl
@[simp] theorem State.setExt_ext (n : Nat) : (s.setExt n).ext = n := rfl
@[simp] theorem State.setExt_sink (n : Nat) : (s.setExt n).sink = s.sink := rfl
@[simp] theorem State.setExt_schedule (n : Nat) : (s.setExt n).schedule = s.schedule := rfl

/-! State.mapSink -/

@[simp] theorem State.mapSink_params (f : Sink → Sink) : (s.mapSink f).params = s.params := rfl
@[simp] theorem State.mapSink_clock (f : Sink → Sink) : (s.mapSink f).clock = s.clock := rfl
@[simp] theorem State.mapSink_dividers (f : Sink → Sink) : (s.mapSink f).dividers = s.dividers := rfl
@[simp] theorem State.mapSink_cpuUnit (f : Sink → Sink) : (s.mapSink f).cpuUnit = s.cpuUnit := rfl
@[simp] theorem State.mapSink_ppuUnit (f : Sink → Sink) : (s.mapSink f).ppuUnit = s.ppuUnit := rfl
@[simp] theorem State.mapSink_soundUnit (f : Sink → Sink) : (s.mapSink f).soundUnit = s.soundUnit := rfl
@[simp] theorem State.mapSink_bus (f : Sink → Sink) : (s.mapSink f).bus = s.bus := rfl
@[simp] theorem State.mapSink_cpu (f : Sink → Sink) : (s.mapSink f).cpu = s.cpu := rfl
@[simp] theorem State.mapSink_pend (f : Sink → Sink) : (s.mapSink f).pend = s.pend := rfl
@[simp] theorem State.mapSink_dma (f : Sink → Sink) : (s.mapSink f).dma = s.dma := rfl
@[simp] theorem State.mapSink_ram (f : Sink → Sink) : (s.mapSink f).ram = s.ram := rfl
@[simp] theorem State.mapSink_ppu (f : Sink → Sink) : (s.mapSink f).ppu = s.ppu := rfl
@[simp] theorem State.mapSink_pads (f : Sink → Sink) : (s.mapSink f).pads = s.pads := rfl
@[simp] theorem State.mapSink_cart (f : Sink → Sink) : (s.mapSink f).cart = s.cart := rfl
@[simp] theorem State.mapSink_sound (f : Sink → Sink) : (s.mapSink f).sound = s.sound := rfl
@[simp] theorem State.mapSink_ext (f : Sink → Sink) : (s.mapSink f).ext = s.ext := rfl
@[simp] theorem State.mapSink_sink (f : Sink → Sink) : (s.mapSink f).sink = f s.sink := rfl
@[simp] theorem State.mapSink_schedule (f : Sink → Sink) : (s.mapSink f).schedule = s.schedule := rfl

/-! State.setSchedule -/

@[simp] theorem State.setSchedule_params (es : List Event) : (s.setSchedule es).params = s.params := rfl
@[simp] theorem State.setSchedule_clock (es : List Event) : (s.setSchedule es).clock = s.clock := rfl
@[simp] theorem State.setSchedule_dividers (es : List Event) : (s.setSchedule es).dividers = s.dividers := rfl
@[simp] theorem State.setSchedule_cpuUnit (es : List Event) : (s.setSchedule es).cpuUnit = s.cpuUnit := rfl
@[simp] theorem State.setSchedule_ppuUnit (es : List Event) : (s.setSchedule es).ppuUnit = s.ppuUnit := rfl
@[simp] theorem State.setSchedule_soundUnit (es : List Event) : (s.setSchedule es).soundUnit = s.soundUnit := rfl
@[simp] theorem State.setSchedule_bus (es : List Event) : (s.setSchedule es).bus = s.bus := rfl
@[simp] theorem State.setSchedule_cpu (es : List Event) : (s.setSchedule es).cpu = s.cpu := rfl
@[simp] theorem State.setSchedule_pend (es : List Event) : (s.setSchedule es).pend = s.pend := rfl
@[simp] theorem State.setSchedule_dma (es : List Event) : (s.setSchedule es).dma = s.dma := rfl
@[simp] theorem State.setSchedule_ram (es : List Event) : (s.setSchedule es).ram = s.ram := rfl
@[simp] theorem State.setSchedule_ppu (es : List Event) : (s.setSchedule es).ppu = s.ppu := rfl
@[simp] theorem State.setSchedule_pads (es : List Event) : (s.setSchedule es).pads = s.pads := rfl
@[simp] theorem State.setSchedule_cart (es : List Event) : (s.setSchedule es).cart = s.cart := rfl
@[simp] theorem State.setSchedule_sound (es : List Event) : (s.setSchedule es).sound = s.sound := rfl
@[simp] theorem State.setSchedule_ext (es : List Event) : (s.setSchedule es).ext = s.ext := rfl
@[simp] theorem State.setSchedule_sink (es : List Event) : (s.setSchedule es).sink = s.sink := rfl
@[simp] theorem State.setSchedule_schedule (es : List Event) : (s.setSchedule es).schedule = es := rfl

/-! State.mapUnit -/

@[simp] theorem State.mapUnit_params (u : UnitId) (f : UnitCtl → UnitCtl) : (s.mapUnit u f).params = s.params := by
  cases u <;> rfl
@[simp] theorem State.mapUnit_clock (u : UnitId) (f : UnitCtl → UnitCtl) : (s.mapUnit u f).clock = s.clock := by
  cases u <;> rfl
@[simp] theorem State.mapUnit_dividers (u : UnitId) (f : UnitCtl → UnitCtl) : (s.mapUnit u f).dividers = s.dividers := by
  cases u <;> rfl
@[simp] theorem State.mapUnit_bus (u : UnitId) (f : UnitCtl → UnitCtl) : (s.mapUnit u f).bus = s.bus := by
  cases u <;> rfl
@[simp] theorem State.mapUnit_cpu (u : UnitId) (f : UnitCtl → UnitCtl) : (s.mapUnit u f).cpu = s.cpu := by
  cases u <;> rfl
@[simp] theorem State.mapUnit_pend (u : UnitId) (f : UnitCtl → UnitCtl) : (s.mapUnit u f).pend = s.pend := by
  cases u <;> rfl
@[simp] theorem State.mapUnit_dma (u : UnitId) (f : UnitCtl → UnitCtl) : (s.mapUnit u f).dma = s.dma := by
  cases u <;> rfl
@[simp] theorem State.mapUnit_ram (u : UnitId) (f : UnitCtl → UnitCtl) : (s.mapUnit u f).ram = s.ram := by
  cases u <;> rfl
@[simp] theorem State.mapUnit_ppu (u : UnitId) (f : UnitCtl → UnitCtl) : (s.mapUnit u f).ppu = s.ppu := by
  cases u <;> rfl
@[simp] theorem State.mapUnit_pads (u : UnitId) (f : UnitCtl → UnitCtl) : (s.mapUnit u f).pads = s.pads := by
  cases u <;> rfl
@[simp] theorem State.mapUnit_cart (u : UnitId) (f : UnitCtl → UnitCtl) : (s.mapUnit u f).cart = s.cart := by
  cases u <;> rfl
@[simp] theorem State.mapUnit_sound (u : UnitId) (f : UnitCtl → UnitCtl) : (s.mapUnit u f).sound = s.sound := by
  cases u <;> rfl
@[simp] theorem State.mapUnit_ext (u : UnitId) (f : UnitCtl → UnitCtl) : (s.mapUnit u f).ext = s.ext := by
  cases u <;> rfl
@[simp] theorem State.mapUnit_sink (u : UnitId) (f : UnitCtl → UnitCtl) : (s.mapUnit u f).sink = s.sink := by
  cases u <;> rfl
@[simp] theorem State.mapUnit_schedule (u : UnitId) (f : UnitCtl → UnitCtl) : (s.mapUnit u f).schedule = s.schedule := by
  cases u <;> rfl
@[simp] theorem State.mapUnit_cpu_cpuUnit (f : UnitCtl → UnitCtl) : (s.mapUnit .cpu f).cpuUnit = f s.cpuUnit := rfl
@[simp] theorem State.mapUnit_cpu_ppuUnit (f : UnitCtl → UnitCtl) : (s.mapUnit .cpu f).ppuUnit = s.ppuUnit := rfl
@[simp] theorem State.mapUnit_cpu_soundUnit (f : UnitCtl → UnitCtl) : (s.mapUnit .cpu f).soundUnit = s.soundUnit := rfl
@[simp] theorem State.unit_cpu : s.unit .cpu = s.cpuUnit := rfl
@[simp] theorem State.mapUnit_ppu_cpuUnit (f : UnitCtl → UnitCtl) : (s.mapUnit .ppu f).cpuUnit = s.cpuUnit := rfl
@[simp] theorem State.mapUnit_ppu_ppuUnit (f : UnitCtl → UnitCtl) : (s.mapUnit .ppu f).ppuUnit = f s.ppuUnit := rfl
@[simp] theorem State.mapUnit_ppu_soundUnit (f : UnitCtl → UnitCtl) : (s.mapUnit .ppu f).soundUnit = s.soundUnit := rfl
@[simp] theorem State.unit_ppu : s.unit .ppu = s.ppuUnit := rfl
@[simp] theorem State.mapUnit_sound_cpuUnit (f : UnitCtl → UnitCtl) : (s.mapUnit .sound f).cpuUnit = s.cpuUnit := rfl
@[simp] theorem State.mapUnit_sound_ppuUnit (f : UnitCtl → UnitCtl) : (s.mapUnit .sound f).ppuUnit = s.ppuUnit := rfl
@[simp] theorem State.mapUnit_sound_soundUnit (f : UnitCtl → UnitCtl) : (s.mapUnit .sound f).soundUnit = f s.soundUnit := rfl
@[simp] theorem State.unit_sound : s.unit .sound = s.soundUnit := rfl

/-! Ppu -/

@[simp] theorem Ppu.mapRegs_regs (p : Ppu) (f : PpuRegs → PpuRegs) : (p.mapRegs f).regs = f p.regs := rfl
@[simp] theorem Ppu.mapRegs_scr (p : Ppu) (f : PpuRegs → PpuRegs) : (p.mapRegs f).scr = p.scr := rfl
@[simp] theorem Ppu.mapRegs_port (p : Ppu) (f : PpuRegs → PpuRegs) : (p.mapRegs f).port = p.port := rfl
@[simp] theorem Ppu.mapRegs_bg (p : Ppu) (f : PpuRegs → PpuRegs) : (p.mapRegs f).bg = p.bg := rfl
@[simp] theorem Ppu.mapRegs_spr (p : Ppu) (f : PpuRegs → PpuRegs) : (p.mapRegs f).spr = p.spr := rfl
@[simp] theorem Ppu.mapRegs_pos (p : Ppu) (f : PpuRegs → PpuRegs) : (p.mapRegs f).pos = p.pos := rfl
@[simp] theorem Ppu.mapRegs_mem (p : Ppu) (f : PpuRegs → PpuRegs) : (p.mapRegs f).mem = p.mem := rfl
@[simp] theorem Ppu.mapRegs_out (p : Ppu) (f : PpuRegs → PpuRegs) : (p.mapRegs f).out = p.out := rfl
@[simp] theorem Ppu.mapScr_regs (p : Ppu) (f : PpuScroll → PpuScroll) : (p.mapScr f).regs = p.regs := rfl
@[simp] theorem Ppu.mapScr_scr (p : Ppu) (f : PpuScroll → PpuScroll) : (p.mapScr f).scr = f p.scr := rfl
@[simp] theorem Ppu.mapScr_port (p : Ppu) (f : PpuScroll → PpuScroll) : (p.mapScr f).port = p.port := rfl
@[simp] theorem Ppu.mapScr_bg (p : Ppu) (f : PpuScroll → PpuScroll) : (p.mapScr f).bg = p.bg := rfl
@[simp] theorem Ppu.mapScr_spr (p : Ppu) (f : PpuScroll → PpuScroll) : (p.mapScr f).spr = p.spr := rfl
@[simp] theorem Ppu.mapScr_pos (p : Ppu) (f : PpuScroll → PpuScroll) : (p.mapScr f).pos = p.pos := rfl
@[simp] theorem Ppu.mapScr_mem (p : Ppu) (f : PpuScroll → PpuScroll) : (p.mapScr f).mem = p.mem := rfl
@[simp] theorem Ppu.mapScr_out (p : Ppu) (f : PpuScroll → PpuScroll) : (p.mapScr f).out = p.out := rfl
@[simp] theorem Ppu.mapPort_regs (p : Ppu) (f : PpuPort → PpuPort) : (p.mapPort f).regs = p.regs := rfl
@[simp] theorem Ppu.mapPort_scr (p : Ppu) (f : PpuPort → PpuPort) : (p.mapPort f).scr = p.scr := rfl
@[simp] theorem Ppu.mapPort_port (p : Ppu) (f : PpuPort → PpuPort) : (p.mapPort f).port = f p.port := rfl
@[simp] theorem Ppu.mapPort_bg (p : Ppu) (f : PpuPort → PpuPort) : (p.mapPort f).bg = p.bg := rfl
@[simp] theorem Ppu.mapPort_spr (p : Ppu) (f : PpuPort → PpuPort) : (p.mapPort f).spr = p.spr := rfl
@[simp] theorem Ppu.mapPort_pos (p : Ppu) (f : PpuPort → PpuPort) : (p.mapPort f).pos = p.pos := rfl
@[simp] theorem Ppu.mapPort_mem (p : Ppu) (f : PpuPort → PpuPort) : (p.mapPort f).mem = p.mem := rfl
@[simp] theorem Ppu.mapPort_out (p : Ppu) (f : PpuPort → PpuPort) : (p.mapPort f).out = p.out := rfl
@[simp] theorem Ppu.mapBg_regs (p : Ppu) (f : PpuBg → PpuBg) : (p.mapBg f).regs = p.regs := rfl
@[simp] theorem Ppu.mapBg_scr (p : Ppu) (f : PpuBg → PpuBg) : (p.mapBg f).scr = p.scr := rfl
@[simp] theorem Ppu.mapBg_port (p : Ppu) (f : PpuBg → PpuBg) : (p.mapBg f).port = p.port := rfl
@[simp] theorem Ppu.mapBg_bg (p : Ppu) (f : PpuBg → PpuBg) : (p.mapBg f).bg = f p.bg := rfl
@[simp] theorem Ppu.mapBg_spr (p : Ppu) (f : PpuBg → PpuBg) : (p.mapBg f).spr = p.spr := rfl
@[simp] theorem Ppu.mapBg_pos (p : Ppu) (f : PpuBg → PpuBg) : (p.mapBg f).pos = p.pos := rfl
@[simp] theorem Ppu.mapBg_mem (p : Ppu) (f : PpuBg → PpuBg) : (p.mapBg f).mem = p.mem := rfl
@[simp] theorem Ppu.mapBg_out (p : Ppu) (f : PpuBg → PpuBg) : (p.mapBg f).out = p.out := rfl
@[simp] theorem Ppu.mapSpr_regs (p : Ppu) (f : PpuSprites → PpuSprites) : (p.mapSpr f).regs = p.regs := rfl
@[simp] theorem Ppu.mapSpr_scr (p : Ppu) (f : PpuSprites → PpuSprites) : (p.mapSpr f).scr = p.scr := rfl
@[simp] theorem Ppu.mapSpr_port (p : Ppu) (f : PpuSprites → PpuSprites) : (p.mapSpr f).port = p.port := rfl
@[simp] theorem Ppu.mapSpr_bg (p : Ppu) (f : PpuSprites → PpuSprites) : (p.mapSpr f).bg = p.bg := rfl
@[simp] theorem Ppu.mapSpr_spr (p : Ppu) (f : PpuSprites → PpuSprites) : (p.mapSpr f).spr = f p.spr := rfl
@[simp] theorem Ppu.mapSpr_pos (p : Ppu) (f : PpuSprites → PpuSprites) : (p.mapSpr f).pos = p.pos := rfl
@[simp] theorem Ppu.mapSpr_mem (p : Ppu) (f : PpuSprites → PpuSprites) : (p.mapSpr f).mem = p.mem := rfl
@[simp] theorem Ppu.mapSpr_out (p : Ppu) (f : PpuSprites → PpuSprites) : (p.mapSpr f).out = p.out := rfl
@[simp] theorem Ppu.mapPos_regs (p : Ppu) (f : PpuPos → PpuPos) : (p.mapPos f).regs = p.regs := rfl
@[simp] theorem Ppu.mapPos_scr (p : Ppu) (f : PpuPos → PpuPos) : (p.mapPos f).scr = p.scr := rfl
@[simp] theorem Ppu.mapPos_port (p : Ppu) (f : PpuPos → PpuPos) : (p.mapPos f).port = p.port := rfl
@[simp] theorem Ppu.mapPos_bg (p : Ppu) (f : PpuPos → PpuPos) : (p.mapPos f).bg = p.bg := rfl
@[simp] theorem Ppu.mapPos_spr (p : Ppu) (f : PpuPos → PpuPos) : (p.mapPos f).spr = p.spr := rfl
@[simp] theorem Ppu.mapPos_pos (p : Ppu) (f : PpuPos → PpuPos) : (p.mapPos f).pos = f p.pos := rfl
@[simp] theorem Ppu.mapPos_mem (p : Ppu) (f : PpuPos → PpuPos) : (p.mapPos f).mem = p.mem := rfl
@[simp] theorem Ppu.mapPos_out (p : Ppu) (f : PpuPos → PpuPos) : (p.mapPos f).out = p.out := rfl
@[simp] theorem Ppu.mapMem_regs (p : Ppu) (f : PpuMem → PpuMem) : (p.mapMem f).regs = p.regs := rfl
@[simp] theorem Ppu.mapMem_scr (p : Ppu) (f : PpuMem → PpuMem) : (p.mapMem f).scr = p.scr := rfl
@[simp] theorem Ppu.mapMem_port (p : Ppu) (f : PpuMem → PpuMem) : (p.mapMem f).port = p.port := rfl
@[simp] theorem Ppu.mapMem_bg (p : Ppu) (f : PpuMem → PpuMem) : (p.mapMem f).bg = p.bg := rfl
@[simp] theorem Ppu.mapMem_spr (p : Ppu) (f : PpuMem → PpuMem) : (p.mapMem f).spr = p.spr := rfl
@[simp] theorem Ppu.mapMem_pos (p : Ppu) (f : PpuMem → PpuMem) : (p.mapMem f).pos = p.pos := rfl
@[simp] theorem Ppu.mapMem_mem (p : Ppu) (f : PpuMem → PpuMem) : (p.mapMem f).mem = f p.mem := rfl
@[simp] theorem Ppu.mapMem_out (p : Ppu) (f : PpuMem → PpuMem) : (p.mapMem f).out = p.out := rfl
@[simp] theorem Ppu.mapOut_regs (p : Ppu) (f : PpuOut → PpuOut) : (p.mapOut f).regs = p.regs := rfl
@[simp] theorem Ppu.mapOut_scr (p : Ppu) (f : PpuOut → PpuOut) : (p.mapOut f).scr = p.scr := rfl
@[simp] theorem Ppu.mapOut_port (p : Ppu) (f : PpuOut → PpuOut) : (p.mapOut f).port = p.port := rfl
@[simp] theorem Ppu.mapOut_bg (p : Ppu) (f : PpuOut → PpuOut) : (p.mapOut f).bg = p.bg := rfl
@[simp] theorem Ppu.mapOut_spr (p : Ppu) (f : PpuOut → PpuOut) : (p.mapOut f).spr = p.spr := rfl
@[simp] theorem Ppu.mapOut_pos (p : Ppu) (f : PpuOut → PpuOut) : (p.mapOut f).pos = p.pos := rfl
@[simp] theorem Ppu.mapOut_mem (p : Ppu) (f : PpuOut → PpuOut) : (p.mapOut f).mem = p.mem := rfl
@[simp] theorem Ppu.mapOut_out (p : Ppu) (f : PpuOut → PpuOut) : (p.mapOut f).out = f p.out := rfl

/-! Cpu -/

@[simp] theorem Cpu.setA_a (v : Byte) : (c.setA v).a = v := rfl
@[simp] theorem Cpu.setA_x (v : Byte) : (c.setA v).x = c.x := rfl
@[simp] theorem Cpu.setA_y (v : Byte) : (c.setA v).y = c.y := rfl
@[simp] theorem Cpu.setA_sp (v : Byte) : (c.setA v).sp = c.sp := rfl
@[simp] theorem Cpu.setA_pc (v : Byte) : (c.setA v).pc = c.pc := rfl
@[simp] theorem Cpu.setA_p (v : Byte) : (c.setA v).p = c.p := rfl
@[simp] theorem Cpu.setA_eng (v : Byte) : (c.setA v).eng = c.eng := rfl
@[simp] theorem Cpu.setA_cycles (v : Byte) : (c.setA v).cycles = c.cycles := rfl
@[simp] theorem Cpu.setX_a (v : Byte) : (c.setX v).a = c.a := rfl
@[simp] theorem Cpu.setX_x (v : Byte) : (c.setX v).x = v := rfl
@[simp] theorem Cpu.setX_y (v : Byte) : (c.setX v).y = c.y := rfl
@[simp] theorem Cpu.setX_sp (v : Byte) : (c.setX v).sp = c.sp := rfl
@[simp] theorem Cpu.setX_pc (v : Byte) : (c.setX v).pc = c.pc := rfl
@[simp] theorem Cpu.setX_p (v : Byte) : (c.setX v).p = c.p := rfl
@[simp] theorem Cpu.setX_eng (v : Byte) : (c.setX v).eng = c.eng := rfl
@[simp] theorem Cpu.setX_cycles (v : Byte) : (c.setX v).cycles = c.cycles := rfl
@[simp] theorem Cpu.setY_a (v : Byte) : (c.setY v).a = c.a := rfl
@[simp] theorem Cpu.setY_x (v : Byte) : (c.setY v).x = c.x := rfl
@[simp] theorem Cpu.setY_y (v : Byte) : (c.setY v).y = v := rfl
@[simp] theorem Cpu.setY_sp (v : Byte) : (c.setY v).sp = c.sp := rfl
@[simp] theorem Cpu.setY_pc (v : Byte) : (c.setY v).pc = c.pc := rfl
@[simp] theorem Cpu.setY_p (v : Byte) : (c.setY v).p = c.p := rfl
@[simp] theorem Cpu.setY_eng (v : Byte) : (c.setY v).eng = c.eng := rfl
@[simp] theorem Cpu.setY_cycles (v : Byte) : (c.setY v).cycles = c.cycles := rfl
@[simp] theorem Cpu.setSp_a (v : Byte) : (c.setSp v).a = c.a := rfl
@[simp] theorem Cpu.setSp_x (v : Byte) : (c.setSp v).x = c.x := rfl
@[simp] theorem Cpu.setSp_y (v : Byte) : (c.setSp v).y = c.y := rfl
@[simp] theorem Cpu.setSp_sp (v : Byte) : (c.setSp v).sp = v := rfl
@[simp] theorem Cpu.setSp_pc (v : Byte) : (c.setSp v).pc = c.pc := rfl
@[simp] theorem Cpu.setSp_p (v : Byte) : (c.setSp v).p = c.p := rfl
@[simp] theorem Cpu.setSp_eng (v : Byte) : (c.setSp v).eng = c.eng := rfl
@[simp] theorem Cpu.setSp_cycles (v : Byte) : (c.setSp v).cycles = c.cycles := rfl
@[simp] theorem Cpu.setPc_a (v : Addr) : (c.setPc v).a = c.a := rfl
@[simp] theorem Cpu.setPc_x (v : Addr) : (c.setPc v).x = c.x := rfl
@[simp] theorem Cpu.setPc_y (v : Addr) : (c.setPc v).y = c.y := rfl
@[simp] theorem Cpu.setPc_sp (v : Addr) : (c.setPc v).sp = c.sp := rfl
@[simp] theorem Cpu.setPc_pc (v : Addr) : (c.setPc v).pc = v := rfl
@[simp] theorem Cpu.setPc_p (v : Addr) : (c.setPc v).p = c.p := rfl
@[simp] theorem Cpu.setPc_eng (v : Addr) : (c.setPc v).eng = c.eng := rfl
@[simp] theorem Cpu.setPc_cycles (v : Addr) : (c.setPc v).cycles = c.cycles := rfl
@[simp] theorem Cpu.setP_a (v : Byte) : (c.setP v).a = c.a := rfl
@[simp] theorem Cpu.setP_x (v : Byte) : (c.setP v).x = c.x := rfl
@[simp] theorem Cpu.setP_y (v : Byte) : (c.setP v).y = c.y := rfl
@[simp] theorem Cpu.setP_sp (v : Byte) : (c.setP v).sp = c.sp := rfl
@[simp] theorem Cpu.setP_pc (v : Byte) : (c.setP v).pc = c.pc := rfl
@[simp] theorem Cpu.setP_p (v : Byte) : (c.setP v).p = v := rfl
@[simp] theorem Cpu.setP_eng (v : Byte) : (c.setP v).eng = c.eng := rfl
@[simp] theorem Cpu.setP_cycles (v : Byte) : (c.setP v).cycles = c.cycles := rfl
@[simp] theorem Cpu.setEng_a (v : Engine) : (c.setEng v).a = c.a := rfl
@[simp] theorem Cpu.setEng_x (v : Engine) : (c.setEng v).x = c.x := rfl
@[simp] theorem Cpu.setEng_y (v : Engine) : (c.setEng v).y = c.y := rfl
@[simp] theorem Cpu.setEng_sp (v : Engine) : (c.setEng v).sp = c.sp := rfl
@[simp] theorem Cpu.setEng_pc (v : Engine) : (c.setEng v).pc = c.pc := rfl
@[simp] theorem Cpu.setEng_p (v : Engine) : (c.setEng v).p = c.p := rfl
@[simp] theorem Cpu.setEng_eng (v : Engine) : (c.setEng v).eng = v := rfl
@[simp] theorem Cpu.setEng_cycles (v : Engine) : (c.setEng v).cycles = c.cycles := rfl
@[simp] theorem Cpu.tick_a : c.tick.a = c.a := rfl
@[simp] theorem Cpu.tick_x : c.tick.x = c.x := rfl
@[simp] theorem Cpu.tick_y : c.tick.y = c.y := rfl
@[simp] theorem Cpu.tick_sp : c.tick.sp = c.sp := rfl
@[simp] theorem Cpu.tick_pc : c.tick.pc = c.pc := rfl
@[simp] theorem Cpu.tick_p : c.tick.p = c.p := rfl
@[simp] theorem Cpu.tick_eng : c.tick.eng = c.eng := rfl
@[simp] theorem Cpu.tick_cycles : c.tick.cycles = c.cycles + 1 := rfl
@[simp] theorem Cpu.incPc_a : c.incPc.a = c.a := rfl
@[simp] theorem Cpu.incPc_x : c.incPc.x = c.x := rfl
@[simp] theorem Cpu.incPc_y : c.incPc.y = c.y := rfl
@[simp] theorem Cpu.incPc_sp : c.incPc.sp = c.sp := rfl
@[simp] theorem Cpu.incPc_pc : c.incPc.pc = c.pc + 1 := rfl
@[simp] theorem Cpu.incPc_p : c.incPc.p = c.p := rfl
@[simp] theorem Cpu.incPc_eng : c.incPc.eng = c.eng := rfl
@[simp] theorem Cpu.incPc_cycles : c.incPc.cycles = c.cycles := rfl
@[simp] theorem Cpu.decSp_a : c.decSp.a = c.a := rfl
@[simp] theorem Cpu.decSp_x : c.decSp.x = c.x := rfl
@[simp] theorem Cpu.decSp_y : c.decSp.y = c.y := rfl
@[simp] theorem Cpu.decSp_sp : c.decSp.sp = c.sp - 1 := rfl
@[simp] theorem Cpu.decSp_pc : c.decSp.pc = c.pc := rfl
@[simp] theorem Cpu.decSp_p : c.decSp.p = c.p := rfl
@[simp] theorem Cpu.decSp_eng : c.decSp.eng = c.eng := rfl
@[simp] theorem Cpu.decSp_cycles : c.decSp.cycles = c.cycles := rfl
@[simp] theorem Cpu.incSp_a : c.incSp.a = c.a := rfl
@[simp] theorem Cpu.incSp_x : c.incSp.x = c.x := rfl
@[simp] theorem Cpu.incSp_y : c.incSp.y = c.y := rfl
@[simp] theorem Cpu.incSp_sp : c.incSp.sp = c.sp + 1 := rfl
@[simp] theorem Cpu.incSp_pc : c.incSp.pc = c.pc := rfl
@[simp] theorem Cpu.incSp_p : c.incSp.p = c.p := rfl
@[simp] theorem Cpu.incSp_eng : c.incSp.eng = c.eng := rfl
@[simp] theorem Cpu.incSp_cycles : c.incSp.cycles = c.cycles := rfl
@[simp] theorem Cpu.putFlag_a (g : Flag) (b : Bool) : (c.putFlag g b).a = c.a := rfl
@[simp] theorem Cpu.putFlag_x (g : Flag) (b : Bool) : (c.putFlag g b).x = c.x := rfl
@[simp] theorem Cpu.putFlag_y (g : Flag) (b : Bool) : (c.putFlag g b).y = c.y := rfl
@[simp] theorem Cpu.putFlag_sp (g : Flag) (b : Bool) : (c.putFlag g b).sp = c.sp := rfl
@[simp] theorem Cpu.putFlag_pc (g : Flag) (b : Bool) : (c.putFlag g b).pc = c.pc := rfl
@[simp] theorem Cpu.putFlag_p (g : Flag) (b : Bool) : (c.putFlag g b).p = Machine.putFlag g b c.p := rfl
@[simp] theorem Cpu.putFlag_eng (g : Flag) (b : Bool) : (c.putFlag g b).eng = c.eng := rfl
@[simp] theorem Cpu.putFlag_cycles (g : Flag) (b : Bool) : (c.putFlag g b).cycles = c.cycles := rfl
@[simp] theorem Cpu.setNZ_a (v : Byte) : (c.setNZ v).a = c.a := rfl
@[simp] theorem Cpu.setNZ_x (v : Byte) : (c.setNZ v).x = c.x := rfl
@[simp] theorem Cpu.setNZ_y (v : Byte) : (c.setNZ v).y = c.y := rfl
@[simp] theorem Cpu.setNZ_sp (v : Byte) : (c.setNZ v).sp = c.sp := rfl
@[simp] theorem Cpu.setNZ_pc (v : Byte) : (c.setNZ v).pc = c.pc := rfl
@[simp] theorem Cpu.setNZ_p (v : Byte) : (c.setNZ v).p = Machine.putFlag .n (bitAt v 7) (Machine.putFlag .z (v == 0) c.p) := rfl
@[simp] theorem Cpu.setNZ_eng (v : Byte) : (c.setNZ v).eng = c.eng := rfl
@[simp] theorem Cpu.setNZ_cycles (v : Byte) : (c.setNZ v).cycles = c.cycles := rfl

end Sys2Proof.Machine
end

