-- ==== Sys2Proof/Laws/Bus.lean ====
section
/-! SUPPORT. What a bus access leaves alone. The Clock, the dividers, the tick counters, the processor and the
schedule are neither read nor written by any bus access: `graft c s` puts those fields of `c` into `s`, and every
bus operation commutes with it. The field lemmas follow by grafting a state into itself. -/

namespace Sys2Proof.Machine

/-- `s` with the Clock, dividers, tick counters, processor and schedule of `c`. -/
def State.graft (c s : State) : State :=
  { s with
    clock := c.clock, dividers := c.dividers, cpuUnit := c.cpuUnit, ppuUnit := c.ppuUnit, soundUnit := c.soundUnit
    cpu := c.cpu, schedule := c.schedule }

theorem State.graft_self (s : State) : s.graft s = s := rfl

section graft
variable (c s : State)
@[simp] theorem State.graft_params : (c.graft s).params = s.params := rfl
@[simp] theorem State.graft_bus : (c.graft s).bus = s.bus := rfl
@[simp] theorem State.graft_pend : (c.graft s).pend = s.pend := rfl
@[simp] theorem State.graft_dma : (c.graft s).dma = s.dma := rfl
@[simp] theorem State.graft_ram : (c.graft s).ram = s.ram := rfl
@[simp] theorem State.graft_ppu : (c.graft s).ppu = s.ppu := rfl
@[simp] theorem State.graft_pads : (c.graft s).pads = s.pads := rfl
@[simp] theorem State.graft_cart : (c.graft s).cart = s.cart := rfl
@[simp] theorem State.graft_sound : (c.graft s).sound = s.sound := rfl
@[simp] theorem State.graft_ext : (c.graft s).ext = s.ext := rfl
@[simp] theorem State.graft_sink : (c.graft s).sink = s.sink := rfl
@[simp] theorem State.graft_clock : (c.graft s).clock = c.clock := rfl
@[simp] theorem State.graft_dividers : (c.graft s).dividers = c.dividers := rfl
@[simp] theorem State.graft_cpuUnit : (c.graft s).cpuUnit = c.cpuUnit := rfl
@[simp] theorem State.graft_ppuUnit : (c.graft s).ppuUnit = c.ppuUnit := rfl
@[simp] theorem State.graft_soundUnit : (c.graft s).soundUnit = c.soundUnit := rfl
@[simp] theorem State.graft_cpu : (c.graft s).cpu = c.cpu := rfl
@[simp] theorem State.graft_schedule : (c.graft s).schedule = c.schedule := rfl
@[simp] theorem State.graft_setBus (b : List BusEntry) : (c.graft s).setBus b = c.graft (s.setBus b) := rfl
@[simp] theorem State.graft_mapPend (f : Pending → Pending) : (c.graft s).mapPend f = c.graft (s.mapPend f) := rfl
@[simp] theorem State.graft_setDma (d : Dma) : (c.graft s).setDma d = c.graft (s.setDma d) := rfl
@[simp] theorem State.graft_setRam (m : Memory 8) : (c.graft s).setRam m = c.graft (s.setRam m) := rfl
@[simp] theorem State.graft_mapPpu (f : Ppu → Ppu) : (c.graft s).mapPpu f = c.graft (s.mapPpu f) := rfl
@[simp] theorem State.graft_mapPads (f : Pads → Pads) : (c.graft s).mapPads f = c.graft (s.mapPads f) := rfl
@[simp] theorem State.graft_mapCart (f : Cart → Cart) : (c.graft s).mapCart f = c.graft (s.mapCart f) := rfl
@[simp] theorem State.graft_setSound (n : Nat) : (c.graft s).setSound n = c.graft (s.setSound n) := rfl
@[simp] theorem State.graft_setExt (n : Nat) : (c.graft s).setExt n = c.graft (s.setExt n) := rfl
@[simp] theorem State.graft_mapSink (f : Sink → Sink) : (c.graft s).mapSink f = c.graft (s.mapSink f) := rfl
end graft

/-- The function neither reads nor writes what `graft` moves. -/
abbrev Blind (f : State → State) : Prop := ∀ c s : State, f (c.graft s) = c.graft (f s)

/-- As `Blind`, for a function with a value. -/
abbrev BlindRead {α : Type} (f : State → α × State) : Prop := ∀ c s : State, f (c.graft s) = ((f s).1, c.graft (f s).2)

section frame
variable {f : State → State} (h : Blind f) (s : State)
include h
theorem Blind.clock : (f s).clock = s.clock := by
  simpa using congrArg State.clock (show f s = s.graft (f s) from h s s)
theorem Blind.dividers : (f s).dividers = s.dividers := by
  simpa using congrArg State.dividers (show f s = s.graft (f s) from h s s)
theorem Blind.cpuUnit : (f s).cpuUnit = s.cpuUnit := by
  simpa using congrArg State.cpuUnit (show f s = s.graft (f s) from h s s)
theorem Blind.ppuUnit : (f s).ppuUnit = s.ppuUnit := by
  simpa using congrArg State.ppuUnit (show f s = s.graft (f s) from h s s)
theorem Blind.soundUnit : (f s).soundUnit = s.soundUnit := by
  simpa using congrArg State.soundUnit (show f s = s.graft (f s) from h s s)
theorem Blind.cpu : (f s).cpu = s.cpu := by
  simpa using congrArg State.cpu (show f s = s.graft (f s) from h s s)
theorem Blind.schedule : (f s).schedule = s.schedule := by
  simpa using congrArg State.schedule (show f s = s.graft (f s) from h s s)
end frame

section frameRead
variable {α : Type} {f : State → α × State} (h : BlindRead f) (s : State)
include h
theorem BlindRead.clock : (f s).2.clock = s.clock := by
  simpa using congrArg (fun r => State.clock r.2) (show f s = ((f s).1, s.graft (f s).2) from h s s)
theorem BlindRead.dividers : (f s).2.dividers = s.dividers := by
  simpa using congrArg (fun r => State.dividers r.2) (show f s = ((f s).1, s.graft (f s).2) from h s s)
theorem BlindRead.cpuUnit : (f s).2.cpuUnit = s.cpuUnit := by
  simpa using congrArg (fun r => State.cpuUnit r.2) (show f s = ((f s).1, s.graft (f s).2) from h s s)
theorem BlindRead.ppuUnit : (f s).2.ppuUnit = s.ppuUnit := by
  simpa using congrArg (fun r => State.ppuUnit r.2) (show f s = ((f s).1, s.graft (f s).2) from h s s)
theorem BlindRead.soundUnit : (f s).2.soundUnit = s.soundUnit := by
  simpa using congrArg (fun r => State.soundUnit r.2) (show f s = ((f s).1, s.graft (f s).2) from h s s)
theorem BlindRead.cpu : (f s).2.cpu = s.cpu := by
  simpa using congrArg (fun r => State.cpu r.2) (show f s = ((f s).1, s.graft (f s).2) from h s s)
theorem BlindRead.schedule : (f s).2.schedule = s.schedule := by
  simpa using congrArg (fun r => State.schedule r.2) (show f s = ((f s).1, s.graft (f s).2) from h s s)
end frameRead

/-! ### Every bus operation is blind, if the code of external components is -/

section via
variable {x : ExtRun} (hx : ∀ id call, BlindRead (x id call))
include hx

theorem busIrqVia_blind : Blind (busIrqVia x) := by
  intro c s
  simp only [busIrqVia, State.graft_bus]
  split
  · simp
  · rw [hx]
  · rfl

theorem busNmiVia_blind : Blind (busNmiVia x) := by
  intro c s
  simp only [busNmiVia, State.graft_bus]
  split
  · simp
  · rw [hx]
  · rfl

theorem signalIrqVia_blind (b : Bool) : Blind (signalIrqVia x b) := by
  intro c s
  cases b
  · rfl
  · exact busIrqVia_blind hx c s

theorem setMapperVia_blind (st : Nat) (b : Bool) : Blind (setMapperVia x st b) := fun c s =>
  signalIrqVia_blind hx b c (s.mapCart fun k => { k with st := st })

theorem afterMapperVia_blind (r : Config.MapReply) : Blind (afterMapperVia x r) := setMapperVia_blind hx r.st r.irq

theorem setSoundVia_blind (st : Nat) (b : Bool) : Blind (setSoundVia x st b) := fun c s =>
  signalIrqVia_blind hx b c (s.setSound st)

theorem afterSoundVia_blind (r : Config.ExtReply) : Blind (afterSoundVia x r) := setSoundVia_blind hx r.st r.irq

theorem cartResetVia_blind : Blind (cartResetVia x) := by
  intro c s
  simp only [cartResetVia, State.graft_cart]
  split
  · rfl
  · exact setMapperVia_blind hx _ _ c s

theorem soundResetVia_blind : Blind (soundResetVia x) := fun c s => setSoundVia_blind hx _ _ c s

theorem cartReadVia_blind (a : Addr) : BlindRead (cartReadVia x a) := fun c s =>
  Prod.ext rfl (afterMapperVia_blind hx _ c s)

theorem cartWriteVia_blind (a : Addr) (v : Byte) : Blind (cartWriteVia x a v) := by
  intro c s
  cases h : (s.cart.mapCpuWrite a v).accepted && (s.cart.mapCpuWrite a v).ram <;>
    simp only [cartWriteVia, State.graft_cart, State.graft_mapCart, h] <;> exact afterMapperVia_blind hx _ c _

theorem patternReadVia_blind (a : PpuAddr) : BlindRead (patternReadVia x a) := fun c s =>
  Prod.ext rfl (afterMapperVia_blind hx _ c s)

theorem patternWriteVia_blind (a : PpuAddr) (v : Byte) : Blind (patternWriteVia x a v) := by
  intro c s
  cases h : (s.cart.mapPpuWrite a).accepted && (s.cart.mapPpuWrite a).ram <;>
    simp only [patternWriteVia, State.graft_cart, State.graft_mapCart, h] <;> exact afterMapperVia_blind hx _ c _

theorem ppuReadVia_blind (a : PpuAddr) : BlindRead (ppuReadVia x a) := by
  intro c s
  unfold ppuReadVia
  split
  · exact patternReadVia_blind hx a c s
  · split <;> rfl

theorem ppuWriteVia_blind (a : PpuAddr) (v : Byte) : Blind (ppuWriteVia x a v) := by
  intro c s
  unfold ppuWriteVia
  split
  · exact patternWriteVia_blind hx a v c s
  · split <;> rfl

theorem readDataVia_blind : BlindRead (readDataVia x) := by
  intro c s
  unfold readDataVia
  dsimp only
  rw [show (c.graft s).ppu = s.ppu from rfl, ppuReadVia_blind hx _ c s]
  rfl

theorem writeDataVia_blind (d : Byte) : Blind (writeDataVia x d) := by
  intro c s
  unfold writeDataVia
  rw [show (c.graft s).ppu = s.ppu from rfl, ppuWriteVia_blind hx _ d c s]
  rfl

theorem ppuPortReadVia_blind (a : Addr) : BlindRead (ppuPortReadVia x a) := by
  intro c s
  unfold ppuPortReadVia
  split
  · rfl
  · rfl
  · exact readDataVia_blind hx c s
  · rfl

theorem writeControlVia_blind (d : Byte) : Blind (writeControlVia x d) := by
  intro c s
  cases h : s.params.nmiOnEnable && bitAt d 7 && !s.ppu.nmiEnabled && s.ppu.regs.vblank <;>
    simp only [writeControlVia, State.graft_params, State.graft_ppu, State.graft_mapPpu, h]
  · rfl
  · exact busNmiVia_blind hx c _

theorem ppuPortWriteVia_blind (a : Addr) (d : Byte) : Blind (ppuPortWriteVia x a d) := by
  intro c s
  simp only [ppuPortWriteVia, State.graft_mapPpu]
  split
  · exact writeControlVia_blind hx d c _
  · rfl
  · rfl
  · rfl
  · rfl
  · rfl
  · exact writeDataVia_blind hx d c _
  · rfl

omit hx in
theorem padsRead_blind (a : Addr) : BlindRead (padsRead a) := by
  intro c s
  simp only [padsRead]
  rw [show (c.graft s).pads = s.pads from rfl]
  repeat' split
  all_goals rfl

omit hx in
theorem padsWrite_blind (a : Addr) (d : Byte) : Blind (padsWrite a d) := by
  intro c s
  unfold padsWrite
  split <;> rfl

omit hx in
theorem dmaWrite_blind (v : Byte) : Blind (dmaWrite v) := by
  intro c s
  unfold dmaWrite
  rw [show (c.graft s).dma = s.dma from rfl]
  split <;> rfl

theorem componentReadVia_blind (k : Component) (a : Addr) : BlindRead (componentReadVia x k a) := by
  intro c s
  cases k with
  | ram => rfl
  | ppu => exact ppuPortReadVia_blind hx a c s
  | pads => exact padsRead_blind a c s
  | sound => exact Prod.ext rfl (afterSoundVia_blind hx _ c s)
  | cart => exact cartReadVia_blind hx a c s
  | ext id caps => exact hx id (.read a) c s
  | cpu => rfl
  | dma => rfl

theorem componentWriteVia_blind (k : Component) (a : Addr) (v : Byte) : Blind (componentWriteVia x k a v) := by
  intro c s
  cases k with
  | ram => rfl
  | ppu => exact ppuPortWriteVia_blind hx a v c s
  | pads => exact padsWrite_blind a v c s
  | sound => exact afterSoundVia_blind hx _ c s
  | cart => exact cartWriteVia_blind hx a v c s
  | ext id caps => exact congrArg Prod.snd (hx id (.write a v) c s)
  | cpu => rfl
  | dma => exact dmaWrite_blind v c s

theorem componentResetVia_blind (k : Component) : Blind (componentResetVia x k) := by
  intro c s
  cases k with
  | cpu => rfl
  | ram => rfl
  | ppu => rfl
  | pads => rfl
  | dma => rfl
  | sound => exact soundResetVia_blind hx c s
  | cart => exact cartResetVia_blind hx c s
  | ext id caps => exact congrArg Prod.snd (hx id .reset c s)

theorem busReadVia_blind (a : Addr) : BlindRead (busReadVia x a) := by
  intro c s
  unfold busReadVia
  rw [show (c.graft s).bus = s.bus from rfl]
  cases firstMatch (·.readable) a s.bus with
  | none => rfl
  | some k => exact componentReadVia_blind hx k a c s

theorem writeMatchesVia_blind (a : Addr) (v : Byte) (b : List BusEntry) : Blind (writeMatchesVia x a v b) := by
  induction b with
  | nil => exact fun _ _ => rfl
  | cons e rest ih =>
    intro c s
    simp only [writeMatchesVia]
    split
    · rw [componentWriteVia_blind hx]; exact ih c _
    · exact ih c s

theorem busWriteVia_blind (a : Addr) (v : Byte) : Blind (busWriteVia x a v) := fun c s =>
  writeMatchesVia_blind hx a v s.bus c s

theorem resetMatchesVia_blind (seen : List Component) (b : List BusEntry) : Blind (resetMatchesVia x seen b) := by
  induction b generalizing seen with
  | nil => exact fun _ _ => rfl
  | cons e rest ih =>
    intro c s
    simp only [resetMatchesVia]
    split
    · exact ih _ c s
    · split
      · rw [componentResetVia_blind hx]; exact ih _ c _
      · exact ih _ c s

theorem busResetVia_blind : Blind (busResetVia x) := fun c s => resetMatchesVia_blind hx [] s.bus c s

end via

/-! ### The code of external components is blind, and so is every bus operation -/

@[simp] theorem portsShut_graft (cpu : Bool) (c s : State) : portsShut cpu (c.graft s) = portsShut cpu s := rfl

theorem codeReadVia_blind {x : ExtRun} (hx : ∀ id call, BlindRead (x id call)) (cpu : Bool) (a : Addr) :
    BlindRead (codeReadVia cpu x a) := by
  intro c s
  cases h : portsShut cpu s && firstMatch (·.readable) a s.bus == some .ppu <;>
    simp [codeReadVia, busReadVia_blind hx a c s, h]

theorem codeWriteVia_blind {x : ExtRun} (hx : ∀ id call, BlindRead (x id call)) (cpu : Bool) (a : Addr) (v : Byte) :
    Blind (codeWriteVia cpu x a v) := fun c s => writeMatchesVia_blind hx a v _ c s

theorem extLoop_blind (cpu : Bool) (n id : Nat) (call : Config.ExtCall) (turn : Nat) (seen : Byte) :
    BlindRead (extLoop cpu n id call turn seen) := by
  induction n generalizing id call turn seen with
  | zero => exact fun _ _ => rfl
  | succ n ih =>
    intro c s
    have hx : ∀ id call, BlindRead fun s => extLoop cpu n id call 0 0 s := fun id call => ih id call 0 0
    simp only [extLoop, State.graft_ext, State.graft_setExt]
    cases (Config.extTurn id call turn seen s.ext).move with
    | ret v => rfl
    | read a => dsimp only; rw [codeReadVia_blind hx]; exact ih _ _ _ _ c _
    | write a v => dsimp only; rw [codeWriteVia_blind hx]; exact ih _ _ _ _ c _
    | irq => dsimp only; rw [busIrqVia_blind hx]; exact ih _ _ _ _ c _
    | nmi => dsimp only; rw [busNmiVia_blind hx]; exact ih _ _ _ _ c _
    | reset => dsimp only; rw [busResetVia_blind hx]; exact ih _ _ _ _ c _

theorem extRun_blind (id : Nat) (call : Config.ExtCall) : BlindRead (extRun id call) := extLoop_blind true _ id call 0 0

theorem quietRun_blind (id : Nat) (call : Config.ExtCall) : BlindRead (quietRun id call) := extLoop_blind false _ id call 0 0

theorem busIrq_blind : Blind busIrq := busIrqVia_blind quietRun_blind

theorem busNmi_blind : Blind busNmi := busNmiVia_blind quietRun_blind

theorem ppuFetch_blind (a : PpuAddr) : BlindRead (ppuFetch a) := ppuReadVia_blind quietRun_blind a

theorem afterSound_blind (r : Config.ExtReply) : Blind (afterSoundVia quietRun r) := afterSoundVia_blind quietRun_blind r

theorem ppuRead_blind (a : PpuAddr) : BlindRead (ppuRead a) := ppuReadVia_blind extRun_blind a

theorem ppuWrite_blind (a : PpuAddr) (v : Byte) : Blind (ppuWrite a v) := ppuWriteVia_blind extRun_blind a v

theorem componentRead_blind (k : Component) (a : Addr) : BlindRead (componentRead k a) :=
  componentReadVia_blind extRun_blind k a

theorem componentWrite_blind (k : Component) (a : Addr) (v : Byte) : Blind (componentWrite k a v) :=
  componentWriteVia_blind extRun_blind k a v

theorem componentReset_blind (k : Component) : Blind (componentReset k) := componentResetVia_blind quietRun_blind k

theorem busRead_blind (a : Addr) : BlindRead (busRead a) := busReadVia_blind extRun_blind a

theorem busWrite_blind (a : Addr) (v : Byte) : Blind (busWrite a v) := busWriteVia_blind extRun_blind a v

theorem busReset_blind : Blind busReset := busResetVia_blind quietRun_blind

theorem dummyRead_blind (a : Addr) : Blind (dummyRead a) := by
  intro c s
  unfold dummyRead
  rw [show (c.graft s).params = s.params from rfl]
  split
  · rw [busRead_blind]
  · rfl

theorem dummyWrite_blind (a : Addr) (v : Byte) : Blind (dummyWrite a v) := by
  intro c s
  unfold dummyWrite
  rw [show (c.graft s).params = s.params from rfl]
  split
  · exact busWrite_blind a v c s
  · rfl

end Sys2Proof.Machine
end

