-- ==== Sys2Proof/Laws/Closed.lean ====
section
/-! SUPPORT. One induction for everything that a bus operation can do (spec/41_bus.md R252-R257, R254): a reflexive and
transitive relation that the components' own updates keep is kept by every bus operation, code of external components
that calls the bus included. -/

namespace Sys2Proof.Machine

/-- The changes of the picture generator that an access of its ports, its memory or a reset makes (R601-R612, R620,
R752). -/
inductive PortChange : (Ppu → Ppu) → Prop where
  | status (r : Byte) : PortChange fun p => p.clearStatus.setLatch r
  | latch (r : Byte) : PortChange (Ppu.setLatch r)
  | data (q : PpuPort) : PortChange fun p => (p.mapPort fun _ => q).stepV
  | stepV : PortChange Ppu.stepV
  | ctrl (d : Byte) : PortChange (Ppu.writeCtrl d)
  | mask (d : Byte) : PortChange (Ppu.writeMask d)
  | oamAddr (d : Byte) : PortChange (Ppu.writeOamAddr d)
  | oam (d : Byte) : PortChange (Ppu.writeOam d)
  | scroll (d : Byte) : PortChange (Ppu.writeScroll d)
  | addr (d : Byte) : PortChange (Ppu.writeAddr d)
  | vram (m : Config.Mirroring) (a : PpuAddr) (v : Byte) :
      PortChange (Ppu.mapMem fun q => { q with vram := q.vram.write (nametableIndex m a) v })
  | palette (a : PpuAddr) (v : Byte) : PortChange (paletteWrite a v)
  | reset : PortChange Ppu.reset

/-- The relation is a preorder that every update keeps which a component makes without its ports being accessed: the picture
generator is at most reset. -/
structure QuietClosed (P : State → State → Prop) : Prop where
  refl  : ∀ s, P s s
  trans : ∀ {s t u}, P s t → P t u → P s u
  irq   : ∀ s, P s (s.mapPend fun l => { l with irq := true })
  nmi   : ∀ s, P s (s.mapPend fun l => { l with nmi := true })
  reset : ∀ s, P s (s.mapPend fun l => { l with reset := true })
  st    : ∀ n s, P s (s.mapCart fun c => { c with st := n })
  prg   : ∀ n v s, P s (s.mapCart fun c => { c with prg := c.prg.write n v })
  chr   : ∀ n v s, P s (s.mapCart fun c => { c with chr := c.chr.write n v })
  sound : ∀ n s, P s (s.setSound n)
  ext   : ∀ n s, P s (s.setExt n)
  ppuReset : ∀ s, P s (s.mapPpu Ppu.reset)
  ram   : ∀ a v s, P s (ramWrite a v s)
  pads  : ∀ f s, P s (s.mapPads f)
  dma   : ∀ v s, P s (dmaWrite v s)
  idle  : ∀ s, P s (s.setDma .idle)

/-- And accesses of the picture generator's ports keep it too. -/
structure Closed (P : State → State → Prop) : Prop extends QuietClosed P where
  ppu : ∀ {f}, PortChange f → ∀ s, P s (s.mapPpu f)

section quiet
variable {P : State → State → Prop} (h : QuietClosed P) {x : ExtRun} (hx : ∀ id call s, P s (x id call s).2)
include h hx

theorem QuietClosed.busIrqVia (s : State) : P s (busIrqVia x s) := by
  unfold Machine.busIrqVia
  split
  · exact h.irq s
  · exact hx _ _ s
  · exact h.refl s

theorem QuietClosed.busNmiVia (s : State) : P s (busNmiVia x s) := by
  unfold Machine.busNmiVia
  split
  · exact h.nmi s
  · exact hx _ _ s
  · exact h.refl s

theorem QuietClosed.signalIrqVia (b : Bool) (s : State) : P s (signalIrqVia x b s) := by
  cases b
  · exact h.refl s
  · exact h.busIrqVia hx s

theorem QuietClosed.setMapperVia (n : Nat) (b : Bool) (s : State) : P s (setMapperVia x n b s) :=
  h.trans (h.st n s) (h.signalIrqVia hx b _)

theorem QuietClosed.afterMapperVia (r : Config.MapReply) (s : State) : P s (afterMapperVia x r s) := h.setMapperVia hx r.st r.irq s

theorem QuietClosed.setSoundVia (n : Nat) (b : Bool) (s : State) : P s (setSoundVia x n b s) :=
  h.trans (h.sound n s) (h.signalIrqVia hx b _)

theorem QuietClosed.afterSoundVia (r : Config.ExtReply) (s : State) : P s (afterSoundVia x r s) := h.setSoundVia hx r.st r.irq s

theorem QuietClosed.cartResetVia (s : State) : P s (cartResetVia x s) := by
  unfold Machine.cartResetVia
  split
  · exact h.refl s
  · exact h.setMapperVia hx _ _ s

theorem QuietClosed.cartWriteVia (a : Addr) (v : Byte) (s : State) : P s (cartWriteVia x a v s) := by
  unfold Machine.cartWriteVia
  dsimp only
  split
  · exact h.trans (h.prg _ v s) (h.afterMapperVia hx _ _)
  · exact h.afterMapperVia hx _ _

theorem QuietClosed.patternWriteVia (a : PpuAddr) (v : Byte) (s : State) : P s (patternWriteVia x a v s) := by
  unfold Machine.patternWriteVia
  dsimp only
  split
  · exact h.trans (h.chr _ v s) (h.afterMapperVia hx _ _)
  · exact h.afterMapperVia hx _ _

theorem QuietClosed.ppuReadVia (a : PpuAddr) (s : State) : P s (ppuReadVia x a s).2 := by
  unfold Machine.ppuReadVia
  split
  · exact h.afterMapperVia hx _ s
  · split <;> exact h.refl s

omit hx in
theorem QuietClosed.padsRead (a : Addr) (s : State) : P s (padsRead a s).2 := by
  simp only [Machine.padsRead]
  repeat' split
  all_goals first
    | exact h.refl s
    | exact h.pads (fun c => { c with shift0 := shiftOut c.shift0 }) s
    | exact h.pads (fun c => { c with shift1 := shiftOut c.shift1 }) s

omit hx in
theorem QuietClosed.padsWrite (a : Addr) (d : Byte) (s : State) : P s (padsWrite a d s) := by
  unfold Machine.padsWrite
  split
  · exact h.pads _ s
  · exact h.refl s

theorem QuietClosed.componentResetVia (k : Component) (s : State) : P s (componentResetVia x k s) := by
  cases k with
  | ram => exact h.refl s
  | ppu => exact h.ppuReset s
  | pads => exact h.pads (fun _ => Pads.powerOn) s
  | sound => exact h.setSoundVia hx _ _ s
  | cart => exact h.cartResetVia hx s
  | ext id caps => exact hx id .reset s
  | cpu => exact h.reset s
  | dma => exact h.idle s

theorem QuietClosed.resetMatchesVia (seen : List Component) (b : List BusEntry) (s : State) :
    P s (resetMatchesVia x seen b s) := by
  induction b generalizing seen s with
  | nil => exact h.refl s
  | cons e rest ih =>
    unfold Machine.resetMatchesVia
    split
    · exact ih _ s
    · refine h.trans ?_ (ih _ _)
      split
      · exact h.componentResetVia hx _ s
      · exact h.refl s

/-- A read that another component than the picture generator answers. -/
theorem QuietClosed.componentReadVia {k : Component} (hk : k ≠ .ppu) (a : Addr) (s : State) : P s (componentReadVia x k a s).2 := by
  cases k with
  | ram => exact h.refl s
  | ppu => exact absurd rfl hk
  | pads => exact h.padsRead a s
  | sound => exact h.afterSoundVia hx _ s
  | cart => exact h.afterMapperVia hx _ s
  | ext id caps => exact hx id (.read a) s
  | cpu => exact h.refl s
  | dma => exact h.refl s

/-- A write that another component takes. -/
theorem QuietClosed.componentWriteVia {k : Component} (hk : k ≠ .ppu) (a : Addr) (v : Byte) (s : State) :
    P s (componentWriteVia x k a v s) := by
  cases k with
  | ram => exact h.ram a v s
  | ppu => exact absurd rfl hk
  | pads => exact h.padsWrite a v s
  | sound => exact h.afterSoundVia hx _ s
  | cart => exact h.cartWriteVia hx a v s
  | ext id caps => exact hx id (.write a v) s
  | cpu => exact h.refl s
  | dma => exact h.dma v s

/-- A write through a table, its entries of the picture generator out of reach. -/
theorem QuietClosed.writeMatchesVia (a : Addr) (v : Byte) (b : List BusEntry) (hb : ∀ e ∈ b, e.covers a → e.component ≠ .ppu)
    (s : State) : P s (writeMatchesVia x a v b s) := by
  induction b generalizing s with
  | nil => exact h.refl s
  | cons e rest ih =>
    refine h.trans ?_ (ih (fun e he => hb e (.tail _ he)) _)
    split
    · rename_i hc
      exact h.componentWriteVia hx (hb e (.head _) (Bool.and_eq_true _ _ ▸ hc).1) a v s
    · exact h.refl s

/-- Where the ports are out of reach, the code of a component keeps it. -/
theorem QuietClosed.codeReadVia {cpu : Bool} (a : Addr) (s : State) (hs : portsShut cpu s = true) :
    P s (codeReadVia cpu x a s).2 := by
  unfold Machine.codeReadVia
  rw [hs]
  dsimp only
  split
  · exact h.refl s
  · rename_i hc
    unfold Machine.busReadVia
    split
    · rename_i k hk
      refine h.componentReadVia hx (fun hp => hc ?_) a s
      rw [hk, hp]; rfl
    · exact h.refl s

theorem QuietClosed.codeWriteVia {cpu : Bool} (a : Addr) (v : Byte) (s : State) (hs : portsShut cpu s = true) :
    P s (codeWriteVia cpu x a v s) := by
  unfold Machine.codeWriteVia
  rw [hs]
  exact h.writeMatchesVia hx a v _ (fun e he _ => by simpa using (List.mem_filter.mp he).2) s

end quiet

section via
variable {P : State → State → Prop} (h : Closed P) {x : ExtRun} (hx : ∀ id call s, P s (x id call s).2)
include h hx

theorem Closed.ppuWriteVia (a : PpuAddr) (v : Byte) (s : State) : P s (ppuWriteVia x a v s) := by
  unfold Machine.ppuWriteVia
  split
  · exact h.patternWriteVia hx a v s
  · split
    · exact h.ppu (.vram _ a v) s
    · exact h.ppu (.palette a v) s

theorem Closed.ppuPortReadVia (a : Addr) (s : State) : P s (ppuPortReadVia x a s).2 := by
  unfold Machine.ppuPortReadVia
  split
  · exact h.ppu (.status _) s
  · exact h.ppu (.latch _) s
  · exact h.trans (h.ppuReadVia hx _ s) (h.ppu (.data _) _)
  · exact h.refl s

theorem Closed.ppuPortWriteVia (a : Addr) (d : Byte) (s : State) : P s (ppuPortWriteVia x a d s) := by
  refine h.trans (h.ppu (.latch d) s) ?_
  unfold Machine.ppuPortWriteVia
  dsimp only
  generalize State.mapPpu (Ppu.setLatch d) s = s
  split
  · refine h.trans (h.ppu (.ctrl d) s) ?_
    unfold Machine.writeControlVia
    dsimp only
    split
    · exact h.busNmiVia hx _
    · exact h.refl _
  · exact h.ppu (.mask d) s
  · exact h.ppu (.oamAddr d) s
  · exact h.ppu (.oam d) s
  · exact h.ppu (.scroll d) s
  · exact h.ppu (.addr d) s
  · exact h.trans (h.ppuWriteVia hx _ d s) (h.ppu .stepV _)
  · exact h.refl s

theorem Closed.componentReadVia (k : Component) (a : Addr) (s : State) : P s (componentReadVia x k a s).2 := by
  by_cases hk : k = .ppu
  · subst hk; exact h.ppuPortReadVia hx a s
  · exact h.toQuietClosed.componentReadVia hx hk a s

theorem Closed.componentWriteVia (k : Component) (a : Addr) (v : Byte) (s : State) : P s (componentWriteVia x k a v s) := by
  by_cases hk : k = .ppu
  · subst hk; exact h.ppuPortWriteVia hx a v s
  · exact h.toQuietClosed.componentWriteVia hx hk a v s

theorem Closed.busReadVia (a : Addr) (s : State) : P s (busReadVia x a s).2 := by
  unfold Machine.busReadVia
  split
  · exact h.componentReadVia hx _ a s
  · exact h.refl s

theorem Closed.writeMatchesVia (a : Addr) (v : Byte) (b : List BusEntry) (s : State) : P s (writeMatchesVia x a v b s) := by
  induction b generalizing s with
  | nil => exact h.refl s
  | cons e rest ih =>
    refine h.trans ?_ (ih _)
    split
    · exact h.componentWriteVia hx _ a v s
    · exact h.refl s

theorem Closed.codeReadVia (cpu : Bool) (a : Addr) (s : State) : P s (codeReadVia cpu x a s).2 := by
  unfold Machine.codeReadVia
  dsimp only
  split
  · exact h.refl s
  · exact h.busReadVia hx a s

theorem Closed.codeWriteVia (cpu : Bool) (a : Addr) (v : Byte) (s : State) : P s (codeWriteVia cpu x a v s) :=
  h.writeMatchesVia hx a v _ s

end via

/-- The code of external components keeps what every bus operation and every step of its own state keeps, if its own
accesses do. -/
theorem QuietClosed.extLoop {P : State → State → Prop} (h : QuietClosed P) (cpu : Bool)
    (hr : ∀ {x : ExtRun}, (∀ id call s, P s (x id call s).2) → ∀ a s, P s (Machine.codeReadVia cpu x a s).2)
    (hw : ∀ {x : ExtRun}, (∀ id call s, P s (x id call s).2) → ∀ a v s, P s (Machine.codeWriteVia cpu x a v s)) :
    ∀ (n id : Nat) (call : Config.ExtCall) (turn : Nat) (seen : Byte) (s : State),
      P s (extLoop cpu n id call turn seen s).2 := by
  intro n
  induction n with
  | zero => exact fun _ _ _ _ s => h.refl s
  | succ n ih =>
    intro id call turn seen s
    have hx : ∀ id call s, P s (Machine.extLoop cpu n id call 0 0 s).2 := fun id call s => ih id call 0 0 s
    refine h.trans (h.ext (Config.extTurn id call turn seen s.ext).st s) ?_
    unfold Machine.extLoop
    dsimp only
    split
    · exact h.refl _
    · exact h.trans (hr hx _ _) (ih _ _ _ _ _)
    · exact h.trans (hw hx _ _ _) (ih _ _ _ _ _)
    · exact h.trans (h.busIrqVia hx _) (ih _ _ _ _ _)
    · exact h.trans (h.busNmiVia hx _) (ih _ _ _ _ _)
    · exact h.trans (h.resetMatchesVia hx _ _ _) (ih _ _ _ _ _)

section
variable {P : State → State → Prop} (h : Closed P)
include h

theorem Closed.extLoop (cpu : Bool) (n id : Nat) (call : Config.ExtCall) (turn : Nat) (seen : Byte) (s : State) :
    P s (extLoop cpu n id call turn seen s).2 :=
  h.toQuietClosed.extLoop cpu (fun hx a s => h.codeReadVia hx cpu a s) (fun hx a v s => h.codeWriteVia hx cpu a v s) n id call turn seen s

theorem Closed.extRun (id : Nat) (call : Config.ExtCall) (s : State) : P s (extRun id call s).2 := h.extLoop _ _ _ _ _ _ s
theorem Closed.quietRun (id : Nat) (call : Config.ExtCall) (s : State) : P s (quietRun id call s).2 := h.extLoop _ _ _ _ _ _ s

theorem Closed.busIrq (s : State) : P s (busIrq s) := h.busIrqVia h.quietRun s
theorem Closed.busNmi (s : State) : P s (busNmi s) := h.busNmiVia h.quietRun s
theorem Closed.busReset (s : State) : P s (busReset s) := h.resetMatchesVia h.quietRun [] _ s
theorem Closed.afterSound (r : Config.ExtReply) (s : State) : P s (Machine.afterSoundVia Machine.quietRun r s) :=
  h.afterSoundVia h.quietRun r s
theorem Closed.ppuFetch (a : PpuAddr) (s : State) : P s (ppuFetch a s).2 := h.ppuReadVia h.quietRun a s
theorem Closed.componentReset (k : Component) (s : State) : P s (componentReset k s) := h.componentResetVia h.quietRun k s

theorem Closed.ppuRead (a : PpuAddr) (s : State) : P s (ppuRead a s).2 := h.ppuReadVia h.extRun a s
theorem Closed.ppuWrite (a : PpuAddr) (v : Byte) (s : State) : P s (ppuWrite a v s) := h.ppuWriteVia h.extRun a v s
theorem Closed.componentRead (k : Component) (a : Addr) (s : State) : P s (componentRead k a s).2 :=
  h.componentReadVia h.extRun k a s
theorem Closed.componentWrite (k : Component) (a : Addr) (v : Byte) (s : State) : P s (componentWrite k a v s) :=
  h.componentWriteVia h.extRun k a v s
theorem Closed.busRead (a : Addr) (s : State) : P s (busRead a s).2 := h.busReadVia h.extRun a s
theorem Closed.busWrite (a : Addr) (v : Byte) (s : State) : P s (busWrite a v s) := h.writeMatchesVia h.extRun a v _ s

theorem Closed.dummyRead (a : Addr) (s : State) : P s (dummyRead a s) := by
  unfold Machine.dummyRead
  split
  · exact h.busRead a s
  · exact h.refl s

theorem Closed.dummyWrite (a : Addr) (v : Byte) (s : State) : P s (dummyWrite a v s) := by
  unfold Machine.dummyWrite
  split
  · exact h.busWrite a v s
  · exact h.refl s

end

/-- Every update but a port's, and a port's change of the picture generator that keeps it whatever it is. -/
theorem Closed.of {P : State → State → Prop} (h : QuietClosed P) (hp : ∀ f s, P s (s.mapPpu f)) : Closed P :=
  ⟨h, fun _ s => hp _ s⟩

/-! ### The bus table and the parameters -/

theorem busTable_closed : Closed fun s t => t.bus = s.bus ∧ t.params = s.params := by
  refine .of ?_ fun _ _ => ⟨rfl, rfl⟩
  constructor
  case refl => exact fun _ => ⟨rfl, rfl⟩
  case trans => exact fun h k => ⟨k.1.trans h.1, k.2.trans h.2⟩
  case dma =>
    intro v s
    unfold dmaWrite
    split <;> exact ⟨rfl, rfl⟩
  all_goals intros; exact ⟨rfl, rfl⟩

theorem busRead_bus (a : Addr) (s : State) : (busRead a s).2.bus = s.bus := (busTable_closed.busRead a s).1
theorem busWrite_bus (a : Addr) (v : Byte) (s : State) : (busWrite a v s).bus = s.bus := (busTable_closed.busWrite a v s).1
theorem dummyRead_bus (a : Addr) (s : State) : (dummyRead a s).bus = s.bus := (busTable_closed.dummyRead a s).1
theorem dummyWrite_bus (a : Addr) (v : Byte) (s : State) : (dummyWrite a v s).bus = s.bus :=
  (busTable_closed.dummyWrite a v s).1
theorem componentWrite_bus (k : Component) (a : Addr) (v : Byte) (s : State) : (componentWrite k a v s).bus = s.bus :=
  (busTable_closed.componentWrite k a v s).1
theorem ppuRead_bus (a : PpuAddr) (s : State) : (ppuRead a s).2.bus = s.bus := (busTable_closed.ppuRead a s).1

theorem ppuFetch_bus (a : PpuAddr) (s : State) : (ppuFetch a s).2.bus = s.bus := (busTable_closed.ppuFetch a s).1

/-! ### Who writes the picture generator (R58) -/

/-- The picture generator is as it was or reset (R752), the parameters are as they were. -/
structure PortsKept (s t : State) : Prop where
  params : t.params = s.params
  ppu    : t.ppu = s.ppu ∨ t.ppu = s.ppu.reset

/-- Where R58's table goes first, the ports are out of the code's reach outside the CPU's step. -/
def PortsKeptIfShut (s t : State) : Prop := s.params.portLaw = .cpuStep → PortsKept s t

theorem PortsKept.trans {s t u : State} (h : PortsKept s t) (k : PortsKept t u) : PortsKept s u := by
  refine ⟨k.params.trans h.params, ?_⟩
  rcases h.ppu with h | h <;> rcases k.ppu with k | k
  · exact .inl (k.trans h)
  · exact .inr (by rw [k, h])
  · exact .inr (k.trans h)
  · exact .inr (by rw [k, h]; rfl)

theorem portsKept_quiet : QuietClosed PortsKeptIfShut := by
  constructor
  case refl => exact fun _ _ => ⟨rfl, .inl rfl⟩
  case trans => exact fun h k hl => (h hl).trans (k (by rw [(h hl).params]; exact hl))
  case ppuReset => exact fun _ _ => ⟨rfl, .inr rfl⟩
  case dma =>
    intro v s _
    unfold dmaWrite
    split <;> exact ⟨rfl, .inl rfl⟩
  all_goals intros; exact fun _ => ⟨rfl, .inl rfl⟩

/-- R58: under `cpuStep` the code of external components, outside the CPU's step, leaves the picture generator as it is but
for its reset. -/
theorem quietRun_portsKept {s : State} (hl : s.params.portLaw = .cpuStep) (id : Nat) (call : Config.ExtCall) :
    PortsKept s (quietRun id call s).2 := by
  have shut : ∀ {s : State}, s.params.portLaw = .cpuStep → portsShut false s = true := fun h => by simp [portsShut, h]
  exact portsKept_quiet.extLoop false (fun hx a s hs => portsKept_quiet.codeReadVia hx a s (shut hs) hs)
    (fun hx a v s hs => portsKept_quiet.codeWriteVia hx a v s (shut hs) hs) _ id call 0 0 s hl

/-- R252, R253: under `anyStep` a component's code reads and writes the bus in every step as any caller does. -/
theorem code_of_anyStep {s : State} (hl : s.params.portLaw = .anyStep) (cpu : Bool) (x : ExtRun) (a : Addr) (v : Byte) :
    codeReadVia cpu x a s = busReadVia x a s ∧ codeWriteVia cpu x a v s = busWriteVia x a v s := by
  have hs : portsShut cpu s = false := by simp [portsShut, hl]
  simp [codeReadVia, codeWriteVia, busWriteVia, hs]

end Sys2Proof.Machine
end

