-- ==== Sys2Proof/Laws/Run.lean ====
section
/-! SUPPORT. What one CPU tick is when the processor is alone with ticks to spare: the tick handler and nothing else.
`retime e n` is the passing of `n` CPU ticks, which every tick of every table commutes with; so an instruction's run
is its ticks' effects one after the other, with the count at the end. -/

namespace Sys2Proof.Machine

/-! ### Blind operations and the processor's registers -/

theorem Blind.mapCpu {f : State → State} (h : Blind f) (g : Cpu → Cpu) (s : State) :
    f (s.mapCpu g) = (f s).mapCpu g := by
  have h1 := h (s.mapCpu g) s
  have h2 : (s.mapCpu g).graft (f s) = (f s).mapCpu g := by
    simp only [State.graft, State.mapCpu, ← h.clock s, ← h.dividers s, ← h.cpuUnit s, ← h.ppuUnit s, ← h.soundUnit s,
      ← h.cpu s, ← h.schedule s]
  exact h1.trans h2

theorem BlindRead.mapCpu {α : Type} {f : State → α × State} (h : BlindRead f) (g : Cpu → Cpu) (s : State) :
    f (s.mapCpu g) = ((f s).1, (f s).2.mapCpu g) := by
  have h1 := h (s.mapCpu g) s
  have h2 : (s.mapCpu g).graft (f s).2 = (f s).2.mapCpu g := by
    simp only [State.graft, State.mapCpu, ← h.clock s, ← h.dividers s, ← h.cpuUnit s, ← h.ppuUnit s, ← h.soundUnit s,
      ← h.cpu s, ← h.schedule s]
  exact h1.trans (by rw [h2])

theorem busRead_mapCpu (a : Addr) (g : Cpu → Cpu) (s : State) :
    busRead a (s.mapCpu g) = ((busRead a s).1, (busRead a s).2.mapCpu g) := (busRead_blind a).mapCpu g s

theorem dummyRead_mapCpu (a : Addr) (g : Cpu → Cpu) (s : State) :
    dummyRead a (s.mapCpu g) = (dummyRead a s).mapCpu g := (dummyRead_blind a).mapCpu g s

theorem busWrite_mapCpu (a : Addr) (v : Byte) (g : Cpu → Cpu) (s : State) :
    busWrite a v (s.mapCpu g) = (busWrite a v s).mapCpu g := (busWrite_blind a v).mapCpu g s

theorem dummyWrite_mapCpu (a : Addr) (v : Byte) (g : Cpu → Cpu) (s : State) :
    dummyWrite a v (s.mapCpu g) = (dummyWrite a v s).mapCpu g := (dummyWrite_blind a v).mapCpu g s

@[simp] theorem busRead_cpu (a : Addr) (s : State) : (busRead a s).2.cpu = s.cpu := (busRead_blind a).cpu s
@[simp] theorem dummyRead_cpu (a : Addr) (s : State) : (dummyRead a s).cpu = s.cpu := (dummyRead_blind a).cpu s
@[simp] theorem busWrite_cpu (a : Addr) (v : Byte) (s : State) : (busWrite a v s).cpu = s.cpu := (busWrite_blind a v).cpu s
@[simp] theorem dummyWrite_cpu (a : Addr) (v : Byte) (s : State) : (dummyWrite a v s).cpu = s.cpu :=
  (dummyWrite_blind a v).cpu s

/-! ### The passing of CPU ticks -/

/-- `n` CPU ticks pass and the engine state becomes `e`. -/
def retime (e : Engine) (n : Nat) (s : State) : State :=
  (s.mapCpu fun c => { c with eng := e, cycles := c.cycles + n }).mapUnit .cpu fun u => { u with owed := u.owed - n }

theorem finish_eq_retime (n : Nat) (s : State) : finish n s = retime .boundary n s := rfl

theorem finishSeq_eq_retime (n : Nat) (s : State) : finishSeq n s = retime .fetchNext n s := rfl

theorem retime_retime (e d : Engine) (m n : Nat) (s : State) : retime e m (retime d n s) = retime e (n + m) s := by
  simp only [retime, State.mapCpu, State.mapUnit]
  congr 2
  · omega
  · omega

theorem Blind.retime {f : State → State} (h : Blind f) (e : Engine) (n : Nat) (s : State) :
    f (retime e n s) = Machine.retime e n (f s) := by
  have h1 := h (Machine.retime e n s) s
  have h2 : (Machine.retime e n s).graft (f s) = Machine.retime e n (f s) := by
    simp only [State.graft, Machine.retime, State.mapCpu, State.mapUnit, ← h.clock s, ← h.dividers s, ← h.cpuUnit s,
      ← h.ppuUnit s, ← h.soundUnit s, ← h.cpu s, ← h.schedule s]
  exact h1.trans h2

theorem BlindRead.retime {α : Type} {f : State → α × State} (h : BlindRead f) (e : Engine) (n : Nat) (s : State) :
    f (retime e n s) = ((f s).1, Machine.retime e n (f s).2) := by
  have h1 := h (Machine.retime e n s) s
  have h2 : (Machine.retime e n s).graft (f s).2 = Machine.retime e n (f s).2 := by
    simp only [State.graft, Machine.retime, State.mapCpu, State.mapUnit, ← h.clock s, ← h.dividers s, ← h.cpuUnit s,
      ← h.ppuUnit s, ← h.soundUnit s, ← h.cpu s, ← h.schedule s]
  exact h1.trans (by rw [h2])

theorem busRead_retime (a : Addr) (e : Engine) (n : Nat) (s : State) :
    busRead a (retime e n s) = ((busRead a s).1, retime e n (busRead a s).2) := (busRead_blind a).retime e n s

theorem dummyRead_retime (a : Addr) (e : Engine) (n : Nat) (s : State) :
    dummyRead a (retime e n s) = retime e n (dummyRead a s) := (dummyRead_blind a).retime e n s

theorem busWrite_retime (a : Addr) (v : Byte) (e : Engine) (n : Nat) (s : State) :
    busWrite a v (retime e n s) = retime e n (busWrite a v s) := (busWrite_blind a v).retime e n s

theorem dummyWrite_retime (a : Addr) (v : Byte) (e : Engine) (n : Nat) (s : State) :
    dummyWrite a v (retime e n s) = retime e n (dummyWrite a v s) := (dummyWrite_blind a v).retime e n s

section retimeFields
variable (e : Engine) (n : Nat) (s : State)
@[simp] theorem retime_a : (retime e n s).cpu.a = s.cpu.a := rfl
@[simp] theorem retime_x : (retime e n s).cpu.x = s.cpu.x := rfl
@[simp] theorem retime_y : (retime e n s).cpu.y = s.cpu.y := rfl
@[simp] theorem retime_sp : (retime e n s).cpu.sp = s.cpu.sp := rfl
@[simp] theorem retime_pc : (retime e n s).cpu.pc = s.cpu.pc := rfl
@[simp] theorem retime_p : (retime e n s).cpu.p = s.cpu.p := rfl
@[simp] theorem retime_eng : (retime e n s).cpu.eng = e := rfl
@[simp] theorem retime_cycles : (retime e n s).cpu.cycles = s.cpu.cycles + n := rfl
@[simp] theorem retime_dma : (retime e n s).dma = s.dma := rfl
@[simp] theorem retime_schedule : (retime e n s).schedule = s.schedule := rfl
@[simp] theorem retime_params : (retime e n s).params = s.params := rfl
@[simp] theorem retime_pend : (retime e n s).pend = s.pend := rfl
@[simp] theorem retime_bus : (retime e n s).bus = s.bus := rfl
@[simp] theorem retime_owed : (retime e n s).cpuUnit.owed = s.cpuUnit.owed - n := rfl
end retimeFields

/-! ### Ticks that only the count of ticks passes by -/

/-- The end of a tick, its state changed by `f`. -/
def TickEnd.map (f : State → State) : TickEnd → TickEnd
  | .more lat s => .more lat (f s)
  | .done s => .done (f s)

/-- What a tick's state-level effect is, whether it goes on or not. -/
def TickEnd.state : TickEnd → State
  | .more _ s => s
  | .done s => s

/-- The tick neither reads nor writes the engine state, the tick count and the ticks owed. -/
def Tick.timeless (t : Tick) : Prop :=
  (∀ lat s e n, t.act lat (retime e n s) = (t.act lat s).map (retime e n)) ∧
  ∀ lat s, (t.act lat s).state.cpu.cycles = s.cpu.cycles

/-- Every tick of the table is timeless. -/
def Table.timeless (t : Table) : Prop := ∀ k ∈ t, Tick.timeless k

theorem runTick_cycles {t : Table} (h : t.timeless) (idx : Nat) (lat : Lat) (s : State) :
    (runTick t idx lat s).state.cpu.cycles = s.cpu.cycles := by
  unfold runTick
  cases hk : t[idx]? with
  | none => rfl
  | some k => exact (h k (List.mem_of_getElem? hk)).2 lat s

theorem runTick_timeless {t : Table} (h : t.timeless) (idx : Nat) (lat : Lat) (s : State) (e : Engine) (n : Nat) :
    runTick t idx lat (retime e n s) = (runTick t idx lat s).map (retime e n) := by
  unfold runTick
  cases hk : t[idx]? with
  | none => rfl
  | some k => exact (h k (List.mem_of_getElem? hk)).1 lat s e n

/-! ### The processor alone -/

/-- What `cpuAlone` says, clause by clause. -/
theorem cpuAlone_iff (n : Nat) (s : State) : cpuAlone n s = true ↔
    s.schedule = [] ∧ s.dma = .idle ∧ n ≤ s.cpuUnit.owed ∧ s.cpuUnit.policy = .async ∧ s.cpuUnit.paused = false ∧
    s.cpuUnit.disposed = false ∧ unitEnabled .ppu s = false ∧ unitEnabled .sound s = false ∧
    s.ppuUnit.desynced = false ∧ s.soundUnit.desynced = false ∧ noExternal s.bus = true := by
  simp [cpuAlone, and_assoc]

theorem cpuAlone_mono {m n : Nat} {s : State} (h : cpuAlone n s = true) (hmn : m ≤ n) : cpuAlone m s = true := by
  rw [cpuAlone_iff] at h ⊢
  exact ⟨h.1, h.2.1, Nat.le_trans hmn h.2.2.1, h.2.2.2⟩

/-- A bus operation keeps the processor alone if it asks for no DMA. -/
theorem cpuAlone_of_graft {n : Nat} {s t : State} (h : cpuAlone n s = true) (hd : t.dma = .idle) (hb : t.bus = s.bus)
    (h1 : t.cpuUnit = s.cpuUnit) (h2 : t.ppuUnit = s.ppuUnit) (h3 : t.soundUnit = s.soundUnit)
    (h4 : t.schedule = s.schedule) : cpuAlone n t = true := by
  rw [cpuAlone_iff] at h ⊢
  simp only [unitEnabled, State.unit_ppu, State.unit_sound, h1, h2, h3, h4, hb] at h ⊢
  exact ⟨h.1, hd, h.2.2⟩

theorem find_only_cpu (p : UnitId → Bool) (hp : p .cpu = true) (hppu : p .ppu = false) (hs : p .sound = false)
    (l : List UnitId) (hl : UnitId.cpu ∈ l) : l.find? p = some .cpu := by
  induction l with
  | nil => cases hl
  | cons u rest ih =>
    cases u with
    | cpu => simp [hp]
    | ppu => simpa [hppu] using ih (by simpa using hl)
    | sound => simpa [hs] using ih (by simpa using hl)

/-- `cpuAlone` without its clause on the DMA. -/
def othersStill (n : Nat) (s : State) : Prop :=
  s.schedule = [] ∧ n ≤ s.cpuUnit.owed ∧ s.cpuUnit.policy = .async ∧ s.cpuUnit.paused = false ∧
  s.cpuUnit.disposed = false ∧ unitEnabled .ppu s = false ∧ unitEnabled .sound s = false ∧
  s.ppuUnit.desynced = false ∧ s.soundUnit.desynced = false

theorem othersStill_of_cpuAlone {n : Nat} {s : State} (h : cpuAlone n s = true) : othersStill n s :=
  have ⟨h1, _, h2, h3, h4, h5, h6, h7, h8, h9, _⟩ := (cpuAlone_iff _ _).mp h
  ⟨h1, h2, h3, h4, h5, h6, h7, h8, h9⟩

theorem cpuAlone_noExternal {n : Nat} {s : State} (h : cpuAlone n s = true) : noExternal s.bus = true :=
  ((cpuAlone_iff _ _).mp h).2.2.2.2.2.2.2.2.2.2

theorem cpuAlone_idle_dma {n : Nat} {s : State} (h : cpuAlone n s = true) : s.dma = .idle := ((cpuAlone_iff _ _).mp h).2.1

theorem othersStill_of_graft {n : Nat} {s t : State} (h : othersStill n s) (h1 : t.cpuUnit = s.cpuUnit)
    (h2 : t.ppuUnit = s.ppuUnit) (h3 : t.soundUnit = s.soundUnit) (h4 : t.schedule = s.schedule) : othersStill n t := by
  simp only [othersStill, unitEnabled, State.unit_ppu, State.unit_sound, h1, h2, h3, h4] at h ⊢
  exact h

/-- A transition that ends in a next state is not changed by what a fault undoes. -/
@[simp] theorem undone_next (s t : State) : undone s (.next t) = .next t := rfl

/-- With the processor alone, one CPU tick is the tick handler; its fault leaves the state before it. -/
theorem cpuTick_still (T : Table) {n : Nat} {s : State} (h : othersStill (n + 1) s) :
    cpuTick T s = undone s (cpuHandler T (consume .cpu s)) := by
  obtain ⟨hsch, howed, hpol, hpau, hdis, hppu, hsnd, hd1, hd2⟩ := h
  have hcpu : unitEnabled .cpu s = true := by
    have h0 : 0 < s.cpuUnit.owed := Nat.lt_of_lt_of_le (Nat.succ_pos n) howed
    simp [unitEnabled, hpau, hdis, h0]
  have hfind : (stepOrder s).find? (fun u => unitEnabled u s) = some .cpu :=
    find_only_cpu _ hcpu hppu hsnd _ (by simp [stepOrder])
  have hnext : nextEvent s s.schedule = (some (.unit .cpu), []) := by
    rw [hsch]; simp [nextEvent, defaultEvent, hfind]
  have hself : s.setSchedule [] = s := by
    cases s; cases hsch; rfl
  have hsync : desyncedUnit s = none := by
    have hd0 : s.cpuUnit.desynced = false := by simp [UnitCtl.desynced, hpol]
    simp [desyncedUnit, State.unit, hd0, hd1, hd2]
  show untilCpuTick T (s.schedule.length + 63 + 1) s = _
  simp only [untilCpuTick, hnext, hself]
  simp only [fire, guarded, hsync, unitStep]

theorem cpuTick_alone (T : Table) {n : Nat} {s : State} (h : cpuAlone (n + 1) s = true) :
    cpuTick T s = undone s (cpuHandler T (consume .cpu s)) := cpuTick_still T (othersStill_of_cpuAlone h)

/-- The engine's tick runs: no DMA is asked for, or it is and the tick writes (R341). -/
def engineRuns (T : Table) (k : Nat) (s : State) : Prop :=
  s.dma = .idle ∨ (∃ p, s.dma = .requested p) ∧ tickWrites T (k - 2) = true

/-- A CPU tick inside an instruction that no DMA takes: the tick of the table, one tick later. -/
theorem cpuHandler_inInstr (T : Table) (hT : T.timeless) (op : Byte) (k j : Nat) (lat : Lat) (s : State)
    (hd : engineRuns T k s) :
    cpuHandler T (consume .cpu (retime (.inInstr op k lat) j s)) =
      .next (match runTick T (k - 2) lat s with
        | .more lat' t => retime (.inInstr op (k + 1) lat') (j + 1) t
        | .done t => retime .boundary (j + 1) t) := by
  have h1 : (consume .cpu (retime (.inInstr op k lat) j s)).mapCpu Cpu.tick = retime (.inInstr op k lat) (j + 1) s := by
    simp only [consume, retime, State.mapCpu, State.mapUnit, Cpu.tick]
    congr 2
  have h2 : (retime (.inInstr op k lat) (j + 1) s).dma = s.dma := rfl
  unfold cpuHandler
  simp only [h1, h2]
  have h3 : engineTick T (retime (.inInstr op k lat) (j + 1) s) =
      .next (match runTick T (k - 2) lat s with
        | .more lat' t => retime (.inInstr op (k + 1) lat') (j + 1) t
        | .done t => retime .boundary (j + 1) t) := by
    simp only [engineTick, retime_eng, instrTick, runTick_timeless hT]
    cases runTick T (k - 2) lat s <;> rfl
  rcases hd with hd | ⟨⟨p, hd⟩, hw⟩
  · rw [hd]; exact h3
  · rw [hd]
    simp only [retime_eng, nextTickWrites, hw, if_true]
    exact h3

/-- One more tick of an instruction that runs alone. -/
theorem runTicks_still (T : Table) (hT : T.timeless) {N : Nat} {s : State} (h : othersStill N s) (op : Byte)
    (k j : Nat) (hj : j < N) (lat : Lat) (hd : engineRuns T k s) (f : Nat) :
    runTicks T (f + 1) (retime (.inInstr op k lat) j s) =
      match runTick T (k - 2) lat s with
      | .more lat' t => runTicks T f (retime (.inInstr op (k + 1) lat') (j + 1) t)
      | .done t => .next (retime .boundary (j + 1) t) := by
  have hal : othersStill (N - j - 1 + 1) (retime (.inInstr op k lat) j s) := by
    refine ⟨h.1, ?_, h.2.2⟩
    have := h.2.1
    show _ ≤ s.cpuUnit.owed - j
    omega
  have hc := runTick_cycles hT (k - 2) lat s
  simp only [runTicks, cpuTick_still T hal, cpuHandler_inInstr T hT op k j lat s hd, undone_next, andThen]
  cases hr : runTick T (k - 2) lat s with
  | done t => simp [Engine.atRest]
  | more lat' t =>
    rw [hr] at hc
    have hc' : t.cpu.cycles = s.cpu.cycles := hc
    simp only [retime_eng, retime_cycles, hc', Engine.atRest, Bool.false_or]
    rw [if_neg]
    simp

/-- One more tick of an instruction that runs alone: the table's tick goes on. -/
theorem still_more {T : Table} (hT : T.timeless) {N : Nat} {s u : State} (h : othersStill N s) {op : Byte}
    {k j f : Nat} {lat lat' : Lat} {t : Tick} (hd : engineRuns T k s) (hj : j < N) (hk : T[k - 2]? = some t)
    (ha : t.act lat s = .more lat' u) :
    runTicks T (f + 1) (retime (.inInstr op k lat) j s) = runTicks T f (retime (.inInstr op (k + 1) lat') (j + 1) u) := by
  rw [runTicks_still T hT h op k j hj lat hd f]
  simp only [runTick, hk, ha]

/-- The last tick of an instruction that runs alone. -/
theorem still_done {T : Table} (hT : T.timeless) {N : Nat} {s u : State} (h : othersStill N s) {op : Byte}
    {k j f : Nat} {lat : Lat} {t : Tick} (hd : engineRuns T k s) (hj : j < N) (hk : T[k - 2]? = some t)
    (ha : t.act lat s = .done u) :
    runTicks T (f + 1) (retime (.inInstr op k lat) j s) = .next (retime .boundary (j + 1) u) := by
  rw [runTicks_still T hT h op k j hj lat hd f]
  simp only [runTick, hk, ha]

/-- As `still_more`, with no DMA asked for. -/
theorem alone_more {T : Table} (hT : T.timeless) {N : Nat} {s u : State} (h : cpuAlone N s = true) {op : Byte}
    {k j f : Nat} {lat lat' : Lat} {t : Tick} (hj : j < N) (hk : T[k - 2]? = some t) (ha : t.act lat s = .more lat' u) :
    runTicks T (f + 1) (retime (.inInstr op k lat) j s) = runTicks T f (retime (.inInstr op (k + 1) lat') (j + 1) u) :=
  still_more hT (othersStill_of_cpuAlone h) (.inl ((cpuAlone_iff _ _).mp h).2.1) hj hk ha

/-- As `still_done`, with no DMA asked for. -/
theorem alone_done {T : Table} (hT : T.timeless) {N : Nat} {s u : State} (h : cpuAlone N s = true) {op : Byte}
    {k j f : Nat} {lat : Lat} {t : Tick} (hj : j < N) (hk : T[k - 2]? = some t) (ha : t.act lat s = .done u) :
    runTicks T (f + 1) (retime (.inInstr op k lat) j s) = .next (retime .boundary (j + 1) u) :=
  still_done hT (othersStill_of_cpuAlone h) (.inl ((cpuAlone_iff _ _).mp h).2.1) hj hk ha

end Sys2Proof.Machine
end

