-- ==== Sys2Proof/Laws/Ticks.lean ====
section
/-! SUPPORT. Every tick of every table is timeless: it neither reads nor writes the engine state, the tick count and
the ticks owed. So the run of an instruction with the processor alone is its ticks' effects in order. -/

namespace Sys2Proof.Machine

/-- The operation on the processor is timeless. -/
def timelessOp (g : Cpu → Cpu) : Prop :=
  (∀ (c : Cpu) (e : Engine) (n : Nat), g { c with eng := e, cycles := c.cycles + n } =
    { g c with eng := e, cycles := (g c).cycles + n }) ∧ ∀ c, (g c).cycles = c.cycles

theorem mapCpu_retime {g : Cpu → Cpu} (h : timelessOp g) (e : Engine) (n : Nat) (s : State) :
    (retime e n s).mapCpu g = retime e n (s.mapCpu g) := by
  simp only [retime, State.mapCpu, State.mapUnit, h.1]

theorem timelessOp_putFlag (f : Flag) (b : Bool) : timelessOp (Cpu.putFlag f b) := ⟨fun _ _ _ => rfl, fun _ => rfl⟩
theorem timelessOp_setPc (v : Addr) : timelessOp (Cpu.setPc v) := ⟨fun _ _ _ => rfl, fun _ => rfl⟩
theorem timelessOp_setP (v : Byte) : timelessOp (Cpu.setP v) := ⟨fun _ _ _ => rfl, fun _ => rfl⟩
theorem timelessOp_incPc : timelessOp Cpu.incPc := ⟨fun _ _ _ => rfl, fun _ => rfl⟩
theorem timelessOp_incSp : timelessOp Cpu.incSp := ⟨fun _ _ _ => rfl, fun _ => rfl⟩
theorem timelessOp_decSp : timelessOp Cpu.decSp := ⟨fun _ _ _ => rfl, fun _ => rfl⟩

theorem fetchByte_retime (e : Engine) (n : Nat) (s : State) :
    fetchByte (retime e n s) = ((fetchByte s).1, retime e n (fetchByte s).2) := by
  simp only [fetchByte, retime_pc, busRead_retime, mapCpu_retime timelessOp_incPc]

theorem push_retime (v : Byte) (e : Engine) (n : Nat) (s : State) :
    push v (retime e n s) = retime e n (push v s) := by
  simp only [push, stackAddr, retime_sp, busWrite_retime, mapCpu_retime timelessOp_decSp]

theorem readStack_retime (e : Engine) (n : Nat) (s : State) :
    readStack (retime e n s) = ((readStack s).1, retime e n (readStack s).2) := by
  simp only [readStack, stackAddr, retime_sp, busRead_retime]

theorem openPull_retime (e : Engine) (n : Nat) (s : State) : openPull (retime e n s) = retime e n (openPull s) := by
  simp only [openPull, stackAddr, retime_sp, dummyRead_retime, mapCpu_retime timelessOp_incSp]

theorem indexOf_retime (m : Mode) (e : Engine) (n : Nat) (s : State) :
    indexOf m (retime e n s).cpu = indexOf m s.cpu := by cases m <;> rfl

@[simp] theorem fetchByte_cycles (s : State) : (fetchByte s).2.cpu.cycles = s.cpu.cycles := by simp [fetchByte]
@[simp] theorem push_cycles (v : Byte) (s : State) : (push v s).cpu.cycles = s.cpu.cycles := by simp [push]
@[simp] theorem readStack_cycles (s : State) : (readStack s).2.cpu.cycles = s.cpu.cycles := by simp [readStack]
@[simp] theorem openPull_cycles (s : State) : (openPull s).cpu.cycles = s.cpu.cycles := by simp [openPull]

/-! ### The ticks of the forms -/

theorem idleRead_timeless : idleRead.timeless := by
  constructor
  · intro lat s e n; simp only [idleRead, retime_pc, dummyRead_retime, TickEnd.map]
  · intro lat s; simp [idleRead, TickEnd.state]

theorem emptyTick_timeless : emptyTick.timeless := ⟨fun _ _ _ _ => rfl, fun _ _ => rfl⟩

theorem fetchZp_timeless : fetchZp.timeless := by
  constructor
  · intro lat s e n; simp only [fetchZp, fetchByte_retime, TickEnd.map]
  · intro lat s; simp [fetchZp, TickEnd.state]

theorem fetchPtr_timeless : fetchPtr.timeless := by
  constructor
  · intro lat s e n; simp only [fetchPtr, fetchByte_retime, TickEnd.map]
  · intro lat s; simp [fetchPtr, TickEnd.state]

theorem indexZp_timeless (m : Mode) : (indexZp m).timeless := by
  constructor
  · intro lat s e n; simp only [indexZp, dummyRead_retime, indexOf_retime, TickEnd.map]
  · intro lat s; simp [indexZp, TickEnd.state]

theorem fetchLo_timeless : fetchLo.timeless := by
  constructor
  · intro lat s e n; simp only [fetchLo, fetchByte_retime, TickEnd.map]
  · intro lat s; simp [fetchLo, TickEnd.state]

theorem fetchHi_timeless : fetchHi.timeless := by
  constructor
  · intro lat s e n; simp only [fetchHi, fetchByte_retime, TickEnd.map]
  · intro lat s; simp [fetchHi, TickEnd.state]

theorem fetchHiIndexed_timeless (m : Mode) : (fetchHiIndexed m).timeless := by
  constructor
  · intro lat s e n; simp only [fetchHiIndexed, fetchByte_retime, indexOf_retime, TickEnd.map]
  · intro lat s; simp [fetchHiIndexed, TickEnd.state]

theorem indexPtr_timeless : indexPtr.timeless := by
  constructor
  · intro lat s e n; simp only [indexPtr, dummyRead_retime, retime_x, TickEnd.map]
  · intro lat s; simp [indexPtr, TickEnd.state]

theorem pointerLo_timeless : pointerLo.timeless := by
  constructor
  · intro lat s e n; simp only [pointerLo, busRead_retime, TickEnd.map]
  · intro lat s; simp [pointerLo, TickEnd.state]

theorem pointerHi_timeless : pointerHi.timeless := by
  constructor
  · intro lat s e n; simp only [pointerHi, busRead_retime, TickEnd.map]
  · intro lat s; simp [pointerHi, TickEnd.state]

theorem pointerHiIndexed_timeless : pointerHiIndexed.timeless := by
  constructor
  · intro lat s e n; simp only [pointerHiIndexed, busRead_retime, retime_y, TickEnd.map]
  · intro lat s; simp [pointerHiIndexed, TickEnd.state]

theorem correct_timeless : correct.timeless := by
  constructor
  · intro lat s e n; simp only [correct, dummyRead_retime, TickEnd.map]
  · intro lat s; simp [correct, TickEnd.state]

theorem readEa_retime {op : ReadOp} (h : ∀ v, timelessOp (op v)) (lat : Lat) (s : State) (e : Engine) (n : Nat) :
    readEa op lat (retime e n s) = (readEa op lat s).map (retime e n) := by
  simp only [readEa, busRead_retime, mapCpu_retime (h _), TickEnd.map]

theorem readEa_cycles {op : ReadOp} (h : ∀ v, timelessOp (op v)) (lat : Lat) (s : State) :
    (readEa op lat s).state.cpu.cycles = s.cpu.cycles := by
  simp [readEa, TickEnd.state, (h _).2]

theorem readOperand_timeless {op : ReadOp} (h : ∀ v, timelessOp (op v)) : (readOperand op).timeless :=
  ⟨fun lat s e n => readEa_retime h lat s e n, fun lat s => readEa_cycles h lat s⟩

theorem readOrCorrect_timeless {op : ReadOp} (h : ∀ v, timelessOp (op v)) : (readOrCorrect op).timeless := by
  constructor
  · intro lat s e n
    cases hc : lat.crossed <;> simp [readOrCorrect, hc, dummyRead_retime, TickEnd.map, readEa_retime h]
  · intro lat s
    cases hc : lat.crossed
    · simpa [readOrCorrect, hc] using readEa_cycles h lat s
    · simp [readOrCorrect, hc, TickEnd.state]

/-- The value to store depends on the registers alone. -/
def timelessVal (val : Cpu → Byte) : Prop :=
  ∀ (c : Cpu) (e : Engine) (n : Nat), val { c with eng := e, cycles := c.cycles + n } = val c

theorem storeOperand_timeless {val : Cpu → Byte} (h : timelessVal val) : (storeOperand val).timeless := by
  constructor
  · intro lat s e n
    have : val (retime e n s).cpu = val s.cpu := h s.cpu e n
    simp only [storeOperand, this, busWrite_retime, TickEnd.map]
  · intro lat s; simp [storeOperand, TickEnd.state]

theorem loadData_timeless : loadData.timeless := by
  constructor
  · intro lat s e n; simp only [loadData, busRead_retime, TickEnd.map]
  · intro lat s; simp [loadData, TickEnd.state]

/-- The modification is timeless: its byte depends on the registers alone. -/
def timelessMod (mod : ModOp) : Prop :=
  ∀ v, timelessVal (fun c => (mod v c).1) ∧ timelessOp (fun c => (mod v c).2)

theorem modifyData_timeless {mod : ModOp} (h : timelessMod mod) : (modifyData mod).timeless := by
  constructor
  · intro lat s e n
    have h1 : (mod lat.data (retime e n (dummyWrite lat.ea lat.data s)).cpu).1 =
        (mod lat.data (dummyWrite lat.ea lat.data s).cpu).1 := (h lat.data).1 _ e n
    have h2 : (retime e n (dummyWrite lat.ea lat.data s)).mapCpu
          (fun _ => (mod lat.data (retime e n (dummyWrite lat.ea lat.data s)).cpu).2) =
        retime e n ((dummyWrite lat.ea lat.data s).mapCpu fun _ => (mod lat.data (dummyWrite lat.ea lat.data s).cpu).2) :=
      mapCpu_retime (h lat.data).2 e n (dummyWrite lat.ea lat.data s)
    simp only [modifyData, dummyWrite_retime, TickEnd.map, h1, h2]
  · intro lat s
    have := (h lat.data).2.2 (dummyWrite lat.ea lat.data s).cpu
    simp only [modifyData, TickEnd.state, State.mapCpu_cpu]
    simpa using this

theorem storeData_timeless : storeData.timeless := by
  constructor
  · intro lat s e n; simp only [storeData, busWrite_retime, TickEnd.map]
  · intro lat s; simp [storeData, TickEnd.state]

/-! ### The forms -/

theorem timeless_cons {k : Tick} {t : Table} (hk : k.timeless) (ht : Table.timeless t) : Table.timeless (k :: t) := by
  intro j hj
  rcases List.mem_cons.mp hj with rfl | hj
  · exact hk
  · exact ht j hj

theorem timeless_nil : Table.timeless [] := fun _ hj => absurd hj List.not_mem_nil

theorem readForm_timeless (m : Mode) {op : ReadOp} (h : ∀ v, timelessOp (op v)) : (readForm m op).timeless := by
  have himm : Tick.timeless ⟨false, fun _ s => let r := fetchByte s; .done (r.2.mapCpu (op r.1))⟩ := by
    constructor
    · intro lat s e n; simp only [fetchByte_retime, mapCpu_retime (h _), TickEnd.map]
    · intro lat s; simp [TickEnd.state, (h _).2]
  intro k hk
  cases m <;> simp only [readForm, List.mem_cons, List.not_mem_nil, or_false] at hk <;>
    (first | exact hk.elim | rcases hk with rfl | rfl | rfl | rfl | rfl) <;>
    first
    | exact himm | exact fetchZp_timeless | exact fetchPtr_timeless | exact indexZp_timeless _ | exact fetchLo_timeless
    | exact fetchHi_timeless | exact fetchHiIndexed_timeless _ | exact indexPtr_timeless | exact pointerLo_timeless
    | exact pointerHi_timeless | exact pointerHiIndexed_timeless | exact readOperand_timeless h
    | exact readOrCorrect_timeless h

theorem writeForm_timeless (m : Mode) {val : Cpu → Byte} (h : timelessVal val) : (writeForm m val).timeless := by
  intro k hk
  cases m <;> simp only [writeForm, List.mem_cons, List.not_mem_nil, or_false] at hk <;>
    (first | exact hk.elim | rcases hk with rfl | rfl | rfl | rfl | rfl) <;>
    first
    | exact fetchZp_timeless | exact fetchPtr_timeless | exact indexZp_timeless _ | exact fetchLo_timeless
    | exact fetchHi_timeless | exact fetchHiIndexed_timeless _ | exact indexPtr_timeless | exact pointerLo_timeless
    | exact pointerHi_timeless | exact pointerHiIndexed_timeless | exact correct_timeless | exact storeOperand_timeless h

theorem accumulatorForm_timeless {mod : ModOp} (h : timelessMod mod) : (accumulatorForm mod).timeless := by
  have hop : timelessOp (fun c : Cpu => (mod c.a c).2.setA (mod c.a c).1) := by
    constructor
    · intro c e n
      have h1 : (mod c.a { c with eng := e, cycles := c.cycles + n }).1 = (mod c.a c).1 := (h c.a).1 c e n
      have h2 : (mod c.a { c with eng := e, cycles := c.cycles + n }).2 =
          { (mod c.a c).2 with eng := e, cycles := (mod c.a c).2.cycles + n } := (h c.a).2.1 c e n
      simp only [h1, h2, Cpu.setA]
    · intro c; exact (h c.a).2.2 c
  intro k hk
  simp only [accumulatorForm, List.mem_cons, List.not_mem_nil, or_false] at hk
  subst hk
  constructor
  · intro lat s e n
    simp only [retime_pc, dummyRead_retime, TickEnd.map]
    exact congrArg _ (mapCpu_retime hop e n _)
  · intro lat s
    simpa [TickEnd.state] using hop.2 s.cpu

theorem rmwTicks_timeless {mod : ModOp} (h : timelessMod mod) : Table.timeless (rmwTicks mod) :=
  timeless_cons loadData_timeless (timeless_cons (modifyData_timeless h) (timeless_cons storeData_timeless timeless_nil))

theorem rmwForm_timeless (m : Mode) {mod : ModOp} (h : timelessMod mod) : Table.timeless (rmwForm m mod) := by
  have hr := rmwTicks_timeless h
  cases m with
  | acc => exact accumulatorForm_timeless h
  | zp => exact timeless_cons fetchZp_timeless hr
  | zpx => exact timeless_cons fetchPtr_timeless (timeless_cons (indexZp_timeless _) hr)
  | abs => exact timeless_cons fetchLo_timeless (timeless_cons fetchHi_timeless hr)
  | absx =>
    exact timeless_cons fetchLo_timeless (timeless_cons (fetchHiIndexed_timeless _) (timeless_cons correct_timeless hr))
  | imp => exact timeless_nil
  | imm => exact timeless_nil
  | zpy => exact timeless_nil
  | absy => exact timeless_nil
  | ind => exact timeless_nil
  | indx => exact timeless_nil
  | indy => exact timeless_nil
  | rel => exact timeless_nil

theorem impliedForm_timeless {op : Cpu → Cpu} (h : timelessOp op) : (impliedForm op).timeless := by
  intro k hk
  simp only [impliedForm, List.mem_cons, List.not_mem_nil, or_false] at hk
  subst hk
  constructor
  · intro lat s e n; simp only [retime_pc, dummyRead_retime, mapCpu_retime h, TickEnd.map]
  · intro lat s; simp [TickEnd.state, h.2]

theorem branchForm_timeless (cond : Byte → Bool) : (branchForm cond).timeless := by
  intro k hk
  simp only [branchForm, List.mem_cons, List.not_mem_nil, or_false] at hk
  rcases hk with rfl | rfl | rfl
  · constructor
    · intro lat s e n
      cases hc : cond (fetchByte s).2.cpu.p <;> simp [fetchByte_retime, TickEnd.map, hc]
    · intro lat s
      cases hc : cond (fetchByte s).2.cpu.p <;> simp [TickEnd.state, hc]
  · constructor
    · intro lat s e n
      simp only [retime_pc, dummyRead_retime]
      split <;> simp [TickEnd.map, mapCpu_retime (timelessOp_setPc _)]
    · intro lat s
      dsimp only
      split <;> simp [TickEnd.state]
  · constructor
    · intro lat s e n
      simp only [retime_pc, dummyRead_retime, mapCpu_retime (timelessOp_setPc _), TickEnd.map]
    · intro lat s; simp [TickEnd.state]

theorem takeInterrupt_timeless (status : Byte → Byte) : (takeInterrupt status).timeless := by
  intro k hk
  simp only [takeInterrupt, List.mem_cons, List.not_mem_nil, or_false] at hk
  rcases hk with rfl | rfl | rfl | rfl | rfl <;> constructor <;> intros <;>
    simp [push_retime, busRead_retime, mapCpu_retime (timelessOp_putFlag _ _), mapCpu_retime (timelessOp_setPc _),
      TickEnd.map, TickEnd.state]

theorem returnFromInterrupt_timeless : returnFromInterrupt.timeless := by
  have hop (v : Byte) : timelessOp (fun c : Cpu => (c.setP v).incSp) := ⟨fun _ _ _ => rfl, fun _ => rfl⟩
  intro k hk
  simp only [returnFromInterrupt, List.mem_cons, List.not_mem_nil, or_false] at hk
  rcases hk with rfl | rfl | rfl | rfl <;> constructor <;> intros <;>
    simp [openPull_retime, readStack_retime, mapCpu_retime (hop _), mapCpu_retime timelessOp_incSp,
      mapCpu_retime (timelessOp_setPc _), TickEnd.map, TickEnd.state]

end Sys2Proof.Machine
end

