-- ==== Sys2Proof/Laws/Reads.lean ====
section
/-! SUPPORT. What a bus read may change: device registers (the picture generator's ports, the controllers' shift
registers), the state of the mapper and the sound generator and the IRQ and NMI latches; never a memory, the bus table,
the parameters or the DMA state. All this where no component runs code of its own; what else holds is in Closed.lean. -/

namespace Sys2Proof.Machine

/-- `t` differs from `s` at most in device registers, collaborators' own states and interrupt latches. -/
structure ReadsOnly (s t : State) : Prop where
  params  : t.params = s.params
  bus     : t.bus = s.bus
  dma     : t.dma = s.dma
  ram     : t.ram = s.ram
  mem     : t.ppu.mem = s.ppu.mem
  spr     : t.ppu.spr = s.ppu.spr
  out     : t.ppu.out = s.ppu.out
  pos     : t.ppu.pos = s.ppu.pos
  bg      : t.ppu.bg = s.ppu.bg
  prg     : t.cart.prg = s.cart.prg
  chr     : t.cart.chr = s.cart.chr
  mapper  : t.cart.mapper = s.cart.mapper
  sink    : t.sink = s.sink
  reset   : t.pend.reset = s.pend.reset

theorem ReadsOnly.refl (s : State) : ReadsOnly s s := ⟨rfl, rfl, rfl, rfl, rfl, rfl, rfl, rfl, rfl, rfl, rfl, rfl, rfl, rfl⟩

theorem ReadsOnly.trans {s t u : State} (h : ReadsOnly s t) (k : ReadsOnly t u) : ReadsOnly s u := by
  constructor
  · exact k.params.trans h.params
  · exact k.bus.trans h.bus
  · exact k.dma.trans h.dma
  · exact k.ram.trans h.ram
  · exact k.mem.trans h.mem
  · exact k.spr.trans h.spr
  · exact k.out.trans h.out
  · exact k.pos.trans h.pos
  · exact k.bg.trans h.bg
  · exact k.prg.trans h.prg
  · exact k.chr.trans h.chr
  · exact k.mapper.trans h.mapper
  · exact k.sink.trans h.sink
  · exact k.reset.trans h.reset

/-! ### Tables without external components (R254) -/

theorem firstCapable_own {cap : Caps → Bool} {b : List BusEntry} (h : noExternal b = true) :
    (firstCapable cap b).all Component.own = true := by
  induction b with
  | nil => rfl
  | cons e rest ih =>
    simp only [noExternal, List.all_cons, Bool.and_eq_true] at h
    unfold firstCapable
    split
    · exact h.1
    · exact ih h.2

theorem firstMatch_own {cap : Caps → Bool} {a : Addr} {b : List BusEntry} (h : noExternal b = true) :
    (firstMatch cap a b).all Component.own = true := by
  induction b with
  | nil => rfl
  | cons e rest ih =>
    simp only [noExternal, List.all_cons, Bool.and_eq_true] at h
    unfold firstMatch
    split
    · exact h.1
    · exact ih h.2

theorem plainSignals_of_noExternal {b : List BusEntry} (h : noExternal b = true) : plainSignals b = true := by
  simp only [plainSignals, firstCapable_own h, Bool.and_self]

/-- `Bus.NMI()` only sets a latch. -/
theorem busNmi_plain {x : ExtRun} {s : State} (h : plainSignals s.bus = true) :
    ∃ f, busNmiVia x s = s.mapPend f ∧ (f s.pend).reset = s.pend.reset := by
  simp only [plainSignals, Bool.and_eq_true] at h
  unfold busNmiVia
  split
  · exact ⟨_, rfl, rfl⟩
  · rename_i he
    rw [he] at h
    cases h.2
  · exact ⟨id, rfl, rfl⟩

/-- A collaborator's signal only sets a latch. -/
theorem signalIrq_plain {x : ExtRun} {s : State} (h : plainSignals s.bus = true) (b : Bool) :
    ∃ f, signalIrqVia x b s = s.mapPend f ∧ (f s.pend).reset = s.pend.reset := by
  simp only [plainSignals, Bool.and_eq_true] at h
  cases b
  · exact ⟨id, rfl, rfl⟩
  · unfold signalIrqVia busIrqVia
    rw [if_pos rfl]
    split
    · exact ⟨_, rfl, rfl⟩
    · rename_i he
      rw [he] at h
      cases h.1
    · exact ⟨id, rfl, rfl⟩

/-- What a call of the mapper leaves behind: its next state and perhaps a latch. -/
theorem afterMapper_plain {x : ExtRun} {s : State} (h : plainSignals s.bus = true) (r : Config.MapReply) :
    ∃ f, afterMapperVia x r s = (s.mapCart fun c => { c with st := r.st }).mapPend f :=
  have ⟨f, hf, _⟩ := signalIrq_plain (x := x) (s := s.mapCart fun c => { c with st := r.st }) h r.irq
  ⟨f, hf⟩

/-- What a call of the sound generator leaves behind: its next state and perhaps a latch. -/
theorem afterSound_plain {x : ExtRun} {s : State} (h : plainSignals s.bus = true) (r : Config.ExtReply) :
    ∃ f, afterSoundVia x r s = (s.setSound r.st).mapPend f :=
  have ⟨f, hf, _⟩ := signalIrq_plain (x := x) (s := s.setSound r.st) h r.irq
  ⟨f, hf⟩

section plain
variable {x : ExtRun} {s : State} (h : plainSignals s.bus = true)
include h

theorem busNmi_readsOnly : ReadsOnly s (busNmiVia x s) := by
  obtain ⟨f, hf, hr⟩ := busNmi_plain (x := x) h
  rw [hf]
  exact ⟨rfl, rfl, rfl, rfl, rfl, rfl, rfl, rfl, rfl, rfl, rfl, rfl, rfl, hr⟩

theorem signalIrq_readsOnly (b : Bool) : ReadsOnly s (signalIrqVia x b s) := by
  obtain ⟨f, hf, hr⟩ := signalIrq_plain (x := x) h b
  rw [hf]
  exact ⟨rfl, rfl, rfl, rfl, rfl, rfl, rfl, rfl, rfl, rfl, rfl, rfl, rfl, hr⟩

theorem afterMapper_readsOnly (r : Config.MapReply) : ReadsOnly s (afterMapperVia x r s) :=
  .trans (t := s.mapCart fun c => { c with st := r.st }) ⟨rfl, rfl, rfl, rfl, rfl, rfl, rfl, rfl, rfl, rfl, rfl, rfl, rfl, rfl⟩ (signalIrq_readsOnly (s := s.mapCart fun c => { c with st := r.st }) h r.irq)

theorem afterSound_readsOnly (r : Config.ExtReply) : ReadsOnly s (afterSoundVia x r s) :=
  .trans (t := s.setSound r.st) ⟨rfl, rfl, rfl, rfl, rfl, rfl, rfl, rfl, rfl, rfl, rfl, rfl, rfl, rfl⟩ (signalIrq_readsOnly (s := s.setSound r.st) h r.irq)

theorem ppuRead_readsOnly (a : PpuAddr) : ReadsOnly s (ppuReadVia x a s).2 := by
  unfold ppuReadVia
  split
  · exact afterMapper_readsOnly h _
  · split <;> exact .refl s

theorem ppuPortRead_readsOnly (a : Addr) : ReadsOnly s (ppuPortReadVia extRun a s).2 := by
  unfold ppuPortReadVia
  split
  · exact ⟨rfl, rfl, rfl, rfl, rfl, rfl, rfl, rfl, rfl, rfl, rfl, rfl, rfl, rfl⟩
  · exact ⟨rfl, rfl, rfl, rfl, rfl, rfl, rfl, rfl, rfl, rfl, rfl, rfl, rfl, rfl⟩
  · exact (ppuRead_readsOnly h s.ppu.bufferAddr).trans ⟨rfl, rfl, rfl, rfl, rfl, rfl, rfl, rfl, rfl, rfl, rfl, rfl, rfl, rfl⟩
  · exact .refl s

omit h in
theorem padsRead_readsOnly (a : Addr) (s : State) : ReadsOnly s (padsRead a s).2 := by
  simp only [padsRead]
  repeat' split
  all_goals exact ⟨rfl, rfl, rfl, rfl, rfl, rfl, rfl, rfl, rfl, rfl, rfl, rfl, rfl, rfl⟩

theorem componentRead_readsOnly {k : Component} (hk : k.own = true) (a : Addr) : ReadsOnly s (componentRead k a s).2 := by
  cases k with
  | ram => exact .refl s
  | ppu => exact ppuPortRead_readsOnly h a
  | pads => exact padsRead_readsOnly a s
  | sound => exact afterSound_readsOnly h _
  | cart => exact afterMapper_readsOnly h _
  | ext id caps => cases hk
  | cpu => exact .refl s
  | dma => exact .refl s

end plain

section external
variable {s : State} (h : noExternal s.bus = true)
include h

/-- Everything a bus read can do beside giving its byte. -/
theorem busRead_readsOnly (a : Addr) : ReadsOnly s (busRead a s).2 := by
  have hk := firstMatch_own (cap := (·.readable)) (a := a) h
  unfold busRead busReadVia
  split
  · rename_i k he
    rw [he] at hk
    exact componentRead_readsOnly (plainSignals_of_noExternal h) hk a
  · exact .refl s

theorem dummyRead_readsOnly (a : Addr) : ReadsOnly s (dummyRead a s) := by
  unfold dummyRead
  split
  · exact busRead_readsOnly h a
  · exact .refl s

omit h in
theorem mapCpu_readsOnly (g : Cpu → Cpu) (s : State) : ReadsOnly s (s.mapCpu g) :=
  ⟨rfl, rfl, rfl, rfl, rfl, rfl, rfl, rfl, rfl, rfl, rfl, rfl, rfl, rfl⟩

theorem fetchByte_readsOnly : ReadsOnly s (fetchByte s).2 := (busRead_readsOnly h _).trans (mapCpu_readsOnly _ _)

theorem readStack_readsOnly : ReadsOnly s (readStack s).2 := busRead_readsOnly h _

theorem openPull_readsOnly : ReadsOnly s (openPull s) := (dummyRead_readsOnly h _).trans (mapCpu_readsOnly _ _)

end external

/-! ### The processor stays alone -/

section alone
variable {n : Nat} {s : State} (h : cpuAlone n s = true)
include h

theorem cpuAlone_mapCpu (g : Cpu → Cpu) : cpuAlone n (s.mapCpu g) = true :=
  cpuAlone_of_graft h (cpuAlone_idle_dma h) rfl rfl rfl rfl rfl

theorem cpuAlone_busRead (a : Addr) : cpuAlone n (busRead a s).2 = true :=
  have b := busRead_blind a
  cpuAlone_of_graft h ((busRead_readsOnly (cpuAlone_noExternal h) a).dma.trans (cpuAlone_idle_dma h)) (busRead_bus a s)
    (b.cpuUnit s) (b.ppuUnit s) (b.soundUnit s) (b.schedule s)

theorem cpuAlone_dummyRead (a : Addr) : cpuAlone n (dummyRead a s) = true :=
  have b := dummyRead_blind a
  cpuAlone_of_graft h ((dummyRead_readsOnly (cpuAlone_noExternal h) a).dma.trans (cpuAlone_idle_dma h))
    (dummyRead_bus a s) (b.cpuUnit s) (b.ppuUnit s) (b.soundUnit s) (b.schedule s)

theorem cpuAlone_fetchByte : cpuAlone n (fetchByte s).2 = true := cpuAlone_mapCpu (cpuAlone_busRead h _) _

theorem cpuAlone_readStack : cpuAlone n (readStack s).2 = true := cpuAlone_busRead h _

theorem cpuAlone_openPull : cpuAlone n (openPull s) = true := cpuAlone_mapCpu (cpuAlone_dummyRead h _) _

end alone

/-- The state at T2 of an instruction, as the passing of no tick. -/
theorem start_eq_retime (i : Instr) (s : State) : start i s = retime (.inInstr (opcodeOf i) 2 {}) 0 s := rfl

end Sys2Proof.Machine
end

