-- ==== Sys2Proof/Laws/Forms.lean ====
section
/-! SUPPORT. One lemma per form: what an instruction of the form does when the processor runs alone, as one effect
with its tick count. -/

namespace Sys2Proof.Machine

/-! ### Writes keep the processor alone unless they ask for a DMA -/

theorem cpuAlone_busWrite {n : Nat} {s : State} (h : cpuAlone n s = true) (a : Addr) (v : Byte)
    (hd : (busWrite a v s).dma = .idle) : cpuAlone n (busWrite a v s) = true :=
  have b := busWrite_blind a v
  cpuAlone_of_graft h hd (busWrite_bus a v s) (b.cpuUnit s) (b.ppuUnit s) (b.soundUnit s) (b.schedule s)

/-! ### Address ticks -/

theorem cpuAlone_indexFrom {n : Nat} {s : State} (h : cpuAlone n s = true) (always : Bool) (base : Addr) (i : Byte) :
    cpuAlone n (indexFrom always base i s).state = true := by
  unfold indexFrom
  dsimp only
  split
  · exact cpuAlone_dummyRead h _
  · exact h

theorem cpuAlone_locate {n : Nat} {s : State} (h : cpuAlone n s = true) (always : Bool) (m : Mode) :
    cpuAlone n (locate always m s).state = true := by
  have hf := cpuAlone_fetchByte h
  cases m with
  | zp => exact hf
  | zpx => exact cpuAlone_dummyRead hf _
  | zpy => exact cpuAlone_dummyRead hf _
  | abs => exact cpuAlone_fetchByte hf
  | absx => exact cpuAlone_indexFrom (cpuAlone_fetchByte hf) _ _ _
  | absy => exact cpuAlone_indexFrom (cpuAlone_fetchByte hf) _ _ _
  | indx => exact cpuAlone_busRead (cpuAlone_busRead (cpuAlone_dummyRead hf _) _) _
  | indy => exact cpuAlone_indexFrom (cpuAlone_busRead (cpuAlone_busRead hf _) _) _ _ _
  | imp => exact h
  | acc => exact h
  | imm => exact h
  | ind => exact h
  | rel => exact h

/-! ### The read form -/

theorem readOrCorrect_more (op : ReadOp) {lat : Lat} (s : State) (h : lat.crossed = true) :
    (readOrCorrect op).act lat s = .more lat (dummyRead lat.partialAddr s) := by
  show (if lat.crossed = true then _ else _) = _
  rw [if_pos h]

theorem readOrCorrect_done (op : ReadOp) {lat : Lat} (s : State) (h : lat.crossed = false) :
    (readOrCorrect op).act lat s = .done ((busRead lat.ea s).2.mapCpu (op (busRead lat.ea s).1)) := by
  show (if lat.crossed = true then _ else _) = _
  rw [if_neg (by simp [h])]; rfl

/-- The data ticks of an indexed read: one, or two when the page was crossed. -/
theorem alone_readOrCorrect {T : Table} {op : ReadOp} (hT : T.timeless) (k : Nat)
    (h0 : T[k - 2]? = some (readOrCorrect op)) (h1 : T[k + 1 - 2]? = some (readOperand op)) {s : State}
    (h : cpuAlone 8 s = true) {j f : Nat} (hj : j < 6) (base : Addr) (i : Byte) (lat : Lat) (o : Byte) :
    runTicks T (f + 2) (retime (.inInstr o k (lat.indexed base i)) j s) =
      .next (retime .boundary (j + 1 + bitNat (indexFrom false base i s).crossed)
        ((busRead (indexFrom false base i s).ea (indexFrom false base i s).state).2.mapCpu
          (op (busRead (indexFrom false base i s).ea (indexFrom false base i s).state).1))) := by
  cases hc : (lat.indexed base i).crossed
  · refine (alone_done hT h (by omega) h0 (readOrCorrect_done op s hc)).trans ?_
    have hc' : (hiByte (base + zext i) != hiByte base) = false := hc
    simp only [indexFrom, hc', Bool.or_false]
    rfl
  · refine (alone_more hT h (by omega) h0 (readOrCorrect_more op s hc)).trans ?_
    refine (alone_done hT (cpuAlone_dummyRead h _) (by omega) h1 rfl).trans ?_
    have hc' : (hiByte (base + zext i) != hiByte base) = true := hc
    simp only [indexFrom, hc', Bool.or_true]
    rfl

/-- The ticks after T1 of a read-form instruction (R161). -/
def readTicksAfterFetch (m : Mode) (crossed : Bool) : Nat :=
  readTickCount m - 1 + bitNat ((m == .absx || m == .absy || m == .indy) && crossed)

/-- A read-form instruction with the processor alone: its operand is read and its operation run (R283, R292-R298). -/
theorem run_readForm {i : Instr} {m : Mode} {op : ReadOp} (hw : i.wf = true) (hm : m ∈ readModes ∨ m = .zpy)
    (hop : ∀ v, timelessOp (op v)) {s : State} (h : cpuAlone 8 s = true) :
    run i (readForm m op) s = .next (finish (readTicksAfterFetch m (operand m s).crossed)
      ((operand m s).state.mapCpu (op (operand m s).value))) := by
  have hT := readForm_timeless m hop
  unfold run
  rw [if_pos hw, start_eq_retime]
  have hf := cpuAlone_fetchByte h
  have hff := cpuAlone_fetchByte hf
  have hd (a : Addr) := cpuAlone_dummyRead hf a
  cases m <;> simp [readModes] at hm
  case imm => exact alone_done hT h (by omega) rfl rfl
  case zp => exact (alone_more hT h (by omega) rfl rfl).trans <| alone_done hT hf (by omega) rfl rfl
  case zpx =>
    exact (alone_more hT h (by omega) rfl rfl).trans <| (alone_more hT hf (by omega) rfl rfl).trans <|
      alone_done hT (hd _) (by omega) rfl rfl
  case zpy =>
    exact (alone_more hT h (by omega) rfl rfl).trans <| (alone_more hT hf (by omega) rfl rfl).trans <|
      alone_done hT (hd _) (by omega) rfl rfl
  case abs =>
    exact (alone_more hT h (by omega) rfl rfl).trans <| (alone_more hT hf (by omega) rfl rfl).trans <|
      alone_done hT hff (by omega) rfl rfl
  case indx =>
    exact (alone_more hT h (by omega) rfl rfl).trans <| (alone_more hT hf (by omega) rfl rfl).trans <|
      (alone_more hT (hd _) (by omega) rfl rfl).trans <|
      (alone_more hT (cpuAlone_busRead (hd _) _) (by omega) rfl rfl).trans <|
      alone_done hT (cpuAlone_busRead (cpuAlone_busRead (hd _) _) _) (by omega) rfl rfl
  case absx =>
    exact (alone_more hT h (by omega) rfl rfl).trans <| (alone_more hT hf (by omega) rfl rfl).trans <|
      alone_readOrCorrect hT 4 rfl rfl hff (by omega) _ _ _ _
  case absy =>
    exact (alone_more hT h (by omega) rfl rfl).trans <| (alone_more hT hf (by omega) rfl rfl).trans <|
      alone_readOrCorrect hT 4 rfl rfl hff (by omega) _ _ _ _
  case indy =>
    exact (alone_more hT h (by omega) rfl rfl).trans <| (alone_more hT hf (by omega) rfl rfl).trans <|
      (alone_more hT (cpuAlone_busRead hf _) (by omega) rfl rfl).trans <|
      alone_readOrCorrect hT 5 rfl rfl (cpuAlone_busRead (cpuAlone_busRead hf _) _) (by omega) _ _ _ _

/-! ### The write form -/

/-- A store with the processor alone: the value goes to the located address (R283, R293-R298). -/
theorem run_writeForm {i : Instr} {m : Mode} {val : Cpu → Byte} (hw : i.wf = true)
    (hm : m ∈ [Mode.indx, .zp, .abs, .indy, .zpx, .zpy, .absy, .absx]) (hv : timelessVal val) {s : State}
    (h : cpuAlone 8 s = true) :
    run i (writeForm m val) s = .next (finish (writeTickCount m - 1)
      (busWrite (locate true m s).ea (val (locate true m s).state.cpu) (locate true m s).state)) := by
  have hT := writeForm_timeless m hv
  unfold run
  rw [if_pos hw, start_eq_retime]
  have hf := cpuAlone_fetchByte h
  have hff := cpuAlone_fetchByte hf
  have hd (a : Addr) := cpuAlone_dummyRead hf a
  have hb (a : Addr) := cpuAlone_busRead hf a
  cases m <;> simp at hm
  case zp => exact (alone_more hT h (by omega) rfl rfl).trans <| alone_done hT hf (by omega) rfl rfl
  case zpx =>
    exact (alone_more hT h (by omega) rfl rfl).trans <| (alone_more hT hf (by omega) rfl rfl).trans <|
      alone_done hT (hd _) (by omega) rfl rfl
  case zpy =>
    exact (alone_more hT h (by omega) rfl rfl).trans <| (alone_more hT hf (by omega) rfl rfl).trans <|
      alone_done hT (hd _) (by omega) rfl rfl
  case abs =>
    exact (alone_more hT h (by omega) rfl rfl).trans <| (alone_more hT hf (by omega) rfl rfl).trans <|
      alone_done hT hff (by omega) rfl rfl
  case absx =>
    exact (alone_more hT h (by omega) rfl rfl).trans <| (alone_more hT hf (by omega) rfl rfl).trans <|
      (alone_more hT hff (by omega) rfl rfl).trans <| alone_done hT (cpuAlone_dummyRead hff _) (by omega) rfl rfl
  case absy =>
    exact (alone_more hT h (by omega) rfl rfl).trans <| (alone_more hT hf (by omega) rfl rfl).trans <|
      (alone_more hT hff (by omega) rfl rfl).trans <| alone_done hT (cpuAlone_dummyRead hff _) (by omega) rfl rfl
  case indx =>
    exact (alone_more hT h (by omega) rfl rfl).trans <| (alone_more hT hf (by omega) rfl rfl).trans <|
      (alone_more hT (hd _) (by omega) rfl rfl).trans <|
      (alone_more hT (cpuAlone_busRead (hd _) _) (by omega) rfl rfl).trans <|
      alone_done hT (cpuAlone_busRead (cpuAlone_busRead (hd _) _) _) (by omega) rfl rfl
  case indy =>
    exact (alone_more hT h (by omega) rfl rfl).trans <| (alone_more hT hf (by omega) rfl rfl).trans <|
      (alone_more hT (hb _) (by omega) rfl rfl).trans <|
      (alone_more hT (cpuAlone_busRead (hb _) _) (by omega) rfl rfl).trans <|
      alone_done hT (cpuAlone_dummyRead (cpuAlone_busRead (hb _) _) _) (by omega) rfl rfl

/-! ### The read-modify-write form -/

/-- No bus operation starts a DMA by itself: it asks for one at most. -/
theorem notActive_closed : Closed fun s t => (∀ p k d, s.dma ≠ .active p k d) → ∀ p k d, t.dma ≠ .active p k d := by
  refine .of ?_ fun _ _ h => h
  constructor
  case refl => exact fun _ h => h
  case trans => exact fun h k => k ∘ h
  case dma =>
    intro v s h
    unfold dmaWrite
    cases hd : s.dma with
    | active p k d => exact absurd hd (h p k d)
    | idle => intro p k d; simp
    | requested q => intro p k d; simp
  case idle => intros; simp
  all_goals first
    | exact fun _ h => h
    | exact fun _ _ h => h
    | exact fun _ _ _ h => h

theorem ppuWrite_dma (a : PpuAddr) (v : Byte) {s : State} (h : plainSignals s.bus = true) : (ppuWrite a v s).dma = s.dma := by
  unfold ppuWrite ppuWriteVia
  split
  · unfold patternWriteVia
    dsimp only
    split
    · exact (afterMapper_readsOnly (s := s.mapCart _) h _).dma
    · exact (afterMapper_readsOnly h _).dma
  · split <;> rfl

theorem ppuPortWrite_dma (a : Addr) (d : Byte) {s : State} (h : plainSignals s.bus = true) :
    (ppuPortWriteVia extRun a d s).dma = s.dma := by
  unfold ppuPortWriteVia
  dsimp only
  split
  · unfold writeControlVia
    dsimp only
    split
    · exact (busNmi_readsOnly (x := extRun) (s := (s.mapPpu _).mapPpu _) h).dma
    · rfl
  · rfl
  · rfl
  · rfl
  · rfl
  · rfl
  · exact ppuWrite_dma _ _ (s := s.mapPpu _) h
  · rfl

/-- A component's write touches the DMA state only at the DMA trigger. -/
theorem componentWrite_dma {k : Component} (ho : k.own = true) (hk : k ≠ .dma) (a : Addr) (v : Byte) {s : State}
    (h : plainSignals s.bus = true) : (componentWrite k a v s).dma = s.dma := by
  cases k with
  | ram => rfl
  | ppu => exact ppuPortWrite_dma a v h
  | pads => show (padsWrite a v s).dma = _; unfold padsWrite; split <;> rfl
  | sound => exact (afterSound_readsOnly h _).dma
  | cart =>
    show (cartWriteVia extRun a v s).dma = _
    unfold cartWriteVia
    dsimp only
    split
    · exact (afterMapper_readsOnly (s := s.mapCart _) h _).dma
    · exact (afterMapper_readsOnly h _).dma
  | ext id caps => cases ho
  | cpu => rfl
  | dma => exact absurd rfl hk

/-- A write that no DMA trigger covers leaves the DMA state alone. -/
theorem writeMatches_dma (a : Addr) (v : Byte) (b : List BusEntry) {s : State} (h : plainSignals s.bus = true)
    (ho : noExternal b = true) (hb : ∀ e ∈ b, e.component = .dma → e.covers a = false) :
    (writeMatchesVia extRun a v b s).dma = s.dma := by
  induction b generalizing s with
  | nil => rfl
  | cons e rest ih =>
    simp only [noExternal, List.all_cons, Bool.and_eq_true] at ho
    have hr : ∀ e ∈ rest, e.component = .dma → e.covers a = false := fun e he => hb e (List.mem_cons_of_mem _ he)
    simp only [writeMatchesVia]
    by_cases hc : e.covers a && e.component.caps.writable
    · rw [if_pos hc, ih (by rw [show (componentWriteVia extRun e.component a v s).bus = s.bus from componentWrite_bus _ a v s]; exact h) ho.2 hr]
      refine componentWrite_dma ho.1 ?_ a v h
      intro hd
      have := hb e List.mem_cons_self hd
      simp [this] at hc
    · rw [if_neg hc]; exact ih h ho.2 hr

theorem dummyWrite_notActive (a : Addr) (v : Byte) (s : State) (h : ∀ p k d, s.dma ≠ .active p k d) :
    ∀ p k d, (dummyWrite a v s).dma ≠ .active p k d := notActive_closed.dummyWrite a v s h

/-- The three data ticks of a read-modify-write instruction: a DMA that the write-back asks for waits for the second
write (R341). -/
theorem alone_rmwTicks {T : Table} {mod : ModOp} (hT : T.timeless) (k : Nat) (h0 : T[k - 2]? = some loadData)
    (h1 : T[k + 1 - 2]? = some (modifyData mod)) (h2 : T[k + 1 + 1 - 2]? = some storeData) {s : State}
    (h : cpuAlone 8 s = true) {j f : Nat} (hj : j < 5) (lat : Lat) (o : Byte) :
    runTicks T (f + 3) (retime (.inInstr o k lat) j s) =
      .next (retime .boundary (j + 3) (modifyAt mod lat.ea s)) := by
  have hr := cpuAlone_busRead h lat.ea
  have hidle : (busRead lat.ea s).2.dma = .idle := ((cpuAlone_iff _ _).mp hr).2.1
  refine (alone_more hT h (by omega) h0 rfl).trans ?_
  refine (alone_more hT hr (by omega) h1 rfl).trans ?_
  have hb := dummyWrite_blind lat.ea (busRead lat.ea s).1
  refine (still_done hT (othersStill_of_graft (t := State.mapCpu _ (dummyWrite lat.ea (busRead lat.ea s).1 (busRead lat.ea s).2)) (othersStill_of_cpuAlone hr) ?_ ?_ ?_ ?_) ?_ (by omega) h2 rfl).trans ?_
  · exact hb.cpuUnit _
  · exact hb.ppuUnit _
  · exact hb.soundUnit _
  · exact hb.schedule _
  · have hna := dummyWrite_notActive lat.ea (busRead lat.ea s).1 (busRead lat.ea s).2 (by simp [hidle])
    have hw : tickWrites T (k + 1 + 1 - 2) = true := by simp only [tickWrites, h2]; rfl
    unfold engineRuns
    show (dummyWrite lat.ea (busRead lat.ea s).1 (busRead lat.ea s).2).dma = _ ∨ _
    cases hdm : (dummyWrite lat.ea (busRead lat.ea s).1 (busRead lat.ea s).2).dma with
    | idle => exact .inl rfl
    | requested p => exact .inr ⟨⟨p, hdm⟩, hw⟩
    | active p k d => exact absurd hdm (hna p k d)
  · rfl

/-- A read-modify-write instruction on memory with the processor alone (R283, R293-R296). -/
theorem run_rmwForm {i : Instr} {m : Mode} {mod : ModOp} (hw : i.wf = true) (hm : m ∈ rmwModes)
    (hv : timelessMod mod) {s : State} (h : cpuAlone 8 s = true) :
    run i (rmwForm m mod) s = .next (finish (rmwTickCount m - 1)
      (modifyAt mod (locate true m s).ea (locate true m s).state)) := by
  have hT := rmwForm_timeless m hv
  unfold run
  rw [if_pos hw, start_eq_retime]
  have hf := cpuAlone_fetchByte h
  have hff := cpuAlone_fetchByte hf
  cases m <;> simp [rmwModes] at hm
  case zp => exact (alone_more hT h (by omega) rfl rfl).trans <| alone_rmwTicks hT 3 rfl rfl rfl hf (by omega) _ _
  case zpx =>
    exact (alone_more hT h (by omega) rfl rfl).trans <| (alone_more hT hf (by omega) rfl rfl).trans <|
      alone_rmwTicks hT 4 rfl rfl rfl (cpuAlone_dummyRead hf _) (by omega) _ _
  case abs =>
    exact (alone_more hT h (by omega) rfl rfl).trans <| (alone_more hT hf (by omega) rfl rfl).trans <|
      alone_rmwTicks hT 4 rfl rfl rfl hff (by omega) _ _
  case absx =>
    exact (alone_more hT h (by omega) rfl rfl).trans <| (alone_more hT hf (by omega) rfl rfl).trans <|
      (alone_more hT hff (by omega) rfl rfl).trans <|
      alone_rmwTicks hT 5 rfl rfl rfl (cpuAlone_dummyRead hff _) (by omega) _ _

/-! ### The register forms -/

/-- An implied instruction with the processor alone (R291). -/
theorem run_impliedForm {i : Instr} {op : Cpu → Cpu} (hw : i.wf = true) (ho : timelessOp op) {s : State}
    (h : cpuAlone 8 s = true) : run i (impliedForm op) s = .next (finish 1 ((idle s).mapCpu op)) := by
  unfold run
  rw [if_pos hw, start_eq_retime]
  exact alone_done (impliedForm_timeless ho) h (by omega) rfl rfl

/-- An accumulator instruction with the processor alone (R291). -/
theorem run_accumulatorForm {i : Instr} {mod : ModOp} (hw : i.wf = true) (ho : timelessMod mod) {s : State}
    (h : cpuAlone 8 s = true) :
    run i (rmwForm .acc mod) s = .next (finish 1 ((idle s).mapCpu fun c => (mod c.a c).2.setA (mod c.a c).1)) := by
  unfold run
  rw [if_pos hw, start_eq_retime]
  exact alone_done (accumulatorForm_timeless ho) h (by omega) rfl rfl

end Sys2Proof.Machine
end

