-- ==== Sys2Proof/Laws/Shapes.lean ====
section
/-! SUPPORT. What each shape of instruction comes to with the processor alone, and the tick tables of the stack, jump and branch forms (spec/42_cpu_engine.md R283-R300; spec/45_cpu_control.md). -/

set_option maxRecDepth 100000

namespace Sys2Proof.Machine

theorem readsOperand_of {mk : Mode → Instr} {op op' : Byte → Cpu → Cpu}
    (he : ∀ m s, exec (mk m) s = run (mk m) (readForm m op) s)
    (hop : ∀ v, timelessOp (op v)) (heq : ∀ v c, op v c = op' v c)
    (hm : ∀ m, (mk m).wf = true → (m ∈ readModes ∨ m = .zpy) ∧ ∀ b, readTicksAfterFetch m b = tickCount (mk m) b - 1) :
    readsOperand mk op' := by
  intro m s hw h
  rw [he, run_readForm hw (hm m hw).1 hop h, (hm m hw).2]
  have : op (operand m s).value = op' (operand m s).value := funext (heq _)
  rw [this]

theorem mapCpu_mapCpu (f g : Cpu → Cpu) (s : State) : (s.mapCpu f).mapCpu g = s.mapCpu fun c => g (f c) := rfl

theorem join_one (v : Byte) : join 1 v = 0x0100 + zext v := by revert v; decide

theorem indexFrom_cpu (al b i s) : (indexFrom al b i s).state.cpu = s.cpu := by
  unfold indexFrom; dsimp only; split <;> simp

theorem locate_regs (al : Bool) (m : Mode) (s : State) : (locate al m s).state.cpu.a = s.cpu.a ∧ (locate al m s).state.cpu.x = s.cpu.x ∧ (locate al m s).state.cpu.y = s.cpu.y := by
  cases m <;> simp [locate, fetchByte, fetchWord, readPointer, indexFrom_cpu] <;> simp [Cpu.incPc, Cpu.setPc]

theorem storesOperand_of {mk : Mode → Instr} {val : Cpu → Byte}
    (he : ∀ m s, exec (mk m) s = run (mk m) (writeForm m val) s) (hv : timelessVal val)
    (hr : ∀ al m s, val (locate al m s).state.cpu = val s.cpu)
    (hm : ∀ m, (mk m).wf = true → (m ∈ [Mode.indx, .zp, .abs, .indy, .zpx, .zpy, .absy, .absx]) ∧ writeTickCount m = (mk m).baseTicks) :
    storesByte mk val := by
  intro m s hw h
  rw [he, run_writeForm hw (hm m hw).1 hv h, (hm m hw).2, hr]

theorem registerOnly_of {i : Instr} {op op' : Cpu → Cpu} (he : ∀ s, exec i s = run i (impliedForm op) s) (hw : i.wf = true) (ho : timelessOp op)
    (heq : ∀ c, op c = op' c) : changesRegisters i op' := by
  intro s h
  rw [he, run_impliedForm hw ho h, show op = op' from funext heq]

theorem modifiesOperand_of {mk : Mode → Instr} {mod mod' : ModOp} (he : ∀ m s, exec (mk m) s = run (mk m) (rmwForm m mod) s)
    (hv : timelessMod mod) (heq : ∀ v c, mod v c = mod' v c)
    (hm : ∀ m, (mk m).wf = true → m ≠ .acc → m ∈ rmwModes ∧ rmwTickCount m = (mk m).baseTicks) : modifiesMemory mk mod' := by
  intro m s hw hacc h
  rw [he, run_rmwForm hw (hm m hw hacc).1 hv h, (hm m hw hacc).2, show mod = mod' from funext fun v => funext fun c => heq v c]

theorem modifiesA_of {i : Instr} {mod : ModOp} {op : Cpu → Cpu} (he : ∀ s, exec i s = run i (rmwForm .acc mod) s) (hw : i.wf = true)
    (ho : timelessMod mod) (heq : ∀ c, (mod c.a c).2.setA (mod c.a c).1 = op c) : changesRegisters i op := by
  intro s h
  rw [he, run_accumulatorForm hw ho h, show (fun c => (mod c.a c).2.setA (mod c.a c).1) = op from funext heq]

theorem run_wf {i T s} (hw : Instr.wf i = true) : run i T s = runTicks T tickBudget (retime (.inInstr (opcodeOf i) 2 {}) 0 s) := by unfold run; rw [if_pos hw, start_eq_retime]

theorem Table.timeless_of {T : Table} (h : ∀ k ∈ T, Tick.timeless k) : T.timeless := h

theorem phaTicks_timeless : Table.timeless phaTicks := timeless_cons idleRead_timeless (timeless_cons ⟨by intros; simp only [push_retime, retime_a, TickEnd.map], by intros; simp [TickEnd.state]⟩ timeless_nil)

theorem phpTicks_timeless : Table.timeless phpTicks := timeless_cons idleRead_timeless (timeless_cons ⟨by intros; simp only [push_retime, retime_p, TickEnd.map], by intros; simp [TickEnd.state]⟩ timeless_nil)

theorem openPull_tick_timeless : Tick.timeless ⟨false, fun lat s => .more lat (openPull s)⟩ := ⟨by intros; simp only [openPull_retime, TickEnd.map], by intros; simp [TickEnd.state]⟩

theorem plaTicks_timeless : Table.timeless plaTicks := timeless_cons idleRead_timeless (timeless_cons openPull_tick_timeless (timeless_cons ⟨by intros; simp only [readStack_retime, TickEnd.map]; rfl, by intros; simp [TickEnd.state]; try rfl⟩ timeless_nil))

theorem plpTicks_timeless : Table.timeless plpTicks := timeless_cons idleRead_timeless (timeless_cons openPull_tick_timeless (timeless_cons ⟨by intros; simp only [readStack_retime, TickEnd.map]; rfl, by intros; simp [TickEnd.state]; try rfl⟩ timeless_nil))

theorem idle_cpu (s : State) : (idle s).cpu = s.cpu := by simp [idle]

theorem cpuAlone_idle {n s} (h : cpuAlone n s = true) : cpuAlone n (idle s) = true := cpuAlone_dummyRead h _

theorem mapCpu_id (s : State) : s.mapCpu (fun c => c) = s := rfl

theorem branchesIf_of {i : Instr} {c c' : Byte → Bool} (he : ∀ s, exec i s = run i (branchForm c) s) (hw : i.wf = true) (heq : ∀ p, c p = c' p) : branchesIf i c' := by
  obtain rfl : c = c' := funext heq
  intro s h
  rw [he]
  have hT := branchForm_timeless c
  rw [run_wf hw]
  have hf := cpuAlone_fetchByte h
  have hp : (fetchByte s).2.cpu.p = s.cpu.p := by simp [fetchByte, Cpu.incPc, Cpu.setPc]
  try dsimp only
  cases hc : c s.cpu.p
  · rw [if_pos rfl]
    exact (alone_done hT h (by omega) rfl (by dsimp only; rw [hp, hc]; rfl))
  · rw [if_neg (by simp)]
    refine (alone_more hT h (by omega) rfl (by dsimp only; rw [hp, hc]; rfl)).trans ?_
    have hpc : (idle (fetchByte s).2).cpu.pc = (fetchByte s).2.cpu.pc := by rw [idle_cpu]
    by_cases hx : hiByte ((fetchByte s).2.cpu.pc + sext (fetchByte s).1) = hiByte (fetchByte s).2.cpu.pc
    · rw [if_pos hx]
      refine alone_done hT hf (by omega) rfl ?_
      show (if (hiByte ((idle (fetchByte s).2).cpu.pc + sext (fetchByte s).1) != hiByte (idle (fetchByte s).2).cpu.pc) = true then _ else _) = _
      rw [hpc, if_neg (by simp [hx])]; simp only [dummyRead_cpu]; rfl
    · rw [if_neg hx]
      refine (alone_more hT hf (by omega) rfl (lat' := { off := (fetchByte s).1, ea := (fetchByte s).2.cpu.pc + sext (fetchByte s).1, crossed := true }) (u := idle (fetchByte s).2) ?_).trans ?_
      · show (if (hiByte ((idle (fetchByte s).2).cpu.pc + sext (fetchByte s).1) != hiByte (idle (fetchByte s).2).cpu.pc) = true then _ else _) = _
        rw [hpc, if_pos (by simp [hx])]; simp only [dummyRead_cpu]; rfl
      · refine (alone_done hT (cpuAlone_idle hf) (by omega) rfl rfl).trans ?_
        simp only [hpc]; rfl

theorem stack_cover {T : List BusEntry} (h : dmaOffStack T = true) (sp : Byte) :
    ∀ e ∈ T, e.component = .dma → e.covers (join 1 sp) = false := by
  intro e he hd
  have := List.all_eq_true.mp h e he
  rw [hd] at this
  unfold BusEntry.covers
  have h1 : 256 ≤ (join 1 sp).toNat ∧ (join 1 sp).toNat ≤ 511 := by revert sp; decide
  cases hr : e.range with
  | none => rfl
  | some r =>
    obtain ⟨lo, hi⟩ := r
    rw [hr] at this
    simp only [bne_self_eq_false, Bool.false_or, Bool.or_eq_true, decide_eq_true_eq, BitVec.lt_def] at this
    have e1 : (0x01FF : Addr).toNat = 511 := rfl
    have e2 : (0x0100 : Addr).toNat = 256 := rfl
    rw [e1, e2] at this
    simp only [Bool.and_eq_false_iff, decide_eq_false_iff_not, BitVec.le_def]
    omega

theorem cpuAlone_push {n s} (h : cpuAlone n s = true) (hd : dmaOffStack s.bus = true) (v) : cpuAlone n (push v s) = true := by
  refine cpuAlone_mapCpu (cpuAlone_busWrite h _ _ ?_) _
  have he := cpuAlone_noExternal h
  exact (writeMatches_dma _ v s.bus (plainSignals_of_noExternal he) he (stack_cover hd s.cpu.sp)).trans (cpuAlone_idle_dma h)

theorem rtiTicks_timeless : Table.timeless rtiTicks := timeless_cons idleRead_timeless returnFromInterrupt_timeless

theorem rtsTicks_timeless : Table.timeless rtsTicks := by
  refine timeless_cons idleRead_timeless (timeless_cons openPull_tick_timeless (timeless_cons ?_ (timeless_cons ?_ (timeless_cons ?_ timeless_nil))))
  all_goals
    refine ⟨?_, ?_⟩ <;> intros <;> simp [readStack_retime, dummyRead_retime, mapCpu_retime timelessOp_incSp, mapCpu_retime timelessOp_incPc,  mapCpu_retime (timelessOp_setPc _), TickEnd.map, TickEnd.state]

theorem jmpAbsTicks_timeless : Table.timeless jmpAbsTicks := by
  refine timeless_cons fetchLo_timeless (timeless_cons ?_ timeless_nil)
  refine ⟨?_, ?_⟩ <;> intros <;> simp [busRead_retime,  mapCpu_retime (timelessOp_setPc _), TickEnd.map, TickEnd.state]

theorem jmpIndTicks_timeless : Table.timeless jmpIndTicks := by
  refine timeless_cons fetchLo_timeless (timeless_cons fetchHi_timeless (timeless_cons ?_ (timeless_cons ?_ timeless_nil)))
  all_goals refine ⟨?_, ?_⟩ <;> intros <;> simp [busRead_retime,  mapCpu_retime (timelessOp_setPc _), TickEnd.map, TickEnd.state]

theorem jsrTicks_timeless : Table.timeless jsrTicks := by
  refine timeless_cons fetchLo_timeless (timeless_cons ?_ (timeless_cons ?_ (timeless_cons ?_ (timeless_cons ?_ timeless_nil))))
  all_goals refine ⟨?_, ?_⟩ <;> intros <;> simp [stackAddr, dummyRead_retime, push_retime, busRead_retime,  mapCpu_retime (timelessOp_setPc _), TickEnd.map, TickEnd.state]

theorem brkTicks_timeless : Table.timeless brkTicks := by
  refine timeless_cons ?_ (takeInterrupt_timeless _)
  refine ⟨?_, ?_⟩ <;> intros <;> simp [dummyRead_retime, mapCpu_retime timelessOp_incPc, TickEnd.map, TickEnd.state]

theorem push_bus (v s) : (push v s).bus = s.bus := busWrite_bus _ _ _

theorem fetchByte_bus (s) : (fetchByte s).2.bus = s.bus := busRead_bus _ s

theorem hi_join (a b : Byte) : hiByte (join a b) = a := by
  apply BitVec.eq_of_getLsbD_eq; intro i hi
  simp only [hiByte, join, BitVec.getLsbD_extractLsb', hi, decide_true, Bool.true_and]
  rw [show (a ++ b : BitVec 16) = (a ++ b : BitVec (8+8)) from rfl, BitVec.getLsbD_append, if_neg (by omega)]
  congr 1; omega

theorem lo_join (a b : Byte) : loByte (join a b) = b := by
  apply BitVec.eq_of_getLsbD_eq; intro i hi
  simp only [loByte, join, BitVec.getLsbD_extractLsb', hi, decide_true, Bool.true_and]
  rw [show (a ++ b : BitVec 16) = (a ++ b : BitVec (8+8)) from rfl, BitVec.getLsbD_append, if_pos (by omega)]
  congr 1; omega

theorem join_hilo (v : Addr) : join (hiByte v) (loByte v) = v := by
  apply BitVec.eq_of_getLsbD_eq; intro i hi
  simp only [hiByte, loByte, join]
  rw [show (v.extractLsb' 8 8 ++ v.extractLsb' 0 8 : BitVec 16) = (v.extractLsb' 8 8 ++ v.extractLsb' 0 8 : BitVec (8+8)) from rfl, BitVec.getLsbD_append]
  split
  · simp [*]
  · simp only [BitVec.getLsbD_extractLsb']
    rw [decide_eq_true (by omega), Bool.true_and]; congr 1; omega

end Sys2Proof.Machine
end

