-- ==== Sys2Proof/Laws/Alone.lean ====
section
/-! SUPPORT. The first tick of a step, and the interrupt and reset sequences, with the processor alone (spec/42_cpu_engine.md R280-R282, R330, R335). -/

set_option maxRecDepth 100000

namespace Sys2Proof.Machine

theorem ticked (s : State) : (consume .cpu s).mapCpu Cpu.tick = retime s.cpu.eng 1 s := rfl

theorem handler_boundary {T : Table} {s : State} (hd : s.dma = .idle) (he : s.cpu.eng = .boundary) : cpuHandler T (consume .cpu s) = boundaryTick (retime .boundary 1 s) := by
  unfold cpuHandler
  dsimp only
  rw [ticked, he]
  have : (retime .boundary 1 s).dma = .idle := hd
  rw [this]
  rfl

theorem handler_fetchNext {T : Table} {s : State} (hd : s.dma = .idle) (he : s.cpu.eng = .fetchNext) : cpuHandler T (consume .cpu s) = fetchOpcode (retime .fetchNext 1 s) := by
  unfold cpuHandler
  dsimp only
  rw [ticked, he]
  have : (retime .fetchNext 1 s).dma = .idle := hd
  rw [this]
  rfl

theorem peek_fetch (s : State) : (fetchByte s).1 = peek s.cpu.pc s := rfl

theorem fetchOpcode_retime (e) (s : State) (hr : runnable s (peek s.cpu.pc s) = true) : fetchOpcode (retime e 1 s) = .next (opcodeFetched s) := by
  unfold fetchOpcode
  dsimp only
  rw [fetchByte_retime]
  dsimp only
  rw [if_neg]
  · rfl
  · rintro ⟨h1, h2⟩
    unfold runnable at hr
    have h1' : s.params.unassigned = .refuse := h1
    rw [h1', ← peek_fetch, h2] at hr
    cases hr

theorem boundaryTick_none {s : State} (h : noneTaken s = true) : boundaryTick s = fetchOpcode s := by
  rw [noneTaken] at h
  simp only [Bool.and_eq_true, Bool.not_eq_true'] at h
  unfold boundaryTick
  simp [h.1.1, h.1.2, h.2]

theorem first_tick {s : State} (he : s.cpu.eng = .boundary ∧ noneTaken s = true ∨ s.cpu.eng = .fetchNext) (ha : cpuAlone 9 s = true) (T : Table) :
    cpuTick T s = undone s (fetchOpcode (retime s.cpu.eng 1 s)) := by
  rw [cpuTick_alone T (n := 8) ha]
  have hd := ((cpuAlone_iff _ _).mp ha).2.1
  rcases he with ⟨he, hn⟩ | he
  · rw [handler_boundary hd he, boundaryTick_none, he]; exact hn
  · rw [handler_fetchNext hd he, he]

/-- Fetching the opcode spends one of the ticks the processor has alone. -/
theorem cpuAlone_opcodeFetched {n s} (h : cpuAlone (n+1) s = true) : cpuAlone n (opcodeFetched s) = true := by
  have := cpuAlone_fetchByte h
  rw [cpuAlone_iff] at this ⊢
  have e : (opcodeFetched s).cpuUnit.owed = (fetchByte s).2.cpuUnit.owed - 1 := rfl
  refine ⟨this.1, this.2.1, by rw [e]; omega, this.2.2.2.1, this.2.2.2.2.1, this.2.2.2.2.2.1, this.2.2.2.2.2.2⟩

theorem opcodeFetched_bus (s) : (opcodeFetched s).bus = s.bus := fetchByte_bus s

theorem interruptTable_timeless : Table.timeless interruptTable := timeless_cons idleRead_timeless (timeless_cons idleRead_timeless (takeInterrupt_timeless _))

theorem resetTable_timeless : Table.timeless resetTable := by
  refine timeless_cons ⟨fun _ _ _ _ => rfl, fun _ _ => rfl⟩ (timeless_cons emptyTick_timeless (timeless_cons emptyTick_timeless (timeless_cons emptyTick_timeless (timeless_cons emptyTick_timeless (timeless_cons emptyTick_timeless (timeless_cons ?_ (timeless_cons ?_ timeless_nil)))))))
  all_goals refine ⟨?_, ?_⟩ <;> intros <;> simp [busRead_retime,  mapCpu_retime (timelessOp_setPc _), TickEnd.map, TickEnd.state]

theorem sequence_timeless (k : Sequence) : Table.timeless k.table := by cases k; exact resetTable_timeless; exact interruptTable_timeless; exact interruptTable_timeless

theorem seqTick_retime (kind : Sequence) (k j lat e) (s : State) : seqTick kind k lat (retime e j s) =
      (match runTick kind.table (k - 1) lat s with
        | .more lat' t => retime (.inSeq kind (k + 1) lat') j t
        | .done t => retime .fetchNext j t) := by
  unfold seqTick
  rw [runTick_timeless (sequence_timeless kind)]
  cases runTick kind.table (k - 1) lat s <;> rfl

theorem handler_inSeq {T : Table} (kind k j lat) {s : State} (hd : s.dma = .idle) : cpuHandler T (consume .cpu (retime (.inSeq kind k lat) j s)) =
      .next (match runTick kind.table (k - 1) lat s with
        | .more lat' t => retime (.inSeq kind (k + 1) lat') (j + 1) t
        | .done t => retime .fetchNext (j + 1) t) := by
  have h1 : (consume .cpu (retime (.inSeq kind k lat) j s)).mapCpu Cpu.tick = retime (.inSeq kind k lat) (j + 1) s := by
    rw [ticked]; rw [retime_retime]; rfl
  unfold cpuHandler
  dsimp only
  rw [h1]
  have : (retime (.inSeq kind k lat) (j+1) s).dma = .idle := hd
  rw [this]
  dsimp only
  rw [engineTick]
  simp only [retime_eng]
  rw [seqTick_retime]

theorem seq_more {N : Nat} {s u : State} (h : cpuAlone N s = true) {kind : Sequence} {k j f lat lat'} {t : Tick} (hj : j < N) (hk : kind.table[k-1]? = some t)
    (ha : t.act lat s = .more lat' u) : runTicks [] (f+1) (retime (.inSeq kind k lat) j s) = runTicks [] f (retime (.inSeq kind (k+1) lat') (j+1) u) := by
  have hd := cpuAlone_idle_dma h
  have h' := othersStill_of_cpuAlone h
  have hal : othersStill (N - j - 1 + 1) (retime (.inSeq kind k lat) j s) := by
    refine ⟨h'.1, ?_, h'.2.2⟩
    have := h'.2.1
    show _ ≤ s.cpuUnit.owed - j
    omega
  have hc := runTick_cycles (sequence_timeless kind) (k - 1) lat s
  have hr : runTick kind.table (k-1) lat s = .more lat' u := by simp only [runTick, hk, ha]
  rw [hr] at hc
  have hc' : u.cpu.cycles = s.cpu.cycles := hc
  simp only [runTicks, cpuTick_still [] hal, handler_inSeq kind k j lat hd, undone_next, andThen, hr, retime_eng, retime_cycles, hc', Engine.atRest, Bool.false_or]
  rw [if_neg]
  simp

theorem seq_done {N : Nat} {s u : State} (h : cpuAlone N s = true) {kind : Sequence} {k j f lat} {t : Tick} (hj : j < N) (hk : kind.table[k-1]? = some t)
    (ha : t.act lat s = .done u) : runTicks [] (f+1) (retime (.inSeq kind k lat) j s) = .next (retime .fetchNext (j+1) u) := by
  have hd := cpuAlone_idle_dma h
  have h' := othersStill_of_cpuAlone h
  have hal : othersStill (N - j - 1 + 1) (retime (.inSeq kind k lat) j s) := by
    refine ⟨h'.1, ?_, h'.2.2⟩
    have := h'.2.1
    show _ ≤ s.cpuUnit.owed - j
    omega
  have hr : runTick kind.table (k-1) lat s = .done u := by simp only [runTick, hk, ha]
  simp only [runTicks, cpuTick_still [] hal, handler_inSeq kind k j lat hd, undone_next, andThen, hr, retime_eng, Engine.atRest, Bool.true_or, if_true]

theorem step_boundary {s : State} {t} (he : s.cpu.eng = .boundary) (ha : cpuAlone 8 s = true) (kind lat) (h : boundaryTick (retime .boundary 1 s) = .next (retime (.inSeq kind 2 lat) 1 t)) :
    step s = runTicks [] tickBudget (retime (.inSeq kind 2 lat) 1 t) := by
  unfold step; rw [he]; dsimp only
  rw [cpuTick_alone [] (n := 7) ha, handler_boundary ((cpuAlone_iff _ _).mp ha).2.1 he, h]
  rfl

theorem cpuAlone_pend {n s} (h : cpuAlone n s = true) (f) : cpuAlone n (s.mapPend f) = true := cpuAlone_of_graft h (cpuAlone_idle_dma h) rfl rfl rfl rfl rfl

theorem interruptSequence_runs (kind : Sequence) (hk : kind.table = interruptTable) {s : State} (ha : cpuAlone 8 s = true) (hd : dmaOffStack s.bus = true) :
    runTicks [] tickBudget (retime (.inSeq kind 2 { vec := kind.vector }) 1 (idle s)) = .next (finishSeq 7 (enterHandler (statusPlus 0x20) kind.vector (idle (idle s)))) := by
  have h1 := cpuAlone_idle ha
  have h2 := cpuAlone_idle h1
  have b2 : dmaOffStack (idle (idle s)).bus = true := by unfold idle; rw [dummyRead_bus, dummyRead_bus]; exact hd
  have h3 := fun v => cpuAlone_push h2 b2 v
  have h4 := fun v v' => cpuAlone_push (h3 v) (by rw [push_bus]; exact b2) v'
  have h5 := fun v v' v'' => cpuAlone_push (h4 v v') (by rw [push_bus, push_bus]; exact b2) v''
  refine (seq_more h1 (by omega) (by rw [hk]; rfl) rfl).trans <| (seq_more h2 (by omega) (by rw [hk]; rfl) rfl).trans <| (seq_more (h3 _) (by omega) (by rw [hk]; rfl) rfl).trans <| (seq_more (h4 _ _) (by omega) (by rw [hk]; rfl) rfl).trans <| (seq_more (h5 _ _ _) (by omega) (by rw [hk]; rfl) rfl).trans <| (seq_done (cpuAlone_mapCpu (cpuAlone_busRead (h5 _ _ _) _) _) (by omega) (by rw [hk]; rfl) rfl).trans ?_
  rw [show pushedByInterrupt = statusPlus 0x20 from funext pushedByInterrupt_eq]
  rfl

theorem noneTaken_retime (e n s) : noneTaken (retime e n s) = noneTaken s := rfl

end Sys2Proof.Machine
end

