-- ==== Sys2Proof/Laws/Delivery.lean ====
section
/-! SUPPORT. The bound on nested deliveries loses nothing (log 13): a delivery that ends at some depth ends the same way
at every larger one (`deliver_mono`), and one that does not end within `State.deliveryDepth` ends at no depth
(`deliver_ends`). What comes of a delivery depends on the remainders of the dividers and on the counters, of which there
are finitely many combinations: a nesting deeper than that meets one again. -/

namespace Sys2Proof.Machine

/-! ### Deeper is the same -/

/-- A list of deliveries that ends does the same with deliveries that do the same where those end. -/
theorem deliverEach_mono {f g : Listener → State → Delivery} (h : ∀ l s, f l s ≠ .endless → g l s = f l s)
    (ls : List Listener) (s : State) (he : deliverEach f ls s ≠ .endless) : deliverEach g ls s = deliverEach f ls s := by
  induction ls generalizing s with
  | nil => rfl
  | cons l rest ih =>
    have hl : f l s ≠ .endless := by
      intro hl; apply he; simp only [deliverEach, hl]; rfl
    simp only [deliverEach, h l s hl] at he ⊢
    cases hf : f l s with
    | done t => rw [hf] at he; exact ih t he
    | overflow u => rfl
    | endless => exact absurd hf hl

/-- A delivery that ends at a depth ends the same way at the next. -/
theorem deliver_succ (n : Nat) (l : Listener) (s : State) (h : deliver n l s ≠ .endless) :
    deliver (n + 1) l s = deliver n l s := by
  induction n generalizing l s with
  | zero =>
    cases l with
    | unit u => rfl
    | divider i => exact absurd rfl h
  | succ n ih =>
    cases l with
    | unit u => rfl
    | divider i =>
      unfold deliver at h ⊢
      cases hd : s.dividers[i]? with
      | none => rfl
      | some d =>
        rw [hd] at h
        exact deliverEach_mono ih _ _ h

/-- A delivery that ends at a depth ends the same way at every larger one. -/
theorem deliver_mono {n m : Nat} (hnm : n ≤ m) {l : Listener} {s : State} (h : deliver n l s ≠ .endless) :
    deliver m l s = deliver n l s := by
  induction hnm with
  | refl => rfl
  | step _ ih => rw [deliver_succ _ l s (by rw [ih]; exact h), ih]

/-- The same for a list. -/
theorem deliverEach_deliver_mono {n m : Nat} (hnm : n ≤ m) {ls : List Listener} {s : State}
    (h : deliverEach (deliver n) ls s ≠ .endless) : deliverEach (deliver m) ls s = deliverEach (deliver n) ls s :=
  deliverEach_mono (fun _ _ => deliver_mono hnm) ls s h

/-- Where the shallower deliveries of a list do not end and the deeper ones do, one delivery of it is so, in a state that
the deliveries before it have left. -/
theorem deliverEach_deeper {P : State → Prop} {f g : Listener → State → Delivery} (h : ∀ l s, f l s ≠ .endless → g l s = f l s)
    (hP : ∀ l s t, P s → f l s = .done t → P t) (ls : List Listener) (s : State) (hs : P s)
    (hf : deliverEach f ls s = .endless) (hg : deliverEach g ls s ≠ .endless) :
    ∃ l t, P t ∧ f l t = .endless ∧ g l t ≠ .endless := by
  induction ls generalizing s with
  | nil => cases hf
  | cons l rest ih =>
    simp only [deliverEach] at hf hg
    cases hl : f l s with
    | endless =>
      refine ⟨l, s, hs, hl, ?_⟩
      intro hgl; apply hg; rw [hgl]; rfl
    | overflow u => rw [hl] at hf; cases hf
    | done t =>
      rw [h l s (by rw [hl]; exact fun h => by cases h), hl] at hg
      rw [hl] at hf
      exact ih t (hP l s t hs hl) hf hg

/-! ### What a delivery depends on -/

/-- The remainder of a divider as far as it matters: one that emits at every tick, or at none, does so whatever it is. -/
def Divider.heeded (law : Config.DividerLaw) (d : Divider) : Nat :=
  if d.num = 0 ∨ (law = .once ∧ d.num ≤ d.den) then 0 else d.acc

/-- A counter as far as it matters: one above its bound stays above it. -/
def UnitCtl.heeded (owedMax : Nat) (c : UnitCtl) : Nat := min c.owed (owedMax + 1)

/-- A divider is like another: the same divisor and children, and the same remainder as far as it matters. -/
def Divider.alike (law : Config.DividerLaw) (d e : Divider) : Prop :=
  e.num = d.num ∧ e.den = d.den ∧ e.children = d.children ∧ e.heeded law = d.heeded law

/-- Two states in which deliveries do the same, as far as it matters to further ones. -/
structure Alike (s t : State) : Prop where
  params : t.params = s.params
  units : ∀ u, (t.unit u).disposed = (s.unit u).disposed ∧
    (t.unit u).heeded s.params.owedMax = (s.unit u).heeded s.params.owedMax
  length : t.dividers.length = s.dividers.length
  dividers : ∀ (i : Nat) (d e : Divider), s.dividers[i]? = some d → t.dividers[i]? = some e → d.alike s.params.dividerLaw e

/-- Two deliveries that end alike. -/
def Delivery.alike : Delivery → Delivery → Prop
  | .done s, .done t => Alike s t
  | .overflow _, .overflow _ => True
  | .endless, .endless => True
  | .done _, _ | .overflow _, _ | .endless, _ => False

theorem deliverEach_alike {f : Listener → State → Delivery} (h : ∀ l s t, Alike s t → (f l s).alike (f l t))
    (ls : List Listener) {s t : State} (hs : Alike s t) : (deliverEach f ls s).alike (deliverEach f ls t) := by
  induction ls generalizing s t with
  | nil => exact hs
  | cons l rest ih =>
    have hl := h l s t hs
    simp only [deliverEach]
    cases h1 : f l s <;> cases h2 : f l t <;> rw [h1, h2] at hl <;>
      first
      | exact hl.elim
      | exact ih hl
      | trivial

theorem deliverUnit_alike (u : UnitId) {s t : State} (h : Alike s t) : (deliverUnit u s).alike (deliverUnit u t) := by
  obtain ⟨hd, ho⟩ := h.units u
  simp only [UnitCtl.heeded] at ho
  unfold deliverUnit
  rw [hd, h.params]
  cases hdis : (s.unit u).disposed
  · have heq : (t.unit u).owed = s.params.owedMax ↔ (s.unit u).owed = s.params.owedMax := by omega
    simp only [Bool.false_eq_true, if_false]
    by_cases hm : (s.unit u).owed = s.params.owedMax
    · rw [if_pos hm, if_pos (heq.mpr hm)]; trivial
    · rw [if_neg hm, if_neg (fun h => hm (heq.mp h))]
      refine ⟨by cases u <;> exact h.params, fun w => ?_, by cases u <;> exact h.length, by cases u <;> exact h.dividers⟩
      have hw := h.units w
      have hp : (s.mapUnit u fun c => { c with owed := c.owed + 1 }).params = s.params := by cases u <;> rfl
      rw [hp]
      simp only [UnitCtl.heeded] at hw ⊢
      cases u <;> cases w <;> simp only [State.unit, State.mapUnit] at ho hw ⊢ <;> first | exact hw | exact ⟨hw.1, by omega⟩
  · exact h

theorem feed_alike (law : Config.DividerLaw) {d e : Divider} (h : d.alike law e) :
    (e.feed law).2 = (d.feed law).2 ∧ (d.feed law).1.alike law (e.feed law).1 := by
  obtain ⟨n, k, a, c, p⟩ := d
  obtain ⟨n', k', a', c', p'⟩ := e
  obtain ⟨h1, h2, h3, h4⟩ := h
  simp only at h1 h2 h3
  subst h1 h2 h3
  simp only [Divider.heeded] at h4
  by_cases hc : n' = 0 ∨ (law = .once ∧ n' ≤ k')
  · cases law with
    | once =>
      have ha : n' ≤ a + k' := by omega
      have hb : n' ≤ a' + k' := by omega
      simp only [Divider.feed, if_pos ha, if_pos hb]
      exact ⟨trivial, rfl, rfl, rfl, by unfold Divider.heeded; rw [if_pos hc, if_pos hc]⟩
    | every =>
      have hz : n' = 0 := hc.resolve_right fun h => by cases h.1
      subst hz
      simp only [Divider.feed, Nat.div_zero]
      exact ⟨trivial, rfl, rfl, rfl, by unfold Divider.heeded; rw [if_pos hc, if_pos hc]⟩
  · rw [if_neg hc, if_neg hc] at h4
    subst h4
    refine ⟨by cases law <;> simp only [Divider.feed] <;> (try split) <;> rfl, ?_⟩
    cases law with
    | once => simp only [Divider.feed]; split <;> exact ⟨rfl, rfl, rfl, rfl⟩
    | every => exact ⟨rfl, rfl, rfl, rfl⟩

/-- Deliveries from like states end alike. -/
theorem deliver_alike (n : Nat) (l : Listener) (s t : State) (h : Alike s t) : (deliver n l s).alike (deliver n l t) := by
  induction n generalizing l s t with
  | zero =>
    cases l with
    | unit u => exact deliverUnit_alike u h
    | divider i => trivial
  | succ n ih =>
    cases l with
    | unit u => exact deliverUnit_alike u h
    | divider i =>
      unfold deliver
      cases hd : s.dividers[i]? with
      | none =>
        have he : t.dividers[i]? = none := by
          rw [List.getElem?_eq_none_iff] at hd ⊢; rw [h.length]; exact hd
        rw [he]; exact h
      | some d =>
        have hi : i < t.dividers.length := by
          rw [h.length]; exact (List.getElem?_eq_some_iff.mp hd).1
        have he : t.dividers[i]? = some t.dividers[i] := List.getElem?_eq_getElem hi
        have hal := h.dividers i d _ hd he
        obtain ⟨hc, hf⟩ := feed_alike s.params.dividerLaw hal
        rw [he]
        dsimp only
        rw [h.params, show Divider.emitted t.dividers[i] (t.dividers[i].feed s.params.dividerLaw).2 =
          d.emitted (d.feed s.params.dividerLaw).2 by rw [hc]; unfold Divider.emitted; rw [hal.2.2.1]]
        refine deliverEach_alike ih _ ⟨h.params, h.units, by simp [State.setDividers, h.length], fun j a b ha hb => ?_⟩
        simp only [State.setDividers, List.getElem?_set] at ha hb
        by_cases hj : i = j
        · subst hj
          have hi' : i < s.dividers.length := by rw [← h.length]; exact hi
          rw [if_pos rfl, if_pos hi'] at ha
          rw [if_pos rfl, if_pos hi] at hb
          cases ha; cases hb
          exact hf
        · rw [if_neg hj] at ha hb
          exact h.dividers j a b ha hb

/-! ### Finitely many combinations -/

/-- A state that deliveries lead to from `s0`: the same but for remainders and counters, the remainders within a bound. -/
structure Within (s0 s : State) : Prop where
  params : s.params = s0.params
  disposed : ∀ u, (s.unit u).disposed = (s0.unit u).disposed
  length : s.dividers.length = s0.dividers.length
  dividers : ∀ (i : Nat) (d0 d : Divider), s0.dividers[i]? = some d0 → s.dividers[i]? = some d →
    d.num = d0.num ∧ d.den = d0.den ∧ d.children = d0.children ∧ d.heeded s0.params.dividerLaw < d0.acc + d0.num + 1

theorem Within.refl (s : State) : Within s s := by
  refine ⟨rfl, fun _ => rfl, rfl, fun i d0 d h0 h => ?_⟩
  rw [h0] at h
  cases h
  refine ⟨rfl, rfl, rfl, ?_⟩
  unfold Divider.heeded
  split <;> omega

/-- A divider that is fed keeps its remainder within the bound. -/
theorem feed_within (law : Config.DividerLaw) (d : Divider) {b : Nat} (hb : d.num < b) (h : d.heeded law < b) :
    (d.feed law).1.num = d.num ∧ (d.feed law).1.den = d.den ∧ (d.feed law).1.children = d.children ∧
      (d.feed law).1.heeded law < b := by
  obtain ⟨n, k, a, c, p⟩ := d
  simp only [Divider.heeded] at h hb ⊢
  cases law with
  | once =>
    simp only [Divider.feed, true_and] at h ⊢
    by_cases hc : n = 0 ∨ n ≤ k
    · by_cases ha : n ≤ a + k <;> simp only [ha, if_true, if_false, hc] at h ⊢ <;> exact ⟨trivial, trivial, trivial, by omega⟩
    · by_cases ha : n ≤ a + k <;> simp only [ha, if_true, if_false, hc] at h ⊢ <;> exact ⟨trivial, trivial, trivial, by omega⟩
  | every =>
    simp only [Divider.feed, reduceCtorEq, false_and, or_false] at h ⊢
    refine ⟨trivial, trivial, trivial, ?_⟩
    split
    · omega
    · exact Nat.lt_trans (Nat.mod_lt _ (by omega)) hb

/-- Feeding a divider keeps the state among those that deliveries lead to. -/
theorem Within.feed {s0 s : State} (h : Within s0 s) {i : Nat} {d : Divider} (hi : s.dividers[i]? = some d) :
    Within s0 (s.setDividers (s.dividers.set i (d.feed s.params.dividerLaw).1)) := by
  refine ⟨h.params, h.disposed, by simp [State.setDividers, h.length], fun j d0 e h0 he => ?_⟩
  simp only [State.setDividers, List.getElem?_set] at he
  by_cases hj : i = j
  · subst hj
    rw [if_pos rfl, if_pos (List.getElem?_eq_some_iff.mp hi).1] at he
    cases he
    obtain ⟨h1, h2, h3, h4⟩ := h.dividers i d0 d h0 hi
    have := feed_within s0.params.dividerLaw d (b := d0.acc + d0.num + 1) (by omega) h4
    rw [h.params]
    exact ⟨this.1.trans h1, this.2.1.trans h2, this.2.2.1.trans h3, this.2.2.2⟩
  · rw [if_neg hj] at he
    exact h.dividers j d0 e h0 he

theorem deliverUnit_within {s0 s t : State} (u : UnitId) (h : Within s0 s) (hd : deliverUnit u s = .done t) : Within s0 t := by
  unfold deliverUnit at hd
  split at hd
  · cases hd; exact h
  · split at hd
    · cases hd
    · cases hd
      refine ⟨by cases u <;> exact h.params, fun w => ?_, by cases u <;> exact h.length, by cases u <;> exact h.dividers⟩
      rw [← h.disposed w]
      cases u <;> cases w <;> rfl

theorem deliverEach_within {s0 : State} {f : Listener → State → Delivery}
    (h : ∀ l s t, Within s0 s → f l s = .done t → Within s0 t) (ls : List Listener) {s t : State} (hs : Within s0 s)
    (hd : deliverEach f ls s = .done t) : Within s0 t := by
  induction ls generalizing s with
  | nil => cases hd; exact hs
  | cons l rest ih =>
    simp only [deliverEach] at hd
    cases hl : f l s with
    | done v => rw [hl] at hd; exact ih (h l s v hs hl) hd
    | overflow w => rw [hl] at hd; cases hd
    | endless => rw [hl] at hd; cases hd

theorem deliver_within {s0 : State} (n : Nat) (l : Listener) (s t : State) (h : Within s0 s) (hd : deliver n l s = .done t) :
    Within s0 t := by
  induction n generalizing l s t with
  | zero =>
    cases l with
    | unit u => exact deliverUnit_within u h hd
    | divider i => cases hd
  | succ n ih =>
    cases l with
    | unit u => exact deliverUnit_within u h hd
    | divider i =>
      unfold deliver at hd
      cases hi : s.dividers[i]? with
      | none => rw [hi] at hd; cases hd; exact h
      | some d =>
        rw [hi] at hd
        exact deliverEach_within ih _ (h.feed hi) hd

/-- Mixed digits as one number: digit `x` under bound `b` first. -/
def mixed : List Nat → List Nat → Nat
  | b :: bs, x :: xs => x + b * mixed bs xs
  | _, _ => 0

theorem mixed_lt {bs xs : List Nat} (hl : xs.length = bs.length)
    (h : ∀ (i b x : Nat), bs[i]? = some b → xs[i]? = some x → x < b) : mixed bs xs < bs.foldr (· * ·) 1 := by
  induction bs generalizing xs with
  | nil => cases xs <;> simp [mixed]
  | cons b bs ih =>
    cases xs with
    | nil => cases hl
    | cons x xs =>
      have hx : x < b := h 0 b x rfl rfl
      have hi := ih (xs := xs) (by simpa using hl) fun i b x hb hx => h (i + 1) b x (by simpa using hb) (by simpa using hx)
      simp only [mixed, List.foldr]
      calc x + b * mixed bs xs < b + b * mixed bs xs := by omega
        _ = b * (mixed bs xs + 1) := by rw [Nat.mul_add, Nat.mul_one, Nat.add_comm]
        _ ≤ b * bs.foldr (· * ·) 1 := Nat.mul_le_mul_left b hi

theorem mixed_inj {bs xs ys : List Nat} (hl : xs.length = bs.length) (hm : ys.length = bs.length)
    (h : ∀ (i b x : Nat), bs[i]? = some b → xs[i]? = some x → x < b)
    (k : ∀ (i b x : Nat), bs[i]? = some b → ys[i]? = some x → x < b) (he : mixed bs xs = mixed bs ys) : xs = ys := by
  induction bs generalizing xs ys with
  | nil => cases xs <;> cases ys <;> simp_all
  | cons b bs ih =>
    cases xs with
    | nil => cases hl
    | cons x xs =>
      cases ys with
      | nil => cases hm
      | cons y ys =>
        have hx : x < b := h 0 b x rfl rfl
        have hy : y < b := k 0 b y rfl rfl
        simp only [mixed] at he
        have h1 : x = y := by
          have := congrArg (· % b) he
          simpa [Nat.add_mul_mod_self_left, Nat.mod_eq_of_lt hx, Nat.mod_eq_of_lt hy] using this
        subst h1
        have h2 : mixed bs xs = mixed bs ys := Nat.eq_of_mul_eq_mul_left (by omega) (Nat.add_left_cancel he)
        rw [ih (by simpa using hl) (by simpa using hm) (fun i b x hb hx => h (i + 1) b x (by simpa using hb) (by simpa using hx))
          (fun i b x hb hx => k (i + 1) b x (by simpa using hb) (by simpa using hx)) h2]

/-- Different numbers below `m`, all sent below `b` to different ones, are at most `b`. -/
theorem pigeonhole {b m : Nat} (f : Nat → Nat) (h : ∀ j < m, f j < b) (hi : ∀ j < m, ∀ k < m, f j = f k → j = k) : m ≤ b := by
  induction b generalizing m f with
  | zero =>
    cases m with
    | zero => exact Nat.le_refl 0
    | succ m => exact absurd (h 0 (Nat.succ_pos m)) (Nat.not_lt_zero _)
  | succ b ih =>
    cases m with
    | zero => exact Nat.zero_le _
    | succ m =>
      apply Nat.succ_le_succ
      apply ih fun j => if f j = b then f m else f j
      · intro j hj
        have h1 := h j (by omega)
        have h2 := h m (by omega)
        split
        · rename_i hb
          have : f m ≠ b := fun hm => by
            have := hi j (by omega) m (by omega) (hb.trans hm.symm); omega
          omega
        · omega
      · intro j hj k hk he
        by_cases h1 : f j = b
        · by_cases h2 : f k = b
          · exact hi j (by omega) k (by omega) (h1.trans h2.symm)
          · rw [if_pos h1, if_neg h2] at he
            have := hi m (by omega) k (by omega) he; omega
        · by_cases h2 : f k = b
          · rw [if_neg h1, if_pos h2] at he
            have := hi j (by omega) m (by omega) he; omega
          · rw [if_neg h1, if_neg h2] at he
            exact hi j (by omega) k (by omega) he

/-! ### The bound -/

/-- The bounds of the digits of a delivery to a divider: its number, the remainders, the counters. -/
def digitBounds (s0 : State) : List Nat :=
  let m := s0.params.owedMax + 2
  m :: m :: m :: s0.dividers.length :: s0.dividers.map fun d => d.acc + d.num + 1

/-- The digits of a delivery to divider `i` from `s`. -/
def digits (s0 : State) (i : Nat) (s : State) : List Nat :=
  let m := s0.params.owedMax
  s.cpuUnit.heeded m :: s.ppuUnit.heeded m :: s.soundUnit.heeded m :: i ::
    s.dividers.map fun d => d.heeded s0.params.dividerLaw

theorem digits_length {s0 s : State} (h : Within s0 s) (i : Nat) : (digits s0 i s).length = (digitBounds s0).length := by
  simp [digits, digitBounds, h.length]

theorem digits_bounded {s0 s : State} (h : Within s0 s) {i : Nat} (hi : i < s0.dividers.length) (j b x : Nat)
    (hb : (digitBounds s0)[j]? = some b) (hx : (digits s0 i s)[j]? = some x) : x < b := by
  match j with
  | 0 | 1 | 2 => simp only [digits, digitBounds, List.getElem?_cons_zero, List.getElem?_cons_succ, Option.some.injEq, UnitCtl.heeded] at hb hx; omega
  | 3 => simp only [digits, digitBounds, List.getElem?_cons_zero, List.getElem?_cons_succ, Option.some.injEq] at hb hx; omega
  | j + 4 =>
    simp only [digits, digitBounds, List.getElem?_cons_succ, List.getElem?_map] at hb hx
    cases h0 : s0.dividers[j]? with
    | none => rw [h0] at hb; cases hb
    | some d0 =>
      cases h1 : s.dividers[j]? with
      | none => rw [h1] at hx; cases hx
      | some d =>
        rw [h0] at hb
        rw [h1] at hx
        cases hb; cases hx
        exact (h.dividers j d0 d h0 h1).2.2.2

/-- Two deliveries with the same digits are to the same divider, from like states. -/
theorem digits_inj {s0 s t : State} (hs : Within s0 s) (ht : Within s0 t) {i k : Nat} (h : digits s0 i s = digits s0 k t) :
    i = k ∧ Alike s t := by
  simp only [digits, List.cons.injEq] at h
  obtain ⟨h1, h2, h3, h4, h5⟩ := h
  refine ⟨h4, ht.params.trans hs.params.symm, fun u => ⟨(ht.disposed u).trans (hs.disposed u).symm, ?_⟩,
    ht.length.trans hs.length.symm, fun j d e hd he => ?_⟩
  · rw [hs.params]
    cases u
    · exact h1.symm
    · exact h2.symm
    · exact h3.symm
  · have hj : j < s0.dividers.length := by rw [← hs.length]; exact (List.getElem?_eq_some_iff.mp hd).1
    have h0 : s0.dividers[j]? = some s0.dividers[j] := List.getElem?_eq_getElem hj
    obtain ⟨a1, a2, a3, -⟩ := hs.dividers j _ d h0 hd
    obtain ⟨b1, b2, b3, -⟩ := ht.dividers j _ e h0 he
    have h6 := congrArg (fun l : List Nat => l[j]?) h5
    simp only [List.getElem?_map, hd, he, Option.map_some, Option.some.injEq] at h6
    rw [hs.params]
    exact ⟨b1.trans a1.symm, b2.trans a2.symm, b3.trans a3.symm, h6.symm⟩

/-- The delivery does not end at depth `n` and does at the next. -/
def EndsAt (n : Nat) (l : Listener) (s : State) : Prop := deliver n l s = .endless ∧ deliver (n + 1) l s ≠ .endless

/-- A delivery that ends at a depth and not before calls one that does so one level less deep. -/
theorem EndsAt.inner {s0 : State} {n : Nat} {l : Listener} {s : State} (hw : Within s0 s) (h : EndsAt (n + 1) l s) :
    ∃ k t, Within s0 t ∧ EndsAt n k t := by
  obtain ⟨h1, h2⟩ := h
  cases l with
  | unit u =>
    simp only [deliver, deliverUnit] at h1
    split at h1
    · cases h1
    · split at h1 <;> cases h1
  | divider i =>
    unfold deliver at h1 h2
    cases hd : s.dividers[i]? with
    | none => rw [hd] at h1; cases h1
    | some d =>
      rw [hd] at h1 h2
      exact deliverEach_deeper (fun l s => deliver_succ n l s) (fun l s t hs ht => deliver_within n l s t hs ht) _ _
        (hw.feed hd) h1 h2

/-- A delivery that ends at depth `m` and not before calls one of each lesser depth that does so. -/
theorem EndsAt.each {s0 : State} {m : Nat} (h : ∃ l t, Within s0 t ∧ EndsAt m l t) {j : Nat} (hj : j ≤ m) :
    ∃ l t, Within s0 t ∧ EndsAt j l t := by
  obtain ⟨k, rfl⟩ := Nat.exists_eq_add_of_le hj
  clear hj
  induction k with
  | zero => exact h
  | succ k ih =>
    obtain ⟨l, t, ht, he⟩ := h
    exact ih (he.inner ht)

/-- It is a delivery to a divider. -/
theorem EndsAt.divider {n : Nat} {l : Listener} {s : State} (h : EndsAt n l s) : ∃ i, l = .divider i ∧ (0 < n → i < s.dividers.length) := by
  obtain ⟨h1, -⟩ := h
  cases l with
  | unit u =>
    have hu : deliverUnit u s = .endless := by cases n <;> exact h1
    unfold deliverUnit at hu
    split at hu
    · cases hu
    · split at hu <;> cases hu
  | divider i =>
    refine ⟨i, rfl, fun hn => ?_⟩
    cases n with
    | zero => exact absurd hn (Nat.lt_irrefl 0)
    | succ n =>
      unfold deliver at h1
      cases hd : s.dividers[i]? with
      | none => rw [hd] at h1; cases h1
      | some d => exact (List.getElem?_eq_some_iff.mp hd).1

theorem Delivery.alike_endless {c d : Delivery} (h : c.alike d) : c = .endless ↔ d = .endless := by
  cases c <;> cases d <;> simp_all [Delivery.alike]

/-- Deliveries from like states end at the same depth. -/
theorem EndsAt.unique {m n : Nat} {l : Listener} {s t : State} (hs : EndsAt m l s) (ht : EndsAt n l t) (h : Alike s t) : m = n := by
  have hle : ∀ {m n : Nat} {s t : State}, EndsAt m l s → EndsAt n l t → (∀ k, deliver k l s = .endless ↔ deliver k l t = .endless) →
      n ≤ m := fun {m n s t} hs ht hk => Nat.le_of_not_lt fun hlt => hs.2 ((hk (m + 1)).mpr
        (Classical.byContradiction fun hne => hne (by rw [← deliver_mono hlt hne]; exact ht.1)))
  have hk := fun k => Delivery.alike_endless (deliver_alike k l s t h)
  exact Nat.le_antisymm (hle ht hs fun k => (hk k).symm) (hle hs ht hk)

/-- No delivery takes deeper nesting than the bound. -/
theorem EndsAt.le {s0 : State} {m : Nat} {l : Listener} {s : State} (hw : Within s0 s) (h : EndsAt m l s) :
    m ≤ (digitBounds s0).foldr (· * ·) 1 := by
  have hex : ∀ j, ∃ i t, j < m → Within s0 t ∧ EndsAt (j + 1) (.divider i) t ∧ i < s0.dividers.length := by
    intro j
    by_cases hj : j < m
    · obtain ⟨l', t, ht, he⟩ := EndsAt.each ⟨l, s, hw, h⟩ (j := j + 1) hj
      obtain ⟨i, rfl, hi⟩ := he.divider
      exact ⟨i, t, fun _ => ⟨ht, he, by rw [← ht.length]; exact hi (Nat.succ_pos j)⟩⟩
    · exact ⟨0, s0, fun h => absurd h hj⟩
  let i := fun j => (hex j).choose
  let t := fun j => (hex j).choose_spec.choose
  have hit : ∀ j, j < m → Within s0 (t j) ∧ EndsAt (j + 1) (.divider (i j)) (t j) ∧ i j < s0.dividers.length :=
    fun j => (hex j).choose_spec.choose_spec
  apply pigeonhole (fun j => mixed (digitBounds s0) (digits s0 (i j) (t j)))
  · intro j hj
    obtain ⟨hw, -, hi⟩ := hit j hj
    exact mixed_lt (digits_length hw _) (digits_bounded hw hi)
  · intro j hj k hk he
    obtain ⟨hw, hm, hi⟩ := hit j hj
    obtain ⟨hw', hm', hi'⟩ := hit k hk
    obtain ⟨hik, ha⟩ := digits_inj hw hw' (mixed_inj (digits_length hw _) (digits_length hw' _) (digits_bounded hw hi)
      (digits_bounded hw' hi') he)
    rw [← hik] at hm'
    exact Nat.succ.inj (hm.unique hm' ha)

theorem digitBounds_prod (s : State) : (digitBounds s).foldr (· * ·) 1 + 1 = s.deliveryDepth := by
  simp only [digitBounds, State.deliveryDepth, List.foldr]
  generalize List.foldr (fun x1 x2 => x1 * x2) 1 _ = p
  rw [Nat.pow_succ, Nat.pow_succ, Nat.pow_one]
  generalize s.params.owedMax + 2 = m
  ac_rfl

/-- A delivery that does not end within the bound ends at no depth. -/
theorem deliver_ends {s0 s : State} (hw : Within s0 s) (l : Listener) (h : deliver s0.deliveryDepth l s = .endless) (n : Nat) :
    deliver n l s = .endless := by
  by_cases hn : n ≤ s0.deliveryDepth
  · exact Classical.byContradiction fun hne => hne (by rw [← deliver_mono hn hne]; exact h)
  · obtain ⟨k, rfl⟩ := Nat.exists_eq_add_of_le (Nat.le_of_not_le hn)
    clear hn
    induction k with
    | zero => exact h
    | succ k ih =>
      apply Classical.byContradiction
      intro hne
      have := EndsAt.le hw ⟨ih, hne⟩
      have := digitBounds_prod s0
      omega

/-- Nor does a list of them. -/
theorem deliverEach_ends {s0 s : State} (hw : Within s0 s) (ls : List Listener)
    (h : deliverEach (deliver s0.deliveryDepth) ls s = .endless) (n : Nat) : deliverEach (deliver n) ls s = .endless := by
  induction ls generalizing s with
  | nil => cases h
  | cons l rest ih =>
    simp only [deliverEach] at h ⊢
    cases hl : deliver s0.deliveryDepth l s with
    | overflow u => rw [hl] at h; cases h
    | endless => rw [deliver_ends hw l hl n]; rfl
    | done t =>
      rw [hl] at h
      have hb := ih (deliver_within _ l s t hw hl) h
      cases hn : deliver n l s with
      | endless => rfl
      | overflow u =>
        have h1 := deliver_mono (Nat.le_add_right n s0.deliveryDepth) (l := l) (s := s) (by rw [hn]; exact fun h => by cases h)
        have h2 := deliver_mono (Nat.le_add_left s0.deliveryDepth n) (l := l) (s := s) (by rw [hl]; exact fun h => by cases h)
        rw [h1, hn, hl] at h2; cases h2
      | done u =>
        have h1 := deliver_mono (Nat.le_add_right n s0.deliveryDepth) (l := l) (s := s) (by rw [hn]; exact fun h => by cases h)
        have h2 := deliver_mono (Nat.le_add_left s0.deliveryDepth n) (l := l) (s := s) (by rw [hl]; exact fun h => by cases h)
        rw [h1, hn, hl] at h2; cases h2
        exact hb

/-- The emit step does what R207's own recursion comes to, at whatever depth it ends. -/
theorem emit_of_ends (s : State) (n : Nat) :
    (∀ t, deliverEach (deliver n) s.clock.listeners (s.mapClock fun c => { c with tickCount := c.tickCount + 1 }) = .done t →
      emit s = .next t) ∧
    (∀ u, deliverEach (deliver n) s.clock.listeners (s.mapClock fun c => { c with tickCount := c.tickCount + 1 }) = .overflow u →
      emit s = .fault (.owedOverflow u s)) := by
  have hw : Within s (s.mapClock fun c => { c with tickCount := c.tickCount + 1 }) := by
    refine ⟨rfl, fun u => by cases u <;> rfl, rfl, (Within.refl s).dividers⟩
  have key : ∀ r, r ≠ .endless → deliverEach (deliver n) s.clock.listeners (s.mapClock fun c => { c with tickCount := c.tickCount + 1 }) = r →
      deliverEach (deliver s.deliveryDepth) s.clock.listeners (s.mapClock fun c => { c with tickCount := c.tickCount + 1 }) = r := by
    intro r hr h
    have h1 := deliverEach_deliver_mono (Nat.le_add_right n s.deliveryDepth) (by rw [h]; exact hr)
    have h2 := deliverEach_deliver_mono (Nat.le_add_left s.deliveryDepth n) (ls := s.clock.listeners)
      (s := s.mapClock fun c => { c with tickCount := c.tickCount + 1 })
      fun he => hr (by rw [← h, deliverEach_ends hw _ he n])
    rw [← h2, h1, h]
  refine ⟨fun t h => ?_, fun u h => ?_⟩
  · unfold emit; rw [key _ (fun h => by cases h) h]
  · unfold emit; rw [key _ (fun h => by cases h) h]

end Sys2Proof.Machine
end

