-- ==== Sys2Proof/Laws/Ppu.lean ====
section
/-! SUPPORT. What one dot of the picture generator leaves alone: the processor, the Clock and the tick counters, and,
where IRQ and NMI reach no external code, work RAM, the DMA state, nametable RAM, palette and the primary object table,
the cartridge's memories, the bus table. -/

namespace Sys2Proof.Machine

/-- `t` differs from `s` at most in what a dot may change. -/
structure DotOnly (s t : State) : Prop where
  params  : t.params = s.params
  bus     : t.bus = s.bus
  dma     : t.dma = s.dma
  ram     : t.ram = s.ram
  pads    : t.pads = s.pads
  sound   : t.sound = s.sound
  mem     : t.ppu.mem = s.ppu.mem
  oam     : t.ppu.spr.oam = s.ppu.spr.oam
  ctrl    : t.ppu.regs.ctrl = s.ppu.regs.ctrl
  mask    : t.ppu.regs.mask = s.ppu.regs.mask
  oamaddr : t.ppu.regs.oamaddr = s.ppu.regs.oamaddr
  port    : t.ppu.port = s.ppu.port
  prg     : t.cart.prg = s.cart.prg
  chr     : t.cart.chr = s.cart.chr
  mapper  : t.cart.mapper = s.cart.mapper
  reset   : t.pend.reset = s.pend.reset

theorem DotOnly.refl (s : State) : DotOnly s s :=
  ⟨rfl, rfl, rfl, rfl, rfl, rfl, rfl, rfl, rfl, rfl, rfl, rfl, rfl, rfl, rfl, rfl⟩

theorem DotOnly.trans {s t u : State} (h : DotOnly s t) (k : DotOnly t u) : DotOnly s u := by
  constructor
  · exact k.params.trans h.params
  · exact k.bus.trans h.bus
  · exact k.dma.trans h.dma
  · exact k.ram.trans h.ram
  · exact k.pads.trans h.pads
  · exact k.sound.trans h.sound
  · exact k.mem.trans h.mem
  · exact k.oam.trans h.oam
  · exact k.ctrl.trans h.ctrl
  · exact k.mask.trans h.mask
  · exact k.oamaddr.trans h.oamaddr
  · exact k.port.trans h.port
  · exact k.prg.trans h.prg
  · exact k.chr.trans h.chr
  · exact k.mapper.trans h.mapper
  · exact k.reset.trans h.reset

section plain
variable {x : ExtRun} {s : State} (h : plainSignals s.bus = true)
include h

theorem busNmi_dotOnly : DotOnly s (busNmiVia x s) := by
  obtain ⟨f, hf, hr⟩ := busNmi_plain (x := x) h
  rw [hf]
  exact ⟨rfl, rfl, rfl, rfl, rfl, rfl, rfl, rfl, rfl, rfl, rfl, rfl, rfl, rfl, rfl, hr⟩

theorem signalIrq_dotOnly (b : Bool) : DotOnly s (signalIrqVia x b s) := by
  obtain ⟨f, hf, hr⟩ := signalIrq_plain (x := x) h b
  rw [hf]
  exact ⟨rfl, rfl, rfl, rfl, rfl, rfl, rfl, rfl, rfl, rfl, rfl, rfl, rfl, rfl, rfl, hr⟩

theorem ppuRead_dotOnly (a : PpuAddr) : DotOnly s (ppuReadVia x a s).2 := by
  unfold ppuReadVia
  split
  · exact .trans (t := s.mapCart fun c => { c with st := (s.cart.mapPpuRead a).st }) ⟨rfl, rfl, rfl, rfl, rfl, rfl, rfl, rfl, rfl, rfl, rfl, rfl, rfl, rfl, rfl, rfl⟩
      (signalIrq_dotOnly (s := s.mapCart fun c => { c with st := (s.cart.mapPpuRead a).st }) h _)
  · split <;> exact .refl s

end plain

/-- A change of the background part, the scroll part or the position. -/
theorem mapBg_dotOnly (f : PpuBg → PpuBg) (s : State) : DotOnly s (s.mapPpu (Ppu.mapBg f)) :=
  ⟨rfl, rfl, rfl, rfl, rfl, rfl, rfl, rfl, rfl, rfl, rfl, rfl, rfl, rfl, rfl, rfl⟩

theorem mapScr_dotOnly (f : PpuScroll → PpuScroll) (s : State) : DotOnly s (s.mapPpu (Ppu.mapScr f)) :=
  ⟨rfl, rfl, rfl, rfl, rfl, rfl, rfl, rfl, rfl, rfl, rfl, rfl, rfl, rfl, rfl, rfl⟩

theorem mapSpr_dotOnly (f : PpuSprites → PpuSprites) (s : State) (h : ∀ q, (f q).oam = q.oam) :
    DotOnly s (s.mapPpu (Ppu.mapSpr f)) :=
  ⟨rfl, rfl, rfl, rfl, rfl, rfl, rfl, h _, rfl, rfl, rfl, rfl, rfl, rfl, rfl, rfl⟩

theorem mapRegs_dotOnly (f : PpuRegs → PpuRegs) (s : State) (h1 : ∀ q, (f q).ctrl = q.ctrl)
    (h2 : ∀ q, (f q).mask = q.mask) (h3 : ∀ q, (f q).oamaddr = q.oamaddr) : DotOnly s (s.mapPpu (Ppu.mapRegs f)) :=
  ⟨rfl, rfl, rfl, rfl, rfl, rfl, rfl, rfl, h1 _, h2 _, h3 _, rfl, rfl, rfl, rfl, rfl⟩

/-- Both at once: a function that is blind and, where signals are plain, only does what a dot may do. -/
structure DotStep (f : State → State) : Prop where
  blind : Blind f
  only  : ∀ s, plainSignals s.bus = true → DotOnly s (f s)

theorem DotStep.id : DotStep fun s => s := ⟨fun _ _ => rfl, fun s _ => .refl s⟩

theorem DotStep.comp {f g : State → State} (hf : DotStep f) (hg : DotStep g) : DotStep fun s => g (f s) :=
  ⟨fun c s => by rw [hf.blind, hg.blind], fun s h => (hf.only s h).trans (hg.only _ (by rw [(hf.only s h).bus]; exact h))⟩

theorem DotStep.ite {f g : State → State} (p : State → Bool) (hp : ∀ c s : State, p (c.graft s) = p s)
    (hf : DotStep f) (hg : DotStep g) : DotStep fun s => if p s then f s else g s := by
  constructor
  · intro c s
    simp only [hp]
    cases p s
    · exact hg.blind c s
    · exact hf.blind c s
  · intro s hs
    cases h : p s
    · simpa [h] using hg.only s hs
    · simpa [h] using hf.only s hs

theorem DotStep.iteProp {f g : State → State} (p : Prop) [Decidable p] (hf : DotStep f) (hg : DotStep g) :
    DotStep fun s => if p then f s else g s := by
  by_cases h : p
  · simpa [h] using hf
  · simpa [h] using hg

theorem fetchNametable_dot : DotStep fetchNametable :=
  ⟨fun c s => by simp only [fetchNametable, State.graft_ppu, ppuFetch_blind _ c s, State.graft_mapPpu],
   fun s h => (ppuRead_dotOnly h _).trans (mapBg_dotOnly _ _)⟩

theorem fetchAttribute_dot : DotStep fetchAttribute :=
  ⟨fun c s => by simp only [fetchAttribute, State.graft_ppu, ppuFetch_blind _ c s, State.graft_mapPpu],
   fun s h => (ppuRead_dotOnly h _).trans (mapBg_dotOnly _ _)⟩

theorem fetchPatternLo_dot : DotStep fetchPatternLo :=
  ⟨fun c s => by simp only [fetchPatternLo, State.graft_ppu, ppuFetch_blind _ c s, State.graft_mapPpu],
   fun s h => (ppuRead_dotOnly h _).trans (mapBg_dotOnly _ _)⟩

theorem fetchPatternHi_dot : DotStep fetchPatternHi :=
  ⟨fun c s => by simp only [fetchPatternHi, State.graft_ppu, ppuFetch_blind _ c s, State.graft_mapPpu],
   fun s h => (ppuRead_dotOnly h _).trans (mapBg_dotOnly _ _)⟩

theorem mapBg_dot (f : PpuBg → PpuBg) : DotStep fun s => s.mapPpu (Ppu.mapBg f) :=
  ⟨fun _ _ => rfl, fun s _ => mapBg_dotOnly f s⟩

theorem moveV_dot (f : Ppu → Scroll → Scroll) : DotStep fun s => s.mapPpu fun p => p.moveV (f p) :=
  ⟨fun _ _ => rfl, fun _ _ => ⟨rfl, rfl, rfl, rfl, rfl, rfl, rfl, rfl, rfl, rfl, rfl, rfl, rfl, rfl, rfl, rfl⟩⟩

theorem bgFetch_dot (d : Nat) : DotStep (bgFetch d) := by
  unfold bgFetch
  split
  · exact (mapBg_dot _).comp fetchNametable_dot
  · exact fetchAttribute_dot
  · exact fetchPatternLo_dot
  · exact fetchPatternHi_dot
  · exact moveV_dot fun _ => incX
  · exact .id

theorem bgWork_dot (ln d : Nat) : DotStep (bgWork ln d) :=
  have h1 : DotStep (bgShiftFetch d) := .iteProp (bgActive d = true) ((mapBg_dot _).comp (bgFetch_dot d)) .id
  have h2 : DotStep (bgIncY d) := .iteProp (d = 256) (moveV_dot fun _ => incY) .id
  have h3 : DotStep (bgCopyX d) := .iteProp (d = 257) (moveV_dot fun p => (copyX · p.scr.t)) .id
  have h4 : DotStep (bgCopyY ln d) :=
    .iteProp (ln = 261 ∧ 280 ≤ d ∧ d ≤ 304) (moveV_dot fun p => (copyY · p.scr.t)) .id
  have h5 : DotStep (bgReread d) := .iteProp (d = 338 ∨ d = 340) fetchNametable_dot .id
  (((h1.comp h2).comp h3).comp h4).comp h5

theorem mapSpr_dot (f : PpuSprites → PpuSprites) (h : ∀ q, (f q).oam = q.oam) :
    DotStep fun s => s.mapPpu (Ppu.mapSpr f) := ⟨fun _ _ => rfl, fun s _ => mapSpr_dotOnly f s h⟩

theorem evalSprite_dot (n : Nat) : DotStep fun s => s.mapPpu (Ppu.evalSprite n) := by
  refine ⟨fun _ _ => rfl, fun s _ => ?_⟩
  have h : s.mapPpu (Ppu.evalSprite n) = s ∨
      s.mapPpu (Ppu.evalSprite n) = s.mapPpu (Ppu.mapSpr (PpuSprites.take n)) ∨
      s.mapPpu (Ppu.evalSprite n) = s.mapPpu (Ppu.mapRegs fun q => { q with spriteOverflow := true }) := by
    simp only [State.mapPpu, Ppu.evalSprite]
    split
    · split
      · exact .inr (.inl rfl)
      · exact .inr (.inr rfl)
    · exact .inl rfl
  rcases h with h | h | h <;> rw [h]
  · exact .refl s
  · exact mapSpr_dotOnly _ s fun _ => rfl
  · exact mapRegs_dotOnly _ s (fun _ => rfl) (fun _ => rfl) (fun _ => rfl)

theorem fetchSpriteLo_dot (i : Nat) : DotStep (fetchSpriteLo i) :=
  ⟨fun c s => by simp only [fetchSpriteLo, State.graft_ppu, ppuFetch_blind _ c s, State.graft_mapPpu],
   fun s h => (ppuRead_dotOnly h _).trans (mapSpr_dotOnly _ _ fun _ => rfl)⟩

theorem fetchSpriteHi_dot (i : Nat) : DotStep (fetchSpriteHi i) :=
  ⟨fun c s => by simp only [fetchSpriteHi, State.graft_ppu, ppuFetch_blind _ c s, State.graft_mapPpu],
   fun s h => (ppuRead_dotOnly h _).trans ⟨rfl, rfl, rfl, rfl, rfl, rfl, rfl, rfl, rfl, rfl, rfl, rfl, rfl, rfl, rfl, rfl⟩⟩

theorem spriteWork_dot (ln d : Nat) : DotStep (spriteWork ln d) :=
  have h1 : DotStep (sprClear ln d) := .iteProp (d = 1) (mapSpr_dot _ fun _ => rfl) .id
  have h2 : DotStep (sprEvaluate ln d) :=
    .iteProp (ln ≤ 239 ∧ 65 ≤ d ∧ d ≤ 254 ∧ (d - 65) % 3 = 0) (evalSprite_dot _) .id
  have h3 : DotStep (sprLatch d) := .iteProp (d = 257) (mapSpr_dot _ fun _ => rfl) .id
  have h4 : DotStep (sprFetchLo d) :=
    .iteProp (261 ≤ d ∧ d ≤ 317 ∧ (d - 261) % 8 = 0) (fetchSpriteLo_dot _) .id
  have h5 : DotStep (sprFetchHi d) :=
    .iteProp (263 ≤ d ∧ d ≤ 319 ∧ (d - 263) % 8 = 0) (fetchSpriteHi_dot _) .id
  have h6 : DotStep (sprShift d) := .iteProp (2 ≤ d ∧ d ≤ 257) (mapSpr_dot _ fun _ => rfl) .id
  ((((h1.comp h2).comp h3).comp h4).comp h5).comp h6

theorem composePixel_dot (x y : Nat) :
    DotStep fun s => s.mapPpu (Ppu.composePixel s.params.sprite0HitX255 x y) :=
  ⟨fun _ _ => rfl, fun _ _ => ⟨rfl, rfl, rfl, rfl, rfl, rfl, rfl, rfl, rfl, rfl, rfl, rfl, rfl, rfl, rfl, rfl⟩⟩

theorem busNmi_dot : DotStep busNmi := ⟨busNmi_blind, fun _ => busNmi_dotOnly⟩

theorem mapRegs_dot (f : PpuRegs → PpuRegs) (h1 : ∀ q, (f q).ctrl = q.ctrl) (h2 : ∀ q, (f q).mask = q.mask)
    (h3 : ∀ q, (f q).oamaddr = q.oamaddr) : DotStep fun s => s.mapPpu (Ppu.mapRegs f) :=
  ⟨fun _ _ => rfl, fun s _ => mapRegs_dotOnly f s h1 h2 h3⟩

theorem vblankNmi_dot : DotStep vblankNmi := .ite (fun s => s.ppu.nmiEnabled) (fun _ _ => rfl) busNmi_dot .id

theorem lineEvents_dot (ln d : Nat) : DotStep (lineEvents ln d) :=
  .iteProp (ln = 241 ∧ d = 1)
    ((mapRegs_dot PpuRegs.enterVblank (fun _ => rfl) (fun _ => rfl) (fun _ => rfl)).comp vblankNmi_dot)
    (.iteProp (ln = 261 ∧ d = 1) (mapRegs_dot PpuRegs.clearFlags (fun _ => rfl) (fun _ => rfl) (fun _ => rfl)) .id)

theorem moveTo_dot (ln d : Nat) : DotStep fun s => s.mapPpu (Ppu.moveTo ln d) :=
  ⟨fun _ _ => rfl, fun _ _ => ⟨rfl, rfl, rfl, rfl, rfl, rfl, rfl, rfl, rfl, rfl, rfl, rfl, rfl, rfl, rfl, rfl⟩⟩

theorem endFrame_dot : DotStep endFrame :=
  ⟨fun _ _ => rfl, fun _ _ => ⟨rfl, rfl, rfl, rfl, rfl, rfl, rfl, rfl, rfl, rfl, rfl, rfl, rfl, rfl, rfl, rfl⟩⟩

theorem wrapFrame_dot : DotStep wrapFrame :=
  have h : DotStep fun s => endFrame (s.mapPpu fun p => p.moveTo 0 p.pos.dot) :=
    .comp ⟨fun _ _ => rfl, fun _ _ => ⟨rfl, rfl, rfl, rfl, rfl, rfl, rfl, rfl, rfl, rfl, rfl, rfl, rfl, rfl, rfl, rfl⟩⟩ endFrame_dot
  have he : wrapFrame = fun s => if decide (s.ppu.pos.scanline = 262) then endFrame (s.mapPpu fun p => p.moveTo 0 p.pos.dot) else s := by
    funext s; simp [wrapFrame]
  he ▸ .ite (fun s => decide (s.ppu.pos.scanline = 262)) (fun _ _ => rfl) h .id

theorem advance_dot (ln d : Nat) : DotStep (advance ln d) :=
  have hm : DotStep fun s => s.mapPpu (if d + 1 = 341 then Ppu.moveTo (ln + 1) 0 else Ppu.moveDot (d + 1)) := by
    split <;> exact ⟨fun _ _ => rfl, fun _ _ => ⟨rfl, rfl, rfl, rfl, rfl, rfl, rfl, rfl, rfl, rfl, rfl, rfl, rfl, rfl, rfl, rfl⟩⟩
  .ite (skipsLastDot ln d) (fun c s => by simp [skipsLastDot, skipApplies]) ((moveTo_dot 0 0).comp endFrame_dot)
    (hm.comp wrapFrame_dot)

theorem renderWork_dot (ln d : Nat) : DotStep (renderWork ln d) := by
  have h := DotStep.ite (fun s => s.ppu.rendering) (fun _ _ => rfl) ((bgWork_dot ln d).comp (spriteWork_dot ln d)) .id
  by_cases hl : ln ≤ 239 ∨ ln = 261
  · have he : renderWork ln d = fun s => if s.ppu.rendering then spriteWork ln d (bgWork ln d s) else s := by
      funext s; simp [renderWork, hl]
    rw [he]; exact h
  · have he : renderWork ln d = fun s => s := by
      funext s; simp [renderWork, hl]
    rw [he]; exact .id

theorem pixelWork_dot (ln d : Nat) : DotStep (pixelWork ln d) := .iteProp _ (composePixel_dot _ _) .id

/-- Everything one dot leaves alone (R500). -/
theorem ppuHandler_dot : DotStep ppuHandler := by
  have step (ln d : Nat) := (((lineEvents_dot ln d).comp (renderWork_dot ln d)).comp (pixelWork_dot ln d)).comp
    (advance_dot ln d)
  exact ⟨fun c s => (step s.ppu.pos.scanline s.ppu.pos.dot).blind c s,
    fun s => (step s.ppu.pos.scanline s.ppu.pos.dot).only s⟩

end Sys2Proof.Machine
end

