-- ==== Sys2Proof/Laws/Latches.lean ====
section
/-! SUPPORT. A pending latch is only ever set by a bus access, a dot or an instruction tick, and the parameters never change (spec/10_state.md R44). -/

set_option maxRecDepth 100000

namespace Sys2Proof.Machine

theorem noneTaken_iff (t : State) : noneTaken t = true ↔ t.pend.reset = false ∧ t.pend.nmi = false ∧ (t.pend.irq = true → flag .i t.cpu.p = true) := by
  simp only [noneTaken, Bool.and_eq_true, Bool.not_eq_true', and_assoc, Bool.and_eq_false_iff, Bool.not_eq_false']
  cases t.pend.irq <;> simp

/-- Latches only set, parameters kept. -/
structure Keeps (s t : State) : Prop where
  params : t.params = s.params
  reset : s.pend.reset = true → t.pend.reset = true
  nmi : s.pend.nmi = true → t.pend.nmi = true
  irq : s.pend.irq = true → t.pend.irq = true

theorem Keeps.refl (s) : Keeps s s := ⟨rfl, id, id, id⟩

theorem Keeps.trans {s t u} (h : Keeps s t) (k : Keeps t u) : Keeps s u :=
  ⟨k.params.trans h.params, k.reset ∘ h.reset, k.nmi ∘ h.nmi, k.irq ∘ h.irq⟩

theorem Keeps.of_eq {s t : State} (h : t.params = s.params) (k : t.pend = s.pend) : Keeps s t := ⟨h, by simp [k], by simp [k], by simp [k]⟩

theorem Keeps.pre {s s' t : State} (h : Keeps s' t) (a : s'.params = s.params) (b : s'.pend = s.pend) : Keeps s t := (Keeps.of_eq a b).trans h

/-- Every bus operation keeps the parameters and clears no latch, whatever code external components run. -/
theorem keeps_closed : Closed Keeps := by
  refine .of ?_ fun _ _ => .of_eq rfl rfl
  constructor
  case refl => exact Keeps.refl
  case trans => exact Keeps.trans
  case irq => exact fun _ => ⟨rfl, id, id, fun _ => rfl⟩
  case nmi => exact fun _ => ⟨rfl, id, fun _ => rfl, id⟩
  case reset => exact fun _ => ⟨rfl, fun _ => rfl, id, id⟩
  case dma =>
    intro v s
    unfold dmaWrite
    split <;> exact .of_eq rfl rfl
  all_goals intros; exact .of_eq rfl rfl

theorem busNmi_keeps (s) : Keeps s (busNmi s) := keeps_closed.busNmi s

theorem soundTick_keeps (s) : Keeps s (soundTick s) := keeps_closed.afterSound _ s

theorem ppuFetch_keeps (a) (s : State) : Keeps s (ppuFetch a s).2 := keeps_closed.ppuFetch a s

theorem componentWrite_keeps (k a v) (s : State) : Keeps s (componentWrite k a v s) := keeps_closed.componentWrite k a v s

theorem busRead_keeps (a) (s : State) : Keeps s (busRead a s).2 := keeps_closed.busRead a s

theorem busWrite_keeps (a v) (s : State) : Keeps s (busWrite a v s) := keeps_closed.busWrite a v s

theorem dummyRead_keeps (a) (s : State) : Keeps s (dummyRead a s) := keeps_closed.dummyRead a s

theorem dummyWrite_keeps (a v) (s : State) : Keeps s (dummyWrite a v s) := keeps_closed.dummyWrite a v s

theorem mapCpu_keeps (g) (s : State) : Keeps s (s.mapCpu g) := .of_eq rfl rfl

/-! ### A dot -/

/-- The relation is a preorder that pattern and nametable reads, NMI, changes of the picture generator and notices keep. -/
structure DotClosed (P : State → State → Prop) : Prop where
  refl  : ∀ s, P s s
  trans : ∀ {s t u}, P s t → P t u → P s u
  read  : ∀ a s, P s (ppuFetch a s).2
  nmi   : ∀ s, P s (busNmi s)
  ppu   : ∀ f s, P s (s.mapPpu f)
  sink  : ∀ f s, P s (s.mapSink f)

section dot
variable {P : State → State → Prop} (h : DotClosed P)
include h

theorem DotClosed.ite {p : Prop} [Decidable p] {s t : State} (k : P s t) : P s (if p then t else s) := by
  split
  · exact k
  · exact h.refl s

theorem DotClosed.fetch (a : PpuAddr) (f : Ppu → Ppu) (s : State) : P s ((ppuFetch a s).2.mapPpu f) :=
  h.trans (h.read a s) (h.ppu f _)

theorem DotClosed.bgFetch (d : Nat) (s : State) : P s (bgFetch d s) := by
  unfold Machine.bgFetch
  split
  · exact h.trans (h.ppu _ s) (h.fetch _ _ _)
  · exact h.fetch _ _ s
  · exact h.fetch _ _ s
  · exact h.fetch _ _ s
  · exact h.ppu _ s
  · exact h.refl s

theorem DotClosed.bgWork (ln d : Nat) (s : State) : P s (bgWork ln d s) := by
  have h1 : ∀ s, P s (bgShiftFetch d s) := fun s => h.ite (h.trans (h.ppu _ s) (h.bgFetch d _))
  have h2 : ∀ s, P s (bgIncY d s) := fun s => h.ite (h.ppu _ s)
  have h3 : ∀ s, P s (bgCopyX d s) := fun s => h.ite (h.ppu _ s)
  have h4 : ∀ s, P s (bgCopyY ln d s) := fun s => h.ite (h.ppu _ s)
  have h5 : ∀ s, P s (bgReread d s) := fun s => h.ite (h.fetch _ _ s)
  exact h.trans (h1 _) <| h.trans (h2 _) <| h.trans (h3 _) <| h.trans (h4 _) (h5 _)

theorem DotClosed.spriteWork (ln d : Nat) (s : State) : P s (spriteWork ln d s) := by
  have h1 : ∀ s, P s (sprClear ln d s) := fun s => h.ite (h.ppu _ s)
  have h2 : ∀ s, P s (sprEvaluate ln d s) := fun s => h.ite (h.ppu _ s)
  have h3 : ∀ s, P s (sprLatch d s) := fun s => h.ite (h.ppu _ s)
  have h4 : ∀ s, P s (sprFetchLo d s) := fun s => h.ite (h.fetch _ _ s)
  have h5 : ∀ s, P s (sprFetchHi d s) := fun s => h.ite (h.fetch _ _ s)
  have h6 : ∀ s, P s (sprShift d s) := fun s => h.ite (h.ppu _ s)
  exact h.trans (h1 _) <| h.trans (h2 _) <| h.trans (h3 _) <| h.trans (h4 _) <| h.trans (h5 _) (h6 _)

/-- What everything a dot does keeps, the dot keeps, whatever code external components run. -/
theorem DotClosed.ppuHandler (s : State) : P s (ppuHandler s) := by
  have h1 : ∀ ln d s, P s (lineEvents ln d s) := by
    intro ln d s
    unfold lineEvents
    split
    · exact h.trans (h.ppu (Ppu.mapRegs PpuRegs.enterVblank) s) (h.ite (h.nmi _))
    · exact h.ite (h.ppu _ s)
  have h2 : ∀ ln d s, P s (renderWork ln d s) := fun ln d s => h.ite (h.trans (h.bgWork ln d s) (h.spriteWork ln d _))
  have h3 : ∀ ln d s, P s (pixelWork ln d s) := fun ln d s => h.ite (h.ppu _ s)
  have h4 : ∀ ln d s, P s (advance ln d s) := by
    intro ln d s
    have he : ∀ s, P s (endFrame s) := fun s => h.trans (h.ppu _ s) (h.sink _ _)
    unfold advance
    split
    · exact h.trans (h.ppu _ s) (he _)
    · exact h.trans (h.ppu _ s) (h.ite (h.trans (h.ppu _ _) (he _)))
  exact h.trans (h1 _ _ _) <| h.trans (h2 _ _ _) <| h.trans (h3 _ _ _) (h4 _ _ _)

end dot

theorem ppuHandler_keeps (s : State) : Keeps s (ppuHandler s) := DotClosed.ppuHandler
  ⟨Keeps.refl, Keeps.trans, ppuFetch_keeps, busNmi_keeps, fun _ _ => .of_eq rfl rfl, fun _ _ => .of_eq rfl rfl⟩ s

theorem ppuHandler_bus (s : State) : (ppuHandler s).bus = s.bus := DotClosed.ppuHandler (P := fun s t => t.bus = s.bus)
  ⟨fun _ => rfl, fun h k => k.trans h, ppuFetch_bus, fun s => (busTable_closed.busNmi s).1, fun _ _ => rfl, fun _ _ => rfl⟩ s

theorem soundTick_bus (s : State) : (soundTick s).bus = s.bus := (busTable_closed.afterSound _ s).1

end Sys2Proof.Machine
end

