-- ==== Sys2Proof/Laws/Memory.lean ====
section
/-! SUPPORT. Laws of one memory: a write is read back, other cells keep their value, the canonical form and the
bound are kept, and canonical memories that read the same are equal. -/

namespace Sys2Proof.Machine

variable {w : Nat}

/-- The canonical form without its recursion on two entries: every listed cell is above `lo`. -/
def Memory.above (lo : Nat) : Memory w → Prop
  | [] => True
  | (a, v) :: rest => lo ≤ a ∧ v ≠ Memory.unlisted ∧ Memory.above (a + 1) rest

theorem Memory.above_mono {m : Memory w} {i j : Nat} (h : m.above j) (hij : i ≤ j) : m.above i := by
  cases m with
  | nil => trivial
  | cons c rest => exact ⟨Nat.le_trans hij h.1, h.2⟩

theorem Memory.wf_iff_above (m : Memory w) : m.wf = true ↔ m.above 0 := by
  induction m with
  | nil => simp [Memory.wf, Memory.above]
  | cons c rest ih =>
    obtain ⟨a, v⟩ := c
    cases rest with
    | nil => simp [Memory.wf, Memory.above]
    | cons d rest =>
      obtain ⟨b, u⟩ := d
      simp only [Memory.wf, Memory.above, Bool.and_eq_true, bne_iff_ne, ne_eq, decide_eq_true_eq] at ih ⊢
      constructor
      · rintro ⟨⟨hv, hab⟩, hr⟩
        exact ⟨Nat.zero_le _, hv, hab, (ih.mp hr).2⟩
      · rintro ⟨_, hv, hab, hr⟩
        exact ⟨⟨hv, hab⟩, ih.mpr ⟨Nat.zero_le _, hr⟩⟩

theorem Memory.read_above {m : Memory w} {lo a : Nat} (h : m.above lo) (ha : a < lo) :
    m.read a = Memory.unlisted := by
  induction m generalizing lo with
  | nil => rfl
  | cons c rest ih =>
    obtain ⟨k, v⟩ := c
    have hk : a ≠ k := by have := h.1; omega
    simp only [Memory.read, if_neg hk]
    exact ih h.2.2 (by have := h.1; omega)

theorem Memory.above_write {m : Memory w} {lo a : Nat} (v : BitVec w) (h : m.above lo) (ha : lo ≤ a) :
    (m.write a v).above lo := by
  induction m generalizing lo with
  | nil => by_cases hv : v = Memory.unlisted <;> simp [Memory.write, Memory.above, hv, ha]
  | cons c rest ih =>
    obtain ⟨k, u⟩ := c
    obtain ⟨h1, h2, h3⟩ := h
    simp only [Memory.write]
    by_cases hlt : a < k
    · rw [if_pos hlt]
      by_cases hv : v = Memory.unlisted
      · rw [if_pos hv]; exact And.intro h1 (And.intro h2 h3)
      · rw [if_neg hv]; exact And.intro ha (And.intro hv (And.intro (by omega) (And.intro h2 h3)))
    · rw [if_neg hlt]
      by_cases heq : a = k
      · rw [if_pos heq]
        by_cases hv : v = Memory.unlisted
        · rw [if_pos hv]; exact Memory.above_mono h3 (by omega)
        · rw [if_neg hv, heq]; exact And.intro h1 (And.intro hv h3)
      · rw [if_neg heq]; exact And.intro h1 (And.intro h2 (ih h3 (by omega)))

theorem Memory.read_write_above {m : Memory w} {lo a : Nat} (b : Nat) (v : BitVec w) (h : m.above lo) :
    (m.write a v).read b = if b = a then v else m.read b := by
  induction m generalizing lo with
  | nil =>
    by_cases hv : v = Memory.unlisted
    · simp [Memory.write, Memory.read, hv]
    · simp [Memory.write, Memory.read, hv]
  | cons c rest ih =>
    obtain ⟨k, u⟩ := c
    obtain ⟨h1, h2, h3⟩ := h
    simp only [Memory.write]
    by_cases hlt : a < k
    · by_cases hv : v = Memory.unlisted
      · simp only [hlt, hv, if_true]
        by_cases hb : b = a
        · subst hb
          have hk : b ≠ k := by omega
          simp only [Memory.read, if_neg hk, if_true]
          exact Memory.read_above h3 (by omega)
        · simp [hb]
      · simp [hlt, hv, Memory.read]
    · by_cases heq : a = k
      · subst heq
        by_cases hv : v = Memory.unlisted
        · simp only [hlt, hv, if_true, if_false]
          by_cases hb : b = a
          · subst hb
            simpa using Memory.read_above h3 (by omega)
          · simp [Memory.read, hb]
        · by_cases hb : b = a <;> simp [hlt, hv, Memory.read, hb]
      · simp only [hlt, heq, if_false, Memory.read, ih h3]
        by_cases hb : b = k
        · have : b ≠ a := by omega
          simp [hb, Ne.symm heq]
        · simp [hb]

/-- A write is read back. -/
theorem Memory.read_write_same {m : Memory w} (h : m.wf = true) (a : Nat) (v : BitVec w) :
    (m.write a v).read a = v := by
  simpa using Memory.read_write_above (a := a) a v ((Memory.wf_iff_above m).mp h)

/-- A write leaves every other cell alone. -/
theorem Memory.read_write_other {m : Memory w} (h : m.wf = true) {a b : Nat} (hb : b ≠ a) (v : BitVec w) :
    (m.write a v).read b = m.read b := by
  simpa [hb] using Memory.read_write_above (a := a) b v ((Memory.wf_iff_above m).mp h)

/-- A write keeps the canonical form. -/
theorem Memory.wf_write {m : Memory w} (h : m.wf = true) (a : Nat) (v : BitVec w) : (m.write a v).wf = true :=
  (Memory.wf_iff_above _).mpr (Memory.above_write v ((Memory.wf_iff_above m).mp h) (Nat.zero_le a))

/-- A cell listed after a write was listed before or is the one written. -/
theorem Memory.mem_write {m : Memory w} {a : Nat} {v : BitVec w} {c : Nat × BitVec w} (hc : c ∈ m.write a v) :
    c ∈ m ∨ c = (a, v) := by
  induction m with
  | nil =>
    simp only [Memory.write] at hc
    split at hc <;> simp_all
  | cons d rest ih =>
    simp only [Memory.write] at hc
    split at hc
    · split at hc
      · exact .inl hc
      · rcases List.mem_cons.mp hc with h | h
        · exact .inr h
        · exact .inl h
    · split at hc
      · split at hc
        · exact .inl (List.mem_cons_of_mem _ hc)
        · rcases List.mem_cons.mp hc with h | h
          · exact .inr h
          · exact .inl (List.mem_cons_of_mem _ h)
      · rcases List.mem_cons.mp hc with h | h
        · exact .inl (h ▸ List.mem_cons_self)
        · exact (ih h).imp_left (List.mem_cons_of_mem _)

/-- A write below the bound keeps the bound. -/
theorem Memory.below_write {m : Memory w} {n a : Nat} (h : m.below n = true) (ha : a < n) (v : BitVec w) :
    (m.write a v).below n = true := by
  simp only [Memory.below, List.all_eq_true, decide_eq_true_eq] at h ⊢
  intro c hc
  rcases Memory.mem_write hc with hc | rfl
  · exact h c hc
  · exact ha

/-- Canonical memories that read the same are equal. -/
theorem Memory.ext_above {m n : Memory w} {lo : Nat} (hm : m.above lo) (hn : n.above lo)
    (h : ∀ a, m.read a = n.read a) : m = n := by
  induction m generalizing n lo with
  | nil =>
    cases n with
    | nil => rfl
    | cons c rest =>
      obtain ⟨k, v⟩ := c
      have := h k
      simp only [Memory.read, if_true] at this
      exact absurd this.symm hn.2.1
  | cons c rest ih =>
    obtain ⟨k, v⟩ := c
    cases n with
    | nil =>
      have := h k
      simp only [Memory.read, if_true] at this
      exact absurd this hm.2.1
    | cons d rest' =>
      obtain ⟨j, u⟩ := d
      have hkj : k = j := by
        rcases Nat.lt_trichotomy k j with hlt | heq | hgt
        · have := h k
          simp only [Memory.read, if_true, if_neg (show k ≠ j by omega)] at this
          rw [Memory.read_above hn.2.2 (by omega)] at this
          exact absurd this hm.2.1
        · exact heq
        · have := h j
          simp only [Memory.read, if_true, if_neg (show j ≠ k by omega)] at this
          rw [Memory.read_above hm.2.2 (by omega)] at this
          exact absurd this.symm hn.2.1
      subst hkj
      have hv := h k
      simp only [Memory.read, if_true] at hv
      subst hv
      congr 1
      apply ih hm.2.2 hn.2.2
      intro a
      by_cases ha : a = k
      · rw [Memory.read_above hm.2.2 (by omega), Memory.read_above hn.2.2 (by omega)]
      · simpa [Memory.read, ha] using h a

end Sys2Proof.Machine
end

