-- ==== Sys2Proof/Laws/Transitions.lean ====
section
/-! SUPPORT. What one atomic transition leaves alone, and how an invariant is carried through the run of an instruction (spec/40_clock_sync.md R204-R216). -/

set_option maxRecDepth 100000

namespace Sys2Proof.Machine

/-- What counting and delivering the Clock's ticks may change: the count, the accumulators, the owed counters (spec/40). -/
structure Counts (s t : State) : Prop where
  rest : ∀ c ds a b d, { t with clock := c, dividers := ds, cpuUnit := a, ppuUnit := b, soundUnit := d } =
    ({ s with clock := c, dividers := ds, cpuUnit := a, ppuUnit := b, soundUnit := d } : State)
  listeners : t.clock.listeners = s.clock.listeners
  running : t.clock.running = s.clock.running
  disposed : t.clock.disposed = s.clock.disposed
  gates : ∀ u, (t.unit u).paused = (s.unit u).paused ∧ (t.unit u).disposed = (s.unit u).disposed ∧ (t.unit u).policy = (s.unit u).policy
  dlen : t.dividers.length = s.dividers.length
  dshape : ∀ (i : Nat) (d' : Divider), t.dividers[i]? = some d' → ∃ d : Divider, s.dividers[i]? = some d ∧ d'.num = d.num ∧ d'.den = d.den ∧ d'.children = d.children ∧ d'.parent = d.parent ∧
    (d.ok = true → d'.ok = true)
  owed : ∀ u, (s.unit u).owed ≤ s.params.owedMax → (t.unit u).owed ≤ s.params.owedMax

theorem Counts.refl (s) : Counts s s := ⟨fun _ _ _ _ _ => rfl, rfl, rfl, rfl, fun _ => ⟨rfl, rfl, rfl⟩, rfl, fun _ d h => ⟨d, h, rfl, rfl, rfl, rfl, id⟩, fun _ => id⟩

theorem Counts.params {s t} (h : Counts s t) : t.params = s.params := by have := congrArg State.params (h.rest s.clock [] s.cpuUnit s.ppuUnit s.soundUnit); exact this

theorem Counts.trans {s t u} (h : Counts s t) (k : Counts t u) : Counts s u := by
  refine ⟨fun c ds a b d => (k.rest c ds a b d).trans (h.rest c ds a b d), k.listeners.trans h.listeners, k.running.trans h.running, k.disposed.trans h.disposed, ?_, k.dlen.trans h.dlen, ?_, ?_⟩
  · intro u; have := h.gates u; have := k.gates u; simp_all
  · intro i d'' h2
    obtain ⟨d', h1, a1, a2, a3, a4, a5⟩ := k.dshape i d'' h2
    obtain ⟨d, h0, b1, b2, b3, b4, b5⟩ := h.dshape i d' h1
    exact ⟨d, h0, a1.trans b1, a2.trans b2, a3.trans b3, a4.trans b4, a5 ∘ b5⟩
  · intro u ho; have := k.owed u; rw [h.params] at this; exact this (h.owed u ho)

/-- The dividers' divisors, children and parents stay. -/
theorem Counts.shapes {s t} (h : Counts s t) :
    (t.dividers.map fun d => (d.num, d.den, d.children, d.parent)) = s.dividers.map fun d => (d.num, d.den, d.children, d.parent) := by
  apply List.ext_getElem?
  intro i
  simp only [List.getElem?_map]
  cases ht : t.dividers[i]? with
  | none =>
    have : s.dividers[i]? = none := by
      rw [List.getElem?_eq_none_iff] at ht ⊢; rw [← h.dlen]; exact ht
    rw [this]
  | some d' =>
    obtain ⟨d, hd, h1, h2, h3, h4, -⟩ := h.dshape i d' ht
    rw [hd]; simp only [Option.map_some, h1, h2, h3, h4]

/-- What each delivery of a list keeps, the whole list keeps. -/
theorem deliverEach_done {P : State → State → Prop} (hr : ∀ s, P s s) (ht : ∀ {s t u}, P s t → P t u → P s u)
    {f : Listener → State → Delivery} (hf : ∀ l s t, f l s = .done t → P s t) (ls : List Listener) {s t : State}
    (h : deliverEach f ls s = .done t) : P s t := by
  induction ls generalizing s with
  | nil => cases h; exact hr _
  | cons l rest ih =>
    unfold deliverEach at h
    cases hl : f l s with
    | done u => rw [hl] at h; exact ht (hf l s u hl) (ih h)
    | overflow u => rw [hl] at h; cases h
    | endless => rw [hl] at h; cases h

theorem deliverUnit_counts {u s t} (h : deliverUnit u s = .done t) : Counts s t := by
  unfold deliverUnit at h
  split at h
  · cases h; exact .refl _
  · split at h
    · cases h
    · rename_i hd ho
      cases h
      cases u <;> refine ⟨fun _ _ _ _ _ => rfl, rfl, rfl, rfl, fun u => by cases u <;> exact ⟨rfl, rfl, rfl⟩, rfl, fun _ d h => ⟨d, h, rfl, rfl, rfl, rfl, id⟩, fun u h => ?_⟩ <;>
      cases u <;> (first | exact h | (simp only [State.unit, State.mapUnit] at ho h ⊢; omega))

theorem feed_ok {law : Config.DividerLaw} {d : Divider} (h : d.ok = true) : (d.feed law).1.ok = true := by
  have hm := Nat.mod_lt (d.acc + d.den) (show 0 < d.num by
    simp only [Divider.ok, Bool.and_eq_true, decide_eq_true_eq] at h; exact h.1.1)
  cases law with
  | every =>
    simp only [Divider.feed, Divider.ok, Bool.and_eq_true, Bool.or_eq_true, decide_eq_true_eq] at h ⊢
    exact ⟨⟨decide_eq_true h.1.1, decide_eq_true h.1.2⟩, .inr (decide_eq_true hm)⟩
  | once =>
    by_cases hc : d.num ≤ d.acc + d.den
    · simp only [Divider.feed, hc, if_true, Divider.ok, Bool.and_eq_true, Bool.or_eq_true, decide_eq_true_eq] at h ⊢
      omega
    · simp only [Divider.feed, hc, if_false, Divider.ok, Bool.and_eq_true, Bool.or_eq_true, decide_eq_true_eq] at h ⊢
      omega

/-- A divider that is fed keeps its divisor, children and parent. -/
theorem feed_shape (law : Config.DividerLaw) (d : Divider) : (d.feed law).1.num = d.num ∧ (d.feed law).1.den = d.den ∧
    (d.feed law).1.children = d.children ∧ (d.feed law).1.parent = d.parent := by
  cases law
  · unfold Divider.feed; dsimp only; split <;> exact ⟨rfl, rfl, rfl, rfl⟩
  · exact ⟨rfl, rfl, rfl, rfl⟩

theorem feed_counts (law : Config.DividerLaw) (s : State) (i : Nat) (d : Divider) (h : s.dividers[i]? = some d) :
    Counts s (s.setDividers (s.dividers.set i (d.feed law).1)) := by
  refine ⟨fun _ _ _ _ _ => rfl, rfl, rfl, rfl, fun u => by cases u <;> exact ⟨rfl, rfl, rfl⟩, by simp [State.setDividers], ?_, fun u h => by cases u <;> exact h⟩
  intro j d' hj
  simp only [State.setDividers, List.getElem?_set] at hj
  split at hj
  · subst_vars
    split at hj
    · cases hj
      obtain ⟨h1, h2, h3, h4⟩ := feed_shape law d
      exact ⟨d, h, h1, h2, h3, h4, feed_ok⟩
    · cases hj
  · exact ⟨d', hj, rfl, rfl, rfl, rfl, id⟩

theorem deliver_counts (n l s t) (h : deliver n l s = .done t) : Counts s t := by
  induction n generalizing l s t with
  | zero =>
    cases l with
    | unit u => exact deliverUnit_counts h
    | divider i => cases h
  | succ n ih =>
    cases l with
    | unit u => exact deliverUnit_counts h
    | divider i =>
      simp only [deliver] at h
      split at h
      · cases h; exact .refl _
      · rename_i d hd
        exact (feed_counts _ s i d hd).trans (deliverEach_done Counts.refl Counts.trans ih _ h)

/-- Everything an emit step can do: count, deliver, or, where the delivery never ends, nothing. -/
theorem emit_cases {s t} (h : emit s = .next t) :
    deliverEach (deliver s.deliveryDepth) s.clock.listeners
      (s.mapClock fun c => { c with tickCount := c.tickCount + 1 }) = .done t ∨ t = s := by
  unfold emit at h
  split at h
  · cases h; exact .inl ‹_›
  · cases h
  · cases h; exact .inr rfl

theorem emit_counts {s t} (h : emit s = .next t) : Counts s t := by
  rcases emit_cases h with h | rfl
  · refine .trans ?_ (deliverEach_done Counts.refl Counts.trans (deliver_counts _) _ h)
    exact ⟨fun _ _ _ _ _ => rfl, rfl, rfl, rfl, fun u => by cases u <;> exact ⟨rfl, rfl, rfl⟩, rfl, fun _ d h => ⟨d, h, rfl, rfl, rfl, rfl, id⟩, fun u h => by cases u <;> exact h⟩
  · exact .refl _

theorem Counts.get {s t} (h : Counts s t) {α} (f : State → α) (hf : ∀ s c ds a b d, f s = f { s with clock := c, dividers := ds, cpuUnit := a, ppuUnit := b, soundUnit := d }) : f t = f s := by
  rw [hf t s.clock s.dividers s.cpuUnit s.ppuUnit s.soundUnit, h.rest, ← hf]

/-- What a transition that is not a CPU tick leaves alone. -/
structure Quiet (s t : State) : Prop where
  keeps : Keeps s t
  cpu : t.cpu = s.cpu
  cpuDisposed : s.cpuUnit.disposed = true → t.cpuUnit.disposed = true
  clockDisposed : s.clock.disposed = true → t.clock.disposed = true

theorem Quiet.refl (s) : Quiet s s := ⟨.refl s, rfl, id, id⟩

theorem Quiet.trans {s t u} (h : Quiet s t) (k : Quiet t u) : Quiet s u := ⟨h.keeps.trans k.keeps, k.cpu.trans h.cpu, k.cpuDisposed ∘ h.cpuDisposed, k.clockDisposed ∘ h.clockDisposed⟩

theorem Counts.quiet {s t} (h : Counts s t) : Quiet s t :=
  ⟨.of_eq h.params (h.get State.pend fun _ _ _ _ _ _ => rfl), h.get State.cpu fun _ _ _ _ _ _ => rfl, fun hd => ((h.gates .cpu).2.1).trans hd, fun hd => h.disposed.trans hd⟩

theorem Blind.quiet {f : State → State} (b : Blind f) (s) (h : Keeps s (f s)) : Quiet s (f s) :=
  ⟨h, b.cpu s, by rw [b.cpuUnit s]; exact id, by rw [b.clock s]; exact id⟩

theorem undone_eq_next {s : State} {r : Result} {t} (h : undone s r = .next t) : r = .next t := by
  cases r with
  | next u => exact h
  | fault f => cases h
  | refused q => cases h

theorem guarded_next {s : State} {r : Result} {t} (h : guarded s r = .next t) : r = .next t ∧ desyncedUnit s = none := by
  unfold guarded at h; split at h
  · cases h
  · exact ⟨undone_eq_next h, ‹_›⟩

theorem consume_quiet (u s) : Quiet s (consume u s) := by
  cases u <;> exact ⟨.of_eq rfl rfl, rfl, id, id⟩

theorem hostOp_quiet {op s t} (h : hostOp op s = .done t) : Quiet s t := by
  cases op with
  | addListener p l =>
    cases h; unfold addListener; split
    · exact ⟨.of_eq rfl rfl, rfl, id, id⟩
    · split <;> exact ⟨.of_eq rfl rfl, rfl, id, id⟩
  | newDivider p n d =>
    simp only [hostOp, newDivider] at h
    split at h
    · cases h
    · cases h; unfold addListener; split
      · exact ⟨.of_eq rfl rfl, rfl, id, id⟩
      · split <;> exact ⟨.of_eq rfl rfl, rfl, id, id⟩
  | start =>
    simp only [hostOp, startClock] at h
    split at h
    · cases h
    · split at h
      · cases h
      · cases h; exact ⟨.of_eq rfl rfl, rfl, id, id⟩
  | disposeClock => cases h; exact ⟨.of_eq rfl rfl, rfl, id, fun _ => rfl⟩
  | pause u => cases h; cases u <;> exact ⟨.of_eq rfl rfl, rfl, id, id⟩
  | resume u => cases h; cases u <;> exact ⟨.of_eq rfl rfl, rfl, id, id⟩
  | disposeUnit u => cases h; cases u <;> first | exact ⟨.of_eq rfl rfl, rfl, id, id⟩ | exact ⟨.of_eq rfl rfl, rfl, fun _ => rfl, id⟩
  | addComponent c r =>
    cases r with
    | none => cases h; exact ⟨.of_eq rfl rfl, rfl, id, id⟩
    | some r =>
      obtain ⟨lo, hi⟩ := r
      simp only [hostOp, addComponent] at h
      by_cases hh : hi < lo
      · simp [hh] at h
      · simp [hh] at h; subst h; exact ⟨.of_eq rfl rfl, rfl, id, id⟩
  | removeComponent c => cases h; exact ⟨.of_eq rfl rfl, rfl, id, id⟩
  | busReset => cases h; exact Blind.quiet busReset_blind s (keeps_closed.busReset s)
  | busIrq => cases h; exact Blind.quiet busIrq_blind s (keeps_closed.busIrq s)
  | busNmi => cases h; exact Blind.quiet busNmi_blind s (keeps_closed.busNmi s)
  | busRead a =>
    cases h
    have b := busReadVia_blind quietRun_blind a
    exact ⟨keeps_closed.busReadVia keeps_closed.quietRun a s, b.cpu s, by rw [b.cpuUnit s]; exact id, by rw [b.clock s]; exact id⟩
  | busWrite a v =>
    cases h
    exact Blind.quiet (busWriteVia_blind quietRun_blind a v) s (keeps_closed.writeMatchesVia keeps_closed.quietRun a v s.bus s)
  | keyDown p b => cases h; exact ⟨.of_eq rfl rfl, rfl, id, id⟩
  | keyUp p b => cases h; exact ⟨.of_eq rfl rfl, rfl, id, id⟩
  | load c =>
    cases c with
    | none => cases h
    | some c => cases h; exact ⟨.of_eq rfl rfl, rfl, id, id⟩
  | registerSink => cases h; exact ⟨.of_eq rfl rfl, rfl, id, id⟩
  | getPixels => cases h; exact .refl _
  | getSample c a b => cases h; exact ⟨.of_eq rfl rfl, rfl, id, id⟩

theorem hostStep_cases {op s t} (h : hostStep op s = .next t) : t = s ∨ hostOp op s = .done t := by
  unfold hostStep at h; split at h
  · cases h; right; assumption
  · split at h
    · cases h
    · cases h; left; rfl

theorem fire_quiet {T e s t} (he : e ≠ .unit .cpu) (h : fire T e s = .next t) : Quiet s t := by
  cases e with
  | emit => exact (emit_counts (guarded_next h).1).quiet
  | host op =>
    rcases hostStep_cases (guarded_next h).1 with rfl | h
    · exact .refl _
    · exact hostOp_quiet h
  | unit u =>
    have h := (guarded_next h).1
    cases u with
    | cpu => exact absurd rfl he
    | ppu => cases h; exact (consume_quiet .ppu s).trans (Blind.quiet ppuHandler_dot.blind _ (ppuHandler_keeps _))
    | sound => cases h; exact (consume_quiet .sound s).trans (Blind.quiet (fun c s => afterSound_blind _ c s) _ (soundTick_keeps _))

theorem defaultEvent_enabled {s e} (h : defaultEvent s = some e) : enabled e s = true := by
  unfold defaultEvent at h
  split at h
  · cases h; rename_i u hu; have := List.find?_some hu; exact this
  · split at h
    · cases h; assumption
    · cases h

theorem nextEvent_enabled {s : State} {es e rest} (h : nextEvent s es = (some e, rest)) : enabled e s = true := by
  induction es with
  | nil => simp only [nextEvent, Prod.mk.injEq] at h; exact defaultEvent_enabled h.1
  | cons a r ih =>
    simp only [nextEvent] at h
    split at h
    · cases h; assumption
    · exact ih h

theorem setSchedule_quiet (es s) : Quiet s (s.setSchedule es) := ⟨.of_eq rfl rfl, rfl, id, id⟩

theorem andThen_next {r : Result} {f : State → Result} {t} (h : andThen r f = .next t) : ∃ s, r = .next s ∧ f s = .next t := by
  cases r with
  | next s => exact ⟨s, rfl, h⟩
  | fault => cases h
  | refused => cases h

/-- The transitions up to and with the next CPU tick: one more, or the tick itself. -/
theorem untilCpuTick_cases {T n s t} (h : untilCpuTick T n s = .next t) :
    Quiet s t ∨ ∃ r, Quiet s r ∧ unitEnabled .cpu r = true ∧ desyncedUnit r = none ∧ cpuHandler T (consume .cpu r) = .next t := by
  induction n generalizing s with
  | zero => cases h; exact .inl (.refl _)
  | succ n ih =>
    simp only [untilCpuTick] at h
    split at h
    · cases h; exact .inl (setSchedule_quiet _ _)
    · rename_i rest he
      have := guarded_next h
      exact .inr ⟨s.setSchedule rest, setSchedule_quiet _ _, nextEvent_enabled he, this.2, this.1⟩
    · rename_i e rest hne he
      obtain ⟨u, hu, h⟩ := andThen_next h
      have hq := (setSchedule_quiet rest s).trans (fire_quiet (by rintro rfl; exact hne rfl) hu)
      rcases ih h with h | ⟨r, h1, h2⟩
      · exact .inl (hq.trans h)
      · exact .inr ⟨r, hq.trans h1, h2⟩

/-- An invariant that quiet transitions and the table's own ticks keep holds after a run of the table. -/
theorem runTicks_inv {T} {I : State → Prop} (hq : ∀ s t, I s → Quiet s t → I t)
    (hc : ∀ s t, I s → s.cpu.eng.atRest = false → unitEnabled .cpu s = true → cpuHandler T (consume .cpu s) = .next t → I t)
    {n s t} (hs : I s) (ha : s.cpu.eng.atRest = false) (h : runTicks T n s = .next t) : I t := by
  induction n generalizing s with
  | zero => cases h; exact hs
  | succ n ih =>
    simp only [runTicks] at h
    obtain ⟨u, hu, h⟩ := andThen_next h
    have hI : I u := by
      rcases untilCpuTick_cases hu with hu | ⟨r, h1, h2, _, h3⟩
      · exact hq _ _ hs hu
      · exact hc r u (hq _ _ hs h1) (by rw [h1.cpu]; exact ha) h2 h3
    split at h
    · cases h; exact hI
    · rename_i hr
      simp only [Bool.or_eq_true, not_or, Bool.not_eq_true] at hr
      exact ih hI hr.1 h

theorem exec_run {i : Instr} {s t} (h : exec i s = .next t) : run i (tableOf i) s = .next t := by
  cases i with
  | una op =>
    have h : execUna op s = .next t := h
    unfold execUna at h; split at h
    · cases h
    · exact h
  | _ => exact h

/-- A relation between the state before a tick and the state it leaves, however the tick ends. -/
def TickEnd.rel (R : State → State → Prop) (s : State) : TickEnd → Prop
  | .more _ t => R s t
  | .done t => R s t

/-- The end of a DMA tick sets the DMA state, at most. -/
theorem stepDma_eq (d : Byte) (s : State) : ∃ x, stepDma d s = s.setDma x := by
  unfold stepDma
  split
  · exact ⟨_, rfl⟩
  · exact ⟨s.dma, rfl⟩
  · exact ⟨s.dma, rfl⟩

@[simp] theorem stepDma_cpu (d : Byte) (s : State) : (stepDma d s).cpu = s.cpu := by
  obtain ⟨x, hx⟩ := stepDma_eq d s; rw [hx]; rfl

@[simp] theorem stepDma_schedule (d : Byte) (s : State) : (stepDma d s).schedule = s.schedule := by
  obtain ⟨x, hx⟩ := stepDma_eq d s; rw [hx]; rfl

theorem dmaTick_cpu (p k d s) : (dmaTick p k d s).cpu = s.cpu := by
  unfold dmaTick; split; exact stepDma_cpu _ _; dsimp only; split
  · rw [stepDma_cpu]; exact busRead_cpu _ _
  · rw [stepDma_cpu]; exact busWrite_cpu _ _ _

theorem startDma_cpu (p n s) : (startDma p n s).cpu = s.cpu := dmaTick_cpu _ _ _ _

/-- What an invariant must be kept by, for a run of the table to keep it. -/
structure RunInvariant (I : State → Prop) (T : Table) : Prop where
  quiet : ∀ s t, I s → Quiet s t → I t
  tick : ∀ k ∈ T, ∀ lat s, I s → I (k.act lat s).state
  eng : ∀ s e, I s → I (setEng e s)
  cyc : ∀ s, I s → I (s.mapCpu Cpu.tick)
  dma : ∀ p k d s, I s → I (dmaTick p k d s)
  setDma : ∀ d s, I s → I (s.setDma d)

theorem run_inv {T i} {I : State → Prop} (hI : RunInvariant I T) {s t} (hs : I s) (h : run i T s = .next t) : I t ∧ i.wf = true := by
  unfold run at h
  split at h
  · rename_i hw
    refine ⟨?_, hw⟩
    have key : ∀ n s t, I s → (∃ op k l, s.cpu.eng = .inInstr op k l) → runTicks T n s = .next t → I t := by
      intro n s t hs he h
      refine (runTicks_inv (T := T) (I := fun s => I s ∧ ((∃ op k l, s.cpu.eng = .inInstr op k l) ∨ s.cpu.eng = .boundary)) ?_ ?_ ⟨hs, .inl he⟩ ?_ h).1
      · intro s t hs hq; exact ⟨hI.quiet s t hs.1 hq, by rw [hq.cpu]; exact hs.2⟩
      · rintro s t ⟨hs, he⟩ ha hu h
        rcases he with ⟨op, k, l, he⟩ | he
        · have h0 : I ((consume .cpu s).mapCpu Cpu.tick) := hI.cyc _ (hI.quiet _ _ hs (consume_quiet _ _))
          have heng : ((consume .cpu s).mapCpu Cpu.tick).cpu.eng = .inInstr op k l := he
          have hE : ∀ t, engineTick T ((consume .cpu s).mapCpu Cpu.tick) = .next t → I t ∧ ((∃ op k l, t.cpu.eng = .inInstr op k l) ∨ t.cpu.eng = .boundary) := by
            intro t h
            simp only [engineTick, heng, instrTick, runTick] at h
            cases hk : T[k-2]? with
            | none => rw [hk] at h; cases h; exact ⟨hI.eng _ _ h0, .inr rfl⟩
            | some q =>
              rw [hk] at h
              have := hI.tick q (List.mem_of_getElem? hk) l _ h0
              dsimp only at h
              cases ht : q.act l ((consume .cpu s).mapCpu Cpu.tick) with
              | more l' u => rw [ht] at h this; cases h; exact ⟨hI.eng _ _ this, .inl ⟨_, _, _, rfl⟩⟩
              | done u => rw [ht] at h this; cases h; exact ⟨hI.eng _ _ this, .inr rfl⟩
          unfold cpuHandler at h
          dsimp only at h
          split at h
          · cases h
            exact ⟨hI.dma _ _ _ _ h0, by rw [dmaTick_cpu]; exact .inl ⟨op, k, l, he⟩⟩
          · split at h
            · exact hE t h
            · cases h
              exact ⟨hI.dma _ _ _ _ (hI.setDma _ _ h0), by rw [startDma_cpu]; exact .inl ⟨op, k, l, he⟩⟩
          · exact hE t h
        · rw [he] at ha; cases ha
      · obtain ⟨op, k, l, he⟩ := he; rw [he]; rfl
    exact key _ _ _ (hI.eng _ _ hs) ⟨_, _, _, rfl⟩ h
  · cases h

/-- An invariant of the registers alone, blind to the engine's place and the cycle count. -/
theorem regs_inv {T : Table} {A : Cpu → Prop} (hT : ∀ k ∈ T, ∀ lat s, A s.cpu → A (k.act lat s).state.cpu)
    (he : ∀ c e, A c → A { c with eng := e }) (hn : ∀ c n, A c → A { c with cycles := n }) : RunInvariant (fun s => A s.cpu) T where
  quiet s t h q := by rw [q.cpu]; exact h
  tick k hk lat s h := hT k hk lat s h
  eng s e h := he _ _ h
  cyc s h := hn _ _ h
  dma p k d s h := by rw [dmaTick_cpu]; exact h
  setDma d s h := h

end Sys2Proof.Machine
end

