-- ==== Sys2Proof/Laws/RegisterFrames.lean ====
section
/-! SUPPORT. Which registers and flags each tick table leaves alone. -/

set_option maxRecDepth 100000

namespace Sys2Proof.Machine

/-- The tick leaves one view of the registers as it was. -/
def TickKeeps {α : Type} (f : Cpu → α) (t : Tick) : Prop := ∀ lat s, f (t.act lat s).state.cpu = f s.cpu

/-- Every tick of the table leaves that view as it was. -/
def TableKeeps {α : Type} (f : Cpu → α) (T : Table) : Prop := ∀ k ∈ T, TickKeeps f k

/-- What every tick of its table keeps, an instruction keeps. -/
theorem exec_keep {α : Type} {f : Cpu → α} (he : ∀ c e, f { c with eng := e } = f c) (hn : ∀ c n, f { c with cycles := n } = f c) {i : Instr} {s t}
    (hT : TableKeeps f (tableOf i)) (h : exec i s = .next t) : f t.cpu = f s.cpu :=
  (run_inv (I := fun u => f u.cpu = f s.cpu) (regs_inv (A := fun c => f c = f s.cpu) (fun k hk lat u hu => (hT k hk lat u).trans hu) (fun c e h => (he c e).trans h) (fun c n h => (hn c n).trans h)) rfl (exec_run h)).1

theorem keep_cons {α : Type} {f : Cpu → α} {k T} (h : TickKeeps f k) (hT : TableKeeps f T) : TableKeeps f (k :: T) := by
  intro j hj; rcases List.mem_cons.mp hj with rfl | hj; exact h; exact hT j hj

theorem keep_nil {α : Type} {f : Cpu → α} : TableKeeps f [] := fun _ h => absurd h List.not_mem_nil

section

variable {α : Type} {f : Cpu → α} (hpc : ∀ c v, f (Cpu.setPc v c) = f c)

include hpc

theorem keepTick_fetch (s : State) : f (fetchByte s).2.cpu = f s.cpu := by
  show f (Cpu.setPc _ _) = _
  rw [hpc, busRead_cpu]

theorem keepTick_fetchZp : TickKeeps f fetchZp := fun _ s => keepTick_fetch hpc s

theorem keepTick_fetchPtr : TickKeeps f fetchPtr := fun _ s => keepTick_fetch hpc s

theorem keepTick_fetchLo : TickKeeps f fetchLo := fun _ s => keepTick_fetch hpc s

theorem keepTick_fetchHi : TickKeeps f fetchHi := fun _ s => keepTick_fetch hpc s

theorem keepTick_fetchHiIndexed (m) : TickKeeps f (fetchHiIndexed m) := fun _ s => keepTick_fetch hpc s

omit hpc in
theorem keepTick_dummy (a) (s : State) : f (dummyRead a s).cpu = f s.cpu := by rw [dummyRead_cpu]

omit hpc in
theorem keepTick_bus (a) (s : State) : f (busRead a s).2.cpu = f s.cpu := by rw [busRead_cpu]

omit hpc in
theorem keepTick_indexZp (m) : TickKeeps f (indexZp m) := fun _ s => keepTick_dummy _ s

omit hpc in
theorem keepTick_indexPtr : TickKeeps f indexPtr := fun _ s => keepTick_dummy _ s

omit hpc in
theorem keepTick_pointerLo : TickKeeps f pointerLo := fun _ s => keepTick_bus _ s

omit hpc in
theorem keepTick_pointerHi : TickKeeps f pointerHi := fun _ s => keepTick_bus _ s

omit hpc in
theorem keepTick_pointerHiIndexed : TickKeeps f pointerHiIndexed := fun _ s => keepTick_bus _ s

omit hpc in
theorem keepTick_correct : TickKeeps f correct := fun _ s => keepTick_dummy _ s

omit hpc in
theorem keepTick_loadData : TickKeeps f loadData := fun _ s => keepTick_bus _ s

omit hpc in
theorem keepTick_idle : TickKeeps f idleRead := fun _ s => keepTick_dummy _ s

omit hpc in
theorem keepTick_store (val) : TickKeeps f (storeOperand val) := fun _ s => by show f (busWrite _ _ s).cpu = _; rw [busWrite_cpu]

omit hpc in
theorem keepTick_storeData : TickKeeps f storeData := fun _ s => by show f (busWrite _ _ s).cpu = _; rw [busWrite_cpu]

theorem keep_read (m) {op : ReadOp} (ho : ∀ v c, f (op v c) = f c) : TableKeeps f (readForm m op) := by
  have h1 : TickKeeps f (readOperand op) := fun _ s => by show f (op _ (busRead _ s).2.cpu) = _; rw [ho, busRead_cpu]
  have h2 : TickKeeps f (readOrCorrect op) := by
    intro lat s
    unfold readOrCorrect
    dsimp only
    split
    · exact keepTick_dummy _ s
    · exact h1 lat s
  have h3 : TickKeeps f ⟨false, fun _ s => let r := fetchByte s; .done (r.2.mapCpu (op r.1))⟩ := fun _ s => by
    show f (op _ (fetchByte s).2.cpu) = _; rw [ho, keepTick_fetch hpc]
  intro k hk
  cases m <;> simp only [readForm, List.mem_cons, List.not_mem_nil, or_false] at hk <;>
    (first | exact hk.elim | rcases hk with rfl | rfl | rfl | rfl | rfl) <;>
    first
    | exact h3 | exact keepTick_fetchZp hpc | exact keepTick_fetchPtr hpc | exact keepTick_indexZp _ | exact keepTick_fetchLo hpc
    | exact keepTick_fetchHi hpc | exact keepTick_fetchHiIndexed hpc _ | exact keepTick_indexPtr | exact keepTick_pointerLo
    | exact keepTick_pointerHi | exact keepTick_pointerHiIndexed | exact h1 | exact h2

theorem keep_write (m) (val : Cpu → Byte) : TableKeeps f (writeForm m val) := by
  intro k hk
  cases m <;> simp only [writeForm, List.mem_cons, List.not_mem_nil, or_false] at hk <;>
    (first | exact hk.elim | rcases hk with rfl | rfl | rfl | rfl | rfl) <;>
    first
    | exact keepTick_fetchZp hpc | exact keepTick_fetchPtr hpc | exact keepTick_indexZp _ | exact keepTick_fetchLo hpc
    | exact keepTick_fetchHi hpc | exact keepTick_fetchHiIndexed hpc _ | exact keepTick_indexPtr | exact keepTick_pointerLo
    | exact keepTick_pointerHi | exact keepTick_pointerHiIndexed | exact keepTick_correct | exact keepTick_store _

theorem keep_rmw (m) {mod : ModOp} (ho : ∀ v c, f (mod v c).2 = f c) (hacc : m = .acc → ∀ v c, f (c.setA v) = f c) : TableKeeps f (rmwForm m mod) := by
  have hm : TickKeeps f (modifyData mod) := fun _ s => by
    show f (mod _ (dummyWrite _ _ s).cpu).2 = _; rw [ho, dummyWrite_cpu]
  have hr : TableKeeps f (rmwTicks mod) := keep_cons keepTick_loadData (keep_cons hm (keep_cons keepTick_storeData keep_nil))
  cases m with
  | acc =>
    refine keep_cons ?_ keep_nil
    intro lat s
    show f (Cpu.setA _ (mod _ (dummyRead _ s).cpu).2) = _
    rw [hacc rfl, ho, dummyRead_cpu]
  | zp => exact keep_cons (keepTick_fetchZp hpc) hr
  | zpx => exact keep_cons (keepTick_fetchPtr hpc) (keep_cons (keepTick_indexZp _) hr)
  | abs => exact keep_cons (keepTick_fetchLo hpc) (keep_cons (keepTick_fetchHi hpc) hr)
  | absx => exact keep_cons (keepTick_fetchLo hpc) (keep_cons (keepTick_fetchHiIndexed hpc _) (keep_cons keepTick_correct hr))
  | _ => exact keep_nil

omit hpc in
theorem keep_implied {op : Cpu → Cpu} (ho : ∀ c, f (op c) = f c) : TableKeeps f (impliedForm op) := by
  refine keep_cons ?_ keep_nil
  intro lat s
  show f (op (dummyRead _ s).cpu) = _
  rw [ho, dummyRead_cpu]

theorem keep_branch (cond) : TableKeeps f (branchForm cond) := by
  refine keep_cons ?_ (keep_cons ?_ (keep_cons ?_ keep_nil))
  · intro lat s; dsimp only; split <;> exact keepTick_fetch hpc s
  · intro lat s; dsimp only; split
    · exact keepTick_dummy _ s
    · show f (Cpu.setPc _ (dummyRead _ s).cpu) = _; rw [hpc, dummyRead_cpu]
  · intro lat s; show f (Cpu.setPc _ (dummyRead _ s).cpu) = _; rw [hpc, dummyRead_cpu]

theorem keep_jmp (m) : TableKeeps f (jmpTicks m) := by
  have hl : ∀ (g : State → Addr) (v : Lat → State → Addr), TickKeeps f ⟨false, fun lat s => .done ((busRead (g s) s).2.mapCpu (Cpu.setPc (v lat s)))⟩ := fun g v lat s => by
    show f (Cpu.setPc _ (busRead _ s).2.cpu) = _; rw [hpc, busRead_cpu]
  cases m with
  | abs =>
    refine keep_cons (keepTick_fetchLo hpc) (keep_cons ?_ keep_nil)
    intro lat s; show f (Cpu.setPc _ (busRead _ s).2.cpu) = _; rw [hpc, busRead_cpu]
  | ind =>
    refine keep_cons (keepTick_fetchLo hpc) (keep_cons (keepTick_fetchHi hpc) (keep_cons (fun _ s => keepTick_bus _ s) (keep_cons ?_ keep_nil)))
    intro lat s; show f (Cpu.setPc _ (busRead _ s).2.cpu) = _; rw [hpc, busRead_cpu]
  | _ => exact keep_nil

variable (hsp : ∀ c v, f (Cpu.setSp v c) = f c)

include hsp

omit hpc in
theorem keepTick_push (v) (s : State) : f (push v s).cpu = f s.cpu := by
  show f (Cpu.setSp _ (busWrite _ _ s).cpu) = _; rw [hsp, busWrite_cpu]

omit hpc in
theorem keepTick_openPull (s : State) : f (openPull s).cpu = f s.cpu := by
  show f (Cpu.setSp _ (dummyRead _ s).cpu) = _; rw [hsp, dummyRead_cpu]

omit hpc in
omit hsp in
theorem keepTick_readStack (s : State) : f (readStack s).2.cpu = f s.cpu := keepTick_bus _ s

theorem keep_jsr : TableKeeps f jsrTicks := by
  refine keep_cons (keepTick_fetchLo hpc) (keep_cons (fun _ s => keepTick_dummy _ s) (keep_cons (fun _ s => keepTick_push hsp _ s) (keep_cons (fun _ s => keepTick_push hsp _ s) (keep_cons ?_ keep_nil))))
  intro lat s; show f (Cpu.setPc _ (busRead _ s).2.cpu) = _; rw [hpc, busRead_cpu]

theorem keep_rts : TableKeeps f rtsTicks := by
  refine keep_cons keepTick_idle (keep_cons (fun _ s => keepTick_openPull hsp s) (keep_cons ?_ (keep_cons ?_ (keep_cons ?_ keep_nil))))
  · intro lat s; show f (Cpu.setSp _ (readStack s).2.cpu) = _; rw [hsp]; exact keepTick_bus _ s
  · intro lat s; show f (Cpu.setPc _ (readStack s).2.cpu) = _; rw [hpc]; exact keepTick_bus _ s
  · intro lat s; show f (Cpu.setPc _ (dummyRead _ s).cpu) = _; rw [hpc, dummyRead_cpu]

theorem keep_take (st) (hi : ∀ c, f (Cpu.putFlag .i true c) = f c) : TableKeeps f (takeInterrupt st) := by
  refine keep_cons (fun _ s => keepTick_push hsp _ s) (keep_cons (fun _ s => keepTick_push hsp _ s) (keep_cons (fun _ s => keepTick_push hsp _ s) (keep_cons ?_ (keep_cons ?_ keep_nil))))
  · intro lat s; show f (Cpu.putFlag _ _ (busRead _ s).2.cpu) = _; rw [hi, busRead_cpu]
  · intro lat s; show f (Cpu.setPc _ (busRead _ s).2.cpu) = _; rw [hpc, busRead_cpu]

theorem keep_brk (hi : ∀ c, f (Cpu.putFlag .i true c) = f c) : TableKeeps f brkTicks := by
  refine keep_cons ?_ (keep_take hpc hsp _ hi)
  intro lat s; show f (Cpu.setPc _ (dummyRead _ s).cpu) = _; rw [hpc, dummyRead_cpu]

theorem keep_rti (hp : ∀ c v, f (Cpu.setP (pushedByInterrupt v) c) = f c) : TableKeeps f rtiTicks := by
  refine keep_cons keepTick_idle (keep_cons (fun _ s => keepTick_openPull hsp s) (keep_cons ?_ (keep_cons ?_ (keep_cons ?_ keep_nil))))
  · intro lat s; show f (Cpu.setSp _ (Cpu.setP _ (readStack s).2.cpu)) = _; rw [hsp, hp]; exact keepTick_bus _ s
  · intro lat s; show f (Cpu.setSp _ (readStack s).2.cpu) = _; rw [hsp]; exact keepTick_bus _ s
  · intro lat s; show f (Cpu.setPc _ (readStack s).2.cpu) = _; rw [hpc]; exact keepTick_bus _ s

omit hpc in
theorem keep_pha : TableKeeps f phaTicks := keep_cons keepTick_idle (keep_cons (fun _ s => keepTick_push hsp _ s) keep_nil)

omit hpc in
theorem keep_php : TableKeeps f phpTicks := keep_cons keepTick_idle (keep_cons (fun _ s => keepTick_push hsp _ s) keep_nil)

omit hpc in
theorem keep_pla (ha : ∀ c v, f ((Cpu.setA v c).setNZ v) = f c) : TableKeeps f plaTicks := by
  refine keep_cons keepTick_idle (keep_cons (fun _ s => keepTick_openPull hsp s) (keep_cons ?_ keep_nil))
  intro lat s; show f ((Cpu.setA _ (readStack s).2.cpu).setNZ _) = _; rw [ha]; exact keepTick_bus _ s

omit hpc in
theorem keep_plp (hp : ∀ c v, f (Cpu.setP (pushedByInterrupt v) c) = f c) : TableKeeps f plpTicks := by
  refine keep_cons keepTick_idle (keep_cons (fun _ s => keepTick_openPull hsp s) (keep_cons ?_ keep_nil))
  intro lat s; show f (Cpu.setP _ (readStack s).2.cpu) = _; rw [hp]; exact keepTick_bus _ s

end

theorem push_sp (v s) : (push v s).cpu.sp = s.cpu.sp - 1 := by
  show (busWrite _ _ s).cpu.sp - 1 = _; rw [busWrite_cpu]

/-- The mask of a flag has that flag's bit and no other. -/
theorem Flag.mask_bit (f g : Flag) : g.mask.getLsbD f.bit = decide (f = g) := by cases f <;> cases g <;> rfl

theorem Flag.bit_lt (f : Flag) : f.bit < 8 := by cases f <;> decide

/-- A flag written is read back, and every other flag stays (R41). -/
theorem flag_putFlag (f g : Flag) (b : Bool) (p : Byte) : flag f (putFlag g b p) = if f = g then b else flag f p := by
  have hb := f.bit_lt
  unfold putFlag flag bitAt
  cases b
  · rw [if_neg (by decide), BitVec.getLsbD_and, BitVec.getLsbD_not, Flag.mask_bit]
    by_cases h : f = g <;> simp [h, hb]
  · rw [if_pos rfl, BitVec.getLsbD_or, Flag.mask_bit]
    by_cases h : f = g <;> simp [h]

theorem flag_put_of_ne {f g : Flag} (b) (c : Cpu) (h : f ≠ g) : flag f (c.putFlag g b).p = flag f c.p :=
  (flag_putFlag f g b c.p).trans (if_neg h)

theorem flag_setNZ_of_ne {f : Flag} (v) (c : Cpu) (h1 : f ≠ .n) (h2 : f ≠ .z) : flag f (c.setNZ v).p = flag f c.p := by
  unfold Cpu.setNZ; rw [flag_put_of_ne _ _ h1, flag_put_of_ne _ _ h2]

end Sys2Proof.Machine
end

