-- ==== Sys2Proof/Laws/MemoryFrames.lean ====
section
/-! SUPPORT. What a run leaves alone outside the processor when no host operation is scheduled, and what a bus write may store to. -/

set_option maxRecDepth 100000

namespace Sys2Proof.Machine

theorem untilCpuTick_invariant {T} {I : State → Prop}
    (hstep : ∀ s e rest t, I s → nextEvent s s.schedule = (some e, rest) → e ≠ .unit .cpu → fire T e (s.setSchedule rest) = .next t → I t)
    (hnone : ∀ s rest, I s → nextEvent s s.schedule = (none, rest) → I (s.setSchedule rest))
    (hcpu : ∀ s rest t, I s → s.cpu.eng.atRest = false → nextEvent s s.schedule = (some (.unit .cpu), rest) → fire T (.unit .cpu) (s.setSchedule rest) = .next t → I t)
    {n s t} (hs : I s) (ha : s.cpu.eng.atRest = false) (h : untilCpuTick T n s = .next t) : I t := by
  induction n generalizing s with
  | zero => cases h; exact hs
  | succ n ih =>
    simp only [untilCpuTick] at h
    split at h
    · cases h; exact hnone _ _ hs ‹_›
    · exact hcpu _ _ _ hs ha ‹_› h
    · rename_i e rest hne he
      obtain ⟨u, hu, h⟩ := andThen_next h
      have hn : e ≠ .unit .cpu := by rintro rfl; exact hne rfl
      exact ih (hstep _ _ _ _ hs he hn hu) (by rw [(fire_quiet hn hu).cpu]; exact ha) h

theorem runTicks_invariant {T} {I : State → Prop}
    (hstep : ∀ s e rest t, I s → nextEvent s s.schedule = (some e, rest) → e ≠ .unit .cpu → fire T e (s.setSchedule rest) = .next t → I t)
    (hnone : ∀ s rest, I s → nextEvent s s.schedule = (none, rest) → I (s.setSchedule rest))
    (hcpu : ∀ s rest t, I s → s.cpu.eng.atRest = false → nextEvent s s.schedule = (some (.unit .cpu), rest) → fire T (.unit .cpu) (s.setSchedule rest) = .next t → I t)
    {n s t} (hs : I s) (ha : s.cpu.eng.atRest = false) (h : runTicks T n s = .next t) : I t := by
  induction n generalizing s with
  | zero => cases h; exact hs
  | succ n ih =>
    simp only [runTicks] at h
    obtain ⟨u, hu, h⟩ := andThen_next h
    have hI : I u := untilCpuTick_invariant hstep hnone hcpu hs ha hu
    split at h
    · cases h; exact hI
    · rename_i hr
      simp only [Bool.or_eq_true, not_or, Bool.not_eq_true] at hr
      exact ih hI hr.1 h

/-- What emits, dots, sound steps and bus accesses leave alone. -/
structure Calm (s t : State) : Prop where
  schedule : t.schedule = s.schedule
  bus : t.bus = s.bus
  listeners : t.clock.listeners = s.clock.listeners
  running : t.clock.running = s.clock.running
  disposed : t.clock.disposed = s.clock.disposed
  dividers : (t.dividers.map fun d => (d.num, d.den, d.children, d.parent)) = s.dividers.map fun d => (d.num, d.den, d.children, d.parent)
  gates : ∀ u, (t.unit u).paused = (s.unit u).paused ∧ (t.unit u).disposed = (s.unit u).disposed ∧ (t.unit u).policy = (s.unit u).policy

theorem Calm.refl (s) : Calm s s := ⟨rfl, rfl, rfl, rfl, rfl, rfl, fun _ => ⟨rfl, rfl, rfl⟩⟩

theorem Calm.trans {s t u} (h : Calm s t) (k : Calm t u) : Calm s u := by
  refine ⟨k.1.trans h.1, k.2.trans h.2, k.3.trans h.3, k.4.trans h.4, k.5.trans h.5, k.6.trans h.6, fun u => ?_⟩
  have := h.7 u; have := k.7 u; simp_all

/-- The buttons, as before. -/
structure SameButtons (s t : State) : Prop where
  pad0 : t.pads.buttons0 = s.pads.buttons0
  pad1 : t.pads.buttons1 = s.pads.buttons1

theorem SameButtons.refl (s) : SameButtons s s := ⟨rfl, rfl⟩

theorem SameButtons.trans {s t u} (h : SameButtons s t) (k : SameButtons t u) : SameButtons s u := ⟨k.1.trans h.1, k.2.trans h.2⟩

theorem SameButtons.of_pads {s t : State} (h : t.pads = s.pads) : SameButtons s t := ⟨by rw [h], by rw [h]⟩

/-- The memories that only stores touch, all as before. -/
structure SameMem (s t : State) : Prop where
  ram : t.ram = s.ram
  prg : t.cart.prg = s.cart.prg
  chr : t.cart.chr = s.cart.chr
  mem : t.ppu.mem = s.ppu.mem
  oam : t.ppu.spr.oam = s.ppu.spr.oam
  dma : t.dma = s.dma

theorem SameMem.refl (s) : SameMem s s := ⟨rfl, rfl, rfl, rfl, rfl, rfl⟩

theorem SameMem.trans {s t u} (h : SameMem s t) (k : SameMem t u) : SameMem s u := ⟨k.1.trans h.1, k.2.trans h.2, k.3.trans h.3, k.4.trans h.4, k.5.trans h.5, k.6.trans h.6⟩

theorem Counts.calm {s t} (h : Counts s t) : Calm s t := ⟨h.get State.schedule fun _ _ _ _ _ _ => rfl, h.get State.bus fun _ _ _ _ _ _ => rfl, h.listeners, h.running, h.disposed, h.shapes, h.gates⟩

theorem Counts.buttons {s t} (h : Counts s t) : SameButtons s t := .of_pads (h.get State.pads fun _ _ _ _ _ _ => rfl)

theorem Counts.same {s t} (h : Counts s t) : SameMem s t := ⟨h.get State.ram fun _ _ _ _ _ _ => rfl, h.get (fun s => s.cart.prg) fun _ _ _ _ _ _ => rfl, h.get (fun s => s.cart.chr) fun _ _ _ _ _ _ => rfl, h.get (fun s => s.ppu.mem) fun _ _ _ _ _ _ => rfl, h.get (fun s => s.ppu.spr.oam) fun _ _ _ _ _ _ => rfl, h.get State.dma fun _ _ _ _ _ _ => rfl⟩

theorem DotOnly.same {s t} (h : DotOnly s t) : SameMem s t := ⟨h.ram, h.prg, h.chr, h.mem, h.oam, h.dma⟩

theorem ReadsOnly.same {s t} (h : ReadsOnly s t) : SameMem s t := ⟨h.ram, h.prg, h.chr, h.mem, by rw [h.spr], h.dma⟩

theorem Blind.calm {f : State → State} (b : Blind f) (s) (hb : (f s).bus = s.bus) : Calm s (f s) :=
  ⟨b.schedule s, hb, by rw [b.clock s], by rw [b.clock s], by rw [b.clock s], by rw [b.dividers s], fun u => by cases u <;> simp [State.unit, b.cpuUnit s, b.ppuUnit s, b.soundUnit s]⟩

theorem consume_calm (u s) : Calm s (consume u s) := by
  cases u <;> exact ⟨rfl, rfl, rfl, rfl, rfl, rfl, fun u => by cases u <;> exact ⟨rfl, rfl, rfl⟩⟩

theorem consume_same (u s) : SameMem s (consume u s) := by cases u <;> exact ⟨rfl, rfl, rfl, rfl, rfl, rfl⟩

/-- With an empty schedule the next event is the default one. -/
theorem default_cases {s : State} {e rest} (hs : s.schedule = []) (h : nextEvent s s.schedule = (some e, rest)) : rest = [] ∧ (e = .emit ∨ ∃ u, e = .unit u) := by
  rw [hs] at h
  simp only [nextEvent, Prod.mk.injEq] at h
  refine ⟨h.2.symm, ?_⟩
  have h := h.1
  unfold defaultEvent at h
  split at h
  · cases h; exact .inr ⟨_, rfl⟩
  · split at h
    · cases h; exact .inl rfl
    · cases h

theorem setSchedule_nil {s : State} (h : s.schedule = []) : s.setSchedule [] = s := by cases s; cases h; rfl

theorem fire_calm {T e s t} (he : e = .emit ∨ e = .unit .ppu ∨ e = .unit .sound) (h : fire T e s = .next t) :
    Calm s t ∧ (noExternal s.bus = true → SameMem s t ∧ SameButtons s t) := by
  rcases he with rfl | rfl | rfl
  · have := emit_counts (guarded_next h).1; exact ⟨this.calm, fun _ => ⟨this.same, this.buttons⟩⟩
  · have h := (guarded_next h).1; cases h
    refine ⟨(consume_calm .ppu s).trans (Blind.calm ppuHandler_dot.blind _ (ppuHandler_bus _)), fun hb => ?_⟩
    have d := ppuHandler_dot.only (consume .ppu s) (plainSignals_of_noExternal hb)
    exact ⟨(consume_same .ppu s).trans d.same, .of_pads d.pads⟩
  · have h := (guarded_next h).1; cases h
    refine ⟨(consume_calm .sound s).trans (Blind.calm (f := soundTick) (fun c s => afterSound_blind _ c s) _ (soundTick_bus _)), fun hb => ?_⟩
    have hp := plainSignals_of_noExternal hb
    exact ⟨(consume_same .sound s).trans (afterSound_readsOnly (s := consume .sound s) hp (Config.soundStep (consume .sound s).sound)).same, by
      obtain ⟨f, hf⟩ := afterSound_plain (s := consume .sound s) hp (Config.soundStep (consume .sound s).sound)
      show SameButtons s (afterSoundVia quietRun _ _)
      rw [hf]; exact ⟨rfl, rfl⟩⟩

/-- Invariants of an instruction's run while nothing is scheduled. -/
structure CalmInvariant (I : State → Prop) (T : Table) : Prop where
  other : ∀ e s t, I s → s.schedule = [] → (e = .emit ∨ e = .unit .ppu ∨ e = .unit .sound) → fire T e s = .next t → I t
  tick : ∀ k ∈ T, ∀ lat s, I s → s.schedule = [] → I (k.act lat s).state ∧ (k.act lat s).state.schedule = []
  eng : ∀ s e, I s → I (setEng e s)
  cyc : ∀ s, I s → I ((consume .cpu s).mapCpu Cpu.tick)
  dma : ∀ p k d s, I s → s.dma ≠ .idle → I (dmaTick p k d s)
  setDma : ∀ d s, I s → s.dma ≠ .idle → I (s.setDma d)

theorem dmaTick_schedule (p k d s) : (dmaTick p k d s).schedule = s.schedule := by
  unfold dmaTick; split; exact stepDma_schedule _ _; dsimp only; split
  · rw [stepDma_schedule]; exact (busRead_blind _).schedule _
  · rw [stepDma_schedule]; exact (busWrite_blind _ _).schedule _

theorem run_calm_inv {T i} {I : State → Prop} (hI : CalmInvariant I T) {s t} (hs : I s) (hsch : s.schedule = []) (h : run i T s = .next t) : I t ∧ t.schedule = [] := by
  unfold run at h
  split at h
  · have key : ∀ n s t, I s → s.schedule = [] → (∃ op k l, s.cpu.eng = .inInstr op k l) → runTicks T n s = .next t → I t ∧ t.schedule = [] := by
      intro n s t hs hsch he h
      have := (runTicks_invariant (T := T) (I := fun s => I s ∧ s.schedule = [] ∧ ((∃ op k l, s.cpu.eng = .inInstr op k l) ∨ s.cpu.eng = .boundary)) ?_ ?_ ?_ ⟨hs, hsch, .inl he⟩ ?_ h)
      · exact ⟨this.1, this.2.1⟩
      · rintro s e rest t ⟨hs, hsch, he⟩ hne hnc hf
        obtain ⟨rfl, hc⟩ := default_cases hsch hne
        rw [setSchedule_nil hsch] at hf
        have hc : e = .emit ∨ e = .unit .ppu ∨ e = .unit .sound := by
          rcases hc with h | ⟨u, rfl⟩
          · exact .inl h
          · cases u
            · exact absurd rfl hnc
            · exact .inr (.inl rfl)
            · exact .inr (.inr rfl)
        exact ⟨hI.other _ _ _ hs hsch hc hf, (fire_calm hc hf).1.schedule.trans hsch, by rw [(fire_quiet hnc hf).cpu]; exact he⟩
      · rintro s rest ⟨hs, hsch, he⟩ hn
        rw [hsch] at hn
        simp only [nextEvent, Prod.mk.injEq] at hn
        rw [← hn.2, setSchedule_nil hsch]; exact ⟨hs, hsch, he⟩
      · rintro s rest t ⟨hs, hsch, he⟩ ha hne hf
        obtain ⟨rfl, -⟩ := default_cases hsch hne
        rw [setSchedule_nil hsch] at hf
        have hf := (guarded_next hf).1
        rcases he with ⟨op, k, l, he⟩ | he
        · have h0 : I ((consume .cpu s).mapCpu Cpu.tick) := hI.cyc _ hs
          have hsc0 : ((consume .cpu s).mapCpu Cpu.tick).schedule = [] := hsch
          have heng : ((consume .cpu s).mapCpu Cpu.tick).cpu.eng = .inInstr op k l := he
          have hE : ∀ t, engineTick T ((consume .cpu s).mapCpu Cpu.tick) = .next t → I t ∧ t.schedule = [] ∧ ((∃ op k l, t.cpu.eng = .inInstr op k l) ∨ t.cpu.eng = .boundary) := by
            intro t h
            simp only [engineTick, heng, instrTick, runTick] at h
            cases hk : T[k-2]? with
            | none => rw [hk] at h; cases h; exact ⟨hI.eng _ _ h0, hsc0, .inr rfl⟩
            | some q =>
              rw [hk] at h
              have := hI.tick q (List.mem_of_getElem? hk) l _ h0 hsc0
              dsimp only at h
              cases ht : q.act l ((consume .cpu s).mapCpu Cpu.tick) with
              | more l' u => rw [ht] at h this; cases h; exact ⟨hI.eng _ _ this.1, this.2, .inl ⟨_, _, _, rfl⟩⟩
              | done u => rw [ht] at h this; cases h; exact ⟨hI.eng _ _ this.1, this.2, .inr rfl⟩
          unfold unitStep at hf
          unfold cpuHandler at hf
          dsimp only at hf
          split at hf
          · rename_i hd
            cases hf
            exact ⟨hI.dma _ _ _ _ h0 (by rw [hd]; exact fun h => by cases h), by rw [dmaTick_schedule]; exact hsc0, by rw [dmaTick_cpu]; exact .inl ⟨op, k, l, he⟩⟩
          · rename_i hd
            split at hf
            · exact hE t hf
            · cases hf
              exact ⟨hI.dma _ _ _ _ (hI.setDma _ _ h0 (by rw [hd]; exact fun h => by cases h)) (fun h => by cases h),
                by unfold startDma; rw [dmaTick_schedule]; exact hsc0, by rw [startDma_cpu]; exact .inl ⟨op, k, l, he⟩⟩
          · exact hE t hf
        · rw [he] at ha; cases ha
      · obtain ⟨op, k, l, he⟩ := he; rw [he]; rfl
    exact key _ (start i s) _ (hI.eng _ _ hs) hsch ⟨_, _, _, rfl⟩ h
  · cases h

/-- A reflexive and transitive relation that bus reads, changes of the registers and, where `stores`, bus writes keep. -/
structure BusRel (P : State → State → Prop) (stores : Bool) : Prop where
  refl : ∀ s, P s s
  trans : ∀ {s t u}, P s t → P t u → P s u
  read : ∀ a s, P s (busRead a s).2
  write : stores = true → ∀ a v s, P s (busWrite a v s)
  cpu : ∀ g s, P s (s.mapCpu g)

/-- The tick relates the state before to the state it leaves. -/
def TickRel (P : State → State → Prop) (k : Tick) : Prop := ∀ lat s, P s (k.act lat s).state

/-- Every tick of the table does. -/
def TableRel (P : State → State → Prop) (T : Table) : Prop := ∀ k ∈ T, TickRel P k

theorem tableRel_cons {P k T} (h : TickRel P k) (hT : TableRel P T) : TableRel P (k :: T) := by
  intro j hj; rcases List.mem_cons.mp hj with rfl | hj; exact h; exact hT j hj

theorem tableRel_nil {P} : TableRel P [] := fun _ h => absurd h List.not_mem_nil

section

variable {P : State → State → Prop} {b : Bool} (h : BusRel P b)

include h

theorem rel_dummy (a s) : P s (dummyRead a s) := by unfold dummyRead; split; exact h.read _ _; exact h.refl _

theorem rel_busRead_mapCpu (a g s) : P s ((busRead a s).2.mapCpu g) := h.trans (h.read a s) (h.cpu g _)

theorem rel_dummyRead_mapCpu (a g s) : P s ((dummyRead a s).mapCpu g) := h.trans (rel_dummy h a s) (h.cpu g _)

theorem rel_fetch (s) : P s (fetchByte s).2 := rel_busRead_mapCpu h _ _ _

theorem rel_open (s) : P s (openPull s) := rel_dummyRead_mapCpu h _ _ _

theorem rel_read (m op) : TableRel P (readForm m op) := by
  intro k hk
  cases m <;> simp only [readForm, List.mem_cons, List.not_mem_nil, or_false] at hk <;>
    (first | exact hk.elim | rcases hk with rfl | rfl | rfl | rfl | rfl) <;>
    intro lat s <;>
    first
    | exact h.trans (rel_fetch h s) (h.cpu _ _)
    | exact rel_fetch h s
    | exact rel_busRead_mapCpu h _ _ _
    | exact rel_dummy h _ _
    | exact h.read _ _
    | (unfold readOrCorrect; dsimp only; split; exact rel_dummy h _ _; exact rel_busRead_mapCpu h _ _ _)

theorem rel_implied (op) : TableRel P (impliedForm op) := tableRel_cons (fun _ _ => rel_dummyRead_mapCpu h _ _ _) tableRel_nil

theorem rel_branch (c) : TableRel P (branchForm c) := by
  refine tableRel_cons ?_ (tableRel_cons ?_ (tableRel_cons ?_ tableRel_nil))
  · intro lat s; dsimp only; split <;> exact rel_fetch h s
  · intro lat s; dsimp only; split; exact rel_dummy h _ _; exact rel_dummyRead_mapCpu h _ _ _
  · intro lat s; exact rel_dummyRead_mapCpu h _ _ _

theorem rel_jmp (m) : TableRel P (jmpTicks m) := by
  cases m with
  | abs => exact tableRel_cons (fun lat s => rel_fetch h s) (tableRel_cons (fun lat s => rel_busRead_mapCpu h _ _ _) tableRel_nil)
  | ind => exact tableRel_cons (fun lat s => rel_fetch h s) (tableRel_cons (fun lat s => rel_fetch h s) (tableRel_cons (fun lat s => h.read _ _) (tableRel_cons (fun lat s => rel_busRead_mapCpu h _ _ _) tableRel_nil)))
  | _ => exact tableRel_nil

theorem rel_idle : TickRel P idleRead := fun _ _ => rel_dummy h _ _

theorem rel_pla : TableRel P plaTicks := tableRel_cons (rel_idle h) (tableRel_cons (fun _ s => rel_open h s) (tableRel_cons (fun _ s => rel_busRead_mapCpu h (stackAddr s) (fun c => (c.setA (readStack s).1).setNZ (readStack s).1) s) tableRel_nil))

theorem rel_plp : TableRel P plpTicks := tableRel_cons (rel_idle h) (tableRel_cons (fun _ s => rel_open h s) (tableRel_cons (fun _ s => rel_busRead_mapCpu h (stackAddr s) _ s) tableRel_nil))

theorem rel_rts : TableRel P rtsTicks := tableRel_cons (rel_idle h) (tableRel_cons (fun _ s => rel_open h s) (tableRel_cons (fun _ s => rel_busRead_mapCpu h (stackAddr s) _ s) (tableRel_cons (fun _ s => rel_busRead_mapCpu h (stackAddr s) _ s) (tableRel_cons (fun _ _ => rel_dummyRead_mapCpu h _ _ _) tableRel_nil))))

theorem rel_rti : TableRel P rtiTicks := tableRel_cons (rel_idle h) (tableRel_cons (fun _ s => rel_open h s) (tableRel_cons (fun _ s => rel_busRead_mapCpu h (stackAddr s) (fun c => (c.setP (pushedByInterrupt (readStack s).1)).incSp) s) (tableRel_cons (fun _ s => rel_busRead_mapCpu h (stackAddr s) _ s) (tableRel_cons (fun _ s => rel_busRead_mapCpu h (stackAddr s) _ s) tableRel_nil))))

theorem rel_acc (mod : ModOp) : TableRel P (rmwForm .acc mod) := tableRel_cons (fun _ s => rel_dummyRead_mapCpu h s.cpu.pc (fun c => (mod c.a c).2.setA (mod c.a c).1) s) tableRel_nil

end

section

variable {P : State → State → Prop} (h : BusRel P true)

include h

theorem rel_dummyWrite (a v s) : P s (dummyWrite a v s) := by unfold dummyWrite; split; exact h.write rfl _ _ _; exact h.refl _

theorem rel_push (v s) : P s (push v s) := h.trans (h.write rfl _ _ _) (h.cpu _ _)

theorem rel_write (m val) : TableRel P (writeForm m val) := by
  intro k hk
  cases m <;> simp only [writeForm, List.mem_cons, List.not_mem_nil, or_false] at hk <;>
    (first | exact hk.elim | rcases hk with rfl | rfl | rfl | rfl | rfl) <;>
    intro lat s <;>
    first
    | exact rel_fetch h s
    | exact rel_dummy h _ _
    | exact h.read _ _
    | exact h.write rfl _ _ _

theorem rel_rmw (m) (mod : ModOp) : TableRel P (rmwForm m mod) := by
  have hr : TableRel P (rmwTicks mod) := tableRel_cons (fun lat s => h.read _ _) (tableRel_cons (fun lat s => h.trans (rel_dummyWrite h lat.ea lat.data s) (h.cpu (fun _ => (mod lat.data (dummyWrite lat.ea lat.data s).cpu).2) _)) (tableRel_cons (fun lat s => h.write rfl _ _ _) tableRel_nil))
  cases m with
  | acc => exact rel_acc h _
  | zp => exact tableRel_cons (fun lat s => rel_fetch h s) hr
  | zpx => exact tableRel_cons (fun lat s => rel_fetch h s) (tableRel_cons (fun lat s => rel_dummy h _ _) hr)
  | abs => exact tableRel_cons (fun lat s => rel_fetch h s) (tableRel_cons (fun lat s => rel_fetch h s) hr)
  | absx => exact tableRel_cons (fun lat s => rel_fetch h s) (tableRel_cons (fun lat s => rel_fetch h s) (tableRel_cons (fun lat s => rel_dummy h _ _) hr))
  | _ => exact tableRel_nil

theorem rel_pha : TableRel P phaTicks := tableRel_cons (rel_idle h) (tableRel_cons (fun _ _ => rel_push h _ _) tableRel_nil)

theorem rel_php : TableRel P phpTicks := tableRel_cons (rel_idle h) (tableRel_cons (fun _ _ => rel_push h _ _) tableRel_nil)

theorem rel_jsr : TableRel P jsrTicks := tableRel_cons (fun _ s => rel_fetch h s) (tableRel_cons (fun _ _ => rel_dummy h _ _) (tableRel_cons (fun _ _ => rel_push h _ _) (tableRel_cons (fun _ _ => rel_push h _ _) (tableRel_cons (fun _ _ => rel_busRead_mapCpu h _ _ _) tableRel_nil))))

theorem rel_take (st) : TableRel P (takeInterrupt st) := tableRel_cons (fun _ _ => rel_push h _ _) (tableRel_cons (fun _ _ => rel_push h _ _) (tableRel_cons (fun _ _ => rel_push h _ _) (tableRel_cons (fun _ _ => rel_busRead_mapCpu h _ _ _) (tableRel_cons (fun _ _ => rel_busRead_mapCpu h _ _ _) tableRel_nil))))

theorem rel_brk : TableRel P brkTicks := tableRel_cons (fun _ _ => rel_dummyRead_mapCpu h _ _ _) (rel_take h _)

end

theorem ticks_rel {P b} (h : BusRel P b) (i : Instr) (hi : b = true ∨ i.storesNothing = true) : TableRel P (tableOf i) := by
  by_cases hb : b = true
  · subst hb
    cases i <;> first | exact rel_read h _ _ | exact rel_write h _ _ | exact rel_rmw h _ _ | exact rel_implied h _ | exact rel_branch h _ | exact rel_jmp h _ | exact rel_pla h | exact rel_plp h | exact rel_rts h | exact rel_rti h | exact rel_pha h | exact rel_php h | exact rel_jsr h | exact rel_brk h
  · have hi := hi.resolve_left hb
    cases i with
    | asl m | lsr m | rol m | ror m =>
      simp only [Instr.storesNothing, beq_iff_eq] at hi; subst hi; exact rel_acc h _
    | _ => first | (simp [Instr.storesNothing] at hi; done) | exact rel_read h _ _ | exact rel_implied h _ | exact rel_branch h _ | exact rel_jmp h _ | exact rel_pla h | exact rel_plp h | exact rel_rts h | exact rel_rti h

theorem keeps_rel (b) : BusRel Keeps b := ⟨Keeps.refl, fun h k => h.trans k, fun a s => busRead_keeps a s, fun _ a v s => busWrite_keeps a v s, fun g s => mapCpu_keeps g s⟩

/-- The relation holds where no component runs code of its own; the bus table stays. -/
def Own (P : State → State → Prop) (s t : State) : Prop := t.bus = s.bus ∧ (noExternal s.bus = true → P s t)

theorem own_rel {P : State → State → Prop} {b : Bool} (refl : ∀ s, P s s) (trans : ∀ {s t u}, P s t → P t u → P s u)
    (read : ∀ a s, noExternal s.bus = true → P s (busRead a s).2)
    (write : b = true → ∀ a v s, noExternal s.bus = true → P s (busWrite a v s)) (cpu : ∀ g s, P s (s.mapCpu g)) :
    BusRel (Own P) b :=
  ⟨fun s => ⟨rfl, fun _ => refl s⟩, fun h k => ⟨k.1.trans h.1, fun hb => trans (h.2 hb) (k.2 (by rw [h.1]; exact hb))⟩,
   fun a s => ⟨busRead_bus a s, read a s⟩, fun hb a v s => ⟨busWrite_bus a v s, write hb a v s⟩, fun g s => ⟨rfl, fun _ => cpu g s⟩⟩

theorem afterMapper_buttons {s : State} (h : plainSignals s.bus = true) (r) : SameButtons s (afterMapperVia extRun r s) := by
  obtain ⟨f, hf⟩ := afterMapper_plain h r; rw [hf]; exact ⟨rfl, rfl⟩

theorem afterSound_buttons {s : State} (h : plainSignals s.bus = true) (r) : SameButtons s (afterSoundVia extRun r s) := by
  obtain ⟨f, hf⟩ := afterSound_plain h r; rw [hf]; exact ⟨rfl, rfl⟩

theorem componentRead_buttons {k : Component} (hk : k.own = true) (a) {s : State} (h : plainSignals s.bus = true) : SameButtons s (componentRead k a s).2 := by
  cases k with
  | ram => exact .refl s
  | ppu =>
    show SameButtons s (ppuPortReadVia extRun a s).2
    unfold ppuPortReadVia; split
    · exact .of_pads rfl
    · exact .of_pads rfl
    · exact .of_pads ((ppuRead_dotOnly (x := extRun) h s.ppu.bufferAddr).pads)
    · exact .refl s
  | pads => show SameButtons s (padsRead a s).2; simp only [padsRead]; (repeat' split) <;> exact ⟨rfl, rfl⟩
  | sound => exact afterSound_buttons h _
  | cart => exact afterMapper_buttons h _
  | ext id caps => cases hk
  | cpu => exact .refl s
  | dma => exact .refl s

theorem ppuWrite_buttons (a v) {s : State} (h : plainSignals s.bus = true) : SameButtons s (ppuWrite a v s) := by
  unfold ppuWrite ppuWriteVia; split
  · unfold patternWriteVia; dsimp only; split
    · have := afterMapper_buttons (s := s.mapCart fun c => { c with chr := c.chr.write (s.cart.mapPpuWrite a).offset v }) h (s.cart.mapPpuWrite a)
      exact ⟨this.1, this.2⟩
    · exact afterMapper_buttons h _
  · split <;> exact ⟨rfl, rfl⟩

theorem componentWrite_buttons {k : Component} (hk : k.own = true) (a v) {s : State} (h : plainSignals s.bus = true) : SameButtons s (componentWrite k a v s) := by
  cases k with
  | ram => exact .of_pads rfl
  | ppu =>
    show SameButtons s (ppuPortWriteVia extRun a v s)
    unfold ppuPortWriteVia; split
    · unfold writeControlVia; dsimp only; split
      · exact .of_pads (busNmi_dotOnly (x := extRun) (s := (s.mapPpu (Ppu.setLatch v)).mapPpu (Ppu.writeCtrl v)) h).pads
      · exact ⟨rfl, rfl⟩
    · exact ⟨rfl, rfl⟩
    · exact ⟨rfl, rfl⟩
    · exact ⟨rfl, rfl⟩
    · exact ⟨rfl, rfl⟩
    · exact ⟨rfl, rfl⟩
    · have := ppuWrite_buttons (s.mapPpu (Ppu.setLatch v)).ppu.portAddr v (s := s.mapPpu (Ppu.setLatch v)) h
      exact ⟨this.1, this.2⟩
    · exact ⟨rfl, rfl⟩
  | pads => show SameButtons s (padsWrite a v s); unfold padsWrite; split <;> exact ⟨rfl, rfl⟩
  | sound => exact afterSound_buttons h _
  | cart =>
    show SameButtons s (cartWriteVia extRun a v s)
    unfold cartWriteVia; dsimp only; split
    · have := afterMapper_buttons (s := s.mapCart fun c => { c with prg := c.prg.write (s.cart.mapCpuWrite a v).offset v }) h (s.cart.mapCpuWrite a v)
      exact ⟨this.1, this.2⟩
    · exact afterMapper_buttons h _
  | ext id caps => cases hk
  | cpu => exact .refl s
  | dma => show SameButtons s (dmaWrite v s); unfold dmaWrite; split <;> exact ⟨rfl, rfl⟩

theorem busRead_buttons (a) {s : State} (h : noExternal s.bus = true) : SameButtons s (busRead a s).2 := by
  have hk := firstMatch_own (cap := (·.readable)) (a := a) h
  unfold busRead busReadVia; split
  · rename_i k he; rw [he] at hk; exact componentRead_buttons hk a (plainSignals_of_noExternal h)
  · exact .refl s

theorem writeMatches_buttons (a v) (b : List BusEntry) {s : State} (h : plainSignals s.bus = true) (ho : noExternal b = true) : SameButtons s (writeMatchesVia extRun a v b s) := by
  induction b generalizing s with
  | nil => exact .refl s
  | cons e r ih =>
    simp only [noExternal, List.all_cons, Bool.and_eq_true] at ho
    unfold writeMatchesVia
    split
    · exact (componentWrite_buttons ho.1 a v h).trans (ih (by rw [componentWrite_bus]; exact h) ho.2)
    · exact ih h ho.2

theorem calm_rel (b) : BusRel Calm b := ⟨Calm.refl, fun h k => h.trans k,
  fun a s => Blind.calm (f := fun s => (busRead a s).2) (fun c s => congrArg Prod.snd (busRead_blind a c s)) s (busRead_bus a s),
  fun _ a v s => Blind.calm (busWrite_blind a v) s (busWrite_bus a v s), fun g s => ⟨rfl, rfl, rfl, rfl, rfl, rfl, fun u => by cases u <;> exact ⟨rfl, rfl, rfl⟩⟩⟩

theorem buttons_rel (b) : BusRel (Own SameButtons) b := own_rel SameButtons.refl (fun h k => h.trans k) (fun a _ h => busRead_buttons a h)
  (fun _ a v s h => writeMatches_buttons a v s.bus (plainSignals_of_noExternal h) h) (fun _ _ => ⟨rfl, rfl⟩)

theorem same_rel : BusRel (Own SameMem) false := own_rel SameMem.refl (fun h k => h.trans k) (fun a _ h => (busRead_readsOnly h a).same)
  (fun h => absurd h (by decide)) (fun _ _ => ⟨rfl, rfl, rfl, rfl, rfl, rfl⟩)

theorem dmaTick_rel {P} (h : BusRel P true) (hd : ∀ d s, P s (s.setDma d)) (p k d s) : P s (dmaTick p k d s) := by
  have hs : ∀ d s, P s (stepDma d s) := fun d s => by obtain ⟨x, hx⟩ := stepDma_eq d s; rw [hx]; exact hd x s
  unfold dmaTick; split
  · exact hs _ _
  · dsimp only; split
    · exact h.trans (h.read _ _) (hs _ _)
    · exact h.trans (h.write rfl _ _ _) (hs _ _)

theorem calm_setDma (d s) : Calm s (s.setDma d) := ⟨rfl, rfl, rfl, rfl, rfl, rfl, fun u => by cases u <;> exact ⟨rfl, rfl, rfl⟩⟩

theorem peek_ram {s a} (h : ramBacked s a = true) : peek a s = s.ram.read (ramCell a) := by
  unfold ramBacked at h
  unfold peek busRead busReadVia
  rw [beq_iff_eq] at h
  rw [h]; rfl

theorem storesOnlyAt_trans {a s t u} (h : storesOnlyAt a s t) (k : storesOnlyAt a t u) : storesOnlyAt a s u := by
  obtain ⟨h1, h2, h3, h4, h5, h6, h7, h8, h9, h10⟩ := h
  obtain ⟨k1, k2, k3, k4, k5, k6, k7, k8, k9, k10⟩ := k
  have hr : ∀ c, reaches c a t = reaches c a s := by intro c; unfold reaches; rw [h9]
  have hb : ∀ b, ramBacked t b = ramBacked s b := by intro b; unfold ramBacked; rw [h9]
  refine ⟨fun n hn => (k1 n hn).trans (h1 n hn), fun b hb' hn => (k2 b (by rw [hb]; exact hb') hn).trans (h2 b hb' hn), fun r => (k3 (by rw [hr]; exact r)).trans (h3 r), fun r => (k4 (by rw [hr]; exact r)).trans (h4 r), fun r => ?_, fun r => (k6 (by rw [hr]; exact r)).trans (h6 r), k7.trans h7, k8.trans h8, k9.trans h9, k10.trans h10⟩
  have a1 := h5 r
  have a2 := k5 (by rw [hr]; exact r)
  exact ⟨a2.1.trans a1.1, a2.2.1.trans a1.2.1, a2.2.2.1.trans a1.2.2.1, a2.2.2.2.1.trans a1.2.2.2.1, a2.2.2.2.2.1.trans a1.2.2.2.2.1, a2.2.2.2.2.2.trans a1.2.2.2.2.2⟩

theorem storesOnlyAt_of {a : Addr} {s t : State} (h1 : ∀ n, n ≠ ramCell a → t.ram.read n = s.ram.read n) (h3 : reaches .ram a s = false → t.ram = s.ram)
  (h4 : reaches .cart a s = false → t.cart.prg = s.cart.prg) 
  (h5 : reaches .ppu a s = false → t.cart.chr = s.cart.chr ∧ t.ppu.mem = s.ppu.mem ∧ t.ppu.spr.oam = s.ppu.spr.oam ∧
    t.ppu.regs.ctrl = s.ppu.regs.ctrl ∧ t.ppu.regs.mask = s.ppu.regs.mask ∧ t.ppu.regs.oamaddr = s.ppu.regs.oamaddr)
  (h6 : reaches .dma a s = false → t.dma = s.dma) (h7 : t.pads.buttons0 = s.pads.buttons0) (h8 : t.pads.buttons1 = s.pads.buttons1) (h9 : t.bus = s.bus) (h10 : t.params = s.params) : storesOnlyAt a s t := by
  refine ⟨h1, fun b hb hn => ?_, h3, h4, h5, h6, h7, h8, h9, h10⟩
  have hb' : ramBacked t b = true := by unfold ramBacked at hb ⊢; rw [h9]; exact hb
  rw [peek_ram hb, peek_ram hb', h1 _ hn]

theorem storesOnlyAt_refl (a s) : storesOnlyAt a s s := storesOnlyAt_of (fun _ _ => rfl) (fun _ => rfl) (fun _ => rfl) (fun _ => ⟨rfl, rfl, rfl, rfl, rfl, rfl⟩) (fun _ => rfl) rfl rfl rfl rfl

/-- The PPU's control, mask and OAM address registers, all as before. -/
structure RegSame (s t : State) : Prop where
  ctrl : t.ppu.regs.ctrl = s.ppu.regs.ctrl
  mask : t.ppu.regs.mask = s.ppu.regs.mask
  oamaddr : t.ppu.regs.oamaddr = s.ppu.regs.oamaddr

theorem of_ppu_eq {s t : State} (h : t.ppu = s.ppu) : RegSame s t := ⟨by rw [h], by rw [h], by rw [h]⟩

theorem componentRead_regs {k : Component} (hk : k.own = true) (a) {s : State} (h : plainSignals s.bus = true) : RegSame s (componentRead k a s).2 := by
  cases k with
  | ram => exact ⟨rfl, rfl, rfl⟩
  | ppu =>
    show RegSame s (ppuPortReadVia extRun a s).2
    unfold ppuPortReadVia; split
    · exact ⟨rfl, rfl, rfl⟩
    · exact ⟨rfl, rfl, rfl⟩
    · have := ppuRead_dotOnly (x := extRun) h s.ppu.bufferAddr
      exact ⟨this.ctrl, this.mask, this.oamaddr⟩
    · exact ⟨rfl, rfl, rfl⟩
  | pads => apply of_ppu_eq; simp only [componentRead, componentReadVia, padsRead]; (repeat' split) <;> rfl
  | sound => show RegSame s (afterSoundVia extRun _ s); obtain ⟨f, hf⟩ := afterSound_plain h (Config.soundRead s.sound a); rw [hf]; exact ⟨rfl, rfl, rfl⟩
  | cart => show RegSame s (afterMapperVia extRun _ s); obtain ⟨f, hf⟩ := afterMapper_plain h (s.cart.mapCpuRead a); rw [hf]; exact ⟨rfl, rfl, rfl⟩
  | ext id caps => cases hk
  | cpu => exact ⟨rfl, rfl, rfl⟩
  | dma => exact ⟨rfl, rfl, rfl⟩

theorem busRead_regs (a) {s : State} (h : noExternal s.bus = true) : RegSame s (busRead a s).2 := by
  have hk := firstMatch_own (cap := (·.readable)) (a := a) h
  unfold busRead busReadVia; split
  · rename_i k he; rw [he] at hk; exact componentRead_regs hk a (plainSignals_of_noExternal h)
  · exact ⟨rfl, rfl, rfl⟩

theorem storesOnlyAt_read (a b) {s : State} (h : noExternal s.bus = true) : storesOnlyAt a s (busRead b s).2 := by
  have r := busRead_readsOnly h b
  have g := busRead_regs b h
  exact storesOnlyAt_of (fun _ _ => by rw [r.ram]) (fun _ => r.ram) (fun _ => r.prg) (fun _ => ⟨r.chr, r.mem, by rw [r.spr], g.1, g.2, g.3⟩) (fun _ => r.dma) (busRead_buttons b h).1 (busRead_buttons b h).2 r.bus r.params

theorem storesOnlyAt_cpu (a g s) : storesOnlyAt a s (s.mapCpu g) := storesOnlyAt_of (fun _ _ => rfl) (fun _ => rfl) (fun _ => rfl) (fun _ => ⟨rfl, rfl, rfl, rfl, rfl, rfl⟩) (fun _ => rfl) rfl rfl rfl rfl

theorem storesOnlyAt_unit (a u g s) : storesOnlyAt a s (s.mapUnit u g) := by
  cases u <;> exact storesOnlyAt_of (fun _ _ => rfl) (fun _ => rfl) (fun _ => rfl) (fun _ => ⟨rfl, rfl, rfl, rfl, rfl, rfl⟩) (fun _ => rfl) rfl rfl rfl rfl

theorem storesOnlyAt_rel (a) : BusRel (Own (storesOnlyAt a)) false :=
  own_rel (storesOnlyAt_refl a) (fun h k => storesOnlyAt_trans h k) (fun b _ h => storesOnlyAt_read a b h) (fun h => absurd h (by decide)) (fun g s => storesOnlyAt_cpu a g s)

/-- What a component's write may touch. -/
structure WriteEffect (k : Component) (a : Addr) (s t : State) : Prop where
  ramO : s.ram.wf = true → t.ram.wf = true ∧ ∀ n, n ≠ ramCell a → t.ram.read n = s.ram.read n
  ram : k ≠ .ram → t.ram = s.ram
  prg : k ≠ .cart → t.cart.prg = s.cart.prg
  ppu : k ≠ .ppu → t.cart.chr = s.cart.chr ∧ t.ppu = s.ppu
  dma : k ≠ .dma → t.dma = s.dma

theorem writeEffect_same {k a s t} (h1 : t.ram = s.ram) (h2 : t.cart.prg = s.cart.prg) (h3 : t.cart.chr = s.cart.chr) (h4 : t.ppu = s.ppu) (h5 : t.dma = s.dma) : WriteEffect k a s t :=
  ⟨fun h => ⟨by rw [h1]; exact h, fun _ _ => by rw [h1]⟩, fun _ => h1, fun _ => h2, fun _ => ⟨h3, h4⟩, fun _ => h5⟩

theorem afterMapper_effect {k a} {s : State} (h : plainSignals s.bus = true) (r) : WriteEffect k a s (afterMapperVia extRun r s) := by
  obtain ⟨f, hf⟩ := afterMapper_plain h r; rw [hf]; exact writeEffect_same rfl rfl rfl rfl rfl

theorem ppuWrite_effect (a v) {s : State} (h : plainSignals s.bus = true) : (ppuWrite a v s).ram = s.ram ∧ (ppuWrite a v s).cart.prg = s.cart.prg := by
  unfold ppuWrite ppuWriteVia; split
  · unfold patternWriteVia; dsimp only; split
    · obtain ⟨f, hf⟩ := afterMapper_plain (s := s.mapCart fun c => { c with chr := c.chr.write (s.cart.mapPpuWrite a).offset v }) h (s.cart.mapPpuWrite a)
      rw [hf]; exact ⟨rfl, rfl⟩
    · obtain ⟨f, hf⟩ := afterMapper_plain h (s.cart.mapPpuWrite a)
      rw [hf]; exact ⟨rfl, rfl⟩
  · split <;> exact ⟨rfl, rfl⟩

theorem ppuPortWrite_effect (a v) {s : State} (h : plainSignals s.bus = true) : (ppuPortWriteVia extRun a v s).ram = s.ram ∧ (ppuPortWriteVia extRun a v s).cart.prg = s.cart.prg := by
  unfold ppuPortWriteVia; split
  · unfold writeControlVia; dsimp only; split
    · have := busNmi_dotOnly (x := extRun) (s := (s.mapPpu (Ppu.setLatch v)).mapPpu (Ppu.writeCtrl v)) h
      exact ⟨this.ram, this.prg⟩
    · exact ⟨rfl, rfl⟩
  · exact ⟨rfl, rfl⟩
  · exact ⟨rfl, rfl⟩
  · exact ⟨rfl, rfl⟩
  · exact ⟨rfl, rfl⟩
  · exact ⟨rfl, rfl⟩
  · exact ppuWrite_effect _ v (s := s.mapPpu (Ppu.setLatch v)) h
  · exact ⟨rfl, rfl⟩

theorem componentWrite_effect {k : Component} (hk : k.own = true) (a v) {s : State} (hp : plainSignals s.bus = true) : WriteEffect k a s (componentWrite k a v s) := by
  cases k with
  | ram =>
    refine ⟨fun h => ⟨Memory.wf_write h _ _, fun n hn => Memory.read_write_other h hn v⟩, fun h => absurd rfl h, fun _ => rfl, fun _ => ⟨rfl, rfl⟩, fun _ => rfl⟩
  | ppu =>
    have h := ppuPortWrite_effect a v hp
    exact ⟨fun hw => ⟨by show (ppuPortWriteVia extRun a v s).ram.wf = true; rw [h.1]; exact hw, fun n hn => by show (ppuPortWriteVia extRun a v s).ram.read n = _; rw [h.1]⟩, fun _ => h.1, fun _ => h.2, fun h => absurd rfl h, fun _ => ppuPortWrite_dma a v hp⟩
  | pads => show WriteEffect _ a s (padsWrite a v s); unfold padsWrite; split <;> exact writeEffect_same rfl rfl rfl rfl rfl
  | sound =>
    show WriteEffect _ a s (afterSoundVia extRun _ s)
    obtain ⟨f, hf⟩ := afterSound_plain hp (Config.soundWrite s.sound a v)
    rw [hf]; exact writeEffect_same rfl rfl rfl rfl rfl
  | cart =>
    show WriteEffect _ a s (cartWriteVia extRun a v s)
    unfold cartWriteVia; dsimp only; split
    · obtain ⟨f, hf⟩ := afterMapper_plain (s := s.mapCart fun c => { c with prg := c.prg.write (s.cart.mapCpuWrite a v).offset v }) hp (s.cart.mapCpuWrite a v)
      rw [hf]
      exact ⟨fun hw => ⟨hw, fun _ _ => rfl⟩, fun _ => rfl, fun h => absurd rfl h, fun _ => ⟨rfl, rfl⟩, fun _ => rfl⟩
    · exact afterMapper_effect hp _
  | ext id caps => cases hk
  | cpu => exact writeEffect_same rfl rfl rfl rfl rfl
  | dma =>
    show WriteEffect _ a s (dmaWrite v s)
    unfold dmaWrite; split
    · exact writeEffect_same rfl rfl rfl rfl rfl
    · exact ⟨fun h => ⟨h, fun _ _ => rfl⟩, fun _ => rfl, fun _ => rfl, fun _ => ⟨rfl, rfl⟩, fun h => absurd rfl h⟩
    · exact ⟨fun h => ⟨h, fun _ _ => rfl⟩, fun _ => rfl, fun _ => rfl, fun _ => ⟨rfl, rfl⟩, fun h => absurd rfl h⟩

theorem reaches_false {c a e} {s : State} (he : e ∈ s.bus) (hc : (e.covers a && e.component.caps.writable) = true) (h : reaches c a s = false) : e.component ≠ c := by
  intro hh
  simp only [Bool.and_eq_true] at hc
  have := (List.any_eq_false.mp h) e he
  simp [hh, hc.1] at this
  rw [← hh] at this; rw [hc.2] at this; cases this

theorem writeMatches_storesOnlyAt {a v} (s0 : State) (hn : noExternal s0.bus = true) (b : List BusEntry) (hb : ∀ e ∈ b, e ∈ s0.bus) (s : State) (hs : s.ram.wf = true) (hbus : s.bus = s0.bus) :
    storesOnlyAt a s (writeMatchesVia extRun a v b s) ∧ (writeMatchesVia extRun a v b s).ram.wf = true := by
  induction b generalizing s with
  | nil => exact ⟨storesOnlyAt_refl _ _, hs⟩
  | cons e r ih =>
    have hr : ∀ x ∈ r, x ∈ s0.bus := fun x hx => hb x (List.mem_cons_of_mem _ hx)
    by_cases hc : (e.covers a && e.component.caps.writable) = true
    · rw [show writeMatchesVia extRun a v (e :: r) s = writeMatchesVia extRun a v r (componentWrite e.component a v s) by simp only [writeMatchesVia]; rw [if_pos hc]; rfl]
      have ho : e.component.own = true := List.all_eq_true.mp hn e (hb _ List.mem_cons_self)
      have hp : plainSignals s.bus = true := by rw [hbus]; exact plainSignals_of_noExternal hn
      have cw := componentWrite_effect ho a v hp
      have hbus' : (componentWrite e.component a v s).bus = s0.bus := (componentWrite_bus _ _ _ _).trans hbus
      obtain ⟨i1, i2⟩ := ih hr (componentWrite e.component a v s) (cw.ramO hs).1 hbus'
      have bt := componentWrite_buttons ho a v hp
      refine ⟨storesOnlyAt_trans (storesOnlyAt_of (cw.ramO hs).2 ?_ ?_ ?_ ?_ bt.1 bt.2 (componentWrite_bus _ _ _ _) (componentWrite_keeps _ _ _ _).params) i1, i2⟩
      · intro h; exact cw.ram (reaches_false (by rw [hbus]; exact hb _ List.mem_cons_self) hc h)
      · intro h; exact cw.prg (reaches_false (by rw [hbus]; exact hb _ List.mem_cons_self) hc h)
      · intro h; have := cw.ppu (reaches_false (by rw [hbus]; exact hb _ List.mem_cons_self) hc h); exact ⟨this.1, by rw [this.2], by rw [this.2], by rw [this.2], by rw [this.2], by rw [this.2]⟩
      · intro h; exact cw.dma (reaches_false (by rw [hbus]; exact hb _ List.mem_cons_self) hc h)
    · simp only [writeMatchesVia]
      rw [if_neg hc]; exact ih hr s hs hbus

theorem busWrite_storesOnlyAt {a v} {s : State} (hn : noExternal s.bus = true) (h : s.ram.wf = true) : storesOnlyAt a s (busWrite a v s) ∧ (busWrite a v s).ram.wf = true := writeMatches_storesOnlyAt s hn s.bus (fun _ h => h) s h rfl

theorem locate_storesOnlyAt (a al m) {s : State} (hn : noExternal s.bus = true) : storesOnlyAt a s (locate al m s).state ∧ (locate al m s).state.ram = s.ram := by
  have h := storesOnlyAt_rel a
  have hr : BusRel (Own fun s t : State => t.ram = s.ram) false := own_rel (fun _ => rfl) (fun h k => k.trans h) (fun a _ h => (busRead_readsOnly h a).ram) (fun h => absurd h (by decide)) (fun _ _ => rfl)
  have key : ∀ {P : State → State → Prop}, BusRel P false → P s (locate al m s).state := by
    intro P h
    have hi : ∀ al b i s, P s (indexFrom al b i s).state := by
      intro al b i s; unfold indexFrom; dsimp only; split; exact rel_dummy h _ _; exact h.refl _
    have hp : ∀ p s, P s (readPointer p s).2 := fun p s => h.trans (h.read _ _) (h.read _ _)
    have hw : ∀ s, P s (fetchWord s).2 := fun s => h.trans (rel_fetch h _) (rel_fetch h _)
    cases m with
    | zp => exact rel_fetch h s
    | zpx => exact h.trans (rel_fetch h s) (rel_dummy h _ _)
    | zpy => exact h.trans (rel_fetch h s) (rel_dummy h _ _)
    | abs => exact hw s
    | absx => exact h.trans (hw s) (hi _ _ _ _)
    | absy => exact h.trans (hw s) (hi _ _ _ _)
    | indx => exact h.trans (rel_fetch h s) (h.trans (rel_dummy h _ _) (hp _ _))
    | indy => exact h.trans (rel_fetch h s) (h.trans (hp _ _) (hi _ _ _ _))
    | _ => exact h.refl _
  exact ⟨(key h).2 hn, (key hr).2 hn⟩

theorem storesOnlyAt_finish {a n s t} (h : storesOnlyAt a s t) : storesOnlyAt a s (finish n t) := storesOnlyAt_trans (storesOnlyAt_trans h (storesOnlyAt_cpu a _ t)) (storesOnlyAt_unit a _ _ _)

/-- A store to plain work RAM changes only work RAM. -/
theorem plainRam_write {s : State} {a v} (h : plainRam s a = true) : busWrite a v s = { s with ram := (busWrite a v s).ram } := by
  unfold plainRam at h
  simp only [Bool.and_eq_true] at h
  have key : ∀ (b : List BusEntry) (u : State), (∀ e ∈ b, (!e.covers a || !e.component.caps.writable || e.component == .ram) = true) →
      writeMatchesVia extRun a v b u = { u with ram := (writeMatchesVia extRun a v b u).ram } := by
    intro b
    induction b with
    | nil => intro u _; rfl
    | cons e r ih =>
      intro u hb
      simp only [writeMatchesVia]
      by_cases hc : (e.covers a && e.component.caps.writable) = true
      · rw [if_pos hc]
        have he := hb e List.mem_cons_self
        simp only [Bool.and_eq_true] at hc
        simp only [hc.1, hc.2, Bool.not_true, Bool.false_or, beq_iff_eq] at he
        rw [ih _ fun x hx => hb x (List.mem_cons_of_mem _ hx)]
        rw [he]; rfl
      · rw [if_neg hc]; exact ih _ fun x hx => hb x (List.mem_cons_of_mem _ hx)
  exact key s.bus s (fun e he => List.all_eq_true.mp h.2 e he)

/-- What pushes to the stack places `S` of plain work RAM may change, the state's own memory being well formed. -/
def PushRel (S : Byte → Prop) (s t : State) : Prop :=
  s.ram.wf = true → t.ram.wf = true ∧ t.bus = s.bus ∧ (∀ n, (∀ b, S b → n ≠ ramCell (0x0100 + zext b)) → t.ram.read n = s.ram.read n) ∧
    ((∀ b : Byte, plainRam s (0x0100 + zext b) = true) → t.cart.prg = s.cart.prg ∧ t.cart.chr = s.cart.chr ∧
      t.ppu.mem = s.ppu.mem ∧ t.ppu.spr.oam = s.ppu.spr.oam ∧ t.dma = s.dma)

theorem plainRam_of_bus {s t : State} (h : t.bus = s.bus) (a) : plainRam t a = plainRam s a := by unfold plainRam ramBacked; rw [h]

theorem pushRel_trans {S s t u} (h : PushRel S s t) (k : PushRel S t u) : PushRel S s u := by
  intro hw
  obtain ⟨a1, a2, a3, a4⟩ := h hw
  obtain ⟨b1, b2, b3, b4⟩ := k a1
  refine ⟨b1, b2.trans a2, fun n hn => (b3 n hn).trans (a3 n hn), fun hp => ?_⟩
  have x := a4 hp
  have y := b4 fun b => by rw [plainRam_of_bus a2]; exact hp b
  exact ⟨y.1.trans x.1, y.2.1.trans x.2.1, y.2.2.1.trans x.2.2.1, y.2.2.2.1.trans x.2.2.2.1, y.2.2.2.2.trans x.2.2.2.2⟩

theorem pushRel_same {S s t} (h : SameMem s t) (hb : t.bus = s.bus) : PushRel S s t := fun hw => ⟨by rw [h.ram]; exact hw, hb, fun n _ => by rw [h.ram], fun _ => ⟨h.prg, h.chr, h.mem, h.oam, h.dma⟩⟩

theorem pushRel_read {S} (a) {s : State} (h : noExternal s.bus = true) : PushRel S s (busRead a s).2 := pushRel_same (busRead_readsOnly h a).same (busRead_bus a s)

theorem pushRel_dummy {S} (a) {s : State} (h : noExternal s.bus = true) : PushRel S s (dummyRead a s) := pushRel_same (dummyRead_readsOnly h a).same (dummyRead_bus a s)

theorem pushRel_cpu {S} (g s) : PushRel S s (s.mapCpu g) := pushRel_same ⟨rfl, rfl, rfl, rfl, rfl, rfl⟩ rfl

theorem pushRel_unit {S} (g s) : PushRel S s (s.mapUnit .cpu g) := pushRel_same ⟨rfl, rfl, rfl, rfl, rfl, rfl⟩ rfl

theorem pushRel_write {S : Byte → Prop} {b : Byte} (hb : S b) (v) {s : State} (h : noExternal s.bus = true) : PushRel S s (busWrite (0x0100 + zext b) v s) := by
  intro hw
  have := busWrite_storesOnlyAt (a := 0x0100 + zext b) (v := v) h hw
  refine ⟨this.2, busWrite_bus _ _ _, fun n hn => this.1.1 n (hn b hb), fun hp => ?_⟩
  rw [plainRam_write (hp b)]; exact ⟨rfl, rfl, rfl, rfl, rfl⟩

end Sys2Proof.Machine
end

