-- ==== Sys2Proof/Tests/Slice0.lean ====
section
/-! SUPPORT. Tests of the model, each expected result from the vectors of spec/95_test_vectors.md (V<n>) or a rule's
own example, and a witness for the hypotheses of every statement that has some. -/

set_option maxRecDepth 100000

namespace Sys2Proof.Tests

open Sys2Proof.Machine

/-! ### Ill-formed terms are refused -/

theorem test_wf_refuses_read_mode : Instr.wf (.lda .acc) = false ∧ Instr.wf (.adc .zpy) = false := by decide
theorem test_wf_refuses_index_of_ldx : Instr.wf (.ldx .zpx) = false ∧ Instr.wf (.ldy .absy) = false := by decide
theorem test_wf_refuses_store_immediate :
    Instr.wf (.sta .imm) = false ∧ Instr.wf (.stx .absy) = false ∧ Instr.wf (.sty .absx) = false := by decide
theorem test_wf_refuses_compare_mode : Instr.wf (.cpx .zpx) = false ∧ Instr.wf (.cpy .indy) = false := by decide
theorem test_wf_refuses_bit_immediate : Instr.wf (.bit .imm) = false := by decide
theorem test_wf_refuses_modify_mode : Instr.wf (.inc .acc) = false ∧ Instr.wf (.dec .absy) = false := by decide
theorem test_wf_refuses_shift_mode : Instr.wf (.asl .imm) = false ∧ Instr.wf (.ror .indx) = false := by decide
theorem test_wf_refuses_jump_mode : Instr.wf (.jmp .zp) = false := by decide
theorem test_wf_refuses_assigned_slot : Instr.wf (.una 0xEA) = false := by decide
theorem test_wf_refuses_operand_size : (⟨.lda .abs, .one 0x34⟩ : Code).wf = false ∧
    (⟨.inx, .one 0⟩ : Code).wf = false ∧ (⟨.lda .imm, .two 0 0⟩ : Code).wf = false := by decide
theorem test_meaning_refuses_ill_formed : exec (.sta .imm) State.reset = .refused .illFormed := rfl

/-! ### Words written out from the map of R160 and the table of R151 -/

theorem test_decode_load_store : decodeTableWord 16 0x10A9 = some (.lda .imm) ∧
    decodeTableWord 16 0x10B6 = some (.ldx .zpy) ∧ decodeTableWord 24 0x1234BC = some (.ldy .absx) ∧
    decodeTableWord 16 0x4091 = some (.sta .indy) ∧ decodeTableWord 16 0x1096 = some (.stx .zpy) ∧
    decodeTableWord 24 0x20068C = some (.sty .abs) := by decide
theorem test_decode_transfer : decodeTableWord 8 0xAA = some .tax ∧ decodeTableWord 8 0xA8 = some .tay ∧
    decodeTableWord 8 0x8A = some .txa ∧ decodeTableWord 8 0x98 = some .tya ∧ decodeTableWord 8 0xBA = some .tsx ∧
    decodeTableWord 8 0x9A = some .txs := by decide
theorem test_decode_stack : decodeTableWord 8 0x48 = some .pha ∧ decodeTableWord 8 0x08 = some .php ∧
    decodeTableWord 8 0x68 = some .pla ∧ decodeTableWord 8 0x28 = some .plp := by decide
theorem test_decode_alu : decodeTableWord 16 0x5069 = some (.adc .imm) ∧
    decodeTableWord 24 0x0200F9 = some (.sbc .absy) ∧ decodeTableWord 16 0x1021 = some (.and .indx) ∧
    decodeTableWord 16 0x1011 = some (.ora .indy) ∧ decodeTableWord 24 0x02005D = some (.eor .absx) ∧
    decodeTableWord 16 0x10C5 = some (.cmp .zp) ∧ decodeTableWord 24 0x0200EC = some (.cpx .abs) ∧
    decodeTableWord 16 0x10C0 = some (.cpy .imm) ∧ decodeTableWord 24 0x20022C = some (.bit .abs) := by decide
theorem test_decode_inc_dec : decodeTableWord 16 0x10E6 = some (.inc .zp) ∧
    decodeTableWord 24 0x0200DE = some (.dec .absx) ∧ decodeTableWord 8 0xE8 = some .inx ∧
    decodeTableWord 8 0xC8 = some .iny ∧ decodeTableWord 8 0xCA = some .dex ∧ decodeTableWord 8 0x88 = some .dey := by decide
theorem test_decode_shift : decodeTableWord 8 0x0A = some (.asl .acc) ∧ decodeTableWord 16 0x1056 = some (.lsr .zpx) ∧
    decodeTableWord 24 0x02002E = some (.rol .abs) ∧ decodeTableWord 24 0x02007E = some (.ror .absx) := by decide
theorem test_decode_control : decodeTableWord 24 0xC0004C = some (.jmp .abs) ∧
    decodeTableWord 24 0x02FF6C = some (.jmp .ind) ∧ decodeTableWord 24 0x900020 = some .jsr ∧
    decodeTableWord 8 0x60 = some .rts ∧ decodeTableWord 8 0x40 = some .rti ∧ decodeTableWord 8 0x00 = some .brk := by decide
theorem test_decode_branch : decodeTableWord 16 0xFE90 = some .bcc ∧ decodeTableWord 16 0xFEB0 = some .bcs ∧
    decodeTableWord 16 0x10F0 = some .beq ∧ decodeTableWord 16 0x8030 = some .bmi ∧
    decodeTableWord 16 0x05D0 = some .bne ∧ decodeTableWord 16 0x0110 = some .bpl ∧
    decodeTableWord 16 0x0050 = some .bvc ∧ decodeTableWord 16 0x0170 = some .bvs := by decide
theorem test_decode_flag : decodeTableWord 8 0x18 = some .clc ∧ decodeTableWord 8 0x38 = some .sec ∧
    decodeTableWord 8 0x58 = some .cli ∧ decodeTableWord 8 0x78 = some .sei ∧ decodeTableWord 8 0xB8 = some .clv ∧
    decodeTableWord 8 0xD8 = some .cld ∧ decodeTableWord 8 0xF8 = some .sed := by decide
theorem test_decode_no_op : decodeTableWord 8 0xEA = some .nop ∧ decodeTableWord 8 0x02 = some (.una 0x02) ∧
    decodeTableWord 8 0x1A = some (.una 0x1A) ∧ decodeTableWord 8 0x80 = some (.una 0x80) ∧
    decodeTableWord 8 0xFF = some (.una 0xFF) := by decide
theorem test_table_word_runs_first :
    (match step (State.reset.withFetchWord 24 0x0010AD) with
      | .next t => t.cpu.pc == 3 && t.cpu.cycles == 4 && t.cpu.p == 0x26
      | _ => false) = true := by decide

/-! ### One step of one instruction -/

/-- The processor with plenty of owed ticks; nothing else takes any. The code stands at 0x0200. -/
def lone (code : List Byte) (f : Cpu → Cpu := id) (cells : List (Nat × Byte) := []) : State :=
  { State.reset with
    schedule := []
    pend := ⟨false, false, false⟩
    cpuUnit := ⟨600, false, false, .async⟩
    ram := cells.foldl (fun m c => m.write c.1 c.2) (placeBytes code 0x0200 [])
    cpu := f { State.reset.cpu with pc := 0x0200 } }

/-- The outcome is a next state that a test accepts. -/
def gives (r : Result) (p : State → Bool) : Bool :=
  match r with
  | .next t => p t
  | .fault _ | .refused _ => false

/-- A program counter, a stack pointer and flags for a test's start. -/
def withPc (pc : Addr) (c : Cpu) : Cpu := { c with pc := pc }
def withSp (sp : Byte) (c : Cpu) : Cpu := { c with sp := sp }
def withP (p : Byte) (c : Cpu) : Cpu := { c with p := p }
def withA (a : Byte) (c : Cpu) : Cpu := { c with a := a }
def withX (x : Byte) (c : Cpu) : Cpu := { c with x := x }
def withY (y : Byte) (c : Cpu) : Cpu := { c with y := y }

/-- The code at another work RAM address. -/
def loneAt (pc : Nat) (code : List Byte) (f : Cpu → Cpu := id) : State :=
  lone [] (fun c => f { c with pc := BitVec.ofNat 16 pc }) (code.zipIdx.map fun p => ((pc + p.2) % 0x800, p.1))

-- V70, V71, V72, V54, V53, V60, V61, V62
theorem test_lda_immediate : gives (step (lone [0xA9, 0x00])) (fun t => t.cpu.a == 0 && t.cpu.p == 0x26 && t.cpu.cycles == 2) = true := by decide
theorem test_lda_indirect_indexed :
    gives (step (lone [0xB1, 0x40] (withY 0x10) [(0x40, 0xF0), (0x41, 0x12), (0x300, 0x77)]))
      (fun t => t.cpu.a == 0x77 && t.cpu.cycles == 6) = true ∧
    gives (step (lone [0xB1, 0x40] (withY 0x0F) [(0x40, 0xF0), (0x41, 0x12), (0x2FF, 0x77)]))
      (fun t => t.cpu.a == 0x77 && t.cpu.cycles == 5) = true := by decide
theorem test_ldx_immediate : gives (step (lone [0xA2, 0x80])) (fun t => t.cpu.x == 0x80 && t.cpu.p == 0xA4) = true := by decide
theorem test_ldx_zero_page_wraps : gives (step (lone [0xB6, 0xFF] (withY 0x02) [(1, 0x33)]))
    (fun t => t.cpu.x == 0x33 && t.cpu.cycles == 4) = true := by decide
theorem test_ldy_immediate : gives (step (lone [0xA0, 0x7F])) (fun t => t.cpu.y == 0x7F && t.cpu.p == 0x24) = true := by decide
theorem test_ldy_crossed : gives (step (lone [0xBC, 0xF0, 0x02] (withX 0x10) [(0x300, 0x09)]))
    (fun t => t.cpu.y == 0x09 && t.cpu.cycles == 5) = true := by decide
-- V73, V63, V74, V75
theorem test_sta_zero_page : gives (step (lone [0x85, 0x10] (withA 0x80))) (fun t => t.ram.read 0x10 == 0x80 && t.cpu.p == 0x24) = true := by decide
theorem test_sta_indexed_never_shorter : gives (step (lone [0x9D, 0x00, 0x03] (fun c => withA 0x42 (withX 1 c))))
    (fun t => t.ram.read 0x301 == 0x42 && t.cpu.cycles == 5) = true := by decide
theorem test_stx_zero_page_y : gives (step (lone [0x96, 0x20] (fun c => withX 0x11 (withY 0xF0 c)))) (fun t => t.ram.read 0x10 == 0x11) = true := by decide
theorem test_sty_absolute : gives (step (lone [0x8C, 0x00, 0x03] (withY 0x22))) (fun t => t.ram.read 0x300 == 0x22 && t.cpu.cycles == 4) = true := by decide
-- V76 to V81
theorem test_tax : gives (step (lone [0xAA])) (fun t => t.cpu.x == 0 && t.cpu.p == 0x26) = true := by decide
theorem test_tay : gives (step (lone [0xA8] (withA 0x90))) (fun t => t.cpu.y == 0x90 && t.cpu.p == 0xA4) = true := by decide
theorem test_txa : gives (step (lone [0x8A] (withX 1))) (fun t => t.cpu.a == 1 && t.cpu.p == 0x24) = true := by decide
theorem test_tya : gives (step (lone [0x98] (withY 0xFF))) (fun t => t.cpu.a == 0xFF && t.cpu.p == 0xA4) = true := by decide
theorem test_tsx : gives (step (lone [0xBA])) (fun t => t.cpu.x == 0xFD && t.cpu.p == 0xA4) = true := by decide
theorem test_txs : gives (step (lone [0x9A])) (fun t => t.cpu.sp == 0 && t.cpu.p == 0x24) = true := by decide
-- V82 to V88
theorem test_pha : gives (step (lone [0x48] (withA 0x33))) (fun t => t.ram.read 0x1FD == 0x33 && t.cpu.sp == 0xFC && t.cpu.cycles == 3) = true := by decide
theorem test_pha_wraps : gives (step (lone [0x48] (fun c => withA 0x33 (withSp 0 c)))) (fun t => t.ram.read 0x100 == 0x33 && t.cpu.sp == 0xFF) = true := by decide
theorem test_php : gives (step (lone [0x08])) (fun t => t.ram.read 0x1FD == 0x34 && t.cpu.p == 0x24) = true := by decide
theorem test_pla : gives (step (lone [0x68] (withSp 0xFC) [(0x1FD, 0x33)])) (fun t => t.cpu.a == 0x33 && t.cpu.sp == 0xFD && t.cpu.cycles == 4) = true := by decide
theorem test_pla_wraps : gives (step (lone [0x68] (withSp 0xFF) [(0x100, 0x80)])) (fun t => t.cpu.a == 0x80 && t.cpu.sp == 0 && t.cpu.p == 0xA4) = true := by decide
theorem test_plp : gives (step (lone [0x28] (withSp 0xFC) [(0x1FD, 0xFF)])) (fun t => t.cpu.p == 0xEF) = true ∧
    gives (step (lone [0x28] (withSp 0xFC))) (fun t => t.cpu.p == 0x20) = true := by decide
-- the tables 2.6.1 and 2.6.2
theorem test_adc_overflow : gives (step (lone [0x69, 0x50] (withA 0x50))) (fun t => t.cpu.a == 0xA0 && t.cpu.p == 0xE4) = true := by decide
theorem test_adc_carry : gives (step (lone [0x69, 0x00] (fun c => withA 0xFF (withP 0x25 c)))) (fun t => t.cpu.a == 0 && t.cpu.p == 0x27) = true := by decide
theorem test_sbc_borrow : gives (step (lone [0xE9, 0x01] (withP 0x25))) (fun t => t.cpu.a == 0xFF && t.cpu.p == 0xA4) = true := by decide
theorem test_sbc_overflow : gives (step (lone [0xE9, 0x01] (fun c => withA 0x80 (withP 0x2D c)))) (fun t => t.cpu.a == 0x7F && t.cpu.p == 0x6D) = true := by decide
-- V100 to V113
theorem test_and : gives (step (lone [0x29, 0x3C] (withA 0xF0))) (fun t => t.cpu.a == 0x30 && t.cpu.p == 0x24) = true := by decide
theorem test_ora : gives (step (lone [0x09, 0x80] (withA 1))) (fun t => t.cpu.a == 0x81 && t.cpu.p == 0xA4) = true := by decide
theorem test_eor : gives (step (lone [0x49, 0x80] (withA 0xFF))) (fun t => t.cpu.a == 0x7F && t.cpu.p == 0x24) = true := by decide
theorem test_cmp_equal : gives (step (lone [0xC9, 0x40] (withA 0x40))) (fun t => t.cpu.a == 0x40 && t.cpu.p == 0x27) = true := by decide
theorem test_cmp_below : gives (step (lone [0xC9, 0x01])) (fun t => t.cpu.a == 0 && t.cpu.p == 0xA4) = true := by decide
theorem test_cpx : gives (step (lone [0xE0, 0x20] (withX 0x10))) (fun t => t.cpu.x == 0x10 && t.cpu.p == 0xA4) = true := by decide
theorem test_cpy : gives (step (lone [0xC0, 0x00])) (fun t => t.cpu.p == 0x27) = true := by decide
theorem test_bit_memory : gives (step (lone [0x24, 0x10] (withA 1) [(0x10, 0xC0)])) (fun t => t.cpu.a == 1 && t.cpu.p == 0xE6) = true := by decide
theorem test_bit_status : gives (step ((lone [0x2C, 0x02, 0x20]).mapPpu fun p => { p with regs := { p.regs with vblank := true } }))
    (fun t => t.cpu.p == 0xA6 && t.ppu.regs.vblank == false) = true := by decide
-- V114 to V126, V66
theorem test_inc : gives (step (lone [0xE6, 0x10] id [(0x10, 0xFF)])) (fun t => t.ram.read 0x10 == 0 && t.cpu.p == 0x26 && t.cpu.cycles == 5) = true := by decide
theorem test_inc_writes_twice : gives (step ((lone [0xEE, 0x07, 0x20]).mapPpu fun p => { p with scr := { p.scr with v := 0x2000 } }))
    (fun t => t.ppu.scr.v == 0x2003 && t.cpu.cycles == 6) = true := by decide
theorem test_dec : gives (step (lone [0xC6, 0x10])) (fun t => t.ram.read 0x10 == 0xFF && t.cpu.p == 0xA4) = true := by decide
theorem test_inx : gives (step (lone [0xE8] (withX 0xFF))) (fun t => t.cpu.x == 0 && t.cpu.p == 0x26) = true := by decide
theorem test_iny : gives (step (lone [0xC8] (withY 0x7F))) (fun t => t.cpu.y == 0x80 && t.cpu.p == 0xA4) = true := by decide
theorem test_dex : gives (step (lone [0xCA])) (fun t => t.cpu.x == 0xFF && t.cpu.p == 0xA4) = true := by decide
theorem test_dey : gives (step (lone [0x88] (withY 1))) (fun t => t.cpu.y == 0 && t.cpu.p == 0x26) = true := by decide
theorem test_asl : gives (step (lone [0x0A] (withA 0x80))) (fun t => t.cpu.a == 0 && t.cpu.p == 0x27) = true := by decide
theorem test_lsr : gives (step (lone [0x4A] (withA 1))) (fun t => t.cpu.a == 0 && t.cpu.p == 0x27) = true := by decide
theorem test_rol_accumulator : gives (step (lone [0x2A] (fun c => withA 0x80 (withP 0x25 c)))) (fun t => t.cpu.a == 1 && t.cpu.p == 0x25) = true := by decide
theorem test_rol_memory : gives (step (lone [0x26, 0x10] id [(0x10, 0x81)])) (fun t => t.ram.read 0x10 == 2 && t.cpu.p == 0x25 && t.cpu.cycles == 5) = true := by decide
theorem test_ror_in : gives (step (lone [0x6A] (withP 0x25))) (fun t => t.cpu.a == 0x80 && t.cpu.p == 0xA4) = true := by decide
theorem test_ror_out : gives (step (lone [0x6A] (withA 1))) (fun t => t.cpu.a == 0 && t.cpu.p == 0x27) = true := by decide
-- V130 to V134, V64
theorem test_jmp_absolute : gives (step (lone [0x4C, 0x00, 0xC0])) (fun t => t.cpu.pc == 0xC000 && t.cpu.cycles == 3) = true := by decide
theorem test_jmp_indirect_wraps : gives (step (loneAt 0x300 [0x6C, 0xFF, 0x02] |>.setRam
    (placeBytes [0x6C, 0xFF, 0x02] 0x300 (placeBytes [0x40] 0x2FF (placeBytes [0x90] 0x200 [])))))
    (fun t => t.cpu.pc == 0x9040 && t.cpu.cycles == 5) = true := by decide
theorem test_jsr : gives (step (lone [0x20, 0x00, 0x90])) (fun t => t.ram.read 0x1FD == 0x02 && t.ram.read 0x1FC == 0x02 &&
    t.cpu.sp == 0xFB && t.cpu.pc == 0x9000 && t.cpu.cycles == 6) = true := by decide
theorem test_rts : gives (step (lone [0x60] (withSp 0xFB) [(0x1FC, 0x02), (0x1FD, 0x80)]))
    (fun t => t.cpu.pc == 0x8003 && t.cpu.sp == 0xFD && t.cpu.cycles == 6) = true := by decide
theorem test_rti : gives (step (lone [0x40] (withSp 0xFA) [(0x1FB, 0xA4), (0x1FC, 0x09), (0x1FD, 0x80)]))
    (fun t => t.cpu.p == 0xA4 && t.cpu.pc == 0x8009 && t.cpu.sp == 0xFD) = true := by decide
theorem test_brk : gives (step (lone [0x00] (withP 0x20))) (fun t => t.ram.read 0x1FD == 0x02 && t.ram.read 0x1FC == 0x02 &&
    t.ram.read 0x1FB == 0x30 && t.cpu.sp == 0xFA && t.cpu.p == 0x24 && t.cpu.pc == 0 && t.cpu.cycles == 7) = true := by decide
-- V135 to V142
theorem test_bcc : gives (step (lone [0x90, 0xFE])) (fun t => t.cpu.pc == 0x200 && t.cpu.cycles == 3) = true := by decide
theorem test_bcs : gives (step (lone [0xB0, 0x40])) (fun t => t.cpu.pc == 0x202 && t.cpu.cycles == 2) = true := by decide
theorem test_beq : gives (step (lone [0xF0, 0x10] (withP 0x26))) (fun t => t.cpu.pc == 0x212 && t.cpu.cycles == 3) = true := by decide
theorem test_bmi : gives (step (lone [0x30, 0x80] (withP 0xA4))) (fun t => t.cpu.pc == 0x182 && t.cpu.cycles == 4) = true := by decide
theorem test_bne : gives (step (loneAt 0x3FD [0xD0, 0x05])) (fun t => t.cpu.pc == 0x404 && t.cpu.cycles == 4) = true := by decide
theorem test_bpl : gives (step (loneAt 0x3FE [0x10, 0x01])) (fun t => t.cpu.pc == 0x401 && t.cpu.cycles == 3) = true := by decide
theorem test_bvc : gives (step (lone [0x50, 0x00])) (fun t => t.cpu.pc == 0x202 && t.cpu.cycles == 3) = true := by decide
theorem test_bvs : gives (step (lone [0x70, 0x01] (withP 0x64))) (fun t => t.cpu.pc == 0x203 && t.cpu.cycles == 3) = true := by decide
-- V143 to V152
theorem test_clc : gives (step (lone [0x18] (withP 0x25))) (fun t => t.cpu.p == 0x24) = true := by decide
theorem test_sec : gives (step (lone [0x38])) (fun t => t.cpu.p == 0x25) = true := by decide
theorem test_cli : gives (step (lone [0x58])) (fun t => t.cpu.p == 0x20) = true := by decide
theorem test_sei : gives (step (lone [0x78] (withP 0x20))) (fun t => t.cpu.p == 0x24) = true := by decide
theorem test_clv : gives (step (lone [0xB8] (withP 0x64))) (fun t => t.cpu.p == 0x24) = true := by decide
theorem test_cld : gives (step (lone [0xD8] (withP 0x2C))) (fun t => t.cpu.p == 0x24) = true := by decide
theorem test_sed : gives (step (lone [0xF8])) (fun t => t.cpu.p == 0x2C) = true := by decide
theorem test_nop : gives (step (lone [0xEA])) (fun t => t.cpu.pc == 0x201 && t.cpu.p == 0x24 && t.cpu.cycles == 2) = true := by decide
theorem test_una : gives (step (lone [0x02])) (fun t => t.cpu.pc == 0x201 && t.cpu.p == 0x24 && t.cpu.cycles == 2) = true := by decide
/-- The same slot under `refuse`. -/
def refusing : State := { lone [0x02] with params := { unassigned := .refuse } }
theorem test_una_refused : (match step refusing with
    | .fault f => f == .unassignedOpcode refusing
    | .next _ | .refused _ => false) = true := by decide

/-! ### Interrupts, reset, DMA -/

/-- The processor alone with pending latches. -/
def pending (l : Pending) (f : Cpu → Cpu := id) : State := { lone [0xEA] f with pend := l }

-- V161, V163, V164, V165, V162
theorem test_nmi : gives (step (pending ⟨false, true, false⟩ (withPc 0xC123))) (fun t => t.ram.read 0x1FD == 0xC1 &&
    t.ram.read 0x1FC == 0x23 && t.ram.read 0x1FB == 0x24 && t.cpu.sp == 0xFA && t.cpu.p == 0x24 && t.cpu.cycles == 7) = true := by decide
theorem test_irq : gives (step (pending ⟨false, false, true⟩ (withP 0x20))) (fun t => t.ram.read 0x1FB == 0x20 &&
    t.cpu.p == 0x24 && t.pend == ⟨false, false, false⟩) = true := by decide
theorem test_nmi_before_irq : gives (step (pending ⟨false, true, true⟩ (withP 0x20)))
    (fun t => t.pend == ⟨false, false, true⟩ && t.cpu.eng == .fetchNext) = true := by decide
theorem test_reset_first : gives (step (pending ⟨true, true, true⟩ (withA 5)))
    (fun t => t.pend == ⟨false, false, false⟩ && t.cpu.a == 0 && t.cpu.cycles == 8) = true := by decide
theorem test_irq_masked : gives (step (pending ⟨false, false, true⟩)) (fun t => t.pend.irq && t.cpu.pc == 0x201) = true := by decide
-- V167, V168: the halt tick comes first at an even count, the alignment tick at an odd one
theorem test_dma_starts : gives (step ((lone [0xEA] fun c => { c with cycles := 14 }).setDma (.requested 2)))
    (fun t => t.dma == .active 2 3 0 && t.cpu.eng == .boundary) = true := by decide
theorem test_dma_aligns : gives (step ((lone [0xEA] fun c => { c with cycles := 17 }).setDma (.requested 2)))
    (fun t => t.dma == .active 2 2 0) = true := by decide
-- V160: with no cartridge the vector reads 0
theorem test_power_on_sequence : gives (step State.reset) (fun t => t.cpu.sp == 0xFD && t.cpu.p == 0x24 && t.cpu.pc == 0 &&
    t.cpu.eng == .fetchNext && t.cpu.cycles == 8 && t.clock.tickCount == 24) = true := by decide
theorem test_reset_memory_canonical : State.reset.ram.wf = true ∧ State.reset.ppu.mem.vram.wf = true ∧
    State.reset.ppu.mem.palette.wf = true ∧ State.reset.ppu.spr.oam.wf = true ∧ State.reset.ppu.spr.oam2.wf = true ∧
    State.reset.ppu.out.fb0.wf = true ∧ State.reset.ppu.out.fb1.wf = true ∧ State.reset.cart.ok = true := by decide

/-! ### Clock, bus, devices, picture generator -/

-- V1, V2, V3, V4, V6
/-- The core with nothing on its Clock. -/
def unheard : State := State.reset.mapClock fun c => { c with listeners := [] }
theorem test_start_without_listeners : hostOp .start unheard = .failed (.clockNoListeners unheard) := by decide
theorem test_divider_zero : hostOp (.newDivider none 0 1) State.reset = .failed .invalidDivisor ∧
    hostOp (.newDivider none (-1) 1) State.reset = .failed .invalidDivisor := by decide
theorem test_divider_two_and_a_half : (List.range 11).map (fun k => (feedTimes .once k ⟨5, 2, 0, [], none⟩).2) =
    [0, 0, 0, 1, 1, 2, 2, 2, 3, 3, 4] := by decide
-- R207 and R209 at the divisor 1/2: one tick for each parent tick, or two
theorem test_divider_below_one : feedTimes .once 3 ⟨1, 2, 0, [], none⟩ = (⟨1, 2, 3, [], none⟩, 3) ∧
    feedTimes .every 3 ⟨1, 2, 0, [], none⟩ = (⟨1, 2, 0, [], none⟩, 6) := by decide
/-- A divider of 3/2 that is its own child and hears the Clock, one parent tick in. -/
def circle : State :=
  { State.reset with
    params := { owedMax := 1 }
    clock := { State.reset.clock with tickCount := 1, listeners := [.divider 0], running := true }
    dividers := [⟨3, 2, 2, [.divider 0], none⟩] }
-- R207 worked out: 2 + 2 = 4, the tick goes to the divider itself, 4 - 3 = 1, and 1 + 2 = 3 emits again, to 0; then 2
theorem test_divider_circle_ends : gives (emit circle) (fun t => t.dividers.map (·.acc) == [2] && t.clock.tickCount == 2) = true := by decide
-- V9
theorem test_nine_emits : gives (emitTimes 9 (State.reset.mapClock fun c => { c with running := true })) (fun t =>
    t.ppuUnit.owed == 9 && t.cpuUnit.owed == 3 && t.dividers.map (·.acc) == [0]) = true := by decide
-- V22, V23, V25, V32, V21
theorem test_unmapped : busRead 0x4018 State.reset = (0, State.reset) ∧ busWrite 0x401F 0x55 State.reset = State.reset ∧
    (busRead 0x4014 State.reset).1 = 0 := by decide
theorem test_ram_mirror : (busRead 0x1801 (busWrite 0x0801 0x42 State.reset)).1 = 0x42 := by decide
theorem test_invalid_range : hostOp (.addComponent .ram (some (0x10, 0x0F))) State.reset = .failed .invalidRange := by decide
-- V220, V222, V223, V228, V232, V238, V239
/-- A state with the picture generator changed. -/
def withPpu (f : Ppu → Ppu) : State := State.reset.mapPpu f
theorem test_status_read : (busRead 0x2002 (withPpu fun p => { p with regs := ⟨0, 0, true, true, false, 0⟩, port := ⟨0, 0x12⟩ })).1 = 0xD2 := by decide
theorem test_scroll_writes : (busWrite 0x2005 0x5E (busWrite 0x2005 0x7D State.reset)).ppu.scr = ⟨0, 0x616F, 5, false⟩ := by decide
theorem test_address_writes : (busWrite 0x2006 0x08 (busWrite 0x2006 0x21 State.reset)).ppu.scr = ⟨0x2108, 0x2108, 0, false⟩ := by decide
theorem test_data_read_delayed :
    let s := withPpu fun p => { p with scr := ⟨0x2000, 0, 0, false⟩, mem := ⟨[(0, 0xAB), (1, 0xCD)], []⟩ }
    (readTimes 0x2007 2 s).1 = [0x00, 0xAB] ∧ (readTimes 0x2007 2 s).2.ppu.port.readBuffer = 0xCD := by decide
theorem test_palette_read_immediate :
    (busRead 0x2007 (withPpu fun p => { p with scr := ⟨0x3F00, 0, 0, false⟩, port := ⟨0, 0xC0⟩, mem := ⟨[], [(0, 0x0F)]⟩ })).1 = 0xCF := by decide
theorem test_object_table_read : (busRead 0x2004 (withPpu fun p =>
    { p with regs := { p.regs with oamaddr := 2 }, spr := { p.spr with oam := [(2, 0xFF)] } })).1 = 0xE3 := by decide
theorem test_latch_reads_back : (busRead 0x2000 (busWrite 0x2000 0x80 State.reset)).1 = 0x80 ∧
    (busRead 0x2000 (busWrite 0x2001 0x1E (busWrite 0x2000 0x80 State.reset))).1 = 0x1E := by decide
-- V250, V251
theorem test_controller : (readTimes 0x4016 9 (busWrite 0x4016 0 (busWrite 0x4016 1
    (State.reset.mapPads fun c => { c with buttons0 := 0x09 })))).1 = [1, 0, 0, 1, 0, 0, 0, 0, 1] := by decide
-- V186 to V192, V197 to V200
theorem test_scroll_steps : incX 0x001F = 0x0400 ∧ incX 0x041F = 0 ∧ incY 0x73A0 = 0x0800 ∧ incY 0x73E0 = 0 ∧
    incY 0x1000 = 0x2000 ∧ copyX 0x7BFF 0 = 0x7BE0 ∧ copyY 0x001F 0x7BE0 = 0x7BFF := by decide
theorem test_sprite_address : spriteAddr Ppu.powerOn 0x10 0 5 = 0x0105 ∧ spriteAddr Ppu.powerOn 0x10 0x80 5 = 0x0102 ∧
    spriteAddr { Ppu.powerOn with regs := { Ppu.powerOn.regs with ctrl := 0x20 } } 0x21 0 9 = 0x1211 ∧
    slotAddr 0 { Ppu.powerOn with regs := { Ppu.powerOn.regs with ctrl := 0x20 } } = 0x1FE0 ∧
    reverse8 0x01 = 0x80 ∧ reverse8 0xC4 = 0x23 := by decide
/-- The picture generator at a dot, with control and mask registers. -/
def atDot (ln d frame : Nat) (ctrl mask : Byte) : State :=
  withPpu fun p => { p with pos := ⟨ln, d, frame⟩, regs := { p.regs with ctrl := ctrl, mask := mask } }
-- V181, V180, V182, V183, V184, V185
theorem test_vblank : (ppuHandler (atDot 241 1 0 0 0)).ppu.regs.vblank = true ∧ (ppuHandler (atDot 241 1 0 0 0)).pend.nmi = false ∧
    (ppuHandler (atDot 241 1 0 0x80 0)).pend.nmi = true := by decide
theorem test_odd_frame_skip : (ppuHandler (atDot 261 339 1 0 0)).ppu.pos = ⟨0, 0, 2⟩ ∧
    (ppuHandler (atDot 261 339 0 0 0)).ppu.pos = ⟨261, 340, 0⟩ ∧ (ppuHandler (atDot 261 340 0 0 0)).ppu.pos = ⟨0, 0, 1⟩ ∧
    (ppuHandler { atDot 261 339 1 0 0 with params := { oddFrameSkip := .whenRendering } }).ppu.pos = ⟨261, 340, 1⟩ := by decide
-- V208, V209, V210
theorem test_backdrop : (ppuHandler ((atDot 7 9 0 0 0xE0).mapPpu fun p => { p with mem := ⟨[], [(0, 0x0F)]⟩ })).ppu.out.fb0.read (256 * 7 + 8) = 0x1CF ∧
    (ppuHandler ((atDot 7 9 0 0 0x01).mapPpu fun p => { p with mem := ⟨[], [(0, 0x2A)]⟩ })).ppu.out.fb0.read (256 * 7 + 8) = 0x20 := by decide

-- R501: inside a line only the dot is written, the line of a reset inside the dot stays; R531 and R534: the same line counts
theorem test_reset_inside_dot : (advance 7 9 (atDot 0 0 0 0 0)).ppu.pos = ⟨0, 10, 0⟩ ∧
    (advance 7 340 (atDot 0 0 0 0 0)).ppu.pos = ⟨8, 0, 0⟩ ∧
    (Ppu.powerOn.mapSpr fun q => { q with oam := [(0, 7)] }).spriteInRange 0 = false ∧
    ((Ppu.powerOn.mapSpr fun q => { q with countCur := 0 }).loadSlot 0 0xFF).spr.slots[0]? = some ⟨0, 0, 0, 0xFF⟩ := by decide
-- R342, R753: a DMA that a reset inside its tick has ended does not go on, one that runs does
theorem test_dma_ended_inside_tick : (stepDma 7 (State.reset.setDma .idle)).dma = .idle ∧
    (stepDma 7 (State.reset.setDma (.active 2 3 0))).dma = .active 2 4 7 ∧
    (stepDma 7 (State.reset.setDma (.active 2 514 7))).dma = .idle := by decide
/-- The picture generator under R58's table of writers. -/
def shut (f : Ppu → Ppu) : State := { withPpu f with params := { portLaw := .cpuStep } }
-- R252, R253: a component's code reaches the ports in every step
theorem test_code_reaches_ports : let s := withPpu fun p => { p with regs := { p.regs with vblank := true } }
    (codeReadVia false quietRun 0x2002 s).1 = 0x80 ∧ (codeReadVia false quietRun 0x2002 s).2.ppu.regs.vblank = false ∧
    (codeWriteVia false quietRun 0x2000 0x80 s).ppu.regs.ctrl = 0x80 := by decide
-- R58: under `cpuStep` it changes no port outside the processor's step
theorem test_code_kept_off_ports : let s := shut fun p => { p with regs := { p.regs with vblank := true } }
    codeReadVia false quietRun 0x2002 s = (0x80, s) ∧ (codeReadVia true extRun 0x2002 s).2.ppu.regs.vblank = false ∧
    codeWriteVia false quietRun 0x2000 0x80 s = s ∧ (codeWriteVia true extRun 0x2000 0x80 s).ppu.regs.ctrl = 0x80 ∧
    codeWriteVia false quietRun 0x0010 7 s = ramWrite 0x0010 7 s := by decide
-- R252, R253 under `anyStep`; R58 under `cpuStep`
theorem test_host_and_ports : enabled (.host (.busRead 0x3FFA)) State.reset = true ∧
    enabled (.host (.busWrite 0x2000 0)) State.reset = true ∧ enabled (.host (.busRead 0x3FFA)) (shut id) = false ∧
    enabled (.host (.busWrite 0x2000 0)) (shut id) = false ∧ enabled (.host (.busRead 0x1FFF)) (shut id) = true := by decide

/-! ### Witnesses: the hypotheses of each statement hold together somewhere -/

theorem witness_DecodeOfEncodeIsIdentity : (⟨.lda .absx, .two 0x34 0x12⟩ : Code).wf = true ∧ (⟨.inx, .none⟩ : Code).wf = true ∧
    (⟨.bne, .one 0xFB⟩ : Code).wf = true := by decide

theorem lone_is_alone : cpuAlone 8 (lone [0xEA]) = true := by decide

theorem witness_LoadsSetRegisterAndNZ : Instr.wf (.lda .indy) = true ∧ Instr.wf (.ldx .zpy) = true ∧ Instr.wf (.ldy .absx) = true ∧
    cpuAlone 8 (lone [0xEA]) = true := by decide
theorem witness_StoresWriteRegisterAtAddress : Instr.wf (.sta .indy) = true ∧ Instr.wf (.stx .zpy) = true ∧
    Instr.wf (.sty .abs) = true ∧ cpuAlone 8 (lone [0xEA]) = true := by decide
theorem witness_TransfersCopyRegister : cpuAlone 8 (lone [0xAA]) = true := by decide
theorem witness_PushesAndPullsMoveStackPointer : cpuAlone 8 (lone [0x48] (withSp 0)) = true := by decide
theorem witness_AddAndSubtractWithCarry : Instr.wf (.adc .imm) = true ∧ Instr.wf (.sbc .indx) = true ∧
    cpuAlone 8 (lone [0xEA]) = true := by decide
theorem witness_DecimalFlagIsReadByNoArithmetic : Instr.wf (.adc .imm) = true ∧
    runnable (lone [0x09]) (opcodeOf (.adc .imm)) = true ∧ cpuAlone 8 (lone [0x09]) = true ∧
    dmaOffStack (lone [0x09]).bus = true ∧
    (∀ i ∈ [Instr.adc .imm, .cld, .sed, .plp, .rti], i ≠ .php ∧ i ≠ .brk ∧ Instr.wf i = true ∧
      gives (exec i (lone [0x09])) (fun _ => true) = true) := by decide
theorem witness_LogicCombinesIntoAccumulator : Instr.wf (.and .zpx) = true ∧ Instr.wf (.ora .abs) = true ∧
    Instr.wf (.eor .absy) = true ∧ cpuAlone 8 (lone [0xEA]) = true := by decide
theorem witness_CompareAndBitTestSetFlags : Instr.wf (.cmp .indy) = true ∧ Instr.wf (.cpx .imm) = true ∧
    Instr.wf (.cpy .abs) = true ∧ Instr.wf (.bit .zp) = true ∧ cpuAlone 8 (lone [0xEA]) = true := by decide
theorem witness_IncrementAndDecrement : Instr.wf (.inc .absx) = true ∧ Instr.wf (.dec .zp) = true ∧
    cpuAlone 8 (lone [0xEA]) = true := by decide
theorem witness_ShiftsMoveBitThroughCarry : Instr.wf (.asl .absx) = true ∧ Instr.wf (.lsr .zp) = true ∧
    Instr.wf (.rol .abs) = true ∧ Instr.wf (.ror .zpx) = true ∧ cpuAlone 8 (lone [0xEA]) = true := by decide
theorem witness_JumpsCallsAndReturns : cpuAlone 8 (lone [0x20]) = true ∧ dmaOffStack (lone [0x20]).bus = true := by decide
theorem witness_BreakTakesIrqVector : cpuAlone 8 (lone [0x00]) = true ∧ dmaOffStack (lone [0x00]).bus = true := by decide
theorem witness_BranchesGoToTargetIfConditionHolds : cpuAlone 8 (lone [0x90]) = true := by decide
theorem witness_FlagInstructionsWriteOneFlag : cpuAlone 8 (lone [0x58]) = true ∧
    gives (exec .cli (pending ⟨false, false, true⟩)) (fun t => t.pend.irq && t.cpu.eng == .boundary) = true ∧
    gives (exec .sei (pending ⟨false, false, true⟩ (withP 0x20)))
      (fun t => !t.pend.reset && !t.pend.nmi && t.cpu.eng == .boundary) = true := by decide
theorem witness_NoOpsChangeNothing : (0x02 : Byte) ∈ unassignedOpcodes ∧ (lone [0x02]).params.unassigned = .nop2 ∧
    cpuAlone 8 (lone [0x02]) = true ∧
    (let s := { lone [0x02] with params := { unassigned := .refuse } }
     s.cpu.eng = .boundary ∧ noneTaken s = true ∧ peek s.cpu.pc s ∈ unassignedOpcodes ∧ cpuAlone 9 s = true ∧ s.params.unassigned = .refuse ∧
       dmaOffStack s.bus = true) := by decide
theorem witness_RegistersOutsideDestinationUnchanged : gives (exec .tax (lone [])) (fun _ => true) = true ∧
    Instr.writesA .tax = false ∧ Instr.writesX .tay = false ∧ Instr.writesY .tax = false ∧ Instr.writesS .tax = false := by decide
theorem witness_FlagsOutsideRuleUnchanged : statusOk (lone []).cpu.p = true ∧
    gives (exec (.adc .imm) (lone [0x50])) (fun _ => true) = true ∧ Flag.d ∉ Instr.flags (.adc .imm) := by decide
theorem witness_InstructionKeepsLatchesAndWiring : (pending ⟨true, true, true⟩).pend = ⟨true, true, true⟩ ∧
    (pending ⟨true, true, true⟩).schedule = [] ∧ noExternal (pending ⟨true, true, true⟩).bus = true ∧ gives (exec .nop (pending ⟨true, true, true⟩)) (fun _ => true) = true := by decide
theorem witness_NonStoringFormsKeepMemory : Instr.storesNothing (.lda .imm) = true ∧ (lone [1]).schedule = [] ∧
    (lone [1]).dma = .idle ∧ noExternal (lone [1]).bus = true ∧ gives (exec (.lda .imm) (lone [1])) (fun _ => true) = true ∧ ramBacked (lone [1]) 0x1FFF = true := by decide
theorem witness_StoresTouchOnlyTheirAddress : Instr.wf (.sta .absx) = true ∧ Instr.wf (.ror .zp) = true ∧
    (∀ m ∈ [Mode.absx, .zp], m ≠ .acc) ∧ cpuAlone 8 (lone [0x10, 0x03]) = true ∧ (lone [0x10, 0x03]).ram.wf = true ∧
    gives (exec (.sta .absx) (lone [0x10, 0x03])) (fun _ => true) = true ∧
    gives (exec (.ror .zp) (lone [0x10, 0x03])) (fun _ => true) = true := by decide
theorem plain_stack : ∀ b : Byte, plainRam (lone [0xEA]) (0x0100 + zext b) = true := by decide
theorem witness_PushesTouchOnlyStackCells : cpuAlone 8 (lone [0xEA]) = true ∧ dmaOffStack (lone [0xEA]).bus = true ∧
    (lone [0xEA]).ram.wf = true ∧ (∀ i ∈ [Instr.pha, .php, .jsr, .brk], gives (exec i (lone [0xEA])) (fun _ => true) = true) ∧
    ∀ b : Byte, plainRam (lone [0xEA]) (0x0100 + zext b) = true :=
  ⟨by decide, by decide, by decide, by decide, plain_stack⟩
theorem witness_StepRunsDecodedInstruction : (lone [0xEA]).cpu.eng = .boundary ∧ noneTaken (lone [0xEA]) = true ∧
    cpuAlone 9 (lone [0xEA]) = true ∧ runnable (lone [0xEA]) (peek 0x200 (lone [0xEA])) = true ∧
    (lone [0xEA] fun c => { c with eng := .fetchNext }).cpu.eng = .fetchNext ∧
    cpuAlone 9 (lone [0xEA] fun c => { c with eng := .fetchNext }) = true := by decide
theorem witness_EveryInstructionCompletesInRunningCore : Instr.wf .brk = true ∧
    runnable (State.reset.withFetchWord 8 0) (opcodeOf .brk) = true ∧ runningNormally (State.reset.withFetchWord 8 0) = true ∧
    dmaOffStack (State.reset.withFetchWord 8 0).bus = true := by decide
theorem witness_BoundaryTakesResetNmiIrqInOrder : cpuAlone 8 (pending ⟨true, true, true⟩) = true ∧
    cpuAlone 8 (pending ⟨false, true, true⟩) = true ∧ cpuAlone 8 (pending ⟨false, false, true⟩ (withP 0x20)) = true ∧
    flag .i (pending ⟨false, false, true⟩ (withP 0x20)).cpu.p = false ∧ dmaOffStack State.defaultBus = true ∧
    noneTaken (pending ⟨false, false, true⟩) = true ∧ runnable (lone [0xEA]) 0xEA = true ∧ (lone [0xEA]).cpu.eng = .boundary := by decide
/-- The state an NMI entry leaves, with its owed ticks: a handler that has done nothing. -/
def handler : State :=
  match step (pending ⟨false, true, false⟩ (withPc 0xC123)) with
  | .next t => t
  | .fault _ | .refused _ => State.reset
theorem handler_is_next : step (pending ⟨false, true, false⟩ (withPc 0xC123)) = .next handler := by
  have h : gives (step (pending ⟨false, true, false⟩ (withPc 0xC123))) (fun _ => true) = true := by decide
  unfold handler
  revert h
  cases step (pending ⟨false, true, false⟩ (withPc 0xC123)) <;> intro h
  · rfl
  · cases h
  · cases h
theorem witness_ReturnFromInterruptRestores : (pending ⟨false, true, false⟩).cpu.eng = .boundary ∧
    cpuAlone 8 (pending ⟨false, true, false⟩ (withPc 0xC123)) = true ∧ dmaOffStack State.defaultBus = true ∧
    (pending ⟨false, true, false⟩).ram.wf = true ∧ statusOk 0x24 = true ∧
    step (pending ⟨false, true, false⟩ (withPc 0xC123)) = .next handler ∧ cpuAlone 8 handler = true :=
  ⟨by decide, by decide, by decide, by decide, by decide, handler_is_next, by decide⟩
theorem witness_EveryStepKeepsInvariant : (lone [0xEA]).ok = true ∧ gives (step (lone [0xEA])) (fun _ => true) = true := by decide
theorem witness_EveryStepIsRunOfTransitions : gives (step State.reset) (fun _ => true) = true := by decide
theorem witness_GatedUnitsTakeNoTick :
    gives (step { lone [0xEA] with cpuUnit := ⟨0, false, true, .async⟩ }) (fun _ => true) = true ∧
    gives (step { lone [0xEA] with cpuUnit := ⟨9, true, false, .async⟩ }) (fun _ => true) = true ∧
    gives (step ((lone [0xEA]).mapClock fun c => { c with disposed := true })) (fun _ => true) = true := by decide
/-- The topology of R219 with a bound of 4 on the counters. -/
def small : State := { State.reset with params := { owedMax := 4 }, ppuUnit := ⟨1, false, false, .async⟩ }
theorem witness_EmitStepsFollowRatioLaw : small.clock.listeners = [.unit .ppu, .divider 0] ∧
    small.dividers = [⟨3, 1, 0, [.unit .cpu], none⟩] ∧ cpuDividerOnly small.dividers = true ∧ small.ppuUnit.disposed = false ∧
    small.cpuUnit.disposed = false ∧ small.ppuUnit.owed + 3 ≤ small.params.owedMax ∧
    small.cpuUnit.owed + 3 ≤ small.params.owedMax := by decide
/-- A Clock with the processor as its one listener. -/
def oneListener (c : UnitCtl) : State :=
  { State.reset with
    params := { owedMax := 4 }
    cpuUnit := c
    clock := { State.reset.clock with listeners := [.unit .cpu] } }
theorem witness_DeliveryCountsAndDividerNeverDrifts :
    (oneListener ⟨0, false, true, .async⟩).cpuUnit.disposed = true ∧
    (oneListener ⟨4, false, false, .async⟩).cpuUnit.owed = (oneListener ⟨4, false, false, .async⟩).params.owedMax ∧
    (oneListener ⟨3, true, false, .async⟩).cpuUnit.owed ≠ (oneListener ⟨3, true, false, .async⟩).params.owedMax ∧
    (let d : Divider := ⟨1, 1, 0, [], none⟩; d.acc = 0 ∧ 0 < d.den ∧ 0 < d.num ∧ d.den ≤ d.num) ∧
    (let d : Divider := ⟨5, 2, 0, [], none⟩; d.acc = 0 ∧ 0 < d.den ∧ 0 < d.num ∧ d.den ≤ d.num) ∧
    (let d : Divider := ⟨1, 2, 0, [], none⟩; d.acc = 0 ∧ 0 < d.den ∧ 0 < d.num ∧ Config.DividerLaw.every ≠ .once) ∧
    (let c := circle.mapClock fun c => { c with tickCount := c.tickCount + 1 }
     deliverEach (deliver 2) circle.clock.listeners c = .endless ∧
     (match deliverEach (deliver 3) circle.clock.listeners c with
      | .done _ => true
      | .overflow _ | .endless => false) = true ∧
     deliverEach (deliver 0) [.unit .cpu] (oneListener ⟨4, false, false, .async⟩) = .overflow .cpu) := by decide
/-- A divider of 1 that is its own child: a delivery to it never ends. -/
def endless : State := { circle with dividers := [⟨1, 1, 0, [.divider 0], none⟩] }
theorem endless_feeds_itself (depth : Nat) (s : State) (h : s.dividers = [⟨1, 1, 0, [.divider 0], none⟩])
    (hl : s.params.dividerLaw = .once) : deliver depth (.divider 0) s = .endless := by
  induction depth generalizing s with
  | zero => rfl
  | succ n ih =>
    have hf : ((⟨1, 1, 0, [.divider 0], none⟩ : Divider).feed .once) = (⟨1, 1, 0, [.divider 0], none⟩, 1) := rfl
    unfold deliver
    rw [h]
    simp only [List.getElem?_cons_zero, hl, hf]
    show (deliver n (.divider 0) _).andThen _ = _
    rw [ih (s.setDividers ([⟨1, 1, 0, [.divider 0], none⟩].set 0 ⟨1, 1, 0, [.divider 0], none⟩)) rfl hl]
    rfl
theorem witness_DeliveryThatNeverEnds (depth : Nat) : deliverEach (deliver depth) endless.clock.listeners
    (endless.mapClock fun c => { c with tickCount := c.tickCount + 1 }) = .endless := by
  show deliverEach (deliver depth) [.divider 0] _ = _
  simp only [deliverEach]
  rw [endless_feeds_itself depth _ rfl rfl]
  rfl
theorem witness_ClockHostOperations : (State.reset.mapClock fun c => { c with listeners := [] }).clock.listeners = [] ∧
    State.reset.clock.listeners ≠ [] ∧ State.reset.clock.running = false ∧
    (State.reset.mapClock fun c => { c with running := true }).clock.running = true ∧ (0 : Int) ≤ 0 ∧ (0 : Nat) < 1 := by decide
theorem witness_BusDispatchesAccessesAndSignals : State.reset.bus = [] ++ ⟨none, .cpu⟩ :: State.reset.bus.tail ∧
    Component.caps .cpu = ⟨false, false, true, true, true⟩ ∧
    (∀ e ∈ State.reset.bus.tail, e.component.caps.irqCapable = false ∧ e.component.caps.nmiCapable = false) ∧
    (⟨none, .cpu⟩ : BusEntry) ∈ State.reset.bus := by decide
theorem witness_NesMapRoutesAddresses : State.reset.bus = State.defaultBus ∧ (0x1FFF : Addr).toNat ≤ 0x1FFF ∧
    0x2000 ≤ (0x2000 : Addr).toNat ∧ (0x3FFF : Addr).toNat ≤ 0x3FFF ∧ 0x4018 ≤ (0x4018 : Addr).toNat ∧
    (0x401F : Addr).toNat ≤ 0x401F ∧ 0x4020 ≤ (0x4020 : Addr).toNat ∧ (0x4013 : Addr).toNat ≤ 0x4013 := by decide
theorem witness_AttachDetachAndLoad : (0x000F : Addr).toNat < (0x0010 : Addr).toNat ∧ (0x10 : Addr).toNat ≤ (0x10 : Addr).toNat ∧
    ∀ e ∈ State.reset.bus, e.component ≠ .ext 0 ⟨true, true, true, true, true⟩ := by decide
theorem witness_BusResetResetsComponents : (lone [0xEA]).bus = State.defaultBus := by decide
theorem witness_BeamAdvancesThroughFrame : (atDot 261 339 1 0 0).ppu.pos.scanline < 262 ∧ (atDot 261 340 0 0 0).ppu.pos.dot < 341 ∧
    (atDot 261 339 1 0 0).params.oddFrameSkip = .always ∧ (atDot 0 340 0 0 0).ppu.pos.dot = 340 ∧
    plainSignals State.reset.bus = true ∧ (atDot 261 339 1 0 0).bus = State.reset.bus := by decide
theorem witness_FrameLengthBetweenVblanks : (atDot 241 1 1 0 0).ppu.pos.scanline = 241 ∧ (atDot 241 1 1 0 0).ppu.pos.dot = 1 ∧
    (atDot 241 1 1 0 0).params.oddFrameSkip = .always ∧ plainSignals (atDot 241 1 1 0 0).bus = true := by decide
theorem witness_VblankFlagAndNmi : (atDot 241 1 0 0x80 0).bus = ⟨none, .cpu⟩ :: (atDot 241 1 0 0x80 0).bus.tail ∧
    (atDot 261 1 0 0 0).ppu.pos.scanline = 261 ∧ (atDot 0 0 0 0 0).ppu.pos.dot ≠ 1 := by decide
theorem witness_NoRenderingDrawsBackdrop : (atDot 239 256 0 0 0).ppu.works = false ∧ (atDot 0 1 0 0 0).ppu.works = false ∧
    (atDot 240 1 0 0 0x18).ppu.works = false ∧ (atDot 239 256 0 0 0).ppu.pos.scanline ≤ 239 ∧
    (atDot 239 256 0 0 0).ppu.pos.dot ≤ 256 ∧ plainSignals (atDot 239 256 0 0 0).bus = true ∧
    plainSignals (atDot 0 1 0 0 0).bus = true ∧ (atDot 0 1 0 0 0).ppu.out.fb0.wf = true ∧ (atDot 0 1 0 0 0).ppu.out.fb1.wf = true := by decide
theorem witness_ScrollIncrementsAndCopies : (atDot 0 256 0 0 0x08).ppu.works = true ∧ (atDot 0 257 0 0 0x08).ppu.works = true ∧
    (atDot 261 304 0 0 0x08).ppu.works = true ∧ (atDot 239 8 0 0 0x08).ppu.works = true ∧
    plainSignals (atDot 239 8 0 0 0x08).bus = true := by decide
theorem witness_BackgroundFetchSchedule : (atDot 0 2 0 0 0x08).ppu.works = true ∧ (atDot 261 337 0 0 0x08).ppu.works = true ∧
    plainSignals (atDot 0 2 0 0 0x08).bus = true ∧ plainSignals (atDot 261 337 0 0 0x08).bus = true := by decide
/-- The picture generator evaluating object-table entry `(d - 65) / 3` on line 12 after `n` sprites were found. -/
def evaluating (d n : Nat) (y : Byte) : State :=
  (atDot 12 d 0 0 0x10).mapPpu fun p =>
    { p with spr := { p.spr with countNext := n, oam := Memory.write [] (4 * ((d - 65) / 3)) y } }
theorem witness_SpriteEvaluationSelectsEight : (evaluating 254 7 12).ppu.works = true ∧ (evaluating 254 7 12).ppu.spr.oam2.wf = true ∧
    (evaluating 254 7 12).ppu.spr.countNext < 8 ∧ ((evaluating 254 7 12).ppu.spr.oam.read 252).toNat = 12 ∧
    8 ≤ (evaluating 65 8 5).ppu.spr.countNext ∧ ((evaluating 65 8 5).ppu.spr.oam.read 0).toNat = 5 ∧
    plainSignals (evaluating 254 7 12).bus = true ∧ plainSignals (evaluating 65 8 5).bus = true ∧
    (evaluating 255 8 12).ppu.works = true ∧ (evaluating 255 8 12).ppu.pos.dot % 3 ≠ 2 ∧
    (atDot 0 1 0 0 0x10).ppu.works = true ∧ (atDot 261 257 0 0 0x10).ppu.works = true := by decide
theorem witness_SpritePatternAddress : Ppu.powerOn.regs.ctrl.getLsbD 5 = false ∧
    (atDot 0 0 0 0x20 0).ppu.regs.ctrl.getLsbD 5 = true ∧ Ppu.powerOn.spr.countCur ≤ 0 ∧
    (let p := { Ppu.powerOn with spr := { Ppu.powerOn.spr with countCur := 8, oam2 := [(28, 10)] } }
     7 < p.spr.countCur ∧ (p.spr.oam2.read 28).toNat ≤ 17 ∧ 17 < (p.spr.oam2.read 28).toNat + 8) := by decide
theorem witness_SpriteSlotsLoadAndShift : (atDot 0 319 0 0 0x10).ppu.works = true ∧ (atDot 0 263 0 0 0x10).ppu.works = true ∧
    (atDot 0 317 0 0 0x10).ppu.works = true ∧ (atDot 0 2 0 0 0x10).ppu.works = true ∧
    (atDot 0 2 0 0 0x10).ppu.spr.slots.length = 8 ∧ plainSignals (atDot 0 2 0 0 0x10).bus = true ∧
    (atDot 0 261 0 0 0x10).ppu.works = true ∧ (317 - 261) / 8 = 7 ∧ (319 - 263) / 8 = 7 ∧
    (let p := { Ppu.powerOn with spr := { Ppu.powerOn.spr with countCur := 8 } }; 7 < p.spr.countCur) := by decide
/-- Sprites and background shown everywhere; slot 1 opaque at the beam. -/
def opaqueSlot : Ppu :=
  { Ppu.powerOn with
    regs := { Ppu.powerOn.regs with mask := 0x1E }
    spr := { Ppu.powerOn.spr with slots := [⟨0, 0, 0, 0⟩, ⟨0x80, 0, 0, 0⟩, ⟨0, 0, 0, 0⟩] } }
theorem witness_PixelPriorityAndColour : opaqueSlot.regs.mask.getLsbD 4 = true ∧ opaqueSlot.regs.mask.getLsbD 2 = true ∧
    opaqueSlot.spr.slots[1]? = some ⟨0x80, 0, 0, 0⟩ ∧ (0x80 : Byte).getLsbD 7 = true ∧
    (∀ j < 1, ∀ e, opaqueSlot.spr.slots[j]? = some e → e.patLo.getLsbD 7 = false ∧ e.patHi.getLsbD 7 = false) ∧
    (atDot 239 256 0 0 0x1E).ppu.pos.scanline ≤ 239 ∧ plainSignals (atDot 239 256 0 0 0x1E).bus = true ∧ opaqueSlot.out.fb0.wf = true ∧ opaqueSlot.out.fb1.wf = true :=
  ⟨by decide, by decide, by decide, by decide, fun j hj e he => by
    obtain rfl : j = 0 := by omega
    cases he; decide, by decide, by decide, by decide, by decide⟩
theorem witness_NametableAndPaletteMirrors : State.reset.ppu.mem.vram.wf = true ∧ State.reset.ppu.mem.palette.wf = true ∧
    0x2000 ≤ (0x2000 : PpuAddr).toNat ∧ (0x3EFF : PpuAddr).toNat < 0x3F00 ∧ 0x3F00 ≤ (0x3FFF : PpuAddr).toNat ∧
    0x3000 ≤ (0x3000 : PpuAddr).toNat ∧ (BitVec.ofNat 14 (0x3F00 + 0x20 * 7 + 0x1F) : PpuAddr) = 0x3FFF := by decide
/-- The hypotheses of StatusReadAndIoLatch, ControlMaskAndObjectPorts and ScrollAndAddressPorts, clause by clause. -/
theorem witness_StatusControlScrollPorts : State.reset.bus = State.defaultBus ∧ 0x2000 ≤ (0x2000 : Addr).toNat ∧
    (0x3FFF : Addr).toNat ≤ 0x3FFF ∧ (0x2002 : Addr).toNat % 8 = 2 ∧ (0x3FF9 : Addr).toNat % 8 = 1 ∧
    (0x3FFF : Addr).toNat % 8 = 7 ∧ (0x3FFC : Addr).toNat % 8 = 4 ∧ (0x2003 : Addr).toNat % 8 = 3 ∧
    (0x2005 : Addr).toNat % 8 = 5 ∧ (0x3FFE : Addr).toNat % 8 = 6 ∧ State.reset.ppu.spr.oam.wf = true ∧
    State.reset.ppu.scr.w = false ∧ (withPpu fun p => { p with scr := ⟨0x3EFF, 0, 0, true⟩ }).ppu.scr.w = true := by decide
theorem witness_DataPortReadsAndWrites : State.reset.bus = State.defaultBus ∧ (0x3FFF : Addr).toNat % 8 = 7 ∧
    ((0x3EFF : Scroll).setWidth 14 : PpuAddr).toNat < 0x3F00 ∧ 0x3F00 ≤ ((0x3F00 : Scroll).setWidth 14 : PpuAddr).toNat := by decide
theorem witness_ControllersLatchAndShiftButtons : State.reset.bus = State.defaultBus ∧ (0x01 : Byte).getLsbD 0 = true ∧
    (0x00 : Byte).getLsbD 0 = false := by decide
theorem witness_DmaCopiesPageToObjectTable : ((lone [0xEA]).setDma (.requested 0x1F)).dma = .requested 0x1F ∧
    cpuAlone 514 (((lone [0xEA]).setDma (.requested 0x1F)).setDma .idle) = true ∧ (lone [0xEA]).bus = State.defaultBus ∧
    (0x1F : Byte).toNat < 0x20 ∧ (lone [0xEA]).cpu.eng = .boundary ∧ (lone [0xEA]).ppu.spr.oam.wf = true := by decide
theorem witness_DmaHoldsProcessor :
    gives (cpuHandler [] ((lone [0xEA]).setDma (.active 2 514 7))) (fun t => t.dma == .idle) = true ∧
    gives (cpuHandler [] ((lone [0xEA]).setDma (.requested 2))) (fun _ => true) = true ∧
    nextTickWrites [] Engine.boundary = false ∧
    (let s := (lone [] fun c => { c with eng := .inInstr 0x48 3 {} }).setDma (.requested 2)
     nextTickWrites (currentTable s) s.cpu.eng = true ∧ gives (cpuHandler (currentTable s) s) (fun _ => true) = true) ∧
    gives (cpuHandler [] ((pending ⟨true, true, true⟩).setDma (.requested 2))) (fun t => t.pend == ⟨true, true, true⟩) = true := by decide
/-- A cartridge of 32 KiB at 0x8000, R650's example, with pattern memory and one byte of each. -/
def flatCart : Cart := ⟨.flat [⟨0x8000, 0xFFFF, 0, false⟩] [⟨0, 0x1FFF, 0, true⟩] .vertical, 0, [(0x10, 0x42)], [(0x1FFF, 0x07)]⟩
theorem witness_CartridgeAnswersThroughMapper :
    (let s := { State.reset with cart := flatCart }
     s.bus = State.defaultBus ∧ s.cart.prg.wf = true ∧ s.cart.chr.wf = true ∧
      (busRead 0x8010 s).1 = 0x42 ∧ (busRead 0x4020 s).1 = 0 ∧ (ppuRead 0x1FFF s).1 = 0x07 ∧
      (busWrite 0x8010 1 s).cart = flatCart ∧ (ppuWrite 0x1FFF 0 s).cart.chr = []) ∧
    0x4020 ≤ (0x4020 : Addr).toNat ∧ (0x1FFF : PpuAddr).toNat < 0x2000 ∧ 0x8000 ≤ (0x8000 : Addr).toNat ∧
    (0x7FFF : Addr).toNat < 0x8000 := by decide

end Sys2Proof.Tests
end

namespace Sys2Proof.Machine

/-! ## How a step runs through its transitions (R212)

One induction for every claim about a whole step: what holds before it and is kept by each transition that
the schedule or the default order chooses holds after it. -/

/-- Where a CPU tick may leave the engine: where it was (a DMA tick), in the instruction or sequence it was in, at
the first tick of one, or at rest behind one (R280, R282). -/
inductive EngineMove : Engine → Engine → Prop where
  | stay (e : Engine) : EngineMove e e
  | rest {e f : Engine} : f.atRest = true → EngineMove e f
  | fetch {e : Engine} (op : Byte) : e.atRest = true → EngineMove e (.inInstr op 2 {})
  | enter {e : Engine} (kind : Sequence) (k : Nat) (lat : Lat) : e.atRest = true → EngineMove e (.inSeq kind k lat)
  | instr (op : Byte) (k j : Nat) (lat lat' : Lat) : EngineMove (.inInstr op k lat) (.inInstr op j lat')
  | seq (kind : Sequence) (k j : Nat) (lat lat' : Lat) : EngineMove (.inSeq kind k lat) (.inSeq kind j lat')

/-- An opcode fetch that ends in a next state has set the engine to T2 of the byte fetched (R281). -/
theorem fetchOpcode_next {s t : State} (h : fetchOpcode s = .next t) :
    t = setEng (.inInstr (fetchByte s).1 2 {}) (fetchByte s).2 := by
  unfold fetchOpcode at h
  dsimp only at h
  split at h
  · cases h
  · cases h; rfl

/-- A tick of a sequence goes on in the sequence or ends it. -/
theorem seqTick_eng (kind : Sequence) (k : Nat) (lat : Lat) (s : State) :
    (∃ lat', (seqTick kind k lat s).cpu.eng = .inSeq kind (k + 1) lat') ∨ (seqTick kind k lat s).cpu.eng = .fetchNext := by
  unfold seqTick
  split
  · exact .inl ⟨_, rfl⟩
  · exact .inr rfl

/-- A tick of an instruction goes on in the instruction or ends it. -/
theorem instrTick_eng (T : Table) (op : Byte) (k : Nat) (lat : Lat) (s : State) :
    (∃ lat', (instrTick T op k lat s).cpu.eng = .inInstr op (k + 1) lat') ∨ (instrTick T op k lat s).cpu.eng = .boundary := by
  unfold instrTick
  split
  · exact .inl ⟨_, rfl⟩
  · exact .inr rfl

theorem enterSeq_move {e : Engine} (he : e.atRest = true) (kind : Sequence) (s : State) :
    EngineMove e (enterSeq kind s).cpu.eng := by
  rcases seqTick_eng kind 1 { vec := kind.vector } s with ⟨lat, h⟩ | h
  · exact h ▸ .enter kind _ lat he
  · exact h ▸ .rest rfl

/-- What a boundary can begin (R282): a sequence, or the opcode fetch. -/
theorem boundaryTick_cases {s t : State} (h : boundaryTick s = .next t) :
    (∃ kind f, t = enterSeq kind (s.mapPend f)) ∨ fetchOpcode s = .next t := by
  unfold boundaryTick at h
  split at h
  · cases h; exact .inl ⟨.reset, id, rfl⟩
  · split at h
    · cases h; exact .inl ⟨.nmi, _, rfl⟩
    · split at h
      · cases h; exact .inl ⟨.irq, _, rfl⟩
      · exact .inr h

/-- What a CPU tick can be (R280, R341, R342): a tick of the running DMA, the first tick of the one asked for, or the
engine's own. -/
theorem cpuHandler_cases {T : Table} {s t : State} (h : cpuHandler T s = .next t) :
    (∃ page k data, s.dma = .active page k data ∧ t = dmaTick page k data (s.mapCpu Cpu.tick)) ∨
    (∃ page, t = startDma page s.cpu.cycles (s.mapCpu Cpu.tick)) ∨
    engineTick T (s.mapCpu Cpu.tick) = .next t := by
  unfold cpuHandler at h
  dsimp only at h
  split at h
  · rename_i page k data hd
    cases h; exact .inl ⟨page, k, data, hd, rfl⟩
  · rename_i page _
    split at h
    · exact .inr (.inr h)
    · cases h; exact .inr (.inl ⟨page, rfl⟩)
  · exact .inr (.inr h)

theorem engineTick_move {T : Table} {s t : State} (h : engineTick T s = .next t) : EngineMove s.cpu.eng t.cpu.eng := by
  unfold engineTick at h
  split at h
  · rename_i he
    rw [he]
    rcases boundaryTick_cases h with ⟨kind, f, rfl⟩ | h
    · exact enterSeq_move rfl kind _
    · rw [fetchOpcode_next h]; exact .fetch _ rfl
  · rename_i he
    rw [he, fetchOpcode_next h]; exact .fetch _ rfl
  · rename_i op k lat he
    cases h
    rcases instrTick_eng T op k lat s with ⟨lat', h⟩ | h
    · rw [he, h]; exact .instr ..
    · rw [h]; exact .rest rfl
  · rename_i kind k lat he
    cases h
    rcases seqTick_eng kind k lat s with ⟨lat', h⟩ | h
    · rw [he, h]; exact .seq ..
    · rw [h]; exact .rest rfl

theorem cpuHandler_move {T : Table} {s t : State} (h : cpuHandler T s = .next t) : EngineMove s.cpu.eng t.cpu.eng := by
  rcases cpuHandler_cases h with ⟨page, k, data, _, rfl⟩ | ⟨page, rfl⟩ | h
  · rw [dmaTick_cpu]; exact .stay _
  · rw [startDma_cpu]; exact .stay _
  · exact (engineTick_move h :)

/-- The transitions up to and with a CPU tick move the engine as one tick does, or not at all. -/
theorem cpuTick_move {T : Table} {s t : State} (h : cpuTick T s = .next t) : EngineMove s.cpu.eng t.cpu.eng := by
  rcases untilCpuTick_cases h with hq | ⟨r, hq, _, _, hr⟩
  · rw [hq.cpu]; exact .stay _
  · have := cpuHandler_move hr
    rwa [show (consume .cpu r).cpu = s.cpu from hq.cpu] at this

/-- The tick table that goes with a place of the engine. -/
def Engine.table : Engine → Table
  | .inInstr op _ _ => tableOf (decode op)
  | .boundary | .fetchNext | .inSeq _ _ _ => []

theorem currentTable_eq (s : State) : currentTable s = s.cpu.eng.table := by
  unfold currentTable
  cases s.cpu.eng <;> rfl

/-- Inside an instruction or sequence the table stays the same to its end. -/
theorem EngineMove.table_eq {e f : Engine} (h : EngineMove e f) (he : e.atRest = false) (hf : f.atRest = false) :
    f.table = e.table := by
  cases h with
  | stay | instr | seq => rfl
  | rest h => rw [hf] at h; cases h
  | fetch _ h | enter _ _ _ h => rw [he] at h; cases h

theorem opcodeOf_decode (op : Byte) : opcodeOf (decode op) = op := by
  unfold opcodeOf; rw [encode_decode]; rfl

/-- The property survives the end of the schedule and every transition that the machine takes next. -/
structure StepInvariant (I : State → Prop) : Prop where
  none : ∀ {s rest}, I s → nextEvent s s.schedule = (none, rest) → I (s.setSchedule rest)
  fire : ∀ {s e rest t}, I s → nextEvent s s.schedule = (some e, rest) →
    fire (currentTable s) e (s.setSchedule rest) = .next t → I t

section
variable {I : State → Prop} (hI : StepInvariant I)
include hI

theorem StepInvariant.untilCpuTick {T : Table} {n : Nat} {s t : State} (hs : I s) (hT : currentTable s = T)
    (h : untilCpuTick T n s = .next t) : I t := by
  induction n generalizing s with
  | zero => cases h; exact hs
  | succ n ih =>
    simp only [Machine.untilCpuTick] at h
    split at h
    · cases h; exact hI.none hs ‹_›
    · exact hI.fire hs ‹_› (hT ▸ h)
    · rename_i e rest hne he
      obtain ⟨u, hu, h⟩ := andThen_next h
      have hcpu : u.cpu = s.cpu := (fire_quiet (by rintro rfl; exact hne rfl) hu).cpu
      exact ih (hI.fire hs he (hT ▸ hu)) (by rw [← hT, currentTable_eq, currentTable_eq, hcpu]) h

theorem StepInvariant.runTicks {T : Table} {n : Nat} {s t : State} (hs : I s) (hT : currentTable s = T)
    (hr : s.cpu.eng.atRest = false) (h : runTicks T n s = .next t) : I t := by
  induction n generalizing s with
  | zero => cases h; exact hs
  | succ n ih =>
    simp only [Machine.runTicks] at h
    obtain ⟨u, hu, h⟩ := andThen_next h
    have hu' : I u := hI.untilCpuTick hs hT hu
    split at h
    · cases h; exact hu'
    · rename_i hc
      simp only [Bool.or_eq_true, not_or, Bool.not_eq_true] at hc
      exact ih hu' (by rw [← hT, currentTable_eq, currentTable_eq, (cpuTick_move hu).table_eq hr hc.1]) hc.1 h

/-- After the opcode fetch the instruction runs on from T2, where the fetch has left the engine. -/
theorem StepInvariant.exec {op : Byte} {s t : State} (hs : I s) (he : s.cpu.eng = .inInstr op 2 {})
    (h : exec (decode op) s = .next t) : I t := by
  have h := exec_run h
  unfold run at h
  split at h
  · have hstart : start (decode op) s = s := by
      unfold start setEng State.mapCpu Cpu.setEng
      rw [opcodeOf_decode, ← he]
    rw [hstart] at h
    exact hI.runTicks hs (by rw [currentTable_eq, he]; rfl) (by rw [he]; rfl) h
  · cases h

theorem StepInvariant.afterFirstTick {e : Engine} (hr : e.atRest = true) {s t : State} (hs : I s)
    (hm : EngineMove e s.cpu.eng) (h : afterFirstTick s = .next t) : I t := by
  unfold Machine.afterFirstTick at h
  split at h
  · rename_i op k lat he
    rw [he] at hm
    cases hm with
    | stay => cases hr
    | rest h => cases h
    | fetch _ _ => exact hI.exec hs he h
    | instr => cases hr
  · rename_i he
    exact hI.runTicks hs (by rw [currentTable_eq, he]; rfl) (by rw [he]; rfl) h
  · cases h; exact hs
  · cases h; exact hs

/-- What every transition keeps, a step keeps. -/
theorem StepInvariant.step {s t : State} (hs : I s) (h : step s = .next t) : I t := by
  have fromRest (hr : s.cpu.eng.atRest = true) (hT : currentTable s = [])
      (h : andThen (cpuTick [] s) Machine.afterFirstTick = .next t) : I t := by
    obtain ⟨u, hu, h⟩ := andThen_next h
    exact hI.afterFirstTick hr (hI.untilCpuTick hs hT hu) (cpuTick_move hu) h
  unfold Machine.step at h
  split at h
  · rename_i he; exact fromRest (by rw [he]; rfl) (by rw [currentTable_eq, he]; rfl) h
  · rename_i he; exact fromRest (by rw [he]; rfl) (by rw [currentTable_eq, he]; rfl) h
  · rename_i he; exact hI.runTicks hs (by rw [currentTable_eq, he]; rfl) (by rw [he]; rfl) h
  · rename_i he; exact hI.runTicks hs (by rw [currentTable_eq, he]; rfl) (by rw [he]; rfl) h

end

/-! ### A step as a run of transitions (R58, R212) -/

theorem Reaches.setSchedule {s t : State} (h : Reaches s t) (es : List Event) : Reaches s (t.setSchedule es) := by
  cases h with
  | refl => exact .refl s es
  | tail _ hr ht => exact (Reaches.tail es hr ht :)

theorem Reaches.transition {s t u : State} (h : Reaches s t) (ht : Transition t u) : Reaches s u :=
  .tail u.schedule h ht

theorem reaches_invariant (s : State) : StepInvariant (Reaches s) where
  none h _ := h.setSchedule _
  fire h he hf := h.transition ⟨_, _, nextEvent_enabled he, hf⟩

/-- Settles O32: each transition that a step takes is enabled when it is taken, so a step extends a run. -/
theorem everyStepIsRunOfTransitions : Obligations.EveryStepIsRunOfTransitions := by
  intro s t h
  exact (reaches_invariant s).step (.refl s s.schedule) h

end Sys2Proof.Machine

namespace Sys2Proof.Machine

/-! ## Flags that an instruction's rule does not name (R41, R42) -/

section
variable {f : Flag} (hz : f ≠ .z) (hn : f ≠ .n)
include hz hn

theorem flag_compare_of_ne (hc : f ≠ .c) (r m : Byte) (c : Cpu) : flag f (c.compare r m).p = flag f c.p :=
  (flag_setNZ_of_ne _ _ hn hz).trans (flag_put_of_ne _ _ hc)

theorem flag_shifted_of_ne (hc : f ≠ .c) (out : Bool) (r : Byte) (c : Cpu) : flag f (c.shifted out r).2.p = flag f c.p :=
  (flag_setNZ_of_ne _ _ hn hz).trans (flag_put_of_ne _ _ hc)

theorem flag_bitTest_of_ne (hv : f ≠ .v) (m : Byte) (c : Cpu) : flag f (c.bitTest m).p = flag f c.p :=
  (flag_put_of_ne _ _ hv).trans <| (flag_put_of_ne _ _ hn).trans <| flag_put_of_ne _ _ hz

theorem flag_addWithCarry_of_ne (hv : f ≠ .v) (hc : f ≠ .c) (m : Byte) (c : Cpu) :
    flag f (c.addWithCarry m).p = flag f c.p := by
  have hA : ∀ (v : Byte) (c : Cpu), flag f (c.setA v).p = flag f c.p := fun _ _ => rfl
  exact (flag_setNZ_of_ne _ _ hn hz).trans <| (hA _ _).trans <| (flag_put_of_ne _ _ hv).trans <| flag_put_of_ne _ _ hc

end

/-- Every tick of an instruction but PLP and RTI, which load P whole, keeps each flag that its rule does not name. -/
theorem tableOf_keeps_flag {f : Flag} {i : Instr} (hf : f ∉ i.flags) (hplp : i ≠ .plp) (hrti : i ≠ .rti) :
    TableKeeps (fun c => flag f c.p) (tableOf i) := by
  have hpc : ∀ (c : Cpu) (v : Addr), flag f (Cpu.setPc v c).p = flag f c.p := fun _ _ => rfl
  have hsp : ∀ (c : Cpu) (v : Byte), flag f (Cpu.setSp v c).p = flag f c.p := fun _ _ => rfl
  cases i <;> simp only [Instr.flags, List.mem_cons, List.not_mem_nil, or_false, not_or] at hf
  case plp => exact absurd rfl hplp
  case rti => exact absurd rfl hrti
  case lda m | ldx m | ldy m | and m | ora m | eor m => exact keep_read hpc m fun _ _ => flag_setNZ_of_ne _ _ hf.1 hf.2
  case adc m | sbc m =>
    obtain ⟨hn, hv, hz, hc⟩ := hf
    exact keep_read hpc m fun _ c => flag_addWithCarry_of_ne hz hn hv hc _ c
  case cmp m | cpx m | cpy m =>
    obtain ⟨hn, hz, hc⟩ := hf
    exact keep_read hpc m fun v c => flag_compare_of_ne hz hn hc _ v c
  case bit m =>
    obtain ⟨hn, hv, hz⟩ := hf
    exact keep_read hpc m fun v c => flag_bitTest_of_ne hz hn hv v c
  case sta m | stx m | sty m => exact keep_write hpc m _
  case inc m | dec m => exact keep_rmw hpc m (fun _ _ => flag_setNZ_of_ne _ _ hf.1 hf.2) fun _ _ _ => rfl
  case asl m | lsr m | rol m | ror m =>
    obtain ⟨hn, hz, hc⟩ := hf
    exact keep_rmw hpc m (fun _ c => flag_shifted_of_ne hz hn hc _ _ c) fun _ _ _ => rfl
  case tax | tay | txa | tya | tsx | inx | iny | dex | dey => exact keep_implied fun _ => flag_setNZ_of_ne _ _ hf.1 hf.2
  case clc | sec | cli | sei | clv | cld | sed => exact keep_implied fun c => flag_put_of_ne _ c hf
  case txs | nop | una _ => exact keep_implied fun _ => rfl
  case bcc | bcs | beq | bmi | bne | bpl | bvc | bvs => exact keep_branch hpc _
  case jmp m => exact keep_jmp hpc m
  case jsr => exact keep_jsr hpc hsp
  case rts => exact keep_rts hpc hsp
  case brk => exact keep_brk hpc hsp fun c => flag_put_of_ne _ c hf
  case pha => exact keep_pha hsp
  case php => exact keep_php hsp
  case pla => exact keep_pla hsp fun _ _ => flag_setNZ_of_ne _ _ hf.1 hf.2

/-! ### U set and B clear -/

/-- No rule names U or B. -/
theorem fixed_flag_unnamed {f : Flag} (hf : f = .u ∨ f = .b) (i : Instr) : f ∉ i.flags := by
  rcases hf with rfl | rfl <;> cases i <;> simp [Instr.flags]

theorem statusOk_iff (p : Byte) : statusOk p = true ↔ flag .u p = true ∧ flag .b p = false := by
  simp [statusOk]

theorem statusOk_pushedByInterrupt : ∀ p : Byte, statusOk (pushedByInterrupt p) = true := by decide

/-- The registers are well formed as far as P goes. -/
def Cpu.statusOk (c : Cpu) : Prop := Machine.statusOk c.p = true

/-- A tick that leaves U and B alone, or loads P as PLP and RTI do, keeps U set and B clear. -/
def TickKeepsStatus (k : Tick) : Prop := ∀ lat s, s.cpu.statusOk → (k.act lat s).state.cpu.statusOk

theorem TickKeeps.status {k : Tick} (h : TickKeeps (fun c => Machine.statusOk c.p) k) : TickKeepsStatus k :=
  fun lat s hs => (h lat s).trans hs

theorem tickKeepsStatus_cons {k : Tick} {T : Table} (h : TickKeepsStatus k) (hT : ∀ j ∈ T, TickKeepsStatus j) :
    ∀ j ∈ k :: T, TickKeepsStatus j := List.forall_mem_cons.mpr ⟨h, hT⟩

theorem tickKeepsStatus_openPull : TickKeepsStatus ⟨false, fun lat s => .more lat (openPull s)⟩ :=
  TickKeeps.status fun _ s => keepTick_openPull (f := fun c => Machine.statusOk c.p) (fun _ _ => rfl) s

theorem tickKeepsStatus_idle : TickKeepsStatus idleRead := TickKeeps.status keepTick_idle

/-- Every tick of every instruction keeps U set and B clear (R42). -/
theorem tableOf_keeps_status (i : Instr) : ∀ k ∈ tableOf i, TickKeepsStatus k := by
  have hview : ∀ (g : Cpu → Cpu), (∀ c, (g c).p = c.p) → ∀ s : State,
      s.cpu.statusOk → ((readStack s).2.mapCpu g).cpu.statusOk := fun g hg s hs => by
    show Machine.statusOk (g (busRead (stackAddr s) s).2.cpu).p = true
    rw [hg, busRead_cpu]; exact hs
  by_cases hplp : i = .plp
  · subst hplp
    exact tickKeepsStatus_cons tickKeepsStatus_idle <| tickKeepsStatus_cons tickKeepsStatus_openPull <|
      tickKeepsStatus_cons (fun _ _ _ => statusOk_pushedByInterrupt _) fun _ h => absurd h List.not_mem_nil
  by_cases hrti : i = .rti
  · subst hrti
    exact tickKeepsStatus_cons tickKeepsStatus_idle <| tickKeepsStatus_cons tickKeepsStatus_openPull <|
      tickKeepsStatus_cons (fun _ _ _ => statusOk_pushedByInterrupt _) <| tickKeepsStatus_cons (fun _ s => hview Cpu.incSp (fun _ => rfl) s) <|
      tickKeepsStatus_cons (fun _ s => hview _ (fun _ => rfl) s) fun _ h => absurd h List.not_mem_nil
  have hu : TableKeeps (fun c => flag .u c.p) (tableOf i) := tableOf_keeps_flag (fixed_flag_unnamed (.inl rfl) i) hplp hrti
  have hb : TableKeeps (fun c => flag .b c.p) (tableOf i) := tableOf_keeps_flag (fixed_flag_unnamed (.inr rfl) i) hplp hrti
  intro k hk
  refine TickKeeps.status fun lat s => ?_
  have h1 : flag .u (k.act lat s).state.cpu.p = flag .u s.cpu.p := hu k hk lat s
  have h2 : flag .b (k.act lat s).state.cpu.p = flag .b s.cpu.p := hb k hk lat s
  simp only [Machine.statusOk, h1, h2]

theorem exec_statusOk {i : Instr} {s t : State} (hs : statusOk s.cpu.p = true) (h : exec i s = .next t) :
    statusOk t.cpu.p = true :=
  (run_inv (regs_inv (A := Cpu.statusOk) (tableOf_keeps_status i) (fun _ _ h => h) (fun _ _ h => h)) hs (exec_run h)).1

/-- Settles O20: an instruction but PLP and RTI keeps each flag it does not name tick by tick; those two name every flag
but U and B, which a status byte in order fixes. -/
theorem flagsOutsideRuleUnchanged : Obligations.FlagsOutsideRuleUnchanged := by
  intro i s t hs h f hf
  by_cases hi : i = .plp ∨ i = .rti
  · obtain ⟨hu, hb⟩ := (statusOk_iff _).mp hs
    obtain ⟨hu', hb'⟩ := (statusOk_iff _).mp (exec_statusOk hs h)
    have : f = .u ∨ f = .b := by
      rcases hi with rfl | rfl <;> (revert hf; cases f <;> decide)
    rcases this with rfl | rfl
    · rw [hu, hu']
    · rw [hb, hb']
  · rw [not_or] at hi
    exact exec_keep (f := fun c => flag f c.p) (fun _ _ => rfl) (fun _ _ => rfl) (tableOf_keeps_flag hf hi.1 hi.2) h

/-! ## Latches and wiring (R44, R58) -/

theorem keeps_run (i : Instr) (s : State) : RunInvariant (Keeps s) (tableOf i) where
  quiet _ _ h q := h.trans q.keeps
  tick k hk lat u h := h.trans (ticks_rel (keeps_rel true) i (.inl rfl) k hk lat u)
  eng _ _ h := h.trans (mapCpu_keeps _ _)
  cyc _ h := h.trans (mapCpu_keeps _ _)
  dma p k d u h := h.trans (dmaTick_rel (keeps_rel true) (fun _ _ => .of_eq rfl rfl) p k d u)
  setDma _ _ h := h.trans (.of_eq rfl rfl)

theorem sameButtons_setDma (d : Dma) (s : State) : Own SameButtons s (s.setDma d) := ⟨rfl, fun _ => ⟨rfl, rfl⟩⟩

theorem sameButtons_consume (s : State) : SameButtons s ((consume .cpu s).mapCpu Cpu.tick) := ⟨rfl, rfl⟩

/-- The wiring, and where no component runs code of its own the buttons, are those of `s`. -/
def WiredAs (s t : State) : Prop := Calm s t ∧ Own SameButtons s t

theorem WiredAs.trans {s t u : State} (h : WiredAs s t) (k : WiredAs t u) : WiredAs s u :=
  ⟨h.1.trans k.1, (buttons_rel true).trans h.2 k.2⟩

theorem wired_rel : BusRel WiredAs true where
  refl s := ⟨.refl s, (buttons_rel true).refl s⟩
  trans := WiredAs.trans
  read a s := ⟨(calm_rel true).read a s, (buttons_rel true).read a s⟩
  write hb a v s := ⟨(calm_rel true).write hb a v s, (buttons_rel true).write hb a v s⟩
  cpu g s := ⟨(calm_rel true).cpu g s, (buttons_rel true).cpu g s⟩

theorem wired_setDma (d : Dma) (s : State) : WiredAs s (s.setDma d) := ⟨calm_setDma d s, sameButtons_setDma d s⟩

theorem wired_run (i : Instr) (s : State) : CalmInvariant (WiredAs s) (tableOf i) where
  other _ _ _ h _ he hf :=
    have ⟨hc, hb⟩ := fire_calm he hf
    h.trans ⟨hc, hc.bus, fun hn => (hb hn).2⟩
  tick k hk lat u h hu :=
    have hk := ticks_rel wired_rel i (.inl rfl) k hk lat u
    ⟨h.trans hk, hk.1.schedule.trans hu⟩
  eng _ _ h := h.trans (wired_rel.cpu _ _)
  cyc u h := h.trans ⟨(consume_calm .cpu u).trans ((calm_rel true).cpu _ _), rfl, fun _ => sameButtons_consume u⟩
  dma p k d u h _ := h.trans (dmaTick_rel wired_rel wired_setDma p k d u)
  setDma d u h _ := h.trans (wired_setDma d u)

/-- Settles O21: every transition of the run only sets latches; with nothing scheduled each keeps the wiring. -/
theorem instructionKeepsLatchesAndWiring : Obligations.InstructionKeepsLatchesAndWiring := by
  intro i s t h
  have hrun := exec_run h
  obtain ⟨hparams, hreset, hnmi, hirq⟩ := (run_inv (keeps_run i s) (.refl s) hrun).1
  refine ⟨hreset, hnmi, hirq, hparams, fun hsch => ?_⟩
  obtain ⟨⟨hcalm, hbtn⟩, hnil⟩ := run_calm_inv (wired_run i s) (wired_rel.refl s) hsch hrun
  exact ⟨hnil, hcalm.bus, hcalm.listeners, hcalm.running, hcalm.disposed, hcalm.dividers,
    fun hn => ⟨(hbtn.2 hn).pad0, (hbtn.2 hn).pad1⟩, hcalm.gates⟩

/-- Settles O30: every register, memory and counter of the power-on state is a small closed value. -/
theorem powerOnMeetsInvariant : Obligations.PowerOnMeetsInvariant := by
  unfold Obligations.PowerOnMeetsInvariant
  decide

end Sys2Proof.Machine

namespace Sys2Proof.Machine

/-! ## The invariant of the machine (R31, R32, R41-R43, R46, R54-R57) -/

/-! ### Memories and the picture generator -/

theorem Memory.ok_iff {w n : Nat} (m : Memory w) : m.ok n = true ↔ m.wf = true ∧ m.below n = true := Bool.and_eq_true_iff

theorem Memory.ok_write {w n a : Nat} {m : Memory w} (h : m.ok n = true) (ha : a < n) (v : BitVec w) :
    (m.write a v).ok n = true := by
  rw [Memory.ok_iff] at h ⊢
  exact ⟨Memory.wf_write h.1 a v, Memory.below_write h.2 ha v⟩

/-- `Ppu.ok`, bound by bound. -/
structure Ppu.Bounded (p : Ppu) : Prop where
  line    : p.pos.scanline < 262
  dot     : p.pos.dot < 341
  slots   : p.spr.slots.length = 8
  next    : p.spr.countNext ≤ 8
  cur     : p.spr.countCur ≤ 8
  oam     : p.spr.oam.ok 256 = true
  oam2    : p.spr.oam2.ok 32 = true
  vram    : p.mem.vram.ok 0x1000 = true
  palette : p.mem.palette.ok 32 = true
  fb0     : p.out.fb0.ok 61440 = true
  fb1     : p.out.fb1.ok 61440 = true

theorem Ppu.ok_iff (p : Ppu) : p.ok = true ↔ p.Bounded := by
  simp only [Ppu.ok, Bool.and_eq_true, decide_eq_true_eq, beq_iff_eq]
  constructor
  · rintro ⟨⟨⟨⟨⟨⟨⟨⟨⟨⟨h1, h2⟩, h3⟩, h4⟩, h5⟩, h6⟩, h7⟩, h8⟩, h9⟩, h10⟩, h11⟩
    exact ⟨h1, h2, h3, h4, h5, h6, h7, h8, h9, h10, h11⟩
  · rintro ⟨h1, h2, h3, h4, h5, h6, h7, h8, h9, h10, h11⟩
    exact ⟨⟨⟨⟨⟨⟨⟨⟨⟨⟨h1, h2⟩, h3⟩, h4⟩, h5⟩, h6⟩, h7⟩, h8⟩, h9⟩, h10⟩, h11⟩

/-- The change of the picture generator keeps its bounds. -/
def KeepsBounds (f : Ppu → Ppu) : Prop := ∀ p, p.Bounded → (f p).Bounded

/-- The bounds speak of the position, the sprites, the memories and the framebuffers alone. -/
theorem Ppu.Bounded.of_eq {p q : Ppu} (h : p.Bounded) (hpos : q.pos = p.pos) (hspr : q.spr = p.spr) (hmem : q.mem = p.mem)
    (hout : q.out = p.out) : q.Bounded := by
  cases p; cases q
  dsimp only at hpos hspr hmem hout
  subst hpos hspr hmem hout
  exact ⟨h.line, h.dot, h.slots, h.next, h.cur, h.oam, h.oam2, h.vram, h.palette, h.fb0, h.fb1⟩

theorem keepsBounds_mapRegs (f : PpuRegs → PpuRegs) : KeepsBounds (Ppu.mapRegs f) := fun _ h => h.of_eq rfl rfl rfl rfl
theorem keepsBounds_mapBg (f : PpuBg → PpuBg) : KeepsBounds (Ppu.mapBg f) := fun _ h => h.of_eq rfl rfl rfl rfl

theorem keepsBounds_moveV (f : Ppu → Scroll → Scroll) : KeepsBounds fun p => p.moveV (f p) :=
  fun _ h => h.of_eq rfl rfl rfl rfl

theorem physicalTable_lt (m : Config.Mirroring) (n : Nat) : physicalTable m n < 4 := by
  unfold physicalTable
  split <;> omega

theorem nametableIndex_lt (m : Config.Mirroring) (a : PpuAddr) : nametableIndex m a < 0x1000 := by
  have h := physicalTable_lt m ((a.toNat - 0x2000) % 0x1000 / 0x400)
  unfold nametableIndex
  dsimp only
  omega

theorem paletteIndex_lt (a : PpuAddr) : paletteIndex a < 32 := by
  unfold paletteIndex
  dsimp only
  split <;> omega

theorem ramCell_lt (a : Addr) : ramCell a < 0x800 := by
  have h : (a &&& 0x07FF).toNat ≤ (0x07FF : Addr).toNat := by
    rw [BitVec.toNat_and]; exact Nat.and_le_right
  exact Nat.lt_succ_of_le h

/-- Whatever a port access or a reset changes, the bounds hold after it. -/
theorem PortChange.keepsBounds {f : Ppu → Ppu} (hf : PortChange f) : KeepsBounds f := by
  intro p h
  cases hf with
  | oam d => exact { h with oam := Memory.ok_write h.oam p.regs.oamaddr.isLt d }
  | vram m a v => exact { h with vram := Memory.ok_write h.vram (nametableIndex_lt m a) v }
  | palette a v => exact { h with palette := Memory.ok_write h.palette (paletteIndex_lt a) _ }
  | reset => exact { h with
      line := Nat.zero_lt_succ _, dot := Nat.zero_lt_succ _, slots := rfl, next := Nat.zero_le 8, cur := Nat.zero_le 8 }
  | status | latch | data | stepV | ctrl | mask | oamAddr | scroll | addr => exact h.of_eq rfl rfl rfl rfl

/-! ### What the bus reaches -/

/-- The DMA state, work RAM, the picture generator and the cartridge are in order. -/
structure DevicesOk (dma : Dma) (ram : Memory 8) (ppu : Ppu) (cart : Cart) : Prop where
  dma  : dma.ok = true
  ram  : ram.ok 0x800 = true
  ppu  : ppu.Bounded
  cart : cart.ok = true

/-- What the bus reaches is in order. -/
def State.DevicesOk (s : State) : Prop := Machine.DevicesOk s.dma s.ram s.ppu s.cart

theorem State.DevicesOk.mapPpu {f : Ppu → Ppu} (hf : KeepsBounds f) {s : State} (h : s.DevicesOk) :
    (s.mapPpu f).DevicesOk := { h with ppu := hf _ h.ppu }

theorem Cart.ok_iff (c : Cart) : c.ok = true ↔ c.prg.wf = true ∧ c.chr.wf = true := Bool.and_eq_true_iff

theorem Cart.ok_prg {c : Cart} (h : c.ok = true) (n : Nat) (v : Byte) : Cart.ok { c with prg := c.prg.write n v } = true := by
  rw [Cart.ok_iff] at h ⊢
  exact ⟨Memory.wf_write h.1 n v, h.2⟩

theorem Cart.ok_chr {c : Cart} (h : c.ok = true) (n : Nat) (v : Byte) : Cart.ok { c with chr := c.chr.write n v } = true := by
  rw [Cart.ok_iff] at h ⊢
  exact ⟨h.1, Memory.wf_write h.2 n v⟩

/-- Every bus operation keeps what it reaches in order, whatever code external components run. -/
theorem devicesOk_closed : Closed fun s t => s.DevicesOk → t.DevicesOk := by
  refine ⟨?_, fun hf _ h => h.mapPpu hf.keepsBounds⟩
  constructor
  case refl => exact fun _ h => h
  case trans => exact fun h k => k ∘ h
  case ppuReset => exact fun _ h => h.mapPpu PortChange.reset.keepsBounds
  case prg => exact fun n v _ h => { h with cart := Cart.ok_prg h.cart n v }
  case chr => exact fun n v _ h => { h with cart := Cart.ok_chr h.cart n v }
  case ram => exact fun a v _ h => { h with ram := Memory.ok_write h.ram (ramCell_lt a) v }
  case idle => exact fun _ h => { h with dma := rfl }
  case dma =>
    intro v s h
    unfold dmaWrite
    split
    · exact h
    · exact { h with dma := rfl }
    · exact { h with dma := rfl }
  case st => exact fun _ _ h => { h with cart := h.cart }
  all_goals intros; assumption

/-! ### A dot -/

theorem State.DevicesOk.ppuFetch (a : PpuAddr) {f : Ppu → Ppu} (hf : KeepsBounds f) {s : State} (h : s.DevicesOk) :
    ((ppuFetch a s).2.mapPpu f).DevicesOk := (devicesOk_closed.ppuFetch a s h).mapPpu hf

/-- The stage of a dot keeps the devices in order. -/
def KeepsDevices (f : State → State) : Prop := ∀ s, s.DevicesOk → (f s).DevicesOk

theorem KeepsDevices.when {f : State → State} {p : State → Prop} [∀ s, Decidable (p s)]
    (hf : ∀ s, p s → s.DevicesOk → (f s).DevicesOk) : KeepsDevices fun s => if p s then f s else s := by
  intro s h
  dsimp only
  split
  · exact hf s ‹_› h
  · exact h

theorem bgFetch_keepsDevices (d : Nat) : KeepsDevices (bgFetch d) := by
  intro s h
  unfold bgFetch
  split
  · exact (h.mapPpu (keepsBounds_mapBg _)).ppuFetch _ (keepsBounds_mapBg _)
  · exact h.ppuFetch _ (keepsBounds_mapBg _)
  · exact h.ppuFetch _ (keepsBounds_mapBg _)
  · exact h.ppuFetch _ (keepsBounds_mapBg _)
  · exact h.mapPpu (keepsBounds_moveV _)
  · exact h

theorem bgWork_keepsDevices (ln d : Nat) : KeepsDevices (bgWork ln d) := by
  have shift : KeepsDevices (bgShiftFetch d) :=
    .when fun _ _ h => bgFetch_keepsDevices d _ (h.mapPpu (keepsBounds_mapBg _))
  have incY : KeepsDevices (bgIncY d) := .when fun _ _ h => h.mapPpu (keepsBounds_moveV _)
  have copyX : KeepsDevices (bgCopyX d) := .when fun _ _ h => h.mapPpu (keepsBounds_moveV fun p => (copyX · p.scr.t))
  have copyY : KeepsDevices (bgCopyY ln d) := .when fun _ _ h => h.mapPpu (keepsBounds_moveV fun p => (copyY · p.scr.t))
  have reread : KeepsDevices (bgReread d) := .when fun _ _ h => h.ppuFetch _ (keepsBounds_mapBg _)
  exact fun s h => reread _ (copyY _ (copyX _ (incY _ (shift s h))))

theorem oam2Cleared_ok : oam2Cleared.ok 32 = true := by decide

theorem copyEntry_ok (n : Nat) {c : Nat} (hc : c < 8) (oam : Memory 8) {oam2 : Memory 8} (h : oam2.ok 32 = true) :
    (copyEntry n c oam oam2).ok 32 = true :=
  Memory.ok_write (Memory.ok_write (Memory.ok_write (Memory.ok_write h (by omega) _) (by omega) _) (by omega) _) (by omega) _

theorem evalSprite_keepsBounds (n : Nat) : KeepsBounds (Ppu.evalSprite n) := by
  intro p h
  unfold Ppu.evalSprite
  split
  · split
    · rename_i hc
      exact { h with next := hc, oam2 := copyEntry_ok n hc _ h.oam2 }
    · exact h.of_eq rfl rfl rfl rfl
  · exact h

theorem loadSlot_keepsBounds (i : Nat) (hi : Byte) : KeepsBounds (Ppu.loadSlot i hi) := fun _ h =>
  { h with slots := List.length_set.trans h.slots }

theorem clear_keepsBounds (visible : Bool) : KeepsBounds (Ppu.mapSpr (PpuSprites.clear visible)) := fun p h =>
  { h with
    next := Nat.zero_le 8
    oam2 := by
      show (if visible then oam2Cleared else p.spr.oam2).ok 32 = true
      split
      · exact oam2Cleared_ok
      · exact h.oam2 }

theorem latch_keepsBounds : KeepsBounds (Ppu.mapSpr PpuSprites.latch) := fun _ h => { h with cur := h.next }

theorem sprLo_keepsBounds (v : Byte) : KeepsBounds (Ppu.mapSpr fun q => { q with sprLo := v }) := fun _ h => { h with oam := h.oam }

theorem shift_keepsBounds : KeepsBounds (Ppu.mapSpr fun q => { q with slots := q.slots.map Slot.shift }) := fun _ h =>
  { h with slots := (List.length_map _).trans h.slots }

theorem spriteWork_keepsDevices (ln d : Nat) : KeepsDevices (spriteWork ln d) := by
  have clear : KeepsDevices (sprClear ln d) := .when fun _ _ h => h.mapPpu (clear_keepsBounds _)
  have evaluate : KeepsDevices (sprEvaluate ln d) := .when fun _ _ h => h.mapPpu (evalSprite_keepsBounds _)
  have latch : KeepsDevices (sprLatch d) := .when fun _ _ h => h.mapPpu latch_keepsBounds
  have fetchLo : KeepsDevices (sprFetchLo d) := .when fun _ _ h => h.ppuFetch _ (sprLo_keepsBounds _)
  have fetchHi : KeepsDevices (sprFetchHi d) := .when fun _ _ h => h.ppuFetch _ (loadSlot_keepsBounds _ _)
  have shift : KeepsDevices (sprShift d) := .when fun _ _ h => h.mapPpu shift_keepsBounds
  exact fun s h => shift _ (fetchHi _ (fetchLo _ (latch _ (evaluate _ (clear s h)))))

/-- A pixel of a visible line falls into a framebuffer (R57). -/
theorem composePixel_keepsBounds (h255 : Config.Sprite0HitX255) {x y : Nat} (hx : x < 256) (hy : y ≤ 239) :
    KeepsBounds (Ppu.composePixel h255 x y) := by
  intro p h
  have hi : 256 * y + x < 61440 := by omega
  unfold Ppu.composePixel
  refine keepsBounds_mapRegs _ _ ?_
  unfold Ppu.storePixel Ppu.mapOut
  dsimp only
  split
  · exact { h with fb1 := Memory.ok_write h.fb1 hi _ }
  · exact { h with fb0 := Memory.ok_write h.fb0 hi _ }

theorem moveTo_keepsBounds {ln d : Nat} (hl : ln < 262) (hd : d < 341) : KeepsBounds (Ppu.moveTo ln d) := fun _ h =>
  { h with line := hl, dot := hd }

theorem moveDot_keepsBounds {d : Nat} (hd : d < 341) : KeepsBounds (Ppu.moveDot d) := fun _ h => { h with dot := hd }

theorem endFrame_keepsDevices : KeepsDevices endFrame := fun _ h =>
  { h with ppu := { h.ppu with line := h.ppu.line } }

theorem wrapFrame_of_ne {s : State} (h : s.ppu.pos.scanline ≠ 262) : wrapFrame s = s := if_neg h

/-- The beam stays in the frame: behind the last line it goes back to the first (R501). -/
theorem advance_keepsDevices {ln d : Nat} (hl : ln < 262) (hd : d < 341) : KeepsDevices (advance ln d) := by
  intro s h
  have home : (endFrame (s.mapPpu (Ppu.moveTo 0 0))).DevicesOk :=
    endFrame_keepsDevices _ (h.mapPpu (moveTo_keepsBounds (by omega) (by omega)))
  unfold advance
  split
  · exact home
  · split
    · by_cases hlast : ln + 1 = 262
      · rw [hlast]; exact home
      · rw [wrapFrame_of_ne (s := s.mapPpu (Ppu.moveTo (ln + 1) 0)) hlast]
        exact h.mapPpu (moveTo_keepsBounds (by omega) (by omega))
    · rw [wrapFrame_of_ne (s := s.mapPpu (Ppu.moveDot (d + 1))) (Nat.ne_of_lt h.ppu.line)]
      exact h.mapPpu (moveDot_keepsBounds (by omega))

theorem lineEvents_keepsDevices (ln d : Nat) : KeepsDevices (lineEvents ln d) := by
  intro s h
  unfold lineEvents
  split
  · unfold vblankNmi
    split
    · exact devicesOk_closed.busNmi _ (h.mapPpu (keepsBounds_mapRegs _))
    · exact h.mapPpu (keepsBounds_mapRegs _)
  · split
    · exact h.mapPpu (keepsBounds_mapRegs _)
    · exact h

theorem ppuHandler_keepsDevices : KeepsDevices ppuHandler := by
  intro s h
  have render (ln d : Nat) : KeepsDevices (renderWork ln d) :=
    .when fun s _ h => spriteWork_keepsDevices ln d _ (bgWork_keepsDevices ln d s h)
  have pixel (ln d : Nat) : KeepsDevices (pixelWork ln d) :=
    .when fun s hp h => h.mapPpu (composePixel_keepsBounds _ (by omega) hp.1)
  exact advance_keepsDevices h.ppu.line h.ppu.dot _ (pixel _ _ _ (render _ _ _ (lineEvents_keepsDevices _ _ s h)))

end Sys2Proof.Machine

namespace Sys2Proof.Machine

/-! ### The invariant, clause by clause -/

/-- `State.ok`, clause by clause. -/
structure State.Invariant (s : State) : Prop where
  status   : statusOk s.cpu.p = true
  eng      : s.cpu.eng.ok = true
  devices  : s.DevicesOk
  dividers : ∀ d ∈ s.dividers, d.ok = true
  owed     : ∀ u, (s.unit u).owed ≤ s.params.owedMax
  schedule : ∀ e ∈ s.schedule, e.ok = true

theorem UnitCtl.ok_iff (n : Nat) (c : UnitCtl) : c.ok n = true ↔ c.owed ≤ n := decide_eq_true_iff

theorem State.ok_iff (s : State) : s.ok = true ↔ s.Invariant := by
  simp only [State.ok, Bool.and_eq_true, List.all_eq_true, UnitCtl.ok_iff, Ppu.ok_iff]
  constructor
  · rintro ⟨⟨⟨⟨⟨⟨⟨⟨⟨⟨h1, h2⟩, h3⟩, h4⟩, h5⟩, h6⟩, h7⟩, h8⟩, h9⟩, h10⟩, h11⟩
    exact ⟨h1, h2, ⟨h3, h4, h5, h6⟩, h7, fun u => by cases u <;> assumption, h11⟩
  · rintro ⟨h1, h2, ⟨h3, h4, h5, h6⟩, h7, h8, h9⟩
    exact ⟨⟨⟨⟨⟨⟨⟨⟨⟨⟨h1, h2⟩, h3⟩, h4⟩, h5⟩, h6⟩, h7⟩, h8 .cpu⟩, h8 .ppu⟩, h8 .sound⟩, h9⟩

/-- What a bus operation and an instruction's tick leave alone outside the processor, with the devices kept in order. -/
structure DeviceEffect (s t : State) : Prop where
  params   : t.params = s.params
  dividers : t.dividers = s.dividers
  units    : ∀ u, t.unit u = s.unit u
  schedule : t.schedule = s.schedule
  devices  : s.DevicesOk → t.DevicesOk

theorem DeviceEffect.refl (s : State) : DeviceEffect s s := ⟨rfl, rfl, fun _ => rfl, rfl, id⟩

theorem DeviceEffect.trans {s t u : State} (h : DeviceEffect s t) (k : DeviceEffect t u) : DeviceEffect s u :=
  ⟨k.params.trans h.params, k.dividers.trans h.dividers, fun u => (k.units u).trans (h.units u),
    k.schedule.trans h.schedule, k.devices ∘ h.devices⟩

theorem DeviceEffect.of_blind {f : State → State} (b : Blind f) {s : State} (hp : (f s).params = s.params)
    (hd : s.DevicesOk → (f s).DevicesOk) : DeviceEffect s (f s) :=
  ⟨hp, b.dividers s, fun u => by
    cases u with
    | cpu => exact b.cpuUnit s
    | ppu => exact b.ppuUnit s
    | sound => exact b.soundUnit s, b.schedule s, hd⟩

theorem DeviceEffect.mapCpu (g : Cpu → Cpu) (s : State) : DeviceEffect s (s.mapCpu g) :=
  ⟨rfl, rfl, fun u => by cases u <;> rfl, rfl, id⟩

theorem DeviceEffect.mapPend (g : Pending → Pending) (s : State) : DeviceEffect s (s.mapPend g) :=
  ⟨rfl, rfl, fun u => by cases u <;> rfl, rfl, id⟩

theorem DeviceEffect.setDma {d : Dma} (hd : d.ok = true) (s : State) : DeviceEffect s (s.setDma d) :=
  ⟨rfl, rfl, fun u => by cases u <;> rfl, rfl, fun h => { h with dma := hd }⟩

theorem deviceEffect_rel : BusRel DeviceEffect true where
  refl := DeviceEffect.refl
  trans := DeviceEffect.trans
  read a s := .of_blind (f := fun s => (busRead a s).2) (fun c s => congrArg Prod.snd (busRead_blind a c s))
    (busRead_keeps a s).params (devicesOk_closed.busRead a s)
  write _ a v s := .of_blind (busWrite_blind a v) (busWrite_keeps a v s).params (devicesOk_closed.busWrite a v s)
  cpu := DeviceEffect.mapCpu

theorem State.Invariant.of_effect {s t : State} (h : s.Invariant) (k : DeviceEffect s t)
    (hp : statusOk t.cpu.p = true) (he : t.cpu.eng.ok = true) : t.Invariant where
  status := hp
  eng := he
  devices := k.devices h.devices
  dividers := k.dividers ▸ h.dividers
  owed u := by rw [k.units, k.params]; exact h.owed u
  schedule := k.schedule ▸ h.schedule

/-- What leaves the processor alone keeps the invariant if it has such an effect. -/
theorem State.Invariant.of_quiet_effect {s t : State} (h : s.Invariant) (k : DeviceEffect s t) (hc : t.cpu = s.cpu) :
    t.Invariant := h.of_effect k (by rw [hc]; exact h.status) (by rw [hc]; exact h.eng)

theorem State.Invariant.of_blind {f : State → State} (b : Blind f) {s : State} (hk : Keeps s (f s))
    (hd : s.DevicesOk → (f s).DevicesOk) (h : s.Invariant) : (f s).Invariant :=
  h.of_quiet_effect (.of_blind b hk.params hd) (b.cpu s)

theorem State.unit_mapUnit (u v : UnitId) (f : UnitCtl → UnitCtl) (s : State) :
    (s.mapUnit u f).unit v = if v = u then f (s.unit v) else s.unit v := by cases u <;> cases v <;> rfl

theorem State.Invariant.mapUnit {s : State} (h : s.Invariant) (u : UnitId) {f : UnitCtl → UnitCtl}
    (hf : ∀ c, (f c).owed ≤ c.owed) : (s.mapUnit u f).Invariant := by
  have ho (v : UnitId) : ((s.mapUnit u f).unit v).owed ≤ (s.mapUnit u f).params.owedMax := by
    rw [State.unit_mapUnit, State.mapUnit_params]
    split
    · exact Nat.le_trans (hf _) (h.owed v)
    · exact h.owed v
  cases u <;> exact { h with owed := ho }

theorem State.Invariant.consume {s : State} (h : s.Invariant) (u : UnitId) : (consume u s).Invariant :=
  h.mapUnit u fun _ => Nat.sub_le ..

/-! ### Emit steps, dots and host operations -/

theorem Counts.invariant {s t : State} (k : Counts s t) (h : s.Invariant) : t.Invariant where
  status := by rw [k.get State.cpu fun _ _ _ _ _ _ => rfl]; exact h.status
  eng := by rw [k.get State.cpu fun _ _ _ _ _ _ => rfl]; exact h.eng
  devices := by
    unfold State.DevicesOk
    rw [k.get State.dma fun _ _ _ _ _ _ => rfl, k.get State.ram fun _ _ _ _ _ _ => rfl,
      k.get State.ppu fun _ _ _ _ _ _ => rfl, k.get State.cart fun _ _ _ _ _ _ => rfl]
    exact h.devices
  dividers d hd := by
    obtain ⟨i, hi⟩ := List.getElem?_of_mem hd
    obtain ⟨d', hd', _, _, _, _, hok⟩ := k.dshape i d hi
    exact hok (h.dividers d' (List.mem_of_getElem? hd'))
  owed u := by rw [k.params]; exact k.owed u (h.owed u)
  schedule := by rw [k.get State.schedule fun _ _ _ _ _ _ => rfl]; exact h.schedule

theorem addListener_invariant (p : Option Nat) (l : Listener) {s : State} (h : s.Invariant) : (addListener p l s).Invariant := by
  unfold addListener
  split
  · exact { h with devices := h.devices }
  · split
    · exact h
    · rename_i d hd
      refine { h with dividers := fun d' hd' => ?_ }
      rcases List.mem_or_eq_of_mem_set hd' with hd' | rfl
      · exact h.dividers d' hd'
      · exact h.dividers d (List.mem_of_getElem? hd)

/-- A new divider has a positive divisor and no remainder (R208). -/
theorem newDivider_invariant {p : Option Nat} {num : Int} {den : Nat} {s t : State} (h : s.Invariant)
    (ht : newDivider p num den s = .done t) : t.Invariant := by
  unfold newDivider at ht
  split at ht
  · cases ht
  · rename_i hpos
    cases ht
    refine addListener_invariant _ _ { h with dividers := fun d hd => ?_ }
    rcases List.mem_append.mp hd with hd | hd
    · exact h.dividers d hd
    · rw [List.mem_singleton.mp hd]
      have hnum : 0 < num.toNat := by omega
      have hden : 0 < den := by omega
      simp [Divider.ok, hnum, hden]

theorem hostOp_invariant {op : HostOp} {s t : State} (hop : Event.ok (.host op) = true) (h : s.Invariant)
    (ht : hostOp op s = .done t) : t.Invariant := by
  cases op with
  | addListener p l => cases ht; exact addListener_invariant p l h
  | newDivider p n d => exact newDivider_invariant h ht
  | start =>
    simp only [hostOp, startClock] at ht
    split at ht
    · cases ht
    · split at ht
      · cases ht
      · cases ht; exact { h with devices := h.devices }
  | disposeClock => cases ht; exact { h with devices := h.devices }
  | pause u => cases ht; exact h.mapUnit u fun _ => Nat.le_refl _
  | resume u => cases ht; exact h.mapUnit u fun _ => Nat.le_refl _
  | disposeUnit u => cases ht; exact h.mapUnit u fun _ => Nat.zero_le _
  | addComponent c r =>
    unfold hostOp at ht
    dsimp only at ht
    split at ht
    · rename_i hc
      cases ht
      unfold addComponent at hc
      split at hc
      · split at hc
        · cases hc
        · cases hc; exact { h with devices := h.devices }
      · cases hc; exact { h with devices := h.devices }
    · cases ht
  | load image =>
    cases image with
    | none => cases ht
    | some c => cases ht; exact { h with devices := { h.devices with cart := hop } }
  | busReset => cases ht; exact h.of_blind busReset_blind (keeps_closed.busReset s) (devicesOk_closed.busReset s)
  | busIrq => cases ht; exact h.of_blind busIrq_blind (keeps_closed.busIrq s) (devicesOk_closed.busIrq s)
  | busNmi => cases ht; exact h.of_blind busNmi_blind (keeps_closed.busNmi s) (devicesOk_closed.busNmi s)
  | busRead a =>
    cases ht
    exact h.of_blind (f := fun s => (busReadVia quietRun a s).2)
      (fun c s => congrArg Prod.snd (busReadVia_blind quietRun_blind a c s))
      (keeps_closed.busReadVia keeps_closed.quietRun a s) (devicesOk_closed.busReadVia devicesOk_closed.quietRun a s)
  | busWrite a v =>
    cases ht
    exact h.of_blind (busWriteVia_blind quietRun_blind a v) (keeps_closed.writeMatchesVia keeps_closed.quietRun a v _ s)
      (devicesOk_closed.writeMatchesVia devicesOk_closed.quietRun a v _ s)
  | getPixels => cases ht; exact h
  | removeComponent | keyDown | keyUp | registerSink | getSample => cases ht; exact { h with devices := h.devices }

theorem hostStep_invariant {op : HostOp} {s t : State} (hop : Event.ok (.host op) = true) (h : s.Invariant)
    (ht : hostStep op s = .next t) : t.Invariant := by
  rcases hostStep_cases ht with rfl | ht
  · exact h
  · exact hostOp_invariant hop h ht

theorem ppuHandler_invariant {s : State} (h : s.Invariant) : (ppuHandler s).Invariant :=
  h.of_blind ppuHandler_dot.blind (ppuHandler_keeps s) (ppuHandler_keepsDevices s)

theorem soundTick_invariant {s : State} (h : s.Invariant) : (soundTick s).Invariant :=
  h.of_blind (fun c s => afterSound_blind _ c s) (soundTick_keeps s) (devicesOk_closed.afterSound _ s)

end Sys2Proof.Machine

namespace Sys2Proof.Machine

/-! ### The engine stays inside its tables (R43, R280) -/

/-- The tick ends its instruction or sequence. -/
def Tick.ends (k : Tick) : Prop := ∀ lat s, ∃ t, k.act lat s = .done t

/-- The last tick of the table ends it. -/
def Table.lastEnds (T : Table) : Prop := ∀ k, T.getLast? = some k → k.ends

/-- A tick that goes on is not the last of such a table. -/
theorem Table.lastEnds.lt_of_more {T : Table} (h : T.lastEnds) {i : Nat} {lat lat' : Lat} {s t : State}
    (hm : runTick T i lat s = .more lat' t) : i + 1 < T.length := by
  unfold runTick at hm
  split at hm
  · rename_i k hk
    have hi : i < T.length := (List.getElem?_eq_some_iff.mp hk).1
    refine Nat.lt_of_le_of_ne hi fun hlast => ?_
    have hk' : T.getLast? = some k := by rw [List.getLast?_eq_getElem?, ← hlast]; exact hk
    obtain ⟨u, hu⟩ := h k hk' lat s
    rw [hu] at hm
    cases hm
  · cases hm

theorem readForm_lastEnds (m : Mode) (op : ReadOp) : (readForm m op).lastEnds := by
  intro k hk
  cases m <;> cases hk <;> exact fun _ _ => ⟨_, rfl⟩

theorem writeForm_lastEnds (m : Mode) (val : Cpu → Byte) : (writeForm m val).lastEnds := by
  intro k hk
  cases m <;> cases hk <;> exact fun _ _ => ⟨_, rfl⟩

theorem rmwForm_lastEnds (m : Mode) (mod : ModOp) : (rmwForm m mod).lastEnds := by
  intro k hk
  cases m <;> cases hk <;> exact fun _ _ => ⟨_, rfl⟩

theorem jmpTicks_lastEnds (m : Mode) : (jmpTicks m).lastEnds := by
  intro k hk
  cases m <;> cases hk <;> exact fun _ _ => ⟨_, rfl⟩

theorem tableOf_lastEnds (i : Instr) : (tableOf i).lastEnds := by
  cases i with
  | lda m | ldx m | ldy m | adc m | sbc m | and m | ora m | eor m | cmp m | cpx m | cpy m | bit m =>
    exact readForm_lastEnds m _
  | sta m | stx m | sty m => exact writeForm_lastEnds m _
  | inc m | dec m | asl m | lsr m | rol m | ror m => exact rmwForm_lastEnds m _
  | jmp m => exact jmpTicks_lastEnds m
  | _ => intro k hk; cases hk; exact fun _ _ => ⟨_, rfl⟩

theorem sequence_lastEnds (kind : Sequence) : kind.table.lastEnds := by
  intro k hk
  cases kind <;> cases hk <;> exact fun _ _ => ⟨_, rfl⟩

theorem tableOf_decode_length : ∀ op : Byte, 0 < (tableOf (decode op)).length := by decide

/-- T2 of every opcode is a tick of its table. -/
theorem engine_ok_fetched (op : Byte) : (Engine.inInstr op 2 {}).ok = true := by
  simpa [Engine.ok] using tableOf_decode_length op

theorem engine_ok_inInstr {op : Byte} {k : Nat} {lat : Lat} (h : (Engine.inInstr op k lat).ok = true) :
    2 ≤ k ∧ k - 2 < (tableOf (decode op)).length := by
  simpa [Engine.ok] using h

theorem engine_ok_inSeq {kind : Sequence} {k : Nat} {lat : Lat} (h : (Engine.inSeq kind k lat).ok = true) :
    1 ≤ k ∧ k - 1 < kind.table.length := by
  simpa [Engine.ok] using h

theorem instrTick_eng_ok {op : Byte} {k : Nat} (hk : 2 ≤ k) (lat : Lat) (s : State) :
    (instrTick (tableOf (decode op)) op k lat s).cpu.eng.ok = true := by
  unfold instrTick
  split
  · rename_i lat' t hm
    have := (tableOf_lastEnds (decode op)).lt_of_more hm
    have h2 : 2 ≤ k + 1 ∧ k + 1 - 2 < (tableOf (decode op)).length := by omega
    simpa [setEng, Cpu.setEng, Engine.ok] using h2
  · rfl

theorem seqTick_eng_ok {kind : Sequence} {k : Nat} (hk : 1 ≤ k) (lat : Lat) (s : State) :
    (seqTick kind k lat s).cpu.eng.ok = true := by
  unfold seqTick
  split
  · rename_i lat' t hm
    have := (sequence_lastEnds kind).lt_of_more hm
    have h2 : 1 ≤ k + 1 ∧ k + 1 - 1 < kind.table.length := by omega
    simpa [setEng, Cpu.setEng, Engine.ok] using h2
  · rfl

/-! ### The ticks of the tables -/

/-- What a tick must do for the invariant: leave the rest alone, the devices in order, U set and B clear. -/
structure TickSound (k : Tick) : Prop where
  effect : TickRel DeviceEffect k
  status : TickKeepsStatus k

theorem runTick_sound {T : Table} (hT : ∀ k ∈ T, TickSound k) (idx : Nat) (lat : Lat) (s : State) :
    DeviceEffect s (runTick T idx lat s).state ∧ (s.cpu.statusOk → (runTick T idx lat s).state.cpu.statusOk) := by
  unfold runTick
  split
  · rename_i k hk
    have hk := hT k (List.mem_of_getElem? hk)
    exact ⟨hk.effect lat s, hk.status lat s⟩
  · exact ⟨.refl s, id⟩

theorem tableOf_sound (i : Instr) : ∀ k ∈ tableOf i, TickSound k := fun k hk =>
  ⟨ticks_rel deviceEffect_rel i (.inl rfl) k hk, tableOf_keeps_status i k hk⟩

theorem interruptTable_sound : ∀ k ∈ interruptTable, TickSound k := by
  have hI (c : Cpu) : Machine.statusOk (Cpu.putFlag .i true c).p = Machine.statusOk c.p := by
    unfold Machine.statusOk
    rw [flag_put_of_ne _ _ (by decide), flag_put_of_ne _ _ (by decide)]
  have hstatus : TableKeeps (fun c => Machine.statusOk c.p) interruptTable :=
    keep_cons keepTick_idle (keep_cons keepTick_idle (keep_take (fun _ _ => rfl) (fun _ _ => rfl) _ hI))
  have heffect : TableRel DeviceEffect interruptTable :=
    tableRel_cons (rel_idle deviceEffect_rel) (tableRel_cons (rel_idle deviceEffect_rel) (rel_take deviceEffect_rel _))
  exact fun k hk => ⟨heffect k hk, (hstatus k hk).status⟩

theorem resetRegisters_effect (s : State) : DeviceEffect s (resetRegisters s) :=
  (DeviceEffect.mapCpu (fun c => { c with a := 0, x := 0, y := 0, sp := 0xFD, p := 0x24 }) s).trans (.mapPend _ _)

theorem resetRegisters_status (s : State) : (resetRegisters s).cpu.statusOk := by
  show Machine.statusOk 0x24 = true
  decide

theorem resetTable_sound : ∀ k ∈ resetTable, TickSound k := by
  have hfirst : TickSound ⟨false, fun lat s => .more lat (resetRegisters s)⟩ :=
    ⟨fun _ s => resetRegisters_effect s, fun _ s _ => resetRegisters_status s⟩
  have hempty : TickSound emptyTick := ⟨fun _ s => .refl s, fun _ _ h => h⟩
  have hread (a : Lat → State → Addr) (l : Lat → State → Lat) :
      TickSound ⟨false, fun lat s => .more (l lat s) (busRead (a lat s) s).2⟩ :=
    ⟨fun _ s => deviceEffect_rel.read _ s, TickKeeps.status fun _ s => keepTick_bus (f := fun c => Machine.statusOk c.p) _ s⟩
  have hlast (a : Lat → State → Addr) (v : Lat → State → Addr) :
      TickSound ⟨false, fun lat s => .done ((busRead (a lat s) s).2.mapCpu (Cpu.setPc (v lat s)))⟩ :=
    ⟨fun _ s => rel_busRead_mapCpu deviceEffect_rel _ _ s,
      TickKeeps.status fun _ s => keepTick_bus (f := fun c => Machine.statusOk c.p) _ s⟩
  intro k hk
  simp only [resetTable, List.mem_cons, List.not_mem_nil, or_false] at hk
  rcases hk with rfl | rfl | rfl | rfl | rfl | rfl | rfl | rfl
  · exact hfirst
  · exact hempty
  · exact hempty
  · exact hempty
  · exact hempty
  · exact hempty
  · exact hread (fun lat _ => lat.vec) fun lat s => { lat with lo := (busRead lat.vec s).1 }
  · exact hlast (fun lat _ => lat.vec + 1) fun lat s => join (busRead (lat.vec + 1) s).1 lat.lo

theorem sequence_sound (kind : Sequence) : ∀ k ∈ kind.table, TickSound k := by
  cases kind
  · exact resetTable_sound
  · exact interruptTable_sound
  · exact interruptTable_sound

theorem State.Invariant.setEng {s t : State} (h : s.Invariant) (k : DeviceEffect s t) (hp : t.cpu.statusOk) {e : Engine}
    (he : e.ok = true) : (setEng e t).Invariant :=
  h.of_effect (k.trans (.mapCpu _ t)) hp he

theorem instrTick_invariant {op : Byte} {k : Nat} (hk : 2 ≤ k) (lat : Lat) {s : State} (h : s.Invariant) :
    (instrTick (tableOf (decode op)) op k lat s).Invariant := by
  obtain ⟨heffect, hstatus⟩ := runTick_sound (tableOf_sound (decode op)) (k - 2) lat s
  have heng := instrTick_eng_ok (op := op) hk lat s
  unfold instrTick at heng ⊢
  cases hr : runTick (tableOf (decode op)) (k - 2) lat s with
  | more lat' t => rw [hr] at heffect hstatus heng; exact h.setEng heffect (hstatus h.status) heng
  | done t => rw [hr] at heffect hstatus; exact h.setEng heffect (hstatus h.status) rfl

theorem seqTick_invariant {kind : Sequence} {k : Nat} (hk : 1 ≤ k) (lat : Lat) {s : State} (h : s.Invariant) :
    (seqTick kind k lat s).Invariant := by
  obtain ⟨heffect, hstatus⟩ := runTick_sound (sequence_sound kind) (k - 1) lat s
  have heng := seqTick_eng_ok (kind := kind) hk lat s
  unfold seqTick at heng ⊢
  cases hr : runTick kind.table (k - 1) lat s with
  | more lat' t => rw [hr] at heffect hstatus heng; exact h.setEng heffect (hstatus h.status) heng
  | done t => rw [hr] at heffect hstatus; exact h.setEng heffect (hstatus h.status) rfl

theorem fetchOpcode_invariant {s t : State} (h : s.Invariant) (ht : fetchOpcode s = .next t) : t.Invariant := by
  rw [fetchOpcode_next ht]
  refine h.setEng (rel_fetch deviceEffect_rel s) ?_ (engine_ok_fetched _)
  exact (keepTick_fetch (f := fun c => Machine.statusOk c.p) (fun _ _ => rfl) s).trans h.status

theorem State.Invariant.mapPend {s : State} (h : s.Invariant) (f : Pending → Pending) : (s.mapPend f).Invariant :=
  h.of_quiet_effect (.mapPend f s) rfl

theorem engineTick_invariant {s t : State} (h : s.Invariant) (ht : engineTick (currentTable s) s = .next t) :
    t.Invariant := by
  have heng := h.eng
  rw [currentTable_eq] at ht
  unfold engineTick at ht
  split at ht
  · rcases boundaryTick_cases ht with ⟨kind, f, rfl⟩ | ht
    · exact seqTick_invariant (Nat.le_refl 1) _ (h.mapPend f)
    · exact fetchOpcode_invariant h ht
  · exact fetchOpcode_invariant h ht
  · rename_i op k lat he
    rw [he] at heng ht
    cases ht
    exact instrTick_invariant (engine_ok_inInstr heng).1 lat h
  · rename_i kind k lat he
    rw [he] at heng
    cases ht
    exact seqTick_invariant (engine_ok_inSeq heng).1 lat h

/-! ### DMA ticks and transitions -/

theorem Dma.ok_active (p : Byte) (k : Nat) (d : Byte) : (Dma.active p k d).ok = true ↔ 1 ≤ k ∧ k ≤ 514 := by
  simp [Dma.ok]

/-- A DMA tick takes the transfer to a tick it has, or ends it (R342). -/
theorem stepDma_effect (d : Byte) (s : State) : DeviceEffect s (stepDma d s) := by
  unfold stepDma
  split
  · rename_i page k d' hd
    refine ⟨rfl, rfl, fun u => by cases u <;> rfl, rfl, fun h => { h with dma := ?_ }⟩
    have hk := (Dma.ok_active page k d').mp (hd ▸ h.dma)
    show (if 514 ≤ k then Dma.idle else .active page (k + 1) d).ok = true
    split
    · rfl
    · rw [Dma.ok_active]; omega
  · exact .refl s
  · exact .refl s

theorem dmaTick_effect (page : Byte) (k : Nat) (d : Byte) (s : State) : DeviceEffect s (dmaTick page k d s) := by
  unfold dmaTick
  split
  · exact stepDma_effect d s
  · dsimp only
    split
    · exact (deviceEffect_rel.read _ s).trans (stepDma_effect _ _)
    · exact (deviceEffect_rel.write rfl _ d s).trans (stepDma_effect _ _)

theorem startDma_effect (page : Byte) (n : Nat) (s : State) : DeviceEffect s (startDma page n s) := by
  refine .trans (.setDma ?_ s) (dmaTick_effect page _ 0 _)
  rw [Dma.ok_active]
  split <;> omega

theorem cpuHandler_invariant {s t : State} (h : s.Invariant) (ht : cpuHandler (currentTable s) s = .next t) :
    t.Invariant := by
  have htick : (s.mapCpu Cpu.tick).Invariant := h.of_effect (.mapCpu _ s) h.status h.eng
  rcases cpuHandler_cases ht with ⟨page, k, data, _, rfl⟩ | ⟨page, rfl⟩ | ht
  · exact htick.of_quiet_effect (dmaTick_effect ..) (dmaTick_cpu ..)
  · exact htick.of_quiet_effect (startDma_effect ..) (startDma_cpu ..)
  · exact engineTick_invariant htick (by rw [currentTable_eq] at ht ⊢; exact ht)

theorem unitStep_invariant {u : UnitId} {s t : State} (h : s.Invariant) (ht : unitStep (currentTable s) u s = .next t) :
    t.Invariant := by
  cases u with
  | cpu => exact cpuHandler_invariant (h.consume .cpu) ht
  | ppu => cases ht; exact ppuHandler_invariant (h.consume .ppu)
  | sound => cases ht; exact soundTick_invariant (h.consume .sound)

/-- Every atomic transition keeps the invariant; a cartridge that it loads must be in order. -/
theorem fire_invariant {e : Event} {s t : State} (he : e.ok = true) (h : s.Invariant)
    (ht : fire (currentTable s) e s = .next t) : t.Invariant := by
  have ht := (guarded_next ht).1
  cases e with
  | emit => exact (emit_counts ht).invariant h
  | unit u => exact unitStep_invariant h ht
  | host op => exact hostStep_invariant he h ht

theorem defaultEvent_ok {s : State} {e : Event} (h : defaultEvent s = some e) : e.ok = true := by
  unfold defaultEvent at h
  split at h
  · cases h; rfl
  · split at h
    · cases h; rfl
    · cases h

/-- What comes next is the default or was scheduled, and what is left of the schedule was in it. -/
theorem nextEvent_ok {s : State} {es rest : List Event} {o : Option Event} (hs : ∀ e ∈ es, e.ok = true)
    (h : nextEvent s es = (o, rest)) : (∀ e ∈ o, e.ok = true) ∧ ∀ e ∈ rest, e.ok = true := by
  induction es with
  | nil => cases h; exact ⟨fun _ he => defaultEvent_ok he, hs⟩
  | cons a es ih =>
    unfold nextEvent at h
    split at h
    · cases h
      exact ⟨fun e he => hs e (by cases he; exact .head _), fun e he => hs e (.tail _ he)⟩
    · exact ih (fun e he => hs e (.tail _ he)) h

theorem State.Invariant.setSchedule {s : State} (h : s.Invariant) {es : List Event} (hes : ∀ e ∈ es, e.ok = true) :
    (s.setSchedule es).Invariant := { h with schedule := hes }

theorem invariant_step : StepInvariant State.Invariant where
  none h he := h.setSchedule (nextEvent_ok h.schedule he).2
  fire h he hf :=
    have hok := nextEvent_ok h.schedule he
    fire_invariant (hok.1 _ rfl) (h.setSchedule hok.2) hf

/-- Settles O29: every transition keeps the invariant, with what is left of the schedule in order, so a step does. -/
theorem everyStepKeepsInvariant : Obligations.EveryStepKeepsInvariant := by
  intro s t hs h
  rw [State.ok_iff] at hs ⊢
  exact invariant_step.step hs h

end Sys2Proof.Machine

namespace Sys2Proof.Machine

/-! ## The decimal flag (R41, R400)

`putD b` writes D. Every tick of a table but PHP's and BRK's, which push P, commutes with it or, in CLD, SED, PLP and RTI,
writes over it; so does all that other units do meanwhile. -/

/-- The registers with D as given. -/
def Cpu.putD (b : Bool) (c : Cpu) : Cpu := { c with p := withD b c.p }

/-- The state with D as given. -/
def State.putD (b : Bool) (s : State) : State := s.mapCpu (Cpu.putD b)

/-! ### Flags -/

/-- Status bytes with the same flags are equal. -/
theorem flag_ext {p q : Byte} (h : ∀ f, flag f p = flag f q) : p = q := by
  apply BitVec.eq_of_getLsbD_eq
  intro i hi
  match i, hi with
  | 0, _ => exact h .c
  | 1, _ => exact h .z
  | 2, _ => exact h .i
  | 3, _ => exact h .d
  | 4, _ => exact h .b
  | 5, _ => exact h .u
  | 6, _ => exact h .v
  | 7, _ => exact h .n

theorem flag_withD {f : Flag} (hf : f ≠ .d) (b : Bool) (p : Byte) : flag f (withD b p) = flag f p := by
  rw [← putD_eq, flag_putFlag, if_neg hf]

theorem putFlag_withD {f : Flag} (hf : f ≠ .d) (v b : Bool) (p : Byte) :
    putFlag f v (withD b p) = withD b (putFlag f v p) := by
  refine flag_ext fun g => ?_
  simp only [← putD_eq, flag_putFlag]
  by_cases hg : g = f
  · simp [hg, hf]
  · simp [hg]

theorem putFlag_d_withD (v b : Bool) (p : Byte) : putFlag .d v (withD b p) = putFlag .d v p := by
  refine flag_ext fun g => ?_
  simp only [← putD_eq, flag_putFlag]
  split <;> rfl

/-! ### Operations on the registers -/

/-- The operation neither reads nor writes D. -/
def IgnoresD (op : Cpu → Cpu) : Prop := ∀ b c, op (c.putD b) = (op c).putD b

/-- The modification neither reads nor writes D. -/
def ModIgnoresD (mod : ModOp) : Prop := ∀ v b c, mod v (c.putD b) = ((mod v c).1, (mod v c).2.putD b)

theorem IgnoresD.comp {f g : Cpu → Cpu} (hf : IgnoresD f) (hg : IgnoresD g) : IgnoresD fun c => f (g c) := fun b c =>
  (congrArg f (hg b c)).trans (hf b (g c))

theorem ignoresD_putFlag {f : Flag} (hf : f ≠ .d) (v : Bool) : IgnoresD (Cpu.putFlag f v) := fun b c => by
  simp only [Cpu.putFlag, Cpu.putD, Cpu.setP, putFlag_withD hf]

theorem ignoresD_setNZ (v : Byte) : IgnoresD (Cpu.setNZ v) :=
  (ignoresD_putFlag (f := .n) (by decide) _).comp (ignoresD_putFlag (f := .z) (by decide) _)

/-- The flags of a register's new value, the value itself not read from P. -/
theorem ignoresD_setNZ_of {r : Cpu → Byte} {g : Cpu → Cpu} (hr : ∀ b c, r (c.putD b) = r c) (hg : IgnoresD g) :
    IgnoresD fun c => (g c).setNZ (r c) := fun b c => by
  have h : (g (c.putD b)).setNZ (r (c.putD b)) = ((g c).setNZ (r c)).putD b := by rw [hr, hg, ignoresD_setNZ]
  exact h

theorem ignoresD_compare (r m : Byte) : IgnoresD (Cpu.compare r m) :=
  (ignoresD_setNZ _).comp (ignoresD_putFlag (f := .c) (by decide) _)

/-- R400: the sum reads C and not D. -/
theorem ignoresD_addWithCarry (m : Byte) : IgnoresD (Cpu.addWithCarry m) := by
  intro b c
  have hc : flag .c (c.putD b).p = flag .c c.p := flag_withD (by decide) b c.p
  have hA (v : Byte) : IgnoresD (Cpu.setA v) := fun _ _ => rfl
  unfold Cpu.addWithCarry
  dsimp only
  rw [hc, show (c.putD b).a = c.a from rfl, ignoresD_putFlag (by decide), ignoresD_putFlag (by decide), hA, ignoresD_setNZ]

theorem ignoresD_bitTest (m : Byte) : IgnoresD (Cpu.bitTest m) := by
  intro b c
  unfold Cpu.bitTest
  rw [show (c.putD b).a = c.a from rfl, ignoresD_putFlag (by decide), ignoresD_putFlag (by decide),
    ignoresD_putFlag (by decide)]

theorem modIgnoresD_result (g : Byte → Byte) : ModIgnoresD fun v c => c.result (g v) := fun _ b c =>
  Prod.ext rfl (ignoresD_setNZ _ b c)

theorem shifted_putD (out : Bool) (r : Byte) (b : Bool) (c : Cpu) :
    (c.putD b).shifted out r = (r, (c.shifted out r).2.putD b) :=
  Prod.ext rfl (((ignoresD_setNZ r).comp (ignoresD_putFlag (f := .c) (by decide) out)) b c)

/-- A rotate reads C and not D. -/
theorem modIgnoresD_shift (out : Byte → Bool) (g : Byte → Bool → Byte) :
    ModIgnoresD fun v c => c.shifted (out v) (g v (flag .c c.p)) := fun v b c => by
  have hc : flag .c (c.putD b).p = flag .c c.p := flag_withD (by decide) b c.p
  dsimp only
  rw [hc, shifted_putD]; rfl

/-! ### Operations on the state -/

section
variable (b : Bool) (s : State)
@[simp] theorem putD_a : (s.putD b).cpu.a = s.cpu.a := rfl
@[simp] theorem putD_x : (s.putD b).cpu.x = s.cpu.x := rfl
@[simp] theorem putD_y : (s.putD b).cpu.y = s.cpu.y := rfl
@[simp] theorem putD_sp : (s.putD b).cpu.sp = s.cpu.sp := rfl
@[simp] theorem putD_pc : (s.putD b).cpu.pc = s.cpu.pc := rfl
@[simp] theorem putD_dma : (s.putD b).dma = s.dma := rfl
@[simp] theorem putD_eng : (s.putD b).cpu.eng = s.cpu.eng := rfl
@[simp] theorem putD_cycles : (s.putD b).cpu.cycles = s.cpu.cycles := rfl

@[simp] theorem busRead_putD (a : Addr) : busRead a (s.putD b) = ((busRead a s).1, (busRead a s).2.putD b) :=
  busRead_mapCpu a _ s

@[simp] theorem dummyRead_putD (a : Addr) : dummyRead a (s.putD b) = (dummyRead a s).putD b := dummyRead_mapCpu a _ s

@[simp] theorem busWrite_putD (a : Addr) (v : Byte) : busWrite a v (s.putD b) = (busWrite a v s).putD b :=
  busWrite_mapCpu a v _ s

@[simp] theorem dummyWrite_putD (a : Addr) (v : Byte) : dummyWrite a v (s.putD b) = (dummyWrite a v s).putD b :=
  dummyWrite_mapCpu a v _ s

theorem mapCpu_putD {op : Cpu → Cpu} (h : IgnoresD op) : (s.putD b).mapCpu op = (s.mapCpu op).putD b := by
  show { s with cpu := op (s.cpu.putD b) } = _
  rw [h]; rfl

theorem ignoresD_setPc (v : Addr) : IgnoresD (Cpu.setPc v) := fun _ _ => rfl
theorem ignoresD_setA (v : Byte) : IgnoresD (Cpu.setA v) := fun _ _ => rfl
theorem ignoresD_incPc : IgnoresD Cpu.incPc := fun _ _ => rfl
theorem ignoresD_incSp : IgnoresD Cpu.incSp := fun _ _ => rfl
theorem ignoresD_decSp : IgnoresD Cpu.decSp := fun _ _ => rfl

@[simp] theorem fetchByte_putD : fetchByte (s.putD b) = ((fetchByte s).1, (fetchByte s).2.putD b) := by
  simp only [fetchByte, putD_pc, busRead_putD, mapCpu_putD _ _ ignoresD_incPc]

@[simp] theorem readStack_putD : readStack (s.putD b) = ((readStack s).1, (readStack s).2.putD b) := by
  simp only [readStack, stackAddr, putD_sp, busRead_putD]

@[simp] theorem openPull_putD : openPull (s.putD b) = (openPull s).putD b := by
  simp only [openPull, stackAddr, putD_sp, dummyRead_putD, mapCpu_putD _ _ ignoresD_incSp]

@[simp] theorem push_putD (v : Byte) : push v (s.putD b) = (push v s).putD b := by
  simp only [push, stackAddr, putD_sp, busWrite_putD, mapCpu_putD _ _ ignoresD_decSp]

@[simp] theorem idle_putD : idle (s.putD b) = (idle s).putD b := dummyRead_putD b s _

@[simp] theorem indexOf_putD (m : Mode) : indexOf m (s.putD b).cpu = indexOf m s.cpu := by cases m <;> rfl

end

/-! ### Ticks and tables -/

/-- The tick neither reads nor writes D. -/
def Tick.ignoresD (k : Tick) : Prop := ∀ b lat s, k.act lat (s.putD b) = (k.act lat s).map (State.putD b)

/-- No tick of the table reads or writes D. -/
def Table.ignoresD (T : Table) : Prop := ∀ k ∈ T, k.ignoresD

theorem ignoresD_nil : Table.ignoresD [] := fun _ h => absurd h List.not_mem_nil

theorem ignoresD_cons {k : Tick} {T : Table} (hk : k.ignoresD) (hT : Table.ignoresD T) : Table.ignoresD (k :: T) :=
  List.forall_mem_cons.mpr ⟨hk, hT⟩

theorem fetchZp_ignoresD : fetchZp.ignoresD := fun _ _ _ => by simp only [fetchZp, fetchByte_putD, TickEnd.map]
theorem fetchPtr_ignoresD : fetchPtr.ignoresD := fun _ _ _ => by simp only [fetchPtr, fetchByte_putD, TickEnd.map]
theorem fetchLo_ignoresD : fetchLo.ignoresD := fun _ _ _ => by simp only [fetchLo, fetchByte_putD, TickEnd.map]
theorem fetchHi_ignoresD : fetchHi.ignoresD := fun _ _ _ => by simp only [fetchHi, fetchByte_putD, TickEnd.map]
theorem fetchHiIndexed_ignoresD (m : Mode) : (fetchHiIndexed m).ignoresD := fun _ _ _ => by
  simp only [fetchHiIndexed, fetchByte_putD, indexOf_putD, TickEnd.map]
theorem indexZp_ignoresD (m : Mode) : (indexZp m).ignoresD := fun _ _ _ => by
  simp only [indexZp, dummyRead_putD, indexOf_putD, TickEnd.map]
theorem indexPtr_ignoresD : indexPtr.ignoresD := fun _ _ _ => by simp only [indexPtr, dummyRead_putD, putD_x, TickEnd.map]
theorem pointerLo_ignoresD : pointerLo.ignoresD := fun _ _ _ => by simp only [pointerLo, busRead_putD, TickEnd.map]
theorem pointerHi_ignoresD : pointerHi.ignoresD := fun _ _ _ => by simp only [pointerHi, busRead_putD, TickEnd.map]
theorem pointerHiIndexed_ignoresD : pointerHiIndexed.ignoresD := fun _ _ _ => by
  simp only [pointerHiIndexed, busRead_putD, putD_y, TickEnd.map]
theorem correct_ignoresD : correct.ignoresD := fun _ _ _ => by simp only [correct, dummyRead_putD, TickEnd.map]
theorem idleRead_ignoresD : idleRead.ignoresD := fun _ _ _ => by simp only [idleRead, putD_pc, dummyRead_putD, TickEnd.map]
theorem loadData_ignoresD : loadData.ignoresD := fun _ _ _ => by simp only [loadData, busRead_putD, TickEnd.map]
theorem storeData_ignoresD : storeData.ignoresD := fun _ _ _ => by simp only [storeData, busWrite_putD, TickEnd.map]

theorem readEa_putD {op : ReadOp} (h : ∀ v, IgnoresD (op v)) (b : Bool) (lat : Lat) (s : State) :
    readEa op lat (s.putD b) = (readEa op lat s).map (State.putD b) := by
  simp only [readEa, busRead_putD, mapCpu_putD _ _ (h _), TickEnd.map]

theorem readOperand_ignoresD {op : ReadOp} (h : ∀ v, IgnoresD (op v)) : (readOperand op).ignoresD :=
  fun b lat s => readEa_putD h b lat s

theorem readOrCorrect_ignoresD {op : ReadOp} (h : ∀ v, IgnoresD (op v)) : (readOrCorrect op).ignoresD := fun b lat s => by
  cases hc : lat.crossed
  · rw [readOrCorrect_done op _ hc, readOrCorrect_done op _ hc]; exact readEa_putD h b lat s
  · rw [readOrCorrect_more op _ hc, readOrCorrect_more op _ hc, dummyRead_putD]; rfl

theorem modifyData_ignoresD {mod : ModOp} (h : ModIgnoresD mod) : (modifyData mod).ignoresD := fun b lat s => by
  have hm := h lat.data b (dummyWrite lat.ea lat.data s).cpu
  simp only [modifyData, dummyWrite_putD, TickEnd.map]
  rw [show ((dummyWrite lat.ea lat.data s).putD b).cpu = (dummyWrite lat.ea lat.data s).cpu.putD b from rfl, hm]
  rfl

theorem readForm_ignoresD (m : Mode) {op : ReadOp} (h : ∀ v, IgnoresD (op v)) : (readForm m op).ignoresD := by
  have himm : Tick.ignoresD ⟨false, fun _ s => let r := fetchByte s; .done (r.2.mapCpu (op r.1))⟩ := fun _ _ _ => by
    simp only [fetchByte_putD, mapCpu_putD _ _ (h _), TickEnd.map]
  have hlast := readOperand_ignoresD h
  have habs := ignoresD_cons (readOrCorrect_ignoresD h) (ignoresD_cons hlast ignoresD_nil)
  have hdata := ignoresD_cons hlast ignoresD_nil
  cases m with
  | imm => exact ignoresD_cons himm ignoresD_nil
  | zp => exact ignoresD_cons fetchZp_ignoresD hdata
  | zpx | zpy => exact ignoresD_cons fetchPtr_ignoresD (ignoresD_cons (indexZp_ignoresD _) hdata)
  | abs => exact ignoresD_cons fetchLo_ignoresD (ignoresD_cons fetchHi_ignoresD hdata)
  | absx | absy => exact ignoresD_cons fetchLo_ignoresD (ignoresD_cons (fetchHiIndexed_ignoresD _) habs)
  | indx =>
    exact ignoresD_cons fetchPtr_ignoresD <| ignoresD_cons indexPtr_ignoresD <| ignoresD_cons pointerLo_ignoresD <|
      ignoresD_cons pointerHi_ignoresD hdata
  | indy =>
    exact ignoresD_cons fetchPtr_ignoresD <| ignoresD_cons pointerLo_ignoresD <| ignoresD_cons pointerHiIndexed_ignoresD habs
  | imp | acc | ind | rel => exact ignoresD_nil

theorem writeForm_ignoresD (m : Mode) {val : Cpu → Byte} (h : ∀ b c, val (c.putD b) = val c) : (writeForm m val).ignoresD := by
  have hstore : (storeOperand val).ignoresD := fun b lat s => by
    have hv : val (s.putD b).cpu = val s.cpu := h b s.cpu
    simp only [storeOperand, hv, busWrite_putD, TickEnd.map]
  have hdata := ignoresD_cons hstore ignoresD_nil
  have hcorrect := ignoresD_cons correct_ignoresD hdata
  cases m with
  | zp => exact ignoresD_cons fetchZp_ignoresD hdata
  | zpx | zpy => exact ignoresD_cons fetchPtr_ignoresD (ignoresD_cons (indexZp_ignoresD _) hdata)
  | abs => exact ignoresD_cons fetchLo_ignoresD (ignoresD_cons fetchHi_ignoresD hdata)
  | absx | absy => exact ignoresD_cons fetchLo_ignoresD (ignoresD_cons (fetchHiIndexed_ignoresD _) hcorrect)
  | indx =>
    exact ignoresD_cons fetchPtr_ignoresD <| ignoresD_cons indexPtr_ignoresD <| ignoresD_cons pointerLo_ignoresD <|
      ignoresD_cons pointerHi_ignoresD hdata
  | indy =>
    exact ignoresD_cons fetchPtr_ignoresD <| ignoresD_cons pointerLo_ignoresD <|
      ignoresD_cons pointerHiIndexed_ignoresD hcorrect
  | imp | acc | imm | ind | rel => exact ignoresD_nil

theorem rmwForm_ignoresD (m : Mode) {mod : ModOp} (h : ModIgnoresD mod) : (rmwForm m mod).ignoresD := by
  have hacc : IgnoresD fun c => (mod c.a c).2.setA (mod c.a c).1 := fun b c => by
    show (mod c.a (c.putD b)).2.setA (mod c.a (c.putD b)).1 = _
    rw [h c.a b c]; rfl
  have hdata : Table.ignoresD (rmwTicks mod) := ignoresD_cons loadData_ignoresD <| ignoresD_cons (modifyData_ignoresD h) <|
    ignoresD_cons storeData_ignoresD ignoresD_nil
  cases m with
  | acc =>
    refine ignoresD_cons (fun b lat s => ?_) ignoresD_nil
    simp only [putD_pc, dummyRead_putD, TickEnd.map]
    exact congrArg _ (mapCpu_putD b _ hacc)
  | zp => exact ignoresD_cons fetchZp_ignoresD hdata
  | zpx => exact ignoresD_cons fetchPtr_ignoresD (ignoresD_cons (indexZp_ignoresD _) hdata)
  | abs => exact ignoresD_cons fetchLo_ignoresD (ignoresD_cons fetchHi_ignoresD hdata)
  | absx =>
    exact ignoresD_cons fetchLo_ignoresD <| ignoresD_cons (fetchHiIndexed_ignoresD _) <| ignoresD_cons correct_ignoresD hdata
  | imp | imm | zpy | absy | ind | indx | indy | rel => exact ignoresD_nil

theorem impliedForm_ignoresD {op : Cpu → Cpu} (h : IgnoresD op) : (impliedForm op).ignoresD :=
  ignoresD_cons (fun b lat s => by simp only [putD_pc, dummyRead_putD, mapCpu_putD _ _ h, TickEnd.map]) ignoresD_nil

/-- A branch reads one flag, which is not D. -/
theorem branchForm_ignoresD {cond : Byte → Bool} (h : ∀ b p, cond (withD b p) = cond p) : (branchForm cond).ignoresD := by
  refine ignoresD_cons ?_ (ignoresD_cons ?_ (ignoresD_cons ?_ ignoresD_nil)) <;> intro b lat s
  · have hc : cond ((fetchByte s).2.putD b).cpu.p = cond (fetchByte s).2.cpu.p := h b _
    simp only [fetchByte_putD, hc]
    split <;> rfl
  · simp only [putD_pc, dummyRead_putD]
    split
    · rfl
    · simp only [mapCpu_putD _ _ (ignoresD_setPc _), TickEnd.map]
  · simp only [putD_pc, dummyRead_putD, mapCpu_putD _ _ (ignoresD_setPc _), TickEnd.map]

theorem jmpTicks_ignoresD (m : Mode) : (jmpTicks m).ignoresD := by
  cases m with
  | abs =>
    refine ignoresD_cons fetchLo_ignoresD (ignoresD_cons (fun b lat s => ?_) ignoresD_nil)
    simp only [putD_pc, busRead_putD, mapCpu_putD _ _ (ignoresD_setPc _), TickEnd.map]
  | ind =>
    refine ignoresD_cons fetchLo_ignoresD <| ignoresD_cons fetchHi_ignoresD <| ignoresD_cons (fun b lat s => ?_) <|
      ignoresD_cons (fun b lat s => ?_) ignoresD_nil
    · simp only [busRead_putD, TickEnd.map]
    · simp only [busRead_putD, mapCpu_putD _ _ (ignoresD_setPc _), TickEnd.map]
  | imp | acc | imm | zp | zpx | zpy | absx | absy | indx | indy | rel => exact ignoresD_nil

theorem jsrTicks_ignoresD : Table.ignoresD jsrTicks := by
  have hpush (v : State → Byte) (hv : ∀ b s, v (s.putD b) = v s) :
      Tick.ignoresD ⟨true, fun lat s => .more lat (push (v s) s)⟩ := fun b lat s => by
    simp only [hv, push_putD, TickEnd.map]
  refine ignoresD_cons fetchLo_ignoresD <| ignoresD_cons (fun b lat s => ?_) <|
    ignoresD_cons (hpush (fun s => hiByte s.cpu.pc) fun _ _ => rfl) <|
    ignoresD_cons (hpush (fun s => loByte s.cpu.pc) fun _ _ => rfl) <| ignoresD_cons (fun b lat s => ?_) ignoresD_nil
  · simp only [stackAddr, putD_sp, dummyRead_putD, TickEnd.map]
  · simp only [putD_pc, busRead_putD, mapCpu_putD _ _ (ignoresD_setPc _), TickEnd.map]

theorem openPull_tick_ignoresD : Tick.ignoresD ⟨false, fun lat s => .more lat (openPull s)⟩ := fun b lat s => by
  simp only [openPull_putD, TickEnd.map]

theorem rtsTicks_ignoresD : Table.ignoresD rtsTicks := by
  refine ignoresD_cons idleRead_ignoresD <| ignoresD_cons openPull_tick_ignoresD <| ignoresD_cons (fun b lat s => ?_) <|
    ignoresD_cons (fun b lat s => ?_) <| ignoresD_cons (fun b lat s => ?_) ignoresD_nil
  · simp only [readStack_putD, mapCpu_putD _ _ ignoresD_incSp, TickEnd.map]
  · simp only [readStack_putD, mapCpu_putD _ _ (ignoresD_setPc _), TickEnd.map]
  · simp only [putD_pc, dummyRead_putD, mapCpu_putD _ _ ignoresD_incPc, TickEnd.map]

theorem phaTicks_ignoresD : Table.ignoresD phaTicks :=
  ignoresD_cons idleRead_ignoresD <| ignoresD_cons (fun b lat s => by simp only [putD_a, push_putD, TickEnd.map]) ignoresD_nil

theorem plaTicks_ignoresD : Table.ignoresD plaTicks := by
  have hop (v : Byte) : IgnoresD fun c => (c.setA v).setNZ v := (ignoresD_setNZ v).comp (ignoresD_setA v)
  refine ignoresD_cons idleRead_ignoresD <| ignoresD_cons openPull_tick_ignoresD <|
    ignoresD_cons (fun b lat s => ?_) ignoresD_nil
  simp only [readStack_putD, mapCpu_putD _ _ (hop _), TickEnd.map]

/-- No tick reads or writes D, but those of PHP and BRK, which push P, and of the four that write D (R400). -/
theorem tableOf_ignoresD {i : Instr} (hi : i ∉ [.php, .brk, .cld, .sed, .plp, .rti]) : (tableOf i).ignoresD := by
  cases i
  case php | brk | cld | sed | plp | rti => simp at hi
  case lda m | ldx m | ldy m | and m | ora m | eor m =>
    exact readForm_ignoresD m fun _ => ignoresD_setNZ_of (fun _ _ => rfl) fun _ _ => rfl
  case adc m | sbc m => exact readForm_ignoresD m fun _ => ignoresD_addWithCarry _
  case cmp m | cpx m | cpy m => exact readForm_ignoresD m fun v b c => ignoresD_compare _ v b c
  case bit m => exact readForm_ignoresD m ignoresD_bitTest
  case sta m | stx m | sty m => exact writeForm_ignoresD m fun _ _ => rfl
  case inc m | dec m => exact rmwForm_ignoresD m (modIgnoresD_result _)
  case asl m => exact rmwForm_ignoresD m (modIgnoresD_shift (bitAt · 7) fun v _ => v <<< 1)
  case lsr m => exact rmwForm_ignoresD m (modIgnoresD_shift (bitAt · 0) fun v _ => v >>> 1)
  case rol m =>
    exact rmwForm_ignoresD m (modIgnoresD_shift (bitAt · 7) fun v c => (v <<< 1) ||| (BitVec.ofBool c).setWidth 8)
  case ror m =>
    exact rmwForm_ignoresD m (modIgnoresD_shift (bitAt · 0) fun v c => (v >>> 1) ||| ((BitVec.ofBool c).setWidth 8 <<< 7))
  case tax | tay | txa | tya | tsx | inx | iny | dex | dey => 
    exact impliedForm_ignoresD (ignoresD_setNZ_of (fun _ _ => rfl) fun _ _ => rfl)
  case clc | sec | cli | sei | clv => exact impliedForm_ignoresD (ignoresD_putFlag (by decide) _)
  case txs | nop | una _ => exact impliedForm_ignoresD fun _ _ => rfl
  case bcs | beq | bmi | bvs => exact branchForm_ignoresD fun b p => flag_withD (by decide) b p
  case bcc | bne | bpl | bvc => exact branchForm_ignoresD fun b p => congrArg not (flag_withD (by decide) b p)
  case jmp m => exact jmpTicks_ignoresD m
  case jsr => exact jsrTicks_ignoresD
  case rts => exact rtsTicks_ignoresD
  case pha => exact phaTicks_ignoresD
  case pla => exact plaTicks_ignoresD

end Sys2Proof.Machine

namespace Sys2Proof.Machine

/-! ### The other units do not see the registers -/

/-- A delivery with its state changed by `f`. -/
def Delivery.map (f : State → State) : Delivery → Delivery
  | .done s => .done (f s)
  | .overflow u => .overflow u
  | .endless => .endless

section
variable (g : Cpu → Cpu)

theorem deliverUnit_mapCpu (u : UnitId) (s : State) :
    deliverUnit u (s.mapCpu g) = (deliverUnit u s).map (State.mapCpu g) := by
  have hu : (s.mapCpu g).unit u = s.unit u := by cases u <;> rfl
  unfold deliverUnit
  rw [hu, State.mapCpu_params]
  by_cases hd : (s.unit u).disposed = true
  · rw [if_pos hd, if_pos hd]; rfl
  · rw [if_neg hd, if_neg hd]
    by_cases ho : (s.unit u).owed = s.params.owedMax
    · rw [if_pos ho, if_pos ho]; rfl
    · rw [if_neg ho, if_neg ho]; cases u <;> rfl

theorem deliverEach_mapCpu {f : Listener → State → Delivery}
    (hf : ∀ l s, f l (s.mapCpu g) = (f l s).map (State.mapCpu g)) (ls : List Listener) (s : State) :
    deliverEach f ls (s.mapCpu g) = (deliverEach f ls s).map (State.mapCpu g) := by
  induction ls generalizing s with
  | nil => rfl
  | cons l rest ih =>
    unfold deliverEach
    rw [hf]
    cases f l s with
    | done t => exact ih t
    | overflow u => rfl
    | endless => rfl

theorem deliver_mapCpu (n : Nat) (l : Listener) (s : State) :
    deliver n l (s.mapCpu g) = (deliver n l s).map (State.mapCpu g) := by
  induction n generalizing l s with
  | zero =>
    cases l with
    | unit u => exact deliverUnit_mapCpu g u s
    | divider i => rfl
  | succ n ih =>
    cases l with
    | unit u => exact deliverUnit_mapCpu g u s
    | divider i =>
      simp only [deliver, State.mapCpu_dividers]
      split
      · rfl
      · exact deliverEach_mapCpu g ih _ (s.setDividers _)

theorem emit_mapCpu {s t : State} (h : emit s = .next t) : emit (s.mapCpu g) = .next (t.mapCpu g) := by
  have hd : deliverEach (deliver (s.mapCpu g).deliveryDepth) (s.mapCpu g).clock.listeners
      ((s.mapCpu g).mapClock fun c => { c with tickCount := c.tickCount + 1 }) =
      (deliverEach (deliver s.deliveryDepth) s.clock.listeners
        (s.mapClock fun c => { c with tickCount := c.tickCount + 1 })).map (State.mapCpu g) :=
    deliverEach_mapCpu g (deliver_mapCpu g s.deliveryDepth) s.clock.listeners
      (s.mapClock fun c => { c with tickCount := c.tickCount + 1 })
  unfold emit at h ⊢
  rw [hd]
  generalize deliverEach (deliver s.deliveryDepth) s.clock.listeners
    (s.mapClock fun c => { c with tickCount := c.tickCount + 1 }) = o at h ⊢
  cases o with
  | done u => cases h; rfl
  | overflow u => cases h
  | endless => cases h; rfl

theorem guarded_mapCpu {s t : State} {r : Result} (hd : desyncedUnit s = none) (hr : r = .next t) :
    guarded (s.mapCpu g) r = .next t := by
  unfold guarded
  rw [show desyncedUnit (s.mapCpu g) = desyncedUnit s from rfl, hd, hr]
  rfl

/-- With nothing scheduled, what comes next does not depend on the registers. -/
theorem nextEvent_mapCpu {s : State} (hs : s.schedule = []) :
    nextEvent (s.mapCpu g) (s.mapCpu g).schedule = nextEvent s s.schedule := by
  rw [State.mapCpu_schedule, hs]
  rfl

theorem fire_mapCpu {T : Table} {e : Event} (he : e = .emit ∨ e = .unit .ppu ∨ e = .unit .sound) {s t : State}
    (h : fire T e s = .next t) : fire T e (s.mapCpu g) = .next (t.mapCpu g) := by
  obtain ⟨hf, hd⟩ := guarded_next h
  rcases he with rfl | rfl | rfl
  · exact guarded_mapCpu g hd (emit_mapCpu g hf)
  · cases hf
    exact guarded_mapCpu g hd (congrArg _ (Blind.mapCpu ppuHandler_dot.blind g (consume .ppu s)))
  · cases hf
    exact guarded_mapCpu g hd (congrArg _ (Blind.mapCpu (f := soundTick) (fun c s => afterSound_blind _ c s) g (consume .sound s)))

theorem stepDma_mapCpu (d : Byte) (s : State) : stepDma d (s.mapCpu g) = (stepDma d s).mapCpu g := by
  unfold stepDma
  rw [State.mapCpu_dma]
  split <;> rfl

theorem dmaTick_mapCpu (page : Byte) (k : Nat) (d : Byte) (s : State) :
    dmaTick page k d (s.mapCpu g) = (dmaTick page k d s).mapCpu g := by
  unfold dmaTick
  split
  · exact stepDma_mapCpu g d s
  · dsimp only
    split
    · rw [busRead_mapCpu]; exact stepDma_mapCpu g _ _
    · rw [busWrite_mapCpu]; exact stepDma_mapCpu g _ _

theorem startDma_mapCpu (page : Byte) (n : Nat) (s : State) :
    startDma page n (s.mapCpu g) = (startDma page n s).mapCpu g := by
  have hset (d : Dma) : (s.mapCpu g).setDma d = (s.setDma d).mapCpu g := rfl
  unfold startDma
  dsimp only
  rw [State.mapCpu_params, hset]
  exact dmaTick_mapCpu g page _ 0 _

end

/-! ### A run with another D -/

theorem instrTick_putD {T : Table} (hT : T.ignoresD) (b : Bool) (op : Byte) (k : Nat) (lat : Lat) (s : State) :
    instrTick T op k lat (s.putD b) = (instrTick T op k lat s).putD b := by
  have hr : runTick T (k - 2) lat (s.putD b) = (runTick T (k - 2) lat s).map (State.putD b) := by
    unfold runTick
    split
    · rename_i j hj; exact hT j (List.mem_of_getElem? hj) b lat s
    · rfl
  unfold instrTick
  rw [hr]
  cases runTick T (k - 2) lat s <;> rfl

theorem cpuHandler_putD {T : Table} (hT : T.ignoresD) (b : Bool) {s t : State} {op : Byte} {k : Nat} {lat : Lat}
    (he : s.cpu.eng = .inInstr op k lat) (h : cpuHandler T s = .next t) : cpuHandler T (s.putD b) = .next (t.putD b) := by
  have htick : (s.putD b).mapCpu Cpu.tick = (s.mapCpu Cpu.tick).putD b := rfl
  have hengine {u : State} (hu : engineTick T (s.mapCpu Cpu.tick) = .next u) :
      engineTick T ((s.mapCpu Cpu.tick).putD b) = .next (u.putD b) := by
    have he' : (s.mapCpu Cpu.tick).cpu.eng = .inInstr op k lat := he
    simp only [engineTick, putD_eng, he', Host.Outcome.next.injEq] at hu ⊢
    rw [instrTick_putD hT, hu]
  unfold cpuHandler at h ⊢
  simp only [htick, putD_dma, putD_eng, putD_cycles] at h ⊢
  split at h
  · cases h; exact congrArg _ (dmaTick_mapCpu _ _ _ _ _)
  · split at h
    · rename_i hw; rw [if_pos hw]; exact hengine h
    · rename_i hw; rw [if_neg hw]; cases h; exact congrArg _ (startDma_mapCpu _ _ _ _)
  · exact hengine h

/-- Inside an instruction's table a CPU tick leaves the schedule alone. -/
theorem cpuHandler_schedule {s t : State} {op : Byte} {k : Nat} {lat : Lat} {i : Instr} (he : s.cpu.eng = .inInstr op k lat)
    (h : cpuHandler (tableOf i) s = .next t) : t.schedule = s.schedule := by
  rcases cpuHandler_cases h with ⟨page, k, data, _, rfl⟩ | ⟨page, rfl⟩ | h
  · exact dmaTick_schedule ..
  · exact (startDma_effect ..).schedule
  · have he' : (s.mapCpu Cpu.tick).cpu.eng = .inInstr op k lat := he
    simp only [engineTick, he', Host.Outcome.next.injEq] at h
    have heffect := (runTick_sound (tableOf_sound i) (k - 2) lat (s.mapCpu Cpu.tick)).1.schedule
    subst h
    unfold instrTick
    cases hr : runTick (tableOf i) (k - 2) lat (s.mapCpu Cpu.tick) <;> (rw [hr] at heffect; exact heffect)

section
variable {i : Instr} (hT : (tableOf i).ignoresD) (b : Bool)
include hT

theorem untilCpuTick_putD {n : Nat} {s t : State} (hs : s.schedule = []) {op : Byte} {k : Nat} {lat : Lat}
    (he : s.cpu.eng = .inInstr op k lat) (h : untilCpuTick (tableOf i) n s = .next t) :
    untilCpuTick (tableOf i) n (s.putD b) = .next (t.putD b) ∧ t.schedule = [] := by
  induction n generalizing s with
  | zero => cases h; exact ⟨rfl, hs⟩
  | succ n ih =>
    have hnext : nextEvent (s.putD b) (s.putD b).schedule = nextEvent s s.schedule := nextEvent_mapCpu _ hs
    simp only [untilCpuTick] at h ⊢
    rw [hnext]
    split at h
    · rename_i rest hnone
      have hrest : rest = [] := by
        rw [hs] at hnone
        simp only [nextEvent, Prod.mk.injEq] at hnone
        exact hnone.2.symm
      cases h
      exact ⟨rfl, hrest⟩
    · rename_i rest hev
      obtain ⟨rfl, _⟩ := default_cases hs hev
      obtain ⟨hf, hd⟩ := guarded_next h
      exact ⟨guarded_mapCpu (Cpu.putD b) hd (cpuHandler_putD hT b (s := consume .cpu (s.setSchedule [])) he hf),
        cpuHandler_schedule (s := consume .cpu (s.setSchedule [])) he hf⟩
    · rename_i e rest hcpu hev
      obtain ⟨rfl, hkind⟩ := default_cases hs hev
      have hother : e = .emit ∨ e = .unit .ppu ∨ e = .unit .sound := by
        rcases hkind with rfl | ⟨u, rfl⟩
        · exact .inl rfl
        · cases u
          · exact absurd rfl hcpu
          · exact .inr (.inl rfl)
          · exact .inr (.inr rfl)
      obtain ⟨u, hu, h⟩ := andThen_next h
      have hu' : fire (tableOf i) e ((s.putD b).setSchedule []) = .next (u.putD b) := fire_mapCpu (Cpu.putD b) hother hu
      have hcpu' : u.cpu = s.cpu := (fire_quiet (by rintro rfl; exact hcpu rfl) hu).cpu
      rw [hu']
      exact ih ((fire_calm hother hu).1.schedule) (hcpu' ▸ he) h

theorem runTicks_putD {n : Nat} {s t : State} (hs : s.schedule = []) {op : Byte} {k : Nat} {lat : Lat}
    (he : s.cpu.eng = .inInstr op k lat) (h : runTicks (tableOf i) n s = .next t) :
    runTicks (tableOf i) n (s.putD b) = .next (t.putD b) := by
  induction n generalizing s k lat with
  | zero => cases h; rfl
  | succ n ih =>
    simp only [runTicks] at h ⊢
    obtain ⟨u, hu, h⟩ := andThen_next h
    obtain ⟨hu', hsch⟩ := untilCpuTick_putD hT b hs he hu
    rw [show cpuTick (tableOf i) (s.putD b) = .next (u.putD b) from hu']
    split at h
    · rename_i hc
      cases h
      exact if_pos hc
    · rename_i hc
      refine (if_neg hc).trans ?_
      simp only [Bool.or_eq_true, not_or, Bool.not_eq_true] at hc
      have hmove := cpuTick_move hu
      rw [he] at hmove
      generalize hf : u.cpu.eng = f at hmove
      cases hmove with
      | stay | instr => exact ih hsch hf h
      | rest hr => rw [hf, hr] at hc; cases hc.1
      | fetch _ hr | enter _ _ _ hr => cases hr

/-- Two states that differ in D run such an instruction to two states that differ in D. -/
theorem exec_putD {s t : State} (hs : s.schedule = []) (h : exec i s = .next t) :
    exec i (s.putD b) = .next (t.putD b) := by
  have hrun := exec_run h
  have hexec : exec i (s.putD b) = run i (tableOf i) (s.putD b) := by
    cases i with
    | una op =>
      have h : execUna op s = .next t := h
      unfold execUna at h
      split at h
      · cases h
      · exact if_neg ‹_›
    | _ => rfl
  rw [hexec]
  unfold run at hrun ⊢
  split at hrun
  · rw [if_pos ‹_›]
    exact runTicks_putD hT b (s := start i s) hs rfl hrun
  · cases hrun

end

/-! ### CLD, SED, PLP and RTI write over D -/

/-- PLP and RTI up to the tick that pulls P: what S points at and the state after the read. -/
def statusPulled (s : State) : Byte × State := readStack (openPull (idle s))

theorem statusPulled_putD (b : Bool) (s : State) :
    statusPulled (s.putD b) = ((statusPulled s).1, (statusPulled s).2.putD b) := by
  simp only [statusPulled, idle_putD, openPull_putD, readStack_putD]

theorem exec_plp_alone {s : State} (h : cpuAlone 8 s = true) :
    exec .plp s = .next (finish 3 ((statusPulled s).2.mapCpu (Cpu.setP (pushedByInterrupt (statusPulled s).1)))) := by
  have hT := plpTicks_timeless
  show run .plp plpTicks s = _
  rw [run_wf rfl]
  exact (alone_more hT h (by omega) rfl rfl).trans <|
    (alone_more hT (cpuAlone_idle h) (by omega) rfl rfl).trans <|
    alone_done hT (cpuAlone_openPull (cpuAlone_idle h)) (by omega) rfl rfl

theorem exec_rti_alone {s : State} (h : cpuAlone 8 s = true) :
    exec .rti s = runTicks rtiTicks (tickBudget - 3) (retime (.inInstr (opcodeOf .rti) 5 {}) 3
      ((statusPulled s).2.mapCpu fun c => (c.setP (pushedByInterrupt (statusPulled s).1)).incSp)) := by
  have hT := rtiTicks_timeless
  show run .rti rtiTicks s = _
  rw [run_wf rfl]
  exact (alone_more hT h (by omega) rfl rfl).trans <|
    (alone_more hT (cpuAlone_idle h) (by omega) rfl rfl).trans <|
    alone_more hT (cpuAlone_openPull (cpuAlone_idle h)) (by omega) rfl rfl

theorem mapCpu_putFlag_d_putD (v b : Bool) (s : State) :
    (s.putD b).mapCpu (Cpu.putFlag .d v) = s.mapCpu (Cpu.putFlag .d v) := by
  simp only [State.putD, State.mapCpu, Cpu.putD, Cpu.putFlag, Cpu.setP, putFlag_d_withD]

/-- What an instruction that writes D does, D does not enter. -/
theorem exec_putD_of_writesD {i : Instr} (hi : i ∈ [.cld, .sed, .plp, .rti]) {s : State} (h : cpuAlone 8 s = true)
    (b : Bool) : exec i (s.putD b) = exec i s := by
  have h' : cpuAlone 8 (s.putD b) = true := cpuAlone_mapCpu h _
  have himplied (j : Instr) (hj : j.wf = true) (v : Bool) :
      run j (impliedForm (Cpu.putFlag .d v)) (s.putD b) = run j (impliedForm (Cpu.putFlag .d v)) s := by
    rw [run_impliedForm hj (timelessOp_putFlag _ _) h, run_impliedForm hj (timelessOp_putFlag _ _) h', idle_putD,
      mapCpu_putFlag_d_putD]
  simp only [List.mem_cons, List.not_mem_nil, or_false] at hi
  rcases hi with rfl | rfl | rfl | rfl
  · exact himplied .cld rfl false
  · exact himplied .sed rfl true
  · rw [exec_plp_alone h, exec_plp_alone h', statusPulled_putD]; rfl
  · rw [exec_rti_alone h, exec_rti_alone h', statusPulled_putD]; rfl

/-- Settles O9: the ticks of every instruction but PHP and BRK pass D by, or write over it. -/
theorem decimalFlagIsReadByNoArithmetic : Obligations.DecimalFlagIsReadByNoArithmetic := by
  intro i s t _ hphp hbrk _ halone _ h b
  show exec i (s.putD b) = _
  by_cases hi : i ∈ [.cld, .sed, .plp, .rti]
  · rw [if_pos hi, exec_putD_of_writesD hi halone, h]
  · rw [if_neg hi]
    refine exec_putD (tableOf_ignoresD ?_) b ((cpuAlone_iff _ _).mp halone).1 h
    rw [List.mem_cons, List.mem_cons]
    exact not_or.mpr ⟨hphp, not_or.mpr ⟨hbrk, hi⟩⟩

end Sys2Proof.Machine

namespace Sys2Proof.Machine

/-! ## The NES map (R104, R105)

An access depends on a table only through the components attached over its address, in attachment order. -/

/-- The components attached over an address, in attachment order. -/
def componentsAt (a : Addr) : List BusEntry → List Component
  | [] => []
  | e :: rest => (if e.covers a then [e.component] else []) ++ componentsAt a rest

/-- R253: the first match is the first capable component over the address. -/
theorem firstMatch_eq_find_componentsAt (cap : Caps → Bool) (a : Addr) (table : List BusEntry) :
    firstMatch cap a table = (componentsAt a table).find? fun c => cap c.caps := by
  induction table with
  | nil => rfl
  | cons e rest ih =>
    cases he : e.covers a with
    | false => simp [firstMatch, componentsAt, he, ih]
    | true => cases hc : cap e.component.caps <;> simp [firstMatch, componentsAt, he, hc, ih]

/-- R252: a write goes to each writable component over the address in turn. -/
theorem writeMatchesVia_eq_foldl_componentsAt (x : ExtRun) (a : Addr) (v : Byte) (table : List BusEntry) (s : State) :
    writeMatchesVia x a v table s =
      (componentsAt a table).foldl (fun t c => if c.caps.writable then componentWriteVia x c a v t else t) s := by
  induction table generalizing s with
  | nil => rfl
  | cons e rest ih => cases he : e.covers a <;> simp [writeMatchesVia, componentsAt, he, ih]

/-- What the components over an address make of a read and of a write there. -/
theorem busAccess_of_componentsAt {a : Addr} {s : State} {cs : List Component} (h : componentsAt a s.bus = cs) (v : Byte) :
    busRead a s = ((cs.find? (·.caps.readable)).elim (0, s) fun c => componentRead c a s) ∧
    busWrite a v s = cs.foldl (fun t c => if c.caps.writable then componentWrite c a v t else t) s := by
  subst h
  refine ⟨?_, writeMatchesVia_eq_foldl_componentsAt extRun a v s.bus s⟩
  rw [← firstMatch_eq_find_componentsAt (·.readable)]
  unfold busRead busReadVia
  cases firstMatch (·.readable) a s.bus <;> rfl

theorem BusEntry.covers_range_iff (lo hi : Addr) (c : Component) (a : Addr) :
    (⟨some (lo, hi), c⟩ : BusEntry).covers a = true ↔ lo.toNat ≤ a.toNat ∧ a.toNat ≤ hi.toNat := by
  simp [BusEntry.covers, BitVec.le_def]

/-- R104 window by window, the processor's entry covering no address. -/
theorem componentsAt_defaultBus (a : Addr) : componentsAt a State.defaultBus =
    (if 0x0000 ≤ a.toNat ∧ a.toNat ≤ 0x1FFF then [.ram] else []) ++
    ((if 0x2000 ≤ a.toNat ∧ a.toNat ≤ 0x3FFF then [.ppu] else []) ++
    ((if 0x4016 ≤ a.toNat ∧ a.toNat ≤ 0x4017 then [.pads] else []) ++
    ((if 0x4014 ≤ a.toNat ∧ a.toNat ≤ 0x4014 then [.dma] else []) ++
    ((if 0x4000 ≤ a.toNat ∧ a.toNat ≤ 0x4013 then [.sound] else []) ++
    ((if 0x4015 ≤ a.toNat ∧ a.toNat ≤ 0x4015 then [.sound] else []) ++
    ((if 0x4017 ≤ a.toNat ∧ a.toNat ≤ 0x4017 then [.sound] else []) ++
    ((if 0x4020 ≤ a.toNat ∧ a.toNat ≤ 0xFFFF then [.cart] else []) ++ []))))))) := by
  have hcpu : (⟨none, .cpu⟩ : BusEntry).covers a = false := rfl
  simp only [componentsAt, State.defaultBus, hcpu, BusEntry.covers_range_iff, BitVec.reduceToNat, Bool.false_eq_true, if_false,
    List.nil_append]

section
variable {a : Addr}

theorem componentsAt_workRam (h : a.toNat ≤ 0x1FFF) : componentsAt a State.defaultBus = [.ram] := by
  simp (disch := omega) only [componentsAt_defaultBus, if_pos, if_neg, List.append_nil]

theorem componentsAt_ppuPorts (hlo : 0x2000 ≤ a.toNat) (hhi : a.toNat ≤ 0x3FFF) :
    componentsAt a State.defaultBus = [.ppu] := by
  simp (disch := omega) only [componentsAt_defaultBus, if_pos, if_neg, List.nil_append, List.append_nil]

theorem componentsAt_sound (h : 0x4000 ≤ a.toNat ∧ a.toNat ≤ 0x4013) : componentsAt a State.defaultBus = [.sound] := by
  simp (disch := omega) only [componentsAt_defaultBus, if_pos, if_neg, List.nil_append, List.append_nil]

theorem componentsAt_unmapped (hlo : 0x4018 ≤ a.toNat) (hhi : a.toNat ≤ 0x401F) :
    componentsAt a State.defaultBus = [] := by
  simp (disch := omega) only [componentsAt_defaultBus, if_neg, List.append_nil]

theorem componentsAt_cart (h : 0x4020 ≤ a.toNat) : componentsAt a State.defaultBus = [.cart] := by
  have hlt := a.isLt
  simp (disch := omega) only [componentsAt_defaultBus, if_pos, if_neg, List.nil_append, List.append_nil]

end

/-- R105: work RAM sees the address modulo its size, so its range holds four copies of it. -/
theorem ramCell_eq_mod (a : Addr) : ramCell a = a.toNat % 0x800 := by
  rw [ramCell, BitVec.toNat_and]
  exact Nat.and_two_pow_sub_one_eq_mod a.toNat 11

/-! ### Reset keeps work RAM (R752) -/

theorem componentReset_ram {k : Component} (hk : k.own = true) {s : State} (h : plainSignals s.bus = true) :
    (componentReset k s).ram = s.ram := by
  have hsignal (b : Bool) (t : State) (ht : t.bus = s.bus) : (signalIrqVia quietRun b t).ram = t.ram := by
    obtain ⟨f, hf, _⟩ := signalIrq_plain (x := quietRun) (ht ▸ h) b
    rw [hf, State.mapPend_ram]
  cases k with
  | cpu | ram | ppu | pads | dma => rfl
  | sound => exact hsignal _ _ rfl
  | cart =>
    show (cartResetVia quietRun s).ram = s.ram
    unfold cartResetVia
    split
    · rfl
    · exact hsignal _ _ rfl
  | ext id caps => cases hk

theorem resetMatches_ram (seen : List Component) {table : List BusEntry} (ht : noExternal table = true) {s : State}
    (h : plainSignals s.bus = true) : (resetMatchesVia quietRun seen table s).ram = s.ram := by
  induction table generalizing seen s with
  | nil => rfl
  | cons e rest ih =>
    obtain ⟨he, hrest⟩ := Bool.and_eq_true_iff.mp ht
    unfold resetMatchesVia
    split
    · exact ih _ hrest h
    · split
      · have hbus : (componentReset e.component s).bus = s.bus := (busTable_closed.componentReset _ s).1
        exact (ih _ hrest (hbus ▸ h)).trans (componentReset_ram he h)
      · exact ih _ hrest h

/-- With no external component on the bus, whose reset may write to it, a reset keeps work RAM. -/
theorem busReset_ram {s : State} (h : noExternal s.bus = true) : (busReset s).ram = s.ram :=
  resetMatches_ram [] h (plainSignals_of_noExternal h)

/-- Settles O39: the components over each address are those of its window, and an access goes to them alone. -/
theorem nesMapRoutesAddresses : Obligations.NesMapRoutesAddresses := by
  refine ⟨rfl, rfl, fun a v s hs => ?_⟩
  have hto {cs : List Component} (h : componentsAt a State.defaultBus = cs) :=
    busAccess_of_componentsAt (hs ▸ h : componentsAt a s.bus = cs) v
  refine ⟨fun h => ?ram, fun hlo hhi => ?ppu, fun hlo hhi => ?unmapped, fun h => ?cart, ?dma, ?pads, ?padsAndSound,
    ?sound, busReset_ram (hs ▸ rfl)⟩
  case ram => exact ramCell_eq_mod a ▸ hto (componentsAt_workRam h)
  case ppu => exact hto (componentsAt_ppuPorts hlo hhi)
  case unmapped => exact hto (componentsAt_unmapped hlo hhi)
  case cart => exact hto (componentsAt_cart h)
  case dma => rintro rfl; exact hto (by decide : _ = [.dma])
  case pads => rintro rfl; exact hto (by decide : _ = [.pads])
  case padsAndSound =>
    -- the controllers come first and answer the read (R105); of writes they take only those to 0x4016 (R661)
    rintro rfl
    exact hto (by decide : _ = [.pads, .sound])
  case sound =>
    rintro (rfl | h)
    · exact hto (by decide : _ = [.sound])
    · exact hto (componentsAt_sound h)

end Sys2Proof.Machine

namespace Sys2Proof.Machine

/-! ## Instructions as bytes (R150, R151, R160-R166) -/

/-- R150, R151: as many operand bytes are taken from what follows the opcode as the mode has. -/
theorem decodeBytes_opcodeOf_append {i : Instr} (hi : i.wf = true) {o : Operand} (ho : o.size = i.mode.operandBytes)
    (rest : List Byte) : decodeBytes (opcodeOf i :: (o.bytes ++ rest)) = .ok (⟨i, o⟩, rest) := by
  cases o <;> simp only [decodeBytes, decode_opcodeOf hi, ← ho, Operand.size, Operand.bytes, List.nil_append, List.cons_append]

theorem Code.wf_iff (c : Code) : c.wf = true ↔ c.instr.wf = true ∧ c.operand.size = c.instr.mode.operandBytes := by
  simp only [Code.wf, Bool.and_eq_true, beq_iff_eq]

/-- Settles O1: the opcode byte decodes to the instruction, whose mode says how many of the bytes behind it to take. -/
theorem decodeOfEncodeIsIdentity : Obligations.DecodeOfEncodeIsIdentity := by
  intro c rest hc
  obtain ⟨hi, ho⟩ := (Code.wf_iff c).mp hc
  exact decodeBytes_opcodeOf_append hi ho rest

/-- The decoder gives no ill-formed term, row by row of the map of R160. -/
theorem decode_wf : ∀ op : Byte, (decode op).wf = true := by decide

/-- R163: what decodes to an unassigned slot is listed, the slot being well formed. -/
theorem decode_eq_una_iff (op : Byte) : decode op = .una op ↔ op ∈ unassignedOpcodes := by
  refine ⟨fun h => ?_, fun h => decode_unassigned op (List.contains_iff_mem.mpr h)⟩
  have hw : (Instr.una op).wf = true := h ▸ decode_wf op
  exact List.contains_iff_mem.mp hw

/-- Settles O2: encoding undoes decoding byte by byte, and the decoder gives no ill-formed term. -/
theorem everyByteDecodesAndEncodesBack : Obligations.EveryByteDecodesAndEncodesBack := fun op =>
  ⟨decode_wf op, encode_decode op, decode_eq_una_iff op, rfl⟩

/-- Settles O3: each example is the bytes of a well-formed instruction, which decode to it with nothing left over. -/
theorem syntaxExamplesDecode : Obligations.SyntaxExamplesDecode := by
  have h (c : Code) (hc : c.wf = true) : decodeBytes (c.bytes ++ []) = .ok (c, []) := decodeOfEncodeIsIdentity c [] hc
  exact ⟨h ⟨.inx, .none⟩ rfl, h ⟨.asl .acc, .none⟩ rfl, h ⟨.lda .imm, .one 0x10⟩ rfl, h ⟨.lda .zp, .one 0x10⟩ rfl,
    h ⟨.lda .zpx, .one 0x10⟩ rfl, h ⟨.ldx .zpy, .one 0x10⟩ rfl, h ⟨.lda .abs, .two 0x34 0x12⟩ rfl,
    h ⟨.lda .absx, .two 0x34 0x12⟩ rfl, h ⟨.lda .absy, .two 0x34 0x12⟩ rfl, h ⟨.jmp .ind, .two 0x34 0x12⟩ rfl,
    h ⟨.lda .indx, .one 0x10⟩ rfl, h ⟨.lda .indy, .one 0x10⟩ rfl, h ⟨.bne, .one 0xFB⟩ rfl⟩

end Sys2Proof.Machine

namespace Sys2Proof.Machine

/-! ## The running core (R219, R220)

With nothing scheduled the Clock's ticks, the dots and the processor's ticks follow one another in a fixed order: three
emit steps, a dot behind each, then one CPU tick. -/

/-- The unit takes its ticks and owes `n` of them. -/
structure UnitCtl.Owes (n : Nat) (c : UnitCtl) : Prop where
  owed     : c.owed = n
  paused   : c.paused = false
  disposed : c.disposed = false

/-- The core of R219 runs with nothing scheduled: its divider has counted `a` Clock ticks, the processor owes `c` ticks,
the picture generator `p`. -/
structure CoreRuns (a c p : Nat) (s : State) : Prop where
  schedule  : s.schedule = []
  running   : s.clock.running = true
  present   : s.clock.disposed = false
  listeners : s.clock.listeners = [.unit .ppu, .divider 0]
  divider   : ∃ parent, s.dividers = [⟨3, 1, a, [.unit .cpu], parent⟩]
  cpu       : (s.unit .cpu).Owes c
  ppu       : (s.unit .ppu).Owes p
  sound     : unitEnabled .sound s = false
  synced    : (s.unit .sound).desynced = false
  owedMax   : 1 ≤ s.params.owedMax
  own       : noExternal s.bus = true
  offStack  : dmaOffStack s.bus = true

/-- The units, the Clock, the dividers, the schedule, the bus table and the parameters are as they were. -/
structure SameCore (s t : State) : Prop where
  schedule : t.schedule = s.schedule
  clock    : t.clock = s.clock
  dividers : t.dividers = s.dividers
  units    : ∀ u, t.unit u = s.unit u
  params   : t.params = s.params
  bus      : t.bus = s.bus

theorem SameCore.refl (s : State) : SameCore s s := ⟨rfl, rfl, rfl, fun _ => rfl, rfl, rfl⟩

theorem SameCore.trans {s t u : State} (h : SameCore s t) (k : SameCore t u) : SameCore s u :=
  ⟨k.schedule.trans h.schedule, k.clock.trans h.clock, k.dividers.trans h.dividers, fun u => (k.units u).trans (h.units u),
    k.params.trans h.params, k.bus.trans h.bus⟩

theorem SameCore.of_blind {f : State → State} (b : Blind f) {s : State} (hp : (f s).params = s.params)
    (hb : (f s).bus = s.bus) : SameCore s (f s) :=
  ⟨b.schedule s, b.clock s, b.dividers s, fun u => by
    cases u with
    | cpu => exact b.cpuUnit s
    | ppu => exact b.ppuUnit s
    | sound => exact b.soundUnit s, hp, hb⟩

theorem SameCore.mapCpu (g : Cpu → Cpu) (s : State) : SameCore s (s.mapCpu g) :=
  ⟨rfl, rfl, rfl, fun u => by cases u <;> rfl, rfl, rfl⟩

theorem sameCore_rel : BusRel SameCore true where
  refl := SameCore.refl
  trans := SameCore.trans
  read a s := .of_blind (f := fun s => (busRead a s).2) (fun c s => congrArg Prod.snd (busRead_blind a c s))
    (busRead_keeps a s).params (busRead_bus a s)
  write _ a v s := .of_blind (busWrite_blind a v) (busWrite_keeps a v s).params (busWrite_bus a v s)
  cpu := SameCore.mapCpu

theorem ppuHandler_sameCore (s : State) : SameCore s (ppuHandler s) :=
  .of_blind ppuHandler_dot.blind (ppuHandler_keeps s).params (ppuHandler_bus s)

section
variable {a c p : Nat} {s : State}

theorem CoreRuns.of_same {t : State} (h : CoreRuns a c p s) (k : SameCore s t) : CoreRuns a c p t where
  schedule := k.schedule.trans h.schedule
  running := k.clock ▸ h.running
  present := k.clock ▸ h.present
  listeners := k.clock ▸ h.listeners
  divider := k.dividers ▸ h.divider
  cpu := k.units .cpu ▸ h.cpu
  ppu := k.units .ppu ▸ h.ppu
  sound := by rw [unitEnabled, k.units]; exact h.sound
  synced := k.units .sound ▸ h.synced
  owedMax := k.params ▸ h.owedMax
  own := k.bus ▸ h.own
  offStack := k.bus ▸ h.offStack

/-- R219's dividers are one, at some tick of its three. -/
theorem dividers_of_cpuDividerOnly {ds : List Divider} (h : cpuDividerOnly ds = true) :
    ∃ a < 3, ∃ parent, ds = [⟨3, 1, a, [.unit .cpu], parent⟩] := by
  unfold cpuDividerOnly at h
  split at h
  · rename_i d
    obtain ⟨num, den, acc, children, parent⟩ := d
    simp only [Bool.and_eq_true, beq_iff_eq, decide_eq_true_eq] at h
    obtain ⟨⟨⟨rfl, rfl⟩, hacc⟩, rfl⟩ := h
    exact ⟨acc, hacc, parent, rfl⟩
  · cases h

/-- The situation `runningNormally`, with a divider somewhere in its three ticks. -/
theorem coreRuns_of_runningNormally (h : runningNormally s = true) (hd : dmaOffStack s.bus = true) :
    s.dma = .idle ∧ ∃ a < 3, CoreRuns a 0 0 s := by
  simp only [runningNormally, UnitCtl.idleReady, Bool.and_eq_true, beq_iff_eq, Bool.not_eq_true', decide_eq_true_eq,
    and_assoc] at h
  obtain ⟨hsch, hdma, hrun, hdis, hlis, hdiv, c1, c2, c3, p1, p2, p3, hsnd, hsync, hmax, hown⟩ := h
  obtain ⟨a, ha, hds⟩ := dividers_of_cpuDividerOnly hdiv
  exact ⟨hdma, a, ha, hsch, hrun, hdis, hlis, hds, ⟨c1, c2, c3⟩, ⟨p1, p2, p3⟩, hsnd, hsync, hmax, hown, hd⟩

/-! ### Which transition comes next -/

theorem UnitCtl.Owes.synced {n : Nat} {u : UnitCtl} (h : u.Owes n) (hn : n ≤ 1) : u.desynced = false := by
  have h1 : ¬ 1 < u.owed := by rw [h.owed]; omega
  simp [UnitCtl.desynced, h1]

theorem UnitCtl.Owes.drained {n : Nat} {u : UnitCtl} (h : u.Owes n) (hn : n = 0) : u.drained = true := by
  simp [UnitCtl.drained, h.owed, hn]

theorem CoreRuns.desyncedUnit (h : CoreRuns a c p s) (hc : c ≤ 1) (hp : p ≤ 1) : desyncedUnit s = none := by
  simp only [Machine.desyncedUnit, List.find?, h.cpu.synced hc, h.ppu.synced hp, h.synced]

theorem CoreRuns.reachableUnits (h : CoreRuns a c p s) : s.reachableUnits = [.ppu, .cpu] := by
  obtain ⟨parent, hd⟩ := h.divider
  simp only [State.reachableUnits, State.depth, h.listeners, hd]
  rfl

theorem UnitCtl.Owes.enabled {n : Nat} {u : UnitId} (h : (s.unit u).Owes n) : unitEnabled u s = decide (0 < n) := by
  simp only [unitEnabled, h.owed, h.paused, h.disposed, Bool.not_false, Bool.and_true]

/-- R217: owed dots come first, then owed CPU ticks, then the Clock. -/
theorem CoreRuns.defaultEvent (h : CoreRuns a c p s) : defaultEvent s =
    some (if 0 < p then .unit .ppu else if 0 < c then .unit .cpu else .emit) := by
  unfold Machine.defaultEvent
  rw [stepOrder, h.reachableUnits]
  by_cases hp : 0 < p
  · simp [h.ppu.enabled, hp]
  · by_cases hc : 0 < c
    · simp [h.ppu.enabled, h.cpu.enabled, hp, hc]
    · have hdrained : emitEnabled s = true := by
        simp only [emitEnabled, h.running, h.present, h.reachableUnits, Bool.not_false, Bool.and_self, Bool.true_and,
          List.all_cons, List.all_nil, Bool.and_true, Bool.and_eq_true]
        exact ⟨h.ppu.drained (by omega), h.cpu.drained (by omega)⟩
      simp [h.ppu.enabled, h.cpu.enabled, h.sound, hp, hc, hdrained]

theorem CoreRuns.nextEvent (h : CoreRuns a c p s) : nextEvent s s.schedule =
    (some (if 0 < p then .unit .ppu else if 0 < c then .unit .cpu else .emit), []) := by
  rw [h.schedule, Machine.nextEvent, h.defaultEvent]

/-- A transition that is not the processor's is taken, and the wait goes on. -/
theorem untilCpuTick_of_next {T : Table} {e : Event} {t : State} (hn : Machine.nextEvent s s.schedule = (some e, []))
    (hs : s.schedule = []) (he : e ≠ .unit .cpu) (ht : fire T e s = .next t) (n : Nat) :
    untilCpuTick T (n + 1) s = untilCpuTick T n t := by
  simp only [untilCpuTick, hn, setSchedule_nil hs, ht, andThen]

theorem CoreRuns.guarded (h : CoreRuns a c p s) (hc : c ≤ 1) (hp : p ≤ 1) (r : Result) : guarded s r = undone s r := by
  simp only [Machine.guarded, h.desyncedUnit hc hp]

/-! ### A Clock tick and a dot -/

/-- R207: a divider of three Clock ticks counts them. -/
theorem feed_three (law : Config.DividerLaw) {a : Nat} (ha : a < 3) (children : List Listener) (parent : Option Nat) :
    (⟨3, 1, a, children, parent⟩ : Divider).feed law = (⟨3, 1, (a + 1) % 3, children, parent⟩, (a + 1) / 3) := by
  have h : a = 0 ∨ a = 1 ∨ a = 2 := by omega
  rcases h with rfl | rfl | rfl <;> cases law <;> simp [Divider.feed]

/-- R206: a unit that owes nothing takes a delivery. -/
theorem UnitCtl.Owes.deliverUnit {u : UnitId} (h : (s.unit u).Owes 0) (hm : 1 ≤ s.params.owedMax) :
    deliverUnit u s = .done (s.mapUnit u fun c => { c with owed := c.owed + 1 }) := by
  have hne : ¬ (0 : Nat) = s.params.owedMax := by omega
  simp only [Machine.deliverUnit, h.disposed, h.owed, hne, Bool.false_eq_true, if_false]

/-- From `s` to `t` the Clock has counted `k` ticks and the processor has taken none. -/
structure Waited (a c p k : Nat) (s t : State) : Prop where
  core  : CoreRuns a c p t
  cpu   : t.cpu = s.cpu
  dma   : t.dma = s.dma
  count : t.clock.tickCount = s.clock.tickCount + k

theorem Waited.trans {a c p k b d q j : Nat} {s t u : State} (h : Waited a c p k s t) (g : Waited b d q j t u) :
    Waited b d q (k + j) s u :=
  ⟨g.core, g.cpu.trans h.cpu, g.dma.trans h.dma, by rw [g.count, h.count, Nat.add_assoc]⟩

theorem CoreRuns.deliverPpu (h : CoreRuns a c 0 s) : ∃ t, deliverUnit .ppu s = .done t ∧ Waited a c 1 0 s t :=
  ⟨_, h.ppu.deliverUnit h.owedMax, { h with ppu := { h.ppu with owed := congrArg (· + 1) h.ppu.owed } }, rfl, rfl, rfl⟩

theorem CoreRuns.deliverCpu (h : CoreRuns a 0 p s) : ∃ t, deliverUnit .cpu s = .done t ∧ Waited a 1 p 0 s t :=
  ⟨_, h.cpu.deliverUnit h.owedMax, { h with cpu := { h.cpu with owed := congrArg (· + 1) h.cpu.owed } }, rfl, rfl, rfl⟩

/-- R207: the divider passes on every third tick. -/
theorem CoreRuns.deliverDivider (h : CoreRuns a 0 p s) (ha : a < 3) (n : Nat) :
    ∃ t, deliver (n + 1) (.divider 0) s = .done t ∧ Waited ((a + 1) % 3) ((a + 1) / 3) p 0 s t := by
  obtain ⟨parent, hd⟩ := h.divider
  have hfed (b : Nat) : CoreRuns b 0 p (s.setDividers [⟨3, 1, b, [.unit .cpu], parent⟩]) := { h with divider := ⟨parent, rfl⟩ }
  have hdeliver : deliver (n + 1) (.divider 0) s = deliverEach (deliver n)
      (List.replicate ((a + 1) / 3) [Listener.unit .cpu]).flatten
      (s.setDividers [⟨3, 1, (a + 1) % 3, [.unit .cpu], parent⟩]) := by
    simp only [deliver, hd, List.getElem?_cons_zero, feed_three _ ha, Divider.emitted, List.set_cons_zero]
  rw [hdeliver]
  by_cases hemits : a = 2
  · subst hemits
    obtain ⟨t, ht, hw⟩ := (hfed 0).deliverCpu
    refine ⟨t, ?_, hw.core, hw.cpu, hw.dma, hw.count⟩
    show (deliver n (.unit .cpu) _).andThen _ = _
    have : deliver n (.unit .cpu) = deliverUnit .cpu := by cases n <;> rfl
    rw [this, ht]
    rfl
  · have h3 : (a + 1) / 3 = 0 := by omega
    rw [h3]
    exact ⟨_, rfl, hfed _, rfl, rfl, rfl⟩

/-- R205, R219: where nothing is owed, an emit step owes the picture generator a tick, and every third one the processor
too. -/
theorem CoreRuns.emit (h : CoreRuns a 0 0 s) (ha : a < 3) :
    ∃ t, emit s = .next t ∧ Waited ((a + 1) % 3) ((a + 1) / 3) 1 1 s t := by
  have hcounted : Waited a 0 0 1 s (s.mapClock fun c => { c with tickCount := c.tickCount + 1 }) := ⟨{ h with }, rfl, rfl, rfl⟩
  obtain ⟨t, ht, hdot⟩ := hcounted.core.deliverPpu
  obtain ⟨u, hu, hdiv⟩ := hdot.core.deliverDivider ha (s.deliveryDepth - 1)
  refine ⟨u, ?_, (hcounted.trans hdot).trans hdiv⟩
  have hppu : deliver s.deliveryDepth (.unit .ppu) = deliverUnit .ppu := rfl
  simp only [Machine.emit, h.listeners, deliverEach, hppu, ht, Delivery.andThen]
  rw [show s.deliveryDepth = s.deliveryDepth - 1 + 1 from rfl, hu]

/-- R500: an owed dot is drawn. -/
theorem CoreRuns.dot (h : CoreRuns a c 1 s) (hc : c ≤ 1) (T : Table) :
    ∃ t, fire T (.unit .ppu) s = .next t ∧ Waited a c 0 0 s t := by
  have hdrawn : CoreRuns a c 0 (consume .ppu s) := { h with ppu := { h.ppu with owed := congrArg (· - 1) h.ppu.owed } }
  have hsame := ppuHandler_sameCore (consume .ppu s)
  refine ⟨ppuHandler (consume .ppu s), h.guarded hc (Nat.le_refl _) _, hdrawn.of_same hsame, ppuHandler_dot.blind.cpu _,
    (ppuHandler_dot.only (consume .ppu s) (plainSignals_of_noExternal h.own)).dma, congrArg Clock.tickCount hsame.clock⟩

/-- One Clock tick and its dot. -/
theorem CoreRuns.clockTick (h : CoreRuns a 0 0 s) (ha : a < 3) (T : Table) : ∃ t,
    Waited ((a + 1) % 3) ((a + 1) / 3) 0 1 s t ∧ ∀ n, untilCpuTick T (n + 2) s = untilCpuTick T n t := by
  obtain ⟨t, ht, hemit⟩ := h.emit ha
  obtain ⟨u, hu, hdot⟩ := hemit.core.dot (by omega) T
  have hfire : fire T .emit s = .next t := (h.guarded (Nat.zero_le 1) (Nat.zero_le 1) _).trans (congrArg (undone s) ht)
  refine ⟨u, hemit.trans hdot, fun n => ?_⟩
  calc untilCpuTick T (n + 2) s
      _ = untilCpuTick T (n + 1) t := untilCpuTick_of_next h.nextEvent h.schedule (fun h => nomatch h) hfire _
      _ = untilCpuTick T n u := untilCpuTick_of_next hemit.core.nextEvent hemit.core.schedule (fun h => nomatch h) hu _

/-- The `j + 1` Clock ticks up to the divider's next CPU tick, each with its dot. -/
theorem CoreRuns.clockTicks {j : Nat} (T : Table) (h : CoreRuns a 0 0 s) (ha : a + j = 2) : ∃ t,
    Waited 0 1 0 (j + 1) s t ∧ ∀ n, untilCpuTick T (n + 2 * (j + 1)) s = untilCpuTick T n t := by
  induction j generalizing a s with
  | zero =>
    obtain rfl : a = 2 := ha
    exact h.clockTick (by omega) T
  | succ j ih =>
    obtain ⟨t, ht, hwait⟩ := h.clockTick (by omega) T
    have hacc : (a + 1) % 3 = a + 1 := by omega
    have hnone : (a + 1) / 3 = 0 := by omega
    rw [hacc, hnone] at ht
    obtain ⟨u, hu, hrest⟩ := ih ht.core (by omega)
    exact ⟨u, Nat.add_comm 1 (j + 1) ▸ ht.trans hu, fun n => (hwait (n + 2 * (j + 1))).trans (hrest n)⟩

/-- R220: the core runs on to the processor's next tick, three Clock ticks behind the last one. -/
theorem CoreRuns.cpuTick (h : CoreRuns a 0 0 s) (ha : a < 3) (T : Table) : ∃ u, Waited 0 0 0 (3 - a) s u ∧
    ∀ t, cpuHandler T u = .next t → cpuTick T s = .next t := by
  obtain ⟨r, hr, hwait⟩ := h.clockTicks (j := 2 - a) T (by omega)
  refine ⟨consume .cpu r, ⟨{ hr.core with cpu := { hr.core.cpu with owed := congrArg (· - 1) hr.core.cpu.owed } },
    hr.cpu, hr.dma, hr.count.trans (by omega)⟩, fun t ht => ?_⟩
  obtain ⟨n, hbudget⟩ : ∃ n, s.waitBudget = n + 1 + 2 * (2 - a + 1) := by
    refine ⟨63 - 2 * (2 - a + 1), ?_⟩
    rw [State.waitBudget, h.schedule, List.length_nil]
    omega
  have hnext : Machine.nextEvent r r.schedule = (some (.unit .cpu), []) := hr.core.nextEvent
  rw [Machine.cpuTick, hbudget, hwait]
  simp only [untilCpuTick, hnext, setSchedule_nil hr.core.schedule]
  show Machine.guarded r (cpuHandler T (consume .cpu r)) = _
  rw [hr.core.guarded (Nat.le_refl _) (Nat.zero_le 1), ht, undone_next]

end

end Sys2Proof.Machine

namespace Sys2Proof.Machine

/-! ## The tick tables in the running core (R283, R341)

How many ticks a table runs for, and that no DMA takes one of them in between. -/

/-- The bus table stays, and no DMA is asked for where its trigger is off the stack page. -/
structure DmaHeld (s t : State) : Prop where
  bus : t.bus = s.bus
  dma : noExternal s.bus = true → dmaOffStack s.bus = true → t.dma = s.dma

theorem dmaHeld_rel : BusRel DmaHeld false where
  refl _ := ⟨rfl, fun _ _ => rfl⟩
  trans h k := ⟨k.bus.trans h.bus, fun hn ho => (k.dma (h.bus ▸ hn) (h.bus ▸ ho)).trans (h.dma hn ho)⟩
  read a s := ⟨busRead_bus a s, fun hn _ => (busRead_readsOnly hn a).dma⟩
  write h := absurd h Bool.false_ne_true
  cpu _ _ := ⟨rfl, fun _ _ => rfl⟩

theorem push_dmaHeld (v : Byte) (s : State) : DmaHeld s (push v s) :=
  ⟨busWrite_bus _ v s, fun hn ho => writeMatches_dma _ v s.bus (plainSignals_of_noExternal hn) hn (stack_cover ho s.cpu.sp)⟩

/-- No DMA transfer is under way. -/
def Dma.unstarted : Dma → Prop
  | .idle | .requested _ => True
  | .active _ _ _ => False

/-- A bus access asks for a DMA at most; only a CPU tick starts one (R341). -/
theorem unstarted_closed : Closed fun s t => s.dma.unstarted → t.dma.unstarted := by
  refine .of ?_ fun _ _ => id
  constructor
  case refl => exact fun _ => id
  case trans => exact fun h k => k ∘ h
  case dma =>
    intro v s h
    unfold dmaWrite
    split
    · exact h
    · trivial
    · trivial
  case idle => exact fun _ _ => trivial
  all_goals intros; assumption

theorem unstarted_rel : BusRel (fun s t => s.dma.unstarted → t.dma.unstarted) true where
  refl := unstarted_closed.refl
  trans := unstarted_closed.trans
  read := unstarted_closed.busRead
  write _ := unstarted_closed.busWrite
  cpu _ _ := id

/-- No tick of an instruction counts itself; the engine does (R280). -/
theorem tableOf_keeps_cycles (i : Instr) : TableKeeps Cpu.cycles (tableOf i) := by
  have hpc : ∀ (c : Cpu) (v : Addr), (Cpu.setPc v c).cycles = c.cycles := fun _ _ => rfl
  have hsp : ∀ (c : Cpu) (v : Byte), (Cpu.setSp v c).cycles = c.cycles := fun _ _ => rfl
  cases i with
  | lda m | ldx m | ldy m | adc m | sbc m | and m | ora m | eor m | cmp m | cpx m | cpy m | bit m =>
    exact keep_read hpc m fun _ _ => rfl
  | sta m | stx m | sty m => exact keep_write hpc m _
  | inc m | dec m | asl m | lsr m | rol m | ror m => exact keep_rmw hpc m (fun _ _ => rfl) fun _ _ _ => rfl
  | tax | tay | txa | tya | tsx | txs | inx | iny | dex | dey | clc | sec | cli | sei | clv | cld | sed | nop | una _ =>
    exact keep_implied fun _ => rfl
  | bcc | bcs | beq | bmi | bne | bpl | bvc | bvs => exact keep_branch hpc _
  | jmp m => exact keep_jmp hpc m
  | jsr => exact keep_jsr hpc hsp
  | rts => exact keep_rts hpc hsp
  | rti => exact keep_rti hpc hsp fun _ _ => rfl
  | brk => exact keep_brk hpc hsp fun _ => rfl
  | pha => exact keep_pha hsp
  | php => exact keep_php hsp
  | pla => exact keep_pla hsp fun _ _ => rfl
  | plp => exact keep_plp hsp fun _ _ => rfl

/-- The tick goes on with its instruction. -/
def Tick.goesOn (k : Tick) : Prop := ∀ lat s, ∃ lat' t, k.act lat s = .more lat' t

/-- The tick goes on with its instruction and asks for no DMA. -/
def Tick.steady (k : Tick) : Prop := ∀ lat s, ∃ lat' t, k.act lat s = .more lat' t ∧ DmaHeld s t

/-- The table runs for at least `n` ticks and ends within its length; a DMA that one of its ticks asks for finds no tick
of it to take (R341): the ticks but the last ask for none, or the next one writes and is the last. -/
inductive Paced : Nat → Table → Prop
  | last {k : Tick} : k.ends → Paced 1 [k]
  | rewrite {k j : Tick} : k.goesOn → j.writes = true → j.ends → Paced 2 [k, j]
  | steady {k : Tick} {T : Table} {n : Nat} : k.steady → Paced n T → Paced (n + 1) (k :: T)
  | mayEnd {k : Tick} {T : Table} {n : Nat} : TickRel DmaHeld k → Paced n T → Paced 1 (k :: T)

/-! ### The ticks -/

theorem fetchZp_steady : fetchZp.steady := fun _ s => ⟨_, _, rfl, rel_fetch dmaHeld_rel s⟩
theorem fetchPtr_steady : fetchPtr.steady := fun _ s => ⟨_, _, rfl, rel_fetch dmaHeld_rel s⟩
theorem fetchLo_steady : fetchLo.steady := fun _ s => ⟨_, _, rfl, rel_fetch dmaHeld_rel s⟩
theorem fetchHi_steady : fetchHi.steady := fun _ s => ⟨_, _, rfl, rel_fetch dmaHeld_rel s⟩
theorem fetchHiIndexed_steady (m : Mode) : (fetchHiIndexed m).steady := fun _ s => ⟨_, _, rfl, rel_fetch dmaHeld_rel s⟩
theorem indexZp_steady (m : Mode) : (indexZp m).steady := fun _ s => ⟨_, _, rfl, rel_dummy dmaHeld_rel _ s⟩
theorem indexPtr_steady : indexPtr.steady := fun _ s => ⟨_, _, rfl, rel_dummy dmaHeld_rel _ s⟩
theorem correct_steady : correct.steady := fun _ s => ⟨_, _, rfl, rel_dummy dmaHeld_rel _ s⟩
theorem idleRead_steady : idleRead.steady := fun _ s => ⟨_, _, rfl, rel_dummy dmaHeld_rel _ s⟩
theorem pointerLo_steady : pointerLo.steady := fun _ s => ⟨_, _, rfl, dmaHeld_rel.read _ s⟩
theorem pointerHi_steady : pointerHi.steady := fun _ s => ⟨_, _, rfl, dmaHeld_rel.read _ s⟩
theorem pointerHiIndexed_steady : pointerHiIndexed.steady := fun _ s => ⟨_, _, rfl, dmaHeld_rel.read _ s⟩
theorem loadData_steady : loadData.steady := fun _ s => ⟨_, _, rfl, dmaHeld_rel.read _ s⟩

theorem push_steady (v : State → Byte) : Tick.steady ⟨true, fun lat s => .more lat (push (v s) s)⟩ := fun _ s =>
  ⟨_, _, rfl, push_dmaHeld _ s⟩

theorem openPull_steady : Tick.steady ⟨false, fun lat s => .more lat (openPull s)⟩ := fun _ s =>
  ⟨_, _, rfl, rel_open dmaHeld_rel s⟩

/-- A pull in the middle of an instruction. -/
theorem readStack_steady (l : Lat → State → Lat) (g : Lat → State → Cpu → Cpu) :
    Tick.steady ⟨false, fun lat s => .more (l lat s) ((readStack s).2.mapCpu (g lat s))⟩ := fun _ s =>
  ⟨_, _, rfl, rel_busRead_mapCpu dmaHeld_rel _ _ s⟩

/-! ### The forms -/

theorem readForm_paced {m : Mode} {op : ReadOp} (h : readForm m op ≠ []) : Paced (readTickCount m - 1) (readForm m op) := by
  have hread : Paced 1 [readOperand op] := .last fun _ _ => ⟨_, rfl⟩
  have hindexed : Paced 1 [readOrCorrect op, readOperand op] := by
    refine .mayEnd (fun lat s => ?_) hread
    cases hc : lat.crossed with
    | true => rw [readOrCorrect_more op s hc]; exact rel_dummy dmaHeld_rel _ s
    | false => rw [readOrCorrect_done op s hc]; exact rel_busRead_mapCpu dmaHeld_rel _ _ s
  cases m with
  | imm => exact .last fun _ _ => ⟨_, rfl⟩
  | zp => exact .steady fetchZp_steady hread
  | zpx | zpy => exact .steady fetchPtr_steady (.steady (indexZp_steady _) hread)
  | abs => exact .steady fetchLo_steady (.steady fetchHi_steady hread)
  | absx | absy => exact .steady fetchLo_steady (.steady (fetchHiIndexed_steady _) hindexed)
  | indx =>
    exact .steady fetchPtr_steady (.steady indexPtr_steady (.steady pointerLo_steady (.steady pointerHi_steady hread)))
  | indy => exact .steady fetchPtr_steady (.steady pointerLo_steady (.steady pointerHiIndexed_steady hindexed))
  | imp | acc | ind | rel => exact absurd rfl h

theorem writeForm_paced {m : Mode} {val : Cpu → Byte} (h : writeForm m val ≠ []) :
    Paced (writeTickCount m - 1) (writeForm m val) := by
  have hstore : Paced 1 [storeOperand val] := .last fun _ _ => ⟨_, rfl⟩
  have hindexed : Paced 2 [correct, storeOperand val] := .steady correct_steady hstore
  cases m with
  | zp => exact .steady fetchZp_steady hstore
  | zpx | zpy => exact .steady fetchPtr_steady (.steady (indexZp_steady _) hstore)
  | abs => exact .steady fetchLo_steady (.steady fetchHi_steady hstore)
  | absx | absy => exact .steady fetchLo_steady (.steady (fetchHiIndexed_steady _) hindexed)
  | indx =>
    exact .steady fetchPtr_steady (.steady indexPtr_steady (.steady pointerLo_steady (.steady pointerHi_steady hstore)))
  | indy => exact .steady fetchPtr_steady (.steady pointerLo_steady (.steady pointerHiIndexed_steady hindexed))
  | imp | acc | imm | ind | rel => exact absurd rfl h

theorem rmwForm_paced {m : Mode} {mod : ModOp} (h : rmwForm m mod ≠ []) : Paced (rmwTickCount m - 1) (rmwForm m mod) := by
  have hdata : Paced 3 (rmwTicks mod) :=
    .steady loadData_steady (.rewrite (fun _ _ => ⟨_, _, rfl⟩) rfl fun _ _ => ⟨_, rfl⟩)
  cases m with
  | acc => exact .last fun _ _ => ⟨_, rfl⟩
  | zp => exact .steady fetchZp_steady hdata
  | zpx => exact .steady fetchPtr_steady (.steady (indexZp_steady _) hdata)
  | abs => exact .steady fetchLo_steady (.steady fetchHi_steady hdata)
  | absx => exact .steady fetchLo_steady (.steady (fetchHiIndexed_steady _) (.steady correct_steady hdata))
  | imp | imm | zpy | absy | ind | indx | indy | rel => exact absurd rfl h

theorem impliedForm_paced (op : Cpu → Cpu) : Paced 1 (impliedForm op) := .last fun _ _ => ⟨_, rfl⟩

/-- R299: a branch ends in T2, in T3 where it is taken, or in T4 where it leaves the page. -/
theorem branchForm_paced (cond : Byte → Bool) : Paced 1 (branchForm cond) := by
  have h := rel_branch dmaHeld_rel cond
  exact .mayEnd (h _ (.head _)) (.mayEnd (h _ (.tail _ (.head _))) (.last fun _ _ => ⟨_, rfl⟩))

theorem jmpTicks_paced {m : Mode} (h : jmpTicks m ≠ []) : Paced ((Instr.jmp m).baseTicks - 1) (jmpTicks m) := by
  have hpointer : Tick.steady ⟨false, fun lat s =>
      .more { lat with data := (busRead (join lat.hi lat.lo) s).1 } (busRead (join lat.hi lat.lo) s).2⟩ := fun _ s =>
    ⟨_, _, rfl, dmaHeld_rel.read _ s⟩
  cases m with
  | abs => exact .steady fetchLo_steady (.last fun _ _ => ⟨_, rfl⟩)
  | ind => exact .steady fetchLo_steady (.steady fetchHi_steady (.steady hpointer (.last fun _ _ => ⟨_, rfl⟩)))
  | imp | acc | imm | zp | zpx | zpy | absx | absy | indx | indy | rel => exact absurd rfl h

theorem takeInterrupt_paced (status : Byte → Byte) : Paced 5 (takeInterrupt status) :=
  have hvector : Tick.steady ⟨false, fun lat s =>
      .more { lat with lo := (busRead lat.vec s).1 } ((busRead lat.vec s).2.mapCpu (Cpu.putFlag .i true))⟩ := fun _ s =>
    ⟨_, _, rfl, rel_busRead_mapCpu dmaHeld_rel _ _ s⟩
  .steady (push_steady _) (.steady (push_steady _) (.steady (push_steady _) (.steady hvector (.last fun _ _ => ⟨_, rfl⟩))))

theorem jsrTicks_paced : Paced 5 jsrTicks :=
  .steady fetchLo_steady (.steady (fun _ s => ⟨_, _, rfl, rel_dummy dmaHeld_rel _ s⟩)
    (.steady (push_steady _) (.steady (push_steady _) (.last fun _ _ => ⟨_, rfl⟩))))

theorem rtsTicks_paced : Paced 5 rtsTicks :=
  .steady idleRead_steady (.steady openPull_steady
    (.steady (readStack_steady _ _) (.steady (readStack_steady _ _) (.last fun _ _ => ⟨_, rfl⟩))))

theorem rtiTicks_paced : Paced 5 rtiTicks :=
  .steady idleRead_steady (.steady openPull_steady
    (.steady (readStack_steady _ _) (.steady (readStack_steady _ _) (.last fun _ _ => ⟨_, rfl⟩))))

theorem brkTicks_paced : Paced 6 brkTicks :=
  .steady (fun _ s => ⟨_, _, rfl, rel_dummyRead_mapCpu dmaHeld_rel _ _ s⟩) (takeInterrupt_paced _)

/-- R161: a table runs for the instruction's base ticks at least, T1 counted. -/
theorem tableOf_paced {i : Instr} (h : tableOf i ≠ []) : Paced (i.baseTicks - 1) (tableOf i) := by
  cases i with
  | lda m | ldx m | ldy m | adc m | sbc m | and m | ora m | eor m | cmp m | cpx m | cpy m | bit m => exact readForm_paced h
  | sta m | stx m | sty m => exact writeForm_paced h
  | inc m | dec m | asl m | lsr m | rol m | ror m => exact rmwForm_paced h
  | tax | tay | txa | tya | tsx | txs | inx | iny | dex | dey | clc | sec | cli | sei | clv | cld | sed | nop | una _ =>
    exact impliedForm_paced _
  | bcc | bcs | beq | bmi | bne | bpl | bvc | bvs => exact branchForm_paced _
  | jmp m => exact jmpTicks_paced h
  | jsr => exact jsrTicks_paced
  | rts => exact rtsTicks_paced
  | rti => exact rtiTicks_paced
  | brk => exact brkTicks_paced
  | pha | php => exact .steady idleRead_steady (.last fun _ _ => ⟨_, rfl⟩)
  | pla | plp => exact .steady idleRead_steady (.steady openPull_steady (.last fun _ _ => ⟨_, rfl⟩))

/-- R161, R299: a table has the base ticks, the one for a crossed page and the two that a taken branch adds. -/
theorem tableOf_length {i : Instr} (hw : i.wf = true) :
    (tableOf i).length + 1 = i.baseTicks + bitNat i.pageTick + if i.mode = .rel then 2 else 0 := by
  cases i with
  | lda m | ldx m | ldy m | sta m | stx m | sty m | adc m | sbc m | and m | ora m | eor m | cmp m | cpx m | cpy m | bit m
  | inc m | dec m | asl m | lsr m | rol m | ror m | jmp m => revert hw; cases m <;> decide
  | _ => rfl

theorem tableOf_decode_length_le : ∀ op : Byte, (tableOf (decode op)).length ≤ tickBudget := by decide

end Sys2Proof.Machine

namespace Sys2Proof.Machine

/-! ## An instruction in the running core (R161, R219, R220) -/

/-- `n` CPU ticks of the running core lie between `s`, whose divider had counted `a` Clock ticks, and `t`. -/
structure TicksPassed (a n : Nat) (s t : State) : Prop where
  core   : CoreRuns 0 0 0 t
  count  : t.clock.tickCount + a = s.clock.tickCount + 3 * n
  cycles : t.cpu.cycles = s.cpu.cycles + n

theorem TicksPassed.trans {a m n : Nat} {s t u : State} (h : TicksPassed a m s t) (k : TicksPassed 0 n t u) :
    TicksPassed a (m + n) s u where
  core := k.core
  count := by have h1 := h.count; have h2 := k.count; omega
  cycles := by rw [k.cycles, h.cycles, Nat.add_assoc]

/-- The engine's place is no part of the count. -/
theorem TicksPassed.setEng {a n : Nat} {s t : State} (h : TicksPassed a n s t) (e : Engine) :
    TicksPassed a n s (setEng e t) :=
  ⟨h.core.of_same (.mapCpu _ t), h.count, h.cycles⟩

/-- The run ends at a boundary, after `lo` to `hi` CPU ticks. -/
def EndsWithin (a lo hi : Nat) (s : State) (r : Result) : Prop :=
  ∃ t n, r = .next t ∧ t.cpu.eng = .boundary ∧ lo ≤ n ∧ n ≤ hi ∧ TicksPassed a n s t

/-- A tick that ends the instruction. -/
theorem TicksPassed.ended {a : Nat} {s t : State} (h : TicksPassed a 1 s t) :
    EndsWithin a 1 1 s (.next (Machine.setEng .boundary t)) :=
  ⟨_, 1, rfl, rfl, Nat.le_refl _, Nat.le_refl _, h.setEng _⟩

/-- A tick before the rest of the run. -/
theorem EndsWithin.after {a lo hi : Nat} {s t : State} {r : Result} (h : TicksPassed a 1 s t) (k : EndsWithin 0 lo hi t r) :
    EndsWithin a (lo + 1) (hi + 1) s r := by
  obtain ⟨u, n, hr, he, hlo, hhi, hn⟩ := k
  exact ⟨u, 1 + n, hr, he, by omega, by omega, h.trans hn⟩

theorem EndsWithin.weaken {a lo hi lo' hi' : Nat} {s : State} {r : Result} (h : EndsWithin a lo hi s r) (hlo : lo' ≤ lo)
    (hhi : hi ≤ hi') : EndsWithin a lo' hi' s r := by
  obtain ⟨u, n, hr, he, h1, h2, hn⟩ := h
  exact ⟨u, n, hr, he, Nat.le_trans hlo h1, Nat.le_trans h2 hhi, hn⟩

/-- A CPU tick inside an instruction that no DMA takes is the table's (R280, R341). -/
theorem cpuHandler_eq_instrTick {T : Table} {op : Byte} {k : Nat} {lat : Lat} {s : State}
    (he : s.cpu.eng = .inInstr op k lat) (hd : engineRuns T k s) :
    cpuHandler T s = .next (instrTick T op k lat (s.mapCpu Cpu.tick)) := by
  have hengine : engineTick T (s.mapCpu Cpu.tick) = .next (instrTick T op k lat (s.mapCpu Cpu.tick)) := by
    simp only [engineTick, State.mapCpu_cpu, Cpu.tick, he]
  unfold cpuHandler
  rcases hd with hd | ⟨⟨page, hd⟩, hw⟩
  · simpa only [State.mapCpu_dma, hd] using hengine
  · simpa only [State.mapCpu_dma, hd, State.mapCpu_cpu, Cpu.tick, he, nextTickWrites, hw, if_true] using hengine

theorem Dma.unstarted.engineRuns {T : Table} {k : Nat} {s : State} (h : s.dma.unstarted)
    (hw : tickWrites T (k - 2) = true) : engineRuns T k s := by
  cases hd : s.dma with
  | idle => exact .inl hd
  | requested page => exact .inr ⟨⟨page, hd⟩, hw⟩
  | active page n data => rw [hd] at h; exact h.elim

section
variable {i : Instr} {a k f : Nat} {s : State} {op : Byte} {lat : Lat} {j : Tick}

/-- One more tick of an instruction in the running core: the table's, at a state `u` that the dots before it leave. It ends
the run, or the run goes on behind it. -/
theorem CoreRuns.runTicks_succ (h : CoreRuns a 0 0 s) (ha : a < 3) (he : s.cpu.eng = .inInstr op k lat)
    (hd : engineRuns (tableOf i) k s) (hj : (tableOf i)[k - 2]? = some j) (f : Nat) :
    ∃ u, CoreRuns 0 0 0 u ∧ u.dma = s.dma ∧
      (∀ {t}, j.act lat u = .done t → EndsWithin a 1 1 s (runTicks (tableOf i) (f + 1) s)) ∧
      ∀ {lat' t}, j.act lat u = .more lat' t → CoreRuns 0 0 0 (setEng (.inInstr op (k + 1) lat') t) ∧
        ∀ {lo hi}, EndsWithin 0 lo hi (setEng (.inInstr op (k + 1) lat') t)
            (runTicks (tableOf i) f (setEng (.inInstr op (k + 1) lat') t)) →
          EndsWithin a (lo + 1) (hi + 1) s (runTicks (tableOf i) (f + 1) s) := by
  obtain ⟨r, hwait, htick⟩ := h.cpuTick ha (tableOf i)
  have hcore : CoreRuns 0 0 0 (r.mapCpu Cpu.tick) := hwait.core.of_same (.mapCpu _ r)
  have hpassed : TicksPassed a 1 s (j.act lat (r.mapCpu Cpu.tick)).state := by
    have hjmem : j ∈ tableOf i := List.mem_of_getElem? hj
    have hsame := ticks_rel sameCore_rel i (.inl rfl) j hjmem lat (r.mapCpu Cpu.tick)
    have hcycles := tableOf_keeps_cycles i j hjmem lat (r.mapCpu Cpu.tick)
    refine ⟨hcore.of_same hsame, ?_, hcycles.trans (congrArg (Cpu.cycles · + 1) hwait.cpu)⟩
    rw [hsame.clock, State.mapCpu_clock, hwait.count]
    omega
  have hruns : engineRuns (tableOf i) k r := by rw [engineRuns, hwait.dma]; exact hd
  have hnext := htick _ (cpuHandler_eq_instrTick (hwait.cpu ▸ he) hruns)
  refine ⟨r.mapCpu Cpu.tick, hcore, hwait.dma, fun {t} hact => ?_, fun {lat' t} hact => ?_⟩
  · have hlast : runTicks (tableOf i) (f + 1) s = .next (setEng .boundary t) := by
      simp only [runTicks, hnext, andThen, instrTick, runTick, hj, hact]
      rfl
    rw [hact] at hpassed
    exact hlast ▸ hpassed.ended
  · rw [hact] at hpassed
    have hgoes : runTicks (tableOf i) (f + 1) s = runTicks (tableOf i) f (setEng (.inInstr op (k + 1) lat') t) := by
      have hne : t.cpu.cycles ≠ s.cpu.cycles := by rw [show t.cpu.cycles = _ from hpassed.cycles]; omega
      simp [runTicks, hnext, andThen, instrTick, runTick, hj, hact, setEng, Cpu.setEng, Engine.atRest, hne]
    have hnow := hpassed.setEng (.inInstr op (k + 1) lat')
    exact ⟨hnow.core, fun hrest => hgoes ▸ hrest.after hnow⟩

/-- The last tick of an instruction in the running core. -/
theorem CoreRuns.runTicks_last (h : CoreRuns a 0 0 s) (ha : a < 3) (he : s.cpu.eng = .inInstr op k lat)
    (hd : engineRuns (tableOf i) k s) (hj : (tableOf i)[k - 2]? = some j) (hends : j.ends) :
    EndsWithin a 1 1 s (runTicks (tableOf i) (f + 1) s) := by
  obtain ⟨u, -, -, hdone, -⟩ := h.runTicks_succ ha he hd hj f
  obtain ⟨t, ht⟩ := hends lat u
  exact hdone ht

end

theorem getElem?_and_drop_of_drop_cons {α : Type} {T U : List α} {n : Nat} {x : α} (h : T.drop n = x :: U) :
    T[n]? = some x ∧ T.drop (n + 1) = U :=
  ⟨by rw [← Nat.add_zero n, ← List.getElem?_drop, h]; rfl, List.tail_drop ▸ congrArg List.tail h⟩

/-- What is left of a paced table runs to the boundary, in its least number of ticks to its length. -/
theorem Paced.endsWithin {i : Instr} {U : Table} {lo : Nat} (hU : Paced lo U) {a j f : Nat} {s : State} {op : Byte} {lat : Lat}
    (h : CoreRuns a 0 0 s) (ha : a < 3) (he : s.cpu.eng = .inInstr op (j + 2) lat) (hd : s.dma = .idle)
    (hdrop : (tableOf i).drop j = U) : EndsWithin a lo U.length s (runTicks (tableOf i) (f + U.length) s) := by
  induction hU generalizing a j s lat with
  | last hends =>
    obtain ⟨hj, -⟩ := getElem?_and_drop_of_drop_cons hdrop
    exact h.runTicks_last ha he (.inl hd) hj hends
  | @rewrite k l hgo hw hends =>
    obtain ⟨hj, hrest⟩ := getElem?_and_drop_of_drop_cons hdrop
    obtain ⟨hl, -⟩ := getElem?_and_drop_of_drop_cons hrest
    obtain ⟨u, -, hdma, -, hmore⟩ := h.runTicks_succ ha he (.inl hd) hj (f + 1)
    obtain ⟨lat', t, ht⟩ := hgo lat u
    obtain ⟨hcore, hthen⟩ := hmore ht
    -- the tick may ask for a DMA, which waits for the write that ends the instruction
    have hunstarted : t.dma.unstarted := by
      have := ticks_rel unstarted_rel i (.inl rfl) k (List.mem_of_getElem? hj) lat u
      rw [ht, hdma, hd] at this
      exact this trivial
    have hwrites : tickWrites (tableOf i) (j + 1) = true := by rw [tickWrites, hl]; exact hw
    exact hthen (hcore.runTicks_last (by omega) rfl (Dma.unstarted.engineRuns hunstarted hwrites) hl hends)
  | @steady k T n hk _ ih =>
    obtain ⟨hj, hrest⟩ := getElem?_and_drop_of_drop_cons hdrop
    obtain ⟨u, hu, hdma, -, hmore⟩ := h.runTicks_succ ha he (.inl hd) hj (f + T.length)
    obtain ⟨lat', t, ht, hheld⟩ := hk lat u
    obtain ⟨hcore, hthen⟩ := hmore ht
    have hidle : t.dma = .idle := (hheld.dma hu.own hu.offStack).trans (hdma.trans hd)
    exact hthen (ih hcore (by omega) rfl hidle hrest)
  | @mayEnd k T n hk _ ih =>
    obtain ⟨hj, hrest⟩ := getElem?_and_drop_of_drop_cons hdrop
    obtain ⟨u, hu, hdma, hdone, hmore⟩ := h.runTicks_succ ha he (.inl hd) hj (f + T.length)
    cases hact : k.act lat u with
    | done t => exact (hdone hact).weaken (Nat.le_refl _) (Nat.le_add_left 1 T.length)
    | more lat' t =>
      obtain ⟨hcore, hthen⟩ := hmore hact
      have hheld := hk lat u
      rw [hact] at hheld
      have hidle : t.dma = .idle := (hheld.dma hu.own hu.offStack).trans (hdma.trans hd)
      exact (hthen (ih hcore (by omega) rfl hidle hrest)).weaken (Nat.le_add_left 1 n) (Nat.le_refl _)

/-- R472: an instruction that the parameter lets run has its table's ticks for its meaning. -/
theorem exec_eq_run {i : Instr} {s : State} (hw : i.wf = true) (hr : runnable s (opcodeOf i) = true) :
    exec i s = run i (tableOf i) s := by
  cases i with
  | una op =>
    have hop : opcodeOf (.una op) = op := decode_unassigned op hw ▸ opcodeOf_decode op
    have hlisted : op ∈ unassignedOpcodes := List.contains_iff_mem.mp hw
    have hnop : s.params.unassigned = .nop2 := by simpa [runnable, hop, hlisted] using hr
    show execUna op s = _
    rw [execUna, hnop]
    rfl
  | _ => rfl

/-- Settles O26: tick by tick through the instruction's table, each tick behind the Clock ticks and dots it waits for; the
table's shape bounds the ticks, and no DMA comes between them. -/
theorem everyInstructionCompletesInRunningCore : Obligations.EveryInstructionCompletesInRunningCore := by
  intro i s hw hr hrun hoff
  obtain ⟨hidle, a, ha, hcore⟩ := coreRuns_of_runningNormally hrun hoff
  have hdecode : decode (opcodeOf i) = i := decode_opcodeOf hw
  have hpaced : Paced (i.baseTicks - 1) (tableOf i) :=
    tableOf_paced (List.ne_nil_of_length_pos (hdecode ▸ tableOf_decode_length (opcodeOf i)))
  obtain ⟨f, hbudget⟩ := Nat.exists_eq_add_of_le' (hdecode ▸ tableOf_decode_length_le (opcodeOf i) :
    (tableOf i).length ≤ tickBudget)
  obtain ⟨t, n, ht, hend, hlo, hhi, hpassed⟩ :=
    hpaced.endsWithin (hcore.of_same (.mapCpu _ s) : CoreRuns a 0 0 (start i s)) ha rfl hidle List.drop_zero (f := f)
  have hlength := tableOf_length hw
  obtain ⟨parent, hds⟩ := hcore.divider
  obtain ⟨parent', hdt⟩ := hpassed.core.divider
  refine ⟨t, n, ?_, hend, by omega, by omega, hpassed.cycles, _, _, hds, hdt, rfl, hpassed.count⟩
  rw [exec_eq_run hw hr, run, if_pos hw, hbudget, ht]

end Sys2Proof.Machine

namespace Sys2Proof.Machine

/-! ## Gates (R203, R211, R216) -/

section
variable {P : State → State → Prop} (h : BusRel P true)
include h

theorem runTick_rel {T : Table} (hT : TableRel P T) (idx : Nat) (lat : Lat) (s : State) :
    P s (runTick T idx lat s).state := by
  unfold runTick
  split
  · rename_i k hk
    exact hT k (List.mem_of_getElem? hk) lat s
  · exact h.refl s

theorem instrTick_rel {T : Table} (hT : TableRel P T) (op : Byte) (k : Nat) (lat : Lat) (s : State) :
    P s (instrTick T op k lat s) := by
  have hrun := runTick_rel h hT (k - 2) lat s
  unfold instrTick
  cases hr : runTick T (k - 2) lat s with
  | more lat' t => rw [hr] at hrun; exact h.trans hrun (h.cpu _ t)
  | done t => rw [hr] at hrun; exact h.trans hrun (h.cpu _ t)

theorem fetchOpcode_rel {s t : State} (ht : fetchOpcode s = .next t) : P s t :=
  fetchOpcode_next ht ▸ h.trans (rel_fetch h s) (h.cpu _ _)

variable (hpend : ∀ f s, P s (s.mapPend f))
include hpend

/-- The ticks of the reset, NMI and IRQ sequences access the bus and change registers and latches only (R330, R335). -/
theorem sequence_rel (kind : Sequence) : TableRel P kind.table := by
  have hinterrupt : TableRel P interruptTable :=
    tableRel_cons (rel_idle h) (tableRel_cons (rel_idle h) (rel_take h _))
  have hempty : TickRel P emptyTick := fun _ s => h.refl s
  have hregisters (s : State) : P s (resetRegisters s) := by
    unfold resetRegisters
    exact h.trans (h.cpu _ s) (hpend _ _)
  have hreset : TableRel P resetTable :=
    tableRel_cons (fun _ => hregisters) <| tableRel_cons hempty <| tableRel_cons hempty <|
    tableRel_cons hempty <| tableRel_cons hempty <| tableRel_cons hempty <| tableRel_cons (fun _ s => h.read _ s) <|
    tableRel_cons (fun _ s => rel_busRead_mapCpu h _ _ s) tableRel_nil
  cases kind with
  | reset => exact hreset
  | nmi | irq => exact hinterrupt

theorem seqTick_rel (kind : Sequence) (k : Nat) (lat : Lat) (s : State) : P s (seqTick kind k lat s) := by
  have hrun := runTick_rel h (sequence_rel h hpend kind) (k - 1) lat s
  unfold seqTick
  cases hr : runTick kind.table (k - 1) lat s with
  | more lat' t => rw [hr] at hrun; exact h.trans hrun (h.cpu _ t)
  | done t => rw [hr] at hrun; exact h.trans hrun (h.cpu _ t)

theorem engineTick_rel {T : Table} (hT : TableRel P T) {s t : State} (ht : engineTick T s = .next t) : P s t := by
  unfold engineTick at ht
  split at ht
  · rcases boundaryTick_cases ht with ⟨kind, f, rfl⟩ | ht
    · exact h.trans (hpend f s) (seqTick_rel h hpend kind 1 _ _)
    · exact fetchOpcode_rel h ht
  · exact fetchOpcode_rel h ht
  · cases ht; exact instrTick_rel h hT _ _ _ s
  · cases ht; exact seqTick_rel h hpend _ _ _ s

/-- What bus accesses and changes of the registers, the latches and the DMA state keep, a CPU tick keeps (R280, R341). -/
theorem cpuHandler_rel (hdma : ∀ d s, P s (s.setDma d)) {T : Table} (hT : TableRel P T) {s t : State}
    (ht : cpuHandler T s = .next t) : P s t := by
  refine h.trans (h.cpu Cpu.tick s) ?_
  rcases cpuHandler_cases ht with ⟨page, k, data, _, rfl⟩ | ⟨page, rfl⟩ | ht
  · exact dmaTick_rel h hdma ..
  · exact h.trans (hdma _ _) (dmaTick_rel h hdma ..)
  · exact engineTick_rel h hpend hT ht

end

/-- A CPU tick leaves the Clock, the dividers and the tick counters alone. -/
theorem cpuHandler_sameCore {T : Table} (hT : TableRel SameCore T) {s t : State} (ht : cpuHandler T s = .next t) :
    SameCore s t :=
  cpuHandler_rel sameCore_rel (fun _ s => ⟨rfl, rfl, rfl, fun u => by cases u <;> rfl, rfl, rfl⟩)
    (fun _ s => ⟨rfl, rfl, rfl, fun u => by cases u <;> rfl, rfl, rfl⟩) hT ht

theorem currentTable_sameCore (s : State) : TableRel SameCore (currentTable s) := by
  rw [currentTable_eq]
  cases s.cpu.eng with
  | inInstr op _ _ => exact ticks_rel sameCore_rel _ (.inl rfl)
  | boundary | fetchNext | inSeq => exact tableRel_nil

/-- No unit step touches the Clock (R58). -/
theorem unitStep_clock {T : Table} (hT : TableRel SameCore T) {u : UnitId} {s t : State} (ht : unitStep T u s = .next t) :
    t.clock = s.clock := by
  refine Eq.trans ?_ (State.mapUnit_clock s u fun c => { c with owed := c.owed - 1 })
  cases u with
  | cpu => exact (cpuHandler_sameCore hT ht).clock
  | ppu => cases ht; exact ppuHandler_dot.blind.clock _
  | sound => cases ht; exact Blind.clock (fun c s => afterSound_blind _ c s) (consume .sound s)

theorem addListener_tickCount (p : Option Nat) (l : Listener) (s : State) :
    (addListener p l s).clock.tickCount = s.clock.tickCount := by
  unfold addListener
  split
  · rfl
  · split <;> rfl

/-- Only the emit step counts (R205). -/
theorem hostOp_tickCount {op : HostOp} {s t : State} (h : hostOp op s = .done t) :
    t.clock.tickCount = s.clock.tickCount := by
  cases op with
  | addListener p l => cases h; exact addListener_tickCount p l s
  | newDivider p n d =>
    simp only [hostOp, newDivider] at h
    split at h
    · cases h
    · cases h; exact addListener_tickCount ..
  | start =>
    simp only [hostOp, startClock] at h
    split at h
    · cases h
    · split at h
      · cases h
      · cases h; rfl
  | addComponent c r =>
    unfold hostOp addComponent at h
    cases r with
    | none => cases h; rfl
    | some r =>
      dsimp only at h
      split at h
      · rename_i hc
        split at hc
        · cases hc
        · cases hc; cases h; rfl
      · cases h
  | load image =>
    cases image with
    | none => cases h
    | some c => cases h; rfl
  | pause u | resume u | disposeUnit u => cases h; exact congrArg Clock.tickCount (State.mapUnit_clock ..)
  | busReset => cases h; exact congrArg Clock.tickCount (busReset_blind.clock s)
  | busIrq => cases h; exact congrArg Clock.tickCount (busIrq_blind.clock s)
  | busNmi => cases h; exact congrArg Clock.tickCount (busNmi_blind.clock s)
  | busRead a => cases h; exact congrArg Clock.tickCount ((busReadVia_blind quietRun_blind a).clock s)
  | busWrite a v => cases h; exact congrArg Clock.tickCount ((busWriteVia_blind quietRun_blind a v).clock s)
  | disposeClock | removeComponent | keyDown | keyUp | registerSink | getPixels | getSample => cases h; rfl

/-- A transition that is no emit step leaves the count of ticks alone. -/
theorem fire_tickCount {T : Table} (hT : TableRel SameCore T) {e : Event} (he : e ≠ .emit) {s t : State}
    (h : fire T e s = .next t) : t.clock.tickCount = s.clock.tickCount := by
  have h := (guarded_next h).1
  cases e with
  | emit => exact absurd rfl he
  | unit u => exact congrArg Clock.tickCount (unitStep_clock hT h)
  | host op =>
    rcases hostStep_cases h with rfl | h
    · rfl
    · exact hostOp_tickCount h

theorem fire_clockDisposed {T : Table} (hT : TableRel SameCore T) {e : Event} {s t : State}
    (h : fire T e s = .next t) (hs : s.clock.disposed = true) : t.clock.disposed = true := by
  by_cases he : e = .unit .cpu
  · subst he
    rw [unitStep_clock hT (guarded_next h).1]
    exact hs
  · exact (fire_quiet he h).clockDisposed hs

/-- R210: the transition that comes next is no step of a paused or disposed processor. -/
theorem nextEvent_ne_cpu {s : State} {es rest : List Event} {e : Event}
    (hs : s.cpuUnit.paused = true ∨ s.cpuUnit.disposed = true) (h : nextEvent s es = (some e, rest)) : e ≠ .unit .cpu := by
  rintro rfl
  have henabled := nextEvent_enabled h
  simp only [enabled, unitEnabled, State.unit_cpu, Bool.and_eq_true, Bool.not_eq_true'] at henabled
  obtain ⟨⟨-, hpaused⟩, hdisposed⟩ := henabled
  rcases hs with hs | hs
  · rw [hpaused] at hs; cases hs
  · rw [hdisposed] at hs; cases hs

theorem disposedCpu_invariant (c : Cpu) : StepInvariant fun s => s.cpu = c ∧ s.cpuUnit.disposed = true where
  none h _ := h
  fire := by
    rintro s e rest t ⟨hc, hd⟩ hn ht
    have hq := fire_quiet (nextEvent_ne_cpu (.inr hd) hn) ht
    exact ⟨hq.cpu.trans hc, hq.cpuDisposed hd⟩

/-- With nothing scheduled no host operation resumes the processor. -/
theorem pausedCpu_invariant (c : Cpu) :
    StepInvariant fun s => s.cpu = c ∧ s.cpuUnit.paused = true ∧ s.schedule = [] where
  none := by
    rintro s rest ⟨hc, hp, hs⟩ hn
    rw [hs, nextEvent, Prod.mk.injEq] at hn
    exact ⟨hc, hp, hn.2.symm⟩
  fire := by
    rintro s e rest t ⟨hc, hp, hs⟩ hn ht
    have hcpu := nextEvent_ne_cpu (.inl hp) hn
    obtain ⟨rfl, he⟩ := default_cases hs hn
    have hother : e = .emit ∨ e = .unit .ppu ∨ e = .unit .sound := by
      rcases he with rfl | ⟨u, rfl⟩
      · exact .inl rfl
      · cases u with
        | cpu => exact absurd rfl hcpu
        | ppu => exact .inr (.inl rfl)
        | sound => exact .inr (.inr rfl)
    have hcalm := (fire_calm hother ht).1
    exact ⟨(fire_quiet hcpu ht).cpu.trans hc, (hcalm.gates .cpu).1.trans hp, hcalm.schedule⟩

theorem disposedClock_invariant (n : Nat) :
    StepInvariant fun s => s.clock.disposed = true ∧ s.clock.tickCount = n where
  none h _ := h
  fire := by
    rintro s e rest t ⟨hd, hc⟩ hn ht
    have hemit : e ≠ .emit := by
      rintro rfl
      have henabled := nextEvent_enabled hn
      simp [enabled, emitEnabled, hd] at henabled
    have hT := currentTable_sameCore s
    exact ⟨fire_clockDisposed hT ht hd, (fire_tickCount hT hemit ht).trans hc⟩

/-- Settles O33: no transition that can come next is a step of a gated processor or an emit step of a disposed Clock, and
none that does undoes the gate. -/
theorem gatedUnitsTakeNoTick : Obligations.GatedUnitsTakeNoTick := by
  intro s t h
  refine ⟨fun hd => ?_, fun hp hs => ?_, fun hd => ?_⟩
  · exact (disposedCpu_invariant s.cpu).step ⟨rfl, hd⟩ h
  · exact ((pausedCpu_invariant s.cpu).step ⟨rfl, hp, hs⟩ h).1
  · exact (disposedClock_invariant s.clock.tickCount).step ⟨hd, rfl⟩ h

end Sys2Proof.Machine

namespace Sys2Proof.Machine

/-! ## Which units the Clock reaches (R204)

`Heard` follows ways of any length, `reachable` ways of bounded length. A way that meets a divider twice can be cut short
there, so the ways that meet each divider at most once, for which the bound suffices, reach as far. -/

/-- `l` is reached from the listeners `ls` by a way whose dividers are all among `A`. -/
inductive HeardWithin (ds : List Divider) (A : List Nat) (ls : List Listener) : Listener → Prop where
  | direct {l : Listener} : l ∈ ls → HeardWithin ds A ls l
  | through {i : Nat} {d : Divider} {l : Listener} : HeardWithin ds A ls (.divider i) → i ∈ A → ds[i]? = some d →
      l ∈ d.children → HeardWithin ds A ls l

theorem Heard.within {s : State} {l : Listener} (h : Heard s l) :
    HeardWithin s.dividers (List.range s.dividers.length) s.clock.listeners l := by
  induction h with
  | direct h => exact .direct h
  | through _ hd hl ih => exact .through ih (List.mem_range.mpr (List.getElem?_eq_some_iff.mp hd).1) hd hl

section
variable {ds : List Divider} {A : List Nat} {ls : List Listener} {l : Listener}

/-- A way begins at a listener: it ends there, or it goes on from the divider's children. -/
theorem HeardWithin.head (h : HeardWithin ds A ls l) :
    l ∈ ls ∨ ∃ i ∈ A, ∃ d, .divider i ∈ ls ∧ ds[i]? = some d ∧ HeardWithin ds A d.children l := by
  induction h with
  | direct h => exact .inl h
  | @through i d l _ hi hd hl ih =>
    rcases ih with hmem | ⟨j, hj, e, hmem, he, hway⟩
    · exact .inr ⟨i, hi, d, hmem, hd, .direct hl⟩
    · exact .inr ⟨j, hj, e, hmem, he, .through hway hi hd hl⟩

/-- A way from a divider's children is cut short behind the last time it meets that divider. -/
theorem HeardWithin.erase {i : Nat} {d : Divider} (hd : ds[i]? = some d) (h : HeardWithin ds A d.children l) :
    HeardWithin ds (A.erase i) d.children l := by
  induction h with
  | direct h => exact .direct h
  | @through j e l _ hj he hl ih =>
    by_cases hij : j = i
    · subst hij
      obtain rfl : d = e := Option.some.inj (hd.symm.trans he)
      exact .direct hl
    · exact .through ih ((List.mem_erase_of_ne hij).mpr hj) he hl

/-- A unit in a deeper list of listeners. -/
theorem mem_reachable_of_children {n i : Nat} {d : Divider} {u : UnitId} (hi : .divider i ∈ ls) (hd : ds[i]? = some d)
    (hu : u ∈ reachable n d.children ds) : u ∈ reachable (n + 1) ls ds := by
  refine List.mem_flatMap.mpr ⟨_, hi, ?_⟩
  simp only [hd]
  exact hu

/-- Ways whose dividers are among `n` have at most `n` of them. -/
theorem HeardWithin.mem_reachable {n : Nat} {u : UnitId} (hA : A.length ≤ n) (h : HeardWithin ds A ls (.unit u)) :
    u ∈ reachable (n + 1) ls ds := by
  induction n generalizing A ls with
  | zero =>
    rcases h.head with hmem | ⟨i, hi, -⟩
    · exact List.mem_flatMap.mpr ⟨_, hmem, List.mem_singleton_self u⟩
    · exact absurd (List.length_pos_of_mem hi) (Nat.not_lt.mpr hA)
  | succ n ih =>
    rcases h.head with hmem | ⟨i, hi, d, hmem, hd, hway⟩
    · exact List.mem_flatMap.mpr ⟨_, hmem, List.mem_singleton_self u⟩
    · have hcard : (A.erase i).length ≤ n := by
        rw [List.length_erase_of_mem hi]
        omega
      exact mem_reachable_of_children hmem hd (ih hcard (hway.erase hd))

end

/-- What `reachable` finds from listeners that the Clock reaches, the Clock reaches. -/
theorem heard_of_mem_reachable {s : State} {n : Nat} {ls : List Listener} {u : UnitId} (hls : ∀ l ∈ ls, Heard s l)
    (h : u ∈ reachable n ls s.dividers) : Heard s (.unit u) := by
  induction n generalizing ls with
  | zero => cases h
  | succ n ih =>
    obtain ⟨l, hl, hu⟩ := List.mem_flatMap.mp h
    cases l with
    | unit w => exact List.mem_singleton.mp hu ▸ hls _ hl
    | divider i =>
      dsimp only at hu
      split at hu
      · cases hu
      · rename_i d hd
        exact ih (fun _ hc => .through (hls _ hl) hd hc) hu

theorem mem_reachableUnits_iff (s : State) (u : UnitId) : u ∈ s.reachableUnits ↔ Heard s (.unit u) :=
  ⟨heard_of_mem_reachable fun _ => .direct, fun h => h.within.mem_reachable (Nat.le_of_eq List.length_range)⟩

/-- R213: a unit holds no emit step up if it is asynchronous, disposed, or owes nothing. -/
theorem UnitCtl.drained_iff (c : UnitCtl) : c.drained = true ↔ (c.policy = .lockstep → c.disposed = false → c.owed = 0) := by
  obtain ⟨owed, paused, disposed, policy⟩ := c
  cases policy <;> cases disposed <;> simp [UnitCtl.drained]

/-- Settles O34: the units that the emit step looks at are those of `Heard`. -/
theorem emitEnabledExactly : Obligations.EmitEnabledExactly := by
  intro s
  simp only [enabled, emitEnabled, Bool.and_eq_true, Bool.not_eq_true', List.all_eq_true, mem_reachableUnits_iff,
    UnitCtl.drained_iff, and_assoc]

end Sys2Proof.Machine

namespace Sys2Proof.Machine

/-! ## Deliveries (R205-R207) -/

@[simp] theorem State.unit_mapClock (f : Clock → Clock) (s : State) (u : UnitId) : (s.mapClock f).unit u = s.unit u := by
  cases u <;> rfl

@[simp] theorem deliver_unit (n : Nat) (u : UnitId) (s : State) : deliver n (.unit u) s = deliverUnit u s := by
  cases n <;> rfl

theorem deliverEach_singleton (f : Listener → State → Delivery) (l : Listener) (s : State) : deliverEach f [l] s = f l s := by
  unfold deliverEach
  cases f l s <;> rfl

section
variable {u : UnitId} {s : State}

theorem deliverUnit_of_disposed (h : (s.unit u).disposed = true) : deliverUnit u s = .done s := by
  simp only [deliverUnit, h, if_true]

theorem deliverUnit_of_full (h : (s.unit u).disposed = false) (ho : (s.unit u).owed = s.params.owedMax) :
    deliverUnit u s = .overflow u := by
  simp only [deliverUnit, h, ho, Bool.false_eq_true, if_false, if_true]

theorem deliverUnit_of_room (h : (s.unit u).disposed = false) (ho : (s.unit u).owed ≠ s.params.owedMax) :
    deliverUnit u s = .done (s.mapUnit u fun c => { c with owed := c.owed + 1 }) := by
  simp only [deliverUnit, h, ho, Bool.false_eq_true, if_false]

end

/-- The Clock's count goes up by one (R205). -/
def State.counted (s : State) : State := s.mapClock fun c => { c with tickCount := c.tickCount + 1 }

theorem emit_of_done {s t : State} (n : Nat) (h : deliverEach (deliver n) s.clock.listeners s.counted = .done t) :
    emit s = .next t := (emit_of_ends s n).1 t h

theorem emit_of_overflow {s : State} {u : UnitId} (n : Nat)
    (h : deliverEach (deliver n) s.clock.listeners s.counted = .overflow u) :
    emit s = .fault (.owedOverflow u s) := (emit_of_ends s n).2 u h

theorem emit_of_endless {s : State} (h : ∀ n, deliverEach (deliver n) s.clock.listeners s.counted = .endless) :
    emit s = .next s := by
  have h := h s.deliveryDepth
  rw [State.counted] at h
  rw [emit, h]

/-! ### The ratio law (R219, R220) -/

/-- `s` after `k` emit steps, `d` being its one divider, of 3 to the processor. -/
def State.afterEmits (k : Nat) (d : Divider) (s : State) : State :=
  { s with
    clock := { s.clock with tickCount := s.clock.tickCount + k }
    ppuUnit := { s.ppuUnit with owed := s.ppuUnit.owed + k }
    cpuUnit := { s.cpuUnit with owed := s.cpuUnit.owed + (d.acc + k) / 3 }
    dividers := [{ d with acc := (d.acc + k) % 3 }] }

/-- One parent tick fed to the processor's divider of 3: every third is passed on. -/
theorem deliver_cpuDivider {s : State} {a : Nat} {parent : Option Nat} (hd : s.dividers = [⟨3, 1, a, [.unit .cpu], parent⟩])
    (ha : a < 3) (hdis : s.cpuUnit.disposed = false) (ho : s.cpuUnit.owed < s.params.owedMax) :
    deliver 1 (.divider 0) s = .done { s with
      cpuUnit := { s.cpuUnit with owed := s.cpuUnit.owed + (a + 1) / 3 }
      dividers := [⟨3, 1, (a + 1) % 3, [.unit .cpu], parent⟩] } := by
  have hfed : deliver 1 (.divider 0) s = deliverEach (deliver 0) (List.replicate ((a + 1) / 3) [Listener.unit .cpu]).flatten
      (s.setDividers [⟨3, 1, (a + 1) % 3, [.unit .cpu], parent⟩]) := by
    simp only [deliver, hd, List.getElem?_cons_zero, feed_three _ ha, Divider.emitted, List.set_cons_zero]
  rw [hfed]
  by_cases hemits : a = 2
  · subst hemits
    exact (deliverEach_singleton ..).trans ((deliver_unit ..).trans (deliverUnit_of_room hdis (Nat.ne_of_lt ho)))
  · have hnone : (a + 1) / 3 = 0 := by omega
    rw [hnone]
    rfl

/-- One emit step where both counters have room. -/
theorem emit_eq_afterEmits {s : State} {d : Divider} (hlisteners : s.clock.listeners = [.unit .ppu, .divider 0])
    (hdividers : s.dividers = [d]) (hcpuDivider : cpuDividerOnly s.dividers = true) (hppu : s.ppuUnit.disposed = false)
    (hcpu : s.cpuUnit.disposed = false) (hppuRoom : s.ppuUnit.owed < s.params.owedMax)
    (hcpuRoom : s.cpuUnit.owed < s.params.owedMax) : emit s = .next (s.afterEmits 1 d) := by
  obtain ⟨a, ha, parent, hthree⟩ := dividers_of_cpuDividerOnly hcpuDivider
  obtain rfl : d = ⟨3, 1, a, [.unit .cpu], parent⟩ := List.head_eq_of_cons_eq (hdividers.symm.trans hthree)
  have hdot : deliverUnit .ppu s.counted = .done (s.counted.mapUnit .ppu fun c => { c with owed := c.owed + 1 }) :=
    deliverUnit_of_room hppu (Nat.ne_of_lt hppuRoom)
  have hthird := deliver_cpuDivider (s := s.counted.mapUnit .ppu fun c => { c with owed := c.owed + 1 })
    hthree ha hcpu hcpuRoom
  refine emit_of_done 1 ?_
  rw [hlisteners]
  simp only [deliverEach, deliver_unit, hdot, hthird, Delivery.andThen]
  rfl

theorem cpuDividerOnly_afterEmits {s : State} {d : Divider} (k : Nat) (h : cpuDividerOnly [d] = true) :
    cpuDividerOnly (s.afterEmits k d).dividers = true := by
  simp only [cpuDividerOnly, State.afterEmits, Bool.and_eq_true, decide_eq_true_eq] at h ⊢
  obtain ⟨⟨⟨hnum, hden⟩, -⟩, hchildren⟩ := h
  exact ⟨⟨⟨hnum, hden⟩, Nat.mod_lt _ (by decide)⟩, hchildren⟩

theorem State.afterEmits_succ (k : Nat) (d : Divider) (s : State) :
    (s.afterEmits k d).afterEmits 1 { d with acc := (d.acc + k) % 3 } = s.afterEmits (k + 1) d := by
  have hquot : s.cpuUnit.owed + (d.acc + k) / 3 + ((d.acc + k) % 3 + 1) / 3 = s.cpuUnit.owed + (d.acc + (k + 1)) / 3 := by omega
  have hrem : ((d.acc + k) % 3 + 1) % 3 = (d.acc + (k + 1)) % 3 := by omega
  simp only [State.afterEmits, hquot, hrem, Nat.add_assoc]

/-- Settles O35, by induction on the number of emit steps: up to each the counters have room. -/
theorem emitStepsFollowRatioLaw : Obligations.EmitStepsFollowRatioLaw := by
  intro k s d hlisteners hdividers hcpuDivider hppu hcpu hppuRoom hcpuRoom
  show emitTimes k s = .next (s.afterEmits k d)
  have hsmall : d.acc < 3 := by
    obtain ⟨a, ha, parent, hthree⟩ := dividers_of_cpuDividerOnly hcpuDivider
    obtain rfl := List.head_eq_of_cons_eq (hdividers.symm.trans hthree)
    exact ha
  rw [hdividers] at hcpuDivider
  induction k with
  | zero =>
    have hquot : d.acc / 3 = 0 := by omega
    simp only [emitTimes, State.afterEmits, Nat.add_zero, hquot, Nat.mod_eq_of_lt hsmall, ← hdividers]
  | succ k ih =>
    rw [emitTimes, ih (by omega) (by omega), andThen, ← State.afterEmits_succ]
    refine emit_eq_afterEmits hlisteners rfl (cpuDividerOnly_afterEmits k hcpuDivider) hppu hcpu ?_ ?_
    · show s.ppuUnit.owed + k < s.params.owedMax
      omega
    · show s.cpuUnit.owed + (d.acc + k) / 3 < s.params.owedMax
      omega

/-! ### A delivery and a divider (R206, R207, R209) -/

/-- R206: the three cases of the emit step to one listener. -/
theorem emit_to_unit {u : UnitId} {s : State} (h : s.clock.listeners = [.unit u]) :
    ((s.unit u).disposed = true → emit s = .next s.counted) ∧
    ((s.unit u).disposed = false → (s.unit u).owed = s.params.owedMax → emit s = .fault (.owedOverflow u s)) ∧
    ((s.unit u).disposed = false → (s.unit u).owed ≠ s.params.owedMax →
      emit s = .next (s.counted.mapUnit u fun c => { c with owed := c.owed + 1 })) := by
  have hdeliver : deliverEach (deliver 0) s.clock.listeners s.counted = deliverUnit u s.counted := by
    rw [h, deliverEach_singleton, deliver_unit]
  have hunit : s.counted.unit u = s.unit u := State.unit_mapClock ..
  refine ⟨fun hd => emit_of_done 0 ?_, fun hd ho => emit_of_overflow 0 ?_, fun hd ho => emit_of_done 0 ?_⟩
  · exact hdeliver.trans (deliverUnit_of_disposed (hunit ▸ hd))
  · exact hdeliver.trans (deliverUnit_of_full (hunit ▸ hd) (hunit ▸ ho))
  · exact hdeliver.trans (deliverUnit_of_room (hunit ▸ hd) (hunit ▸ ho))

/-- R209: a divider that holds its remainder passes on the quotient, and keeps the rest. -/
theorem feed_of_lt {law : Config.DividerLaw} {d : Divider} (hacc : d.acc < d.num) (hlaw : law = .once → d.den ≤ d.num) :
    d.feed law = ({ d with acc := (d.acc + d.den) % d.num }, (d.acc + d.den) / d.num) := by
  cases law with
  | every => rfl
  | once =>
    have hle := hlaw rfl
    unfold Divider.feed
    dsimp only
    split
    · rename_i hemits
      have hquot : (d.acc + d.den) / d.num = 1 := Nat.div_eq_of_lt_le (by omega) (by omega)
      rw [hquot, Nat.mod_eq_sub_mod hemits, Nat.mod_eq_of_lt (by omega)]
    · rename_i hwaits
      rw [Nat.div_eq_of_lt (by omega), Nat.mod_eq_of_lt (by omega)]

/-- R209: nothing is lost from one parent tick to the next. -/
theorem feedTimes_eq {law : Config.DividerLaw} {d : Divider} (hacc : d.acc = 0) (hnum : 0 < d.num)
    (hlaw : law = .once → d.den ≤ d.num) (k : Nat) :
    feedTimes law k d = ({ d with acc := k * d.den % d.num }, k * d.den / d.num) := by
  induction k with
  | zero =>
    simp only [feedTimes, Nat.zero_mul, Nat.zero_mod, Nat.zero_div]
    rw [← hacc]
  | succ k ih =>
    have hfed := feed_of_lt (d := { d with acc := k * d.den % d.num }) (Nat.mod_lt _ hnum) hlaw
    have hsplit : (k + 1) * d.den = (k * d.den % d.num + d.den) + d.num * (k * d.den / d.num) := by
      have hdiv := Nat.mod_add_div (k * d.den) d.num
      rw [Nat.succ_mul]
      omega
    simp only [feedTimes, ih, hfed]
    rw [hsplit, Nat.add_mul_mod_self_left, Nat.add_mul_div_left _ _ hnum, Nat.add_comm (k * d.den / d.num)]

/-- Settles O36: the three cases of a delivery, the quotient and remainder of `k` parent ticks, and the depth at which the
emit step looks, beyond which no delivery ends. -/
theorem deliveryCountsAndDividerNeverDrifts : Obligations.DeliveryCountsAndDividerNeverDrifts := by
  refine ⟨fun u s h => ?_, fun law k d hacc _ hnum hlaw => feedTimes_eq hacc hnum hlaw k, fun s => ?_⟩
  · obtain ⟨hskips, hfaults, hadds⟩ := emit_to_unit h
    refine ⟨hskips, hfaults, fun hd ho => ⟨_, hadds hd ho, ?_, ?_, fun w hw => ?_⟩⟩
    · rw [State.unit_mapUnit, if_pos rfl, State.counted, State.unit_mapClock]
    · rw [State.mapUnit_clock]
      rfl
    · rw [State.unit_mapUnit, if_neg hw, State.counted, State.unit_mapClock]
  · exact ⟨fun n _ => emit_of_done n, fun n _ => emit_of_overflow n, emit_of_endless⟩

/-! ## The Clock's host operations (R201-R203, R208, R216, R701) -/

theorem newDivider_refused {n : Int} (hn : n ≤ 0) (p : Option Nat) (d : Nat) (s : State) :
    newDivider p n d s = .failed .invalidDivisor := if_pos (.inl hn)

theorem newDivider_of_pos {n d : Nat} (hn : 0 < n) (hd : 0 < d) (p : Option Nat) (s : State) :
    newDivider p n d s = .done (addListener p (.divider s.dividers.length) (s.setDividers (s.dividers ++ [⟨n, d, 0, [], p⟩]))) :=
  if_neg (by omega)

theorem startClock_of_no_listeners {s : State} (h : s.clock.listeners = []) : startClock s = .failed (.clockNoListeners s) :=
  if_pos h

section
variable {s : State} (h : s.clock.listeners ≠ [])
include h

theorem startClock_of_running (hr : s.clock.running = true) : startClock s = .failed .clockAlreadyStarted := by
  rw [startClock, if_neg h, if_pos hr]

theorem startClock_of_stopped (hr : s.clock.running = false) :
    startClock s = .done (s.mapClock fun c => { c with running := true }) := by
  rw [startClock, if_neg h, hr, if_neg Bool.false_ne_true]

end

/-- R701: a fault that does not end the run changes nothing. -/
theorem hostStep_of_failed {op : HostOp} {s : State} {f : Fault} (h : hostOp op s = .failed f) (hf : f.endsRun = false) :
    hostStep op s = .next s := by
  rw [hostStep, h]
  simp only [hf, Bool.false_eq_true, if_false]

theorem emit_disabled_of_disposed {s : State} (h : s.clock.disposed = true) : enabled .emit s = false := by
  simp [enabled, emitEnabled, h]

theorem unit_disposeUnit (u : UnitId) (s : State) :
    (disposeUnit u s).unit u = { s.unit u with owed := 0, disposed := true } :=
  (State.unit_mapUnit ..).trans (if_pos rfl)

/-- Settles O37, operation by operation. -/
theorem clockHostOperations : Obligations.ClockHostOperations := by
  intro s
  refine ⟨fun l => rfl, startClock_of_no_listeners, fun hl hr => ?_, startClock_of_stopped, fun p n d hn => ?_,
    fun n d hn hd => newDivider_of_pos hn hd none s, ⟨disposeClock s, rfl, ?_, rfl, rfl⟩, fun u => ⟨disposeUnit u s, rfl, ?_, ?_⟩⟩
  · have hfails : hostOp .start s = .failed .clockAlreadyStarted := startClock_of_running hl hr
    exact ⟨hfails, hostStep_of_failed hfails rfl⟩
  · have hfails : hostOp (.newDivider p n d) s = .failed .invalidDivisor := newDivider_refused hn p d s
    exact ⟨hfails, hostStep_of_failed hfails rfl⟩
  · exact emit_disabled_of_disposed rfl
  · simp [enabled, unitEnabled, unit_disposeUnit]
  · rw [unit_disposeUnit]

end Sys2Proof.Machine

namespace Sys2Proof.Machine

/-! ## Dispatch over the bus table (R252, R253, R255, R256, R258) -/

/-- The components over an address are those of the table's entries that cover it. -/
theorem componentsAt_eq_map_filter (a : Addr) (table : List BusEntry) :
    componentsAt a table = (table.filter (·.covers a)).map (·.component) := by
  induction table with
  | nil => rfl
  | cons e rest ih => cases he : e.covers a <;> simp [componentsAt, he, ih]

/-- R252: a write calls every writable entry over the address in turn. -/
theorem busWrite_eq_foldl_filter (a : Addr) (v : Byte) (s : State) :
    busWrite a v s = (s.bus.filter fun e => e.covers a && e.component.caps.writable).foldl
      (fun t e => componentWrite e.component a v t) s := by
  rw [(busAccess_of_componentsAt (componentsAt_eq_map_filter a s.bus) v).2, List.foldl_map, ← List.foldl_filter,
    List.filter_filter]
  simp only [Bool.and_comm]

/-- R253: a read calls the first readable entry over the address. -/
theorem busRead_eq_head?_filter (a : Addr) (s : State) :
    busRead a s = ((s.bus.filter fun e => e.covers a && e.component.caps.readable).head?.elim (0, s)
      fun e => componentRead e.component a s) := by
  rw [(busAccess_of_componentsAt (componentsAt_eq_map_filter a s.bus) 0).1, List.find?_map, ← List.head?_filter,
    List.filter_filter, Option.elim_map]
  simp only [Function.comp_def, Bool.and_comm]

theorem firstCapable_eq_find? (cap : Caps → Bool) (table : List BusEntry) :
    firstCapable cap table = (table.find? fun e => cap e.component.caps).map (·.component) := by
  induction table with
  | nil => rfl
  | cons e rest ih => cases hc : cap e.component.caps <;> simp [firstCapable, hc, ih]

/-- R255, R256: of several capable components the one attached first takes the signal. -/
theorem firstCapable_append_cons {cap : Caps → Bool} {pre post : List BusEntry} {e : BusEntry}
    (hpre : ∀ d ∈ pre, cap d.component.caps = false) (he : cap e.component.caps = true) :
    firstCapable cap (pre ++ e :: post) = some e.component := by
  have hfind : (pre ++ e :: post).find? (fun d => cap d.component.caps) = some e :=
    List.find?_eq_some_iff_append.mpr ⟨he, pre, post, rfl, fun d hd => by rw [hpre d hd, Bool.not_false]⟩
  rw [firstCapable_eq_find?, hfind, Option.map_some]

theorem firstCapable_eq_none {cap : Caps → Bool} {table : List BusEntry} (h : ∀ e ∈ table, cap e.component.caps = false) :
    firstCapable cap table = none := by
  have hfind : table.find? (fun e => cap e.component.caps) = none :=
    List.find?_eq_none.mpr fun e he => Bool.eq_false_iff.mp (h e he)
  rw [firstCapable_eq_find?, hfind, Option.map_none]

/-! ### Who takes a signal -/

section
variable {x : ExtRun} {s : State}

theorem busIrqVia_of_cpu (h : firstCapable (·.irqCapable) s.bus = some .cpu) :
    busIrqVia x s = s.mapPend fun l => { l with irq := true } := by rw [busIrqVia, h]

theorem busIrqVia_of_ext {id : Nat} {caps : Caps} (h : firstCapable (·.irqCapable) s.bus = some (.ext id caps)) :
    busIrqVia x s = (x id .irq s).2 := by rw [busIrqVia, h]

theorem busIrqVia_of_none (h : firstCapable (·.irqCapable) s.bus = none) : busIrqVia x s = s := by rw [busIrqVia, h]

theorem busNmiVia_of_cpu (h : firstCapable (·.nmiCapable) s.bus = some .cpu) :
    busNmiVia x s = s.mapPend fun l => { l with nmi := true } := by rw [busNmiVia, h]

theorem busNmiVia_of_ext {id : Nat} {caps : Caps} (h : firstCapable (·.nmiCapable) s.bus = some (.ext id caps)) :
    busNmiVia x s = (x id .nmi s).2 := by rw [busNmiVia, h]

theorem busNmiVia_of_none (h : firstCapable (·.nmiCapable) s.bus = none) : busNmiVia x s = s := by rw [busNmiVia, h]

end

/-! ### The processor takes resets (R257, R258) -/

/-- The processor's first entry sets the latch, and nothing that a later component's reset does clears it. -/
theorem resetMatches_setsLatch {e : BusEntry} (hcpu : e.component = .cpu) {seen : List Component} (hseen : .cpu ∉ seen)
    {table : List BusEntry} (he : e ∈ table) (s : State) : (resetMatchesVia quietRun seen table s).pend.reset = true := by
  induction table generalizing seen s with
  | nil => cases he
  | cons d rest ih =>
    unfold resetMatchesVia
    by_cases hd : d.component = .cpu
    · rw [hd, if_neg (by simpa using hseen)]
      exact (keeps_closed.resetMatchesVia keeps_closed.quietRun _ rest _).reset rfl
    · have hrest : e ∈ rest := (List.mem_cons.mp he).resolve_left fun h => hd (h ▸ hcpu)
      split
      · exact ih hseen hrest s
      · exact ih (List.not_mem_cons_of_ne_of_not_mem (Ne.symm hd) hseen) hrest _

/-- Settles O38: accesses by the entries that the filters keep, signals by the first capable entry, and a reset by the latch,
which no component's reset clears. -/
theorem busDispatchesAccessesAndSignals : Obligations.BusDispatchesAccessesAndSignals := by
  refine ⟨fun a v s => ?access, fun x pre post e s hs => ⟨fun hpre he => ?irq, fun hpre he => ?nmi⟩,
    fun x s => ⟨fun h => busIrqVia_of_none (firstCapable_eq_none h), fun h => busNmiVia_of_none (firstCapable_eq_none h)⟩,
    fun s => ⟨rfl, rfl, fun h => resetMatches_setsLatch rfl List.not_mem_nil h s⟩, rfl, fun _ => rfl⟩
  case access =>
    intro covers
    have hcovers (e : BusEntry) : covers e = e.covers a := by
      obtain ⟨_ | ⟨lo, hi⟩, c⟩ := e <;> rfl
    simp only [hcovers]
    refine ⟨busWrite_eq_foldl_filter a v s, ?_⟩
    rw [busRead_eq_head?_filter]
    cases s.bus.filter fun e => e.covers a && e.component.caps.readable <;> rfl
  case irq =>
    have hfirst := hs ▸ firstCapable_append_cons (cap := (·.irqCapable)) (post := post) hpre he
    exact ⟨fun hc => busIrqVia_of_cpu (hc ▸ hfirst), fun id caps hc => busIrqVia_of_ext (hc ▸ hfirst)⟩
  case nmi =>
    have hfirst := hs ▸ firstCapable_append_cons (cap := (·.nmiCapable)) (post := post) hpre he
    exact ⟨fun hc => busNmiVia_of_cpu (hc ▸ hfirst), fun id caps hc => busNmiVia_of_ext (hc ▸ hfirst)⟩

/-! ## `Bus.Reset()` on the NES map (R257, R752) -/

/-- R255: where the processor is the first to take IRQ, a signal can only set its latch. -/
theorem signalIrqVia_of_cpu {x : ExtRun} {s : State} (h : firstCapable (·.irqCapable) s.bus = some .cpu) (irq : Bool) :
    signalIrqVia x irq s = s.mapPend fun l => { l with irq := l.irq || irq } := by
  cases irq with
  | false => simp [signalIrqVia, State.mapPend]
  | true => simp [signalIrqVia, busIrqVia_of_cpu h]

/-- What the mapper's own reset answers; a flat mapper's does nothing (R650, log 8). -/
def Cart.resetReply (c : Cart) : Config.ResetReply :=
  match c.mapper with
  | .flat _ _ _ => ⟨c.st, false⟩
  | .external id => Config.mapReset id c.st

section
variable {x : ExtRun} {s : State} (h : firstCapable (·.irqCapable) s.bus = some .cpu)
include h

theorem soundResetVia_of_cpu : soundResetVia x s =
    (s.setSound (Config.soundReset s.sound).st).mapPend fun l => { l with irq := l.irq || (Config.soundReset s.sound).irq } :=
  signalIrqVia_of_cpu (s := s.setSound (Config.soundReset s.sound).st) h _

theorem cartResetVia_of_cpu : cartResetVia x s =
    (s.mapCart fun c => { c with st := s.cart.resetReply.st }).mapPend fun l => { l with irq := l.irq || s.cart.resetReply.irq } := by
  unfold cartResetVia Cart.resetReply
  cases s.cart.mapper with
  | flat cpu ppu mirroring => simp [State.mapPend, State.mapCart]
  | external id => exact signalIrqVia_of_cpu (s := s.mapCart _) h _

end

/-- R104, R257: the sound generator's three entries count once, and work RAM's reset does nothing. -/
theorem busReset_defaultBus {s : State} (h : s.bus = State.defaultBus) :
    busReset s = cartResetVia quietRun (soundResetVia quietRun
      ((((s.mapPend fun l => { l with reset := true }).mapPpu Ppu.reset).mapPads fun _ => Pads.powerOn).setDma .idle)) := by
  unfold busReset busResetVia
  rw [h]
  rfl

/-- Settles O41: the components reset one after another, the signals of the last two reaching the processor's latch. -/
theorem busResetResetsComponents : Obligations.BusResetResetsComponents := by
  intro s hs
  have hcpu : firstCapable (·.irqCapable) s.bus = some .cpu := hs ▸ rfl
  rw [busReset_defaultBus hs, soundResetVia_of_cpu, cartResetVia_of_cpu]
  · simp only [State.mapPend, State.setSound, State.mapCart, State.setDma, State.mapPads, State.mapPpu]
    rfl
  all_goals simpa using hcpu

/-! ## Attaching, detaching and loading (R250, R251, R653, R676) -/

theorem addComponent_of_lt {lo hi : Addr} (h : hi.toNat < lo.toNat) (c : Component) (s : State) :
    addComponent c (some (lo, hi)) s = none := if_pos (BitVec.lt_def.mpr h)

theorem addComponent_of_le {lo hi : Addr} (h : lo.toNat ≤ hi.toNat) (c : Component) (s : State) :
    addComponent c (some (lo, hi)) s = some (s.setBus (s.bus ++ [⟨some (lo, hi), c⟩])) :=
  if_neg fun hlt => Nat.not_lt.mpr h (BitVec.lt_def.mp hlt)

theorem mem_removeComponent_bus {c : Component} {s : State} {e : BusEntry} :
    e ∈ (removeComponent c s).bus ↔ e ∈ s.bus ∧ e.component ≠ c := by
  simp [removeComponent]

theorem removeComponent_of_absent {c : Component} {s : State} (h : ∀ e ∈ s.bus, e.component ≠ c) : removeComponent c s = s := by
  have hfilter : s.bus.filter (fun e => e.component != c) = s.bus :=
    List.filter_eq_self.mpr fun e he => bne_iff_ne.mpr (h e he)
  rw [removeComponent, hfilter]
  rfl

/-- Settles O40, operation by operation; a refused one gives its caller the fault and changes nothing (R701). -/
theorem attachDetachAndLoad : Obligations.AttachDetachAndLoad := by
  intro c cart s
  refine ⟨fun lo hi h => ?refused, fun lo hi h => ?attached, rfl,
    ⟨removeComponent c s, rfl, fun _ => mem_removeComponent_bus, List.filter_sublist, removeComponent_of_absent⟩,
    rfl, hostStep_of_failed rfl rfl, rfl, rfl, rfl⟩
  case refused =>
    have hfails : hostOp (.addComponent c (some (lo, hi))) s = .failed .invalidRange := by
      simp only [hostOp, addComponent_of_lt h]
    exact ⟨hfails, hostStep_of_failed hfails rfl⟩
  case attached =>
    simp only [hostOp, addComponent_of_le h]
    rfl

end Sys2Proof.Machine

namespace Sys2Proof.Machine

/-! ## Steps of the processor alone (R280, R281) -/

section
variable {s : State}

/-- At a boundary where no interrupt is taken, and behind a sequence, the first CPU tick of a step is the opcode fetch. -/
theorem cpuTick_opcodeFetched {n : Nat} (he : s.cpu.eng = .boundary ∧ noneTaken s = true ∨ s.cpu.eng = .fetchNext)
    (h : cpuAlone (n + 1) s = true) (hr : runnable s (peek s.cpu.pc s) = true) (T : Table) :
    cpuTick T s = .next (opcodeFetched s) := by
  have hdma := cpuAlone_idle_dma h
  have hfetch : cpuHandler T (consume .cpu s) = fetchOpcode (retime s.cpu.eng 1 s) := by
    rcases he with ⟨he, hn⟩ | he
    · rw [handler_boundary hdma he, he]
      exact boundaryTick_none hn
    · rw [handler_fetchNext hdma he, he]
  rw [cpuTick_alone T h, hfetch, fetchOpcode_retime _ s hr, undone_next]

/-- What an opcode fetch makes of the state before the instruction is run (R281). -/
theorem opcodeFetched_cpu : (opcodeFetched s).cpu =
    { s.cpu with pc := s.cpu.pc + 1, eng := .inInstr (peek s.cpu.pc s) 2 {}, cycles := s.cpu.cycles + 1 } := by
  have hcpu : (fetchByte s).2.cpu = { s.cpu with pc := s.cpu.pc + 1 } := congrArg Cpu.incPc (busRead_cpu s.cpu.pc s)
  simp only [opcodeFetched, retimed, setEng, State.mapUnit, State.mapCpu, Cpu.setEng, hcpu, peek_fetch]

/-- Settles O25: the first CPU tick fetches the opcode, and what it leaves the engine in is the instruction decoded. -/
theorem stepRunsDecodedInstruction : Obligations.StepRunsDecodedInstruction := by
  intro s he h hr
  have hatRest : s.cpu.eng = .boundary ∨ s.cpu.eng = .fetchNext := he.imp_left And.left
  have hstep : step s = andThen (cpuTick [] s) afterFirstTick := by
    rcases hatRest with he | he <;> simp only [step, he]
  have hfirst : afterFirstTick (opcodeFetched s) = exec (decode (peek s.cpu.pc s)) (opcodeFetched s) := by
    simp only [afterFirstTick, opcodeFetched_cpu]
  refine ⟨?_, ?_, ?_, ?_, ?_⟩
  · rw [hstep, cpuTick_opcodeFetched he h hr, andThen, hfirst]
  all_goals rw [opcodeFetched_cpu]

end

/-! ## DMA ticks (R280, R341, R343) -/

/-- A DMA tick sets latches at most. -/
theorem dmaTick_keeps (page : Byte) (k : Nat) (data : Byte) (s : State) : Keeps s (dmaTick page k data s) :=
  dmaTick_rel (keeps_rel true) (fun _ _ => .of_eq rfl rfl) page k data s

theorem Keeps.latch {s t : State} (h : Keeps s t) :
    ∀ f ∈ [Pending.reset, Pending.nmi, Pending.irq], f s.pend = true → f t.pend = true := by
  simpa using ⟨h.reset, h.nmi, h.irq⟩

/-- The first tick of a DMA is its alignment tick or the one behind it; neither accesses the bus (R341, R342). -/
theorem startDma_eq (page : Byte) (n : Nat) (s : State) :
    startDma page n s = s.setDma (.active page (if dmaAligns s.params.dmaExtraOnOdd n then 2 else 3) 0) := by
  unfold startDma
  cases dmaAligns s.params.dmaExtraOnOdd n <;> rfl

theorem dmaAligns_iff (extraOnOdd : Bool) (n : Nat) :
    dmaAligns extraOnOdd n = true ↔ if extraOnOdd then n % 2 = 1 else n % 2 = 0 := by
  cases extraOnOdd <;> simp [dmaAligns]

theorem cpuHandler_of_active {T : Table} {s : State} {page data : Byte} {k : Nat} (h : s.dma = .active page k data) :
    cpuHandler T s = .next (dmaTick page k data (s.mapCpu Cpu.tick)) := by
  simp only [cpuHandler, State.mapCpu_dma, h]

theorem cpuHandler_of_requested {T : Table} {s : State} {page : Byte} (h : s.dma = .requested page) :
    cpuHandler T s = if nextTickWrites T s.cpu.eng then engineTick T (s.mapCpu Cpu.tick)
      else .next (startDma page s.cpu.cycles (s.mapCpu Cpu.tick)) := by
  simp only [cpuHandler, State.mapCpu_dma, h]
  rfl

/-- The engine's own ticks ask for a DMA at most. -/
theorem engineTick_unstarted {s t : State} (h : engineTick (currentTable s) (s.mapCpu Cpu.tick) = .next t)
    (hs : s.dma.unstarted) : t.dma.unstarted := by
  have hT : TableRel (fun s t => s.dma.unstarted → t.dma.unstarted) (currentTable s) := by
    unfold currentTable
    split
    · exact ticks_rel unstarted_rel _ (.inl rfl)
    all_goals exact tableRel_nil
  exact engineTick_rel unstarted_rel (fun _ _ => id) hT h hs

/-- Settles O59: a DMA tick is a bus access between changes of the DMA state, and the engine's tick starts no DMA. -/
theorem dmaHoldsProcessor : Obligations.DmaHoldsProcessor := by
  intro T s t h
  refine ⟨?active, ?starts, ?writes⟩
  case active =>
    rintro ⟨page, k, data, hd⟩
    rw [cpuHandler_of_active hd] at h
    cases h
    exact ⟨dmaTick_cpu .., ((mapCpu_keeps Cpu.tick s).trans (dmaTick_keeps ..)).latch⟩
  case starts =>
    rintro ⟨page, hd⟩ hw
    rw [cpuHandler_of_requested hd, hw, if_neg Bool.false_ne_true, startDma_eq] at h
    cases h
    refine ⟨rfl, page, _, hd, rfl, ?_, (Keeps.of_eq rfl rfl).latch⟩
    exact ite_congr (propext (dmaAligns_iff _ _)) (fun _ => rfl) (fun _ => rfl)
  case writes =>
    rintro rfl ⟨page, hd⟩ hw page' k data ht
    rw [cpuHandler_of_requested hd, hw, if_pos rfl] at h
    have hun : t.dma.unstarted := engineTick_unstarted h (hd ▸ trivial)
    rw [ht] at hun
    exact hun

/-! ## Forms that store nothing (R283) -/

/-- The memories are those of `s` through every transition of the run: no tick stores, and no DMA is asked for. -/
theorem sameMem_run {i : Instr} (hi : i.storesNothing = true) {s : State} (hdma : s.dma = .idle)
    (hn : noExternal s.bus = true) : CalmInvariant (Own SameMem s) (tableOf i) where
  other _ _ _ h _ he hf :=
    have ⟨hc, hm⟩ := fire_calm he hf
    same_rel.trans h ⟨hc.bus, fun hn => (hm hn).1⟩
  tick k hk lat u h hu :=
    ⟨same_rel.trans h (ticks_rel same_rel i (.inr hi) k hk lat u),
      (ticks_rel (calm_rel false) i (.inr hi) k hk lat u).schedule.trans hu⟩
  eng _ _ h := same_rel.trans h (same_rel.cpu _ _)
  cyc _ h := same_rel.trans h ⟨rfl, fun _ => ⟨rfl, rfl, rfl, rfl, rfl, rfl⟩⟩
  dma _ _ _ _ h hd := absurd ((h.2 hn).dma.trans hdma) hd
  setDma _ _ h hd := absurd ((h.2 hn).dma.trans hdma) hd

/-- Settles O22: what the memories are is kept by every transition of the run. -/
theorem nonStoringFormsKeepMemory : Obligations.NonStoringFormsKeepMemory := by
  intro i s t hi hsch hdma hn h
  obtain ⟨⟨hbus, hmem⟩, -⟩ := run_calm_inv (sameMem_run hi hdma hn) (same_rel.refl s) hsch (exec_run h)
  obtain ⟨hram, hprg, hchr, hppu, hoam, hdma'⟩ := hmem hn
  refine ⟨⟨hram, hprg, hchr, hppu, hoam⟩, hdma'.trans hdma, fun a ha => ?_⟩
  have hta : ramBacked t a = true := by rwa [ramBacked, hbus]
  rw [peek_ram ha, peek_ram hta, hram]

end Sys2Proof.Machine

namespace Sys2Proof.Machine

/-! ## Jumps, calls and returns (R300, R451-R454) -/

section
variable {s : State} (h : cpuAlone 8 s = true)

/-- The stack address as R12 writes it. -/
theorem stackAddr_eq (s : State) : stackAddr s = 0x0100 + zext s.cpu.sp := join_one s.cpu.sp

include h

theorem exec_jmp_abs_alone : exec (.jmp .abs) s = .next (
    let lo := fetchByte s
    let hi := busRead lo.2.cpu.pc lo.2
    finish 2 (hi.2.mapCpu (Cpu.setPc (join hi.1 lo.1)))) := by
  have hT := jmpAbsTicks_timeless
  show run (.jmp .abs) jmpAbsTicks s = _
  rw [run_wf rfl]
  exact (alone_more hT h (by omega) rfl rfl).trans <| alone_done hT (cpuAlone_fetchByte h) (by omega) rfl rfl

theorem exec_jmp_ind_alone : exec (.jmp .ind) s = .next (
    let l := fetchByte s
    let m := fetchByte l.2
    let lo := busRead (join m.1 l.1) m.2
    let hi := busRead (join m.1 (l.1 + 1)) lo.2
    finish 4 (hi.2.mapCpu (Cpu.setPc (join hi.1 lo.1)))) := by
  have hT := jmpIndTicks_timeless
  have hl := cpuAlone_fetchByte h
  have hm := cpuAlone_fetchByte hl
  show run (.jmp .ind) jmpIndTicks s = _
  rw [run_wf rfl]
  refine (alone_more hT h (by omega) rfl rfl).trans ?_
  refine (alone_more hT hl (by omega) rfl rfl).trans ?_
  refine (alone_more hT hm (by omega) rfl rfl).trans ?_
  exact alone_done hT (cpuAlone_busRead hm _) (by omega) rfl rfl

theorem exec_jsr_alone (hd : dmaOffStack s.bus = true) : exec .jsr s = .next (
    let lo := fetchByte s
    let r := dummyRead (stackAddr lo.2) lo.2
    let u := push (hiByte r.cpu.pc) r
    let u := push (loByte u.cpu.pc) u
    let hi := busRead u.cpu.pc u
    finish 5 (hi.2.mapCpu (Cpu.setPc (join hi.1 lo.1)))) := by
  have hT := jsrTicks_timeless
  have hl := cpuAlone_fetchByte h
  have hr := cpuAlone_dummyRead hl (stackAddr (fetchByte s).2)
  have hbus : dmaOffStack (dummyRead (stackAddr (fetchByte s).2) (fetchByte s).2).bus = true := by
    rwa [dummyRead_bus, fetchByte_bus]
  have hp := cpuAlone_push hr hbus
  have hq := fun v => cpuAlone_push (hp v) (by rwa [push_bus])
  show run .jsr jsrTicks s = _
  rw [run_wf rfl]
  exact (alone_more hT h (by omega) rfl rfl).trans <| (alone_more hT hl (by omega) rfl rfl).trans <|
    (alone_more hT hr (by omega) rfl rfl).trans <| (alone_more hT (hp _) (by omega) rfl rfl).trans <|
    alone_done hT (hq _ _) (by omega) rfl rfl

theorem exec_rts_alone : exec .rts s = .next (
    let lo := readStack (openPull (idle s))
    let u := lo.2.mapCpu Cpu.incSp
    let hi := readStack u
    let u := hi.2.mapCpu (Cpu.setPc (join hi.1 lo.1))
    finish 5 ((idle u).mapCpu Cpu.incPc)) := by
  have hT := rtsTicks_timeless
  have hi := cpuAlone_idle h
  have hp := cpuAlone_openPull hi
  have hlo := cpuAlone_mapCpu (cpuAlone_readStack hp) Cpu.incSp
  have hhi := fun g => cpuAlone_mapCpu (cpuAlone_readStack hlo) g
  show run .rts rtsTicks s = _
  rw [run_wf rfl]
  exact (alone_more hT h (by omega) rfl rfl).trans <| (alone_more hT hi (by omega) rfl rfl).trans <|
    (alone_more hT hp (by omega) rfl rfl).trans <| (alone_more hT hlo (by omega) rfl rfl).trans <|
    alone_done hT (hhi _) (by omega) rfl rfl

theorem exec_rti_alone_done : exec .rti s = .next (
    let p := statusPulled s
    let u := p.2.mapCpu fun c => (c.setP (pushedByInterrupt p.1)).incSp
    let lo := readStack u
    let u := lo.2.mapCpu Cpu.incSp
    let hi := readStack u
    finish 5 (hi.2.mapCpu (Cpu.setPc (join hi.1 lo.1)))) := by
  have hT := rtiTicks_timeless
  have hp := fun g => cpuAlone_mapCpu (cpuAlone_readStack (cpuAlone_openPull (cpuAlone_idle h))) g
  have hlo := fun g => cpuAlone_mapCpu (cpuAlone_readStack (hp g)) Cpu.incSp
  rw [exec_rti_alone h]
  refine (alone_more hT (hp _) (by omega) rfl rfl).trans ?_
  exact alone_done hT (hlo _) (by omega) rfl rfl

end

@[simp] theorem fetchByte_cpu (s : State) : (fetchByte s).2.cpu = s.cpu.incPc := congrArg Cpu.incPc (busRead_cpu s.cpu.pc s)

/-- JMP has an opcode in two modes (R161, R300, R451). -/
theorem encode_jmp (m : Mode) : encode (.jmp m) = if m = .abs then some 0x4C else if m = .ind then some 0x6C else none := by
  cases m <;> rfl

/-- Settles O14: each table's ticks in order; the registers that change between the bus accesses do not enter them. -/
theorem jumpsCallsAndReturns : Obligations.JumpsCallsAndReturns := by
  refine ⟨encodedAs_of ?rows, encodedBy_of rfl, encodedBy_of rfl, encodedBy_of rfl, fun s h =>
    ⟨?jmpAbs, ?jmpInd, fun hd => ?jsr, ?rts, ?rti⟩⟩
  case rows =>
    intro m op
    rw [encode_jmp]
    cases m <;> simp [eq_comm]
  case jmpAbs =>
    rw [exec_jmp_abs_alone h]
    simp only [fetchByte_cpu]
    rfl
  case jmpInd =>
    rw [exec_jmp_ind_alone h]
    simp only [fetchWord, hi_join, lo_join]
    rfl
  case jsr =>
    rw [exec_jsr_alone h hd]
    simp [push, stackAddr_eq, busWrite_mapCpu, busRead_mapCpu, mapCpu_mapCpu, Cpu.incPc, Cpu.decSp, Cpu.setPc, Cpu.setSp,
      BitVec.sub_sub]
  case rts =>
    rw [exec_rts_alone h]
    simp [openPull, readStack, stackAddr_eq, idle, dummyRead_mapCpu, busRead_mapCpu, mapCpu_mapCpu, Cpu.incPc, Cpu.incSp,
      Cpu.setPc, Cpu.setSp, BitVec.add_assoc]
  case rti =>
    rw [exec_rti_alone_done h]
    simp [statusPulled, openPull, readStack, stackAddr_eq, idle_cpu, busRead_mapCpu, mapCpu_mapCpu, pushedByInterrupt_eq,
      Cpu.incSp, Cpu.setPc, Cpu.setSp, Cpu.setP, BitVec.add_assoc]

end Sys2Proof.Machine

namespace Sys2Proof.Machine

/-! ## Stores (R293-R298, R354-R356, R410, R411, R416-R419) -/

/-- From `s` on nothing was stored but at `a`; work RAM is canonical and no component runs code of its own. -/
structure StoresAt (a : Addr) (s t : State) : Prop where
  only     : storesOnlyAt a s t
  wf       : t.ram.wf = true
  external : noExternal t.bus = true

section
variable {a : Addr} {s t : State}

theorem StoresAt.busRead (h : StoresAt a s t) (b : Addr) : StoresAt a s (busRead b t).2 where
  only := storesOnlyAt_trans h.only (storesOnlyAt_read a b h.external)
  wf := by rw [(busRead_readsOnly h.external b).ram]; exact h.wf
  external := by rw [busRead_bus]; exact h.external

theorem StoresAt.busWrite (h : StoresAt a s t) (v : Byte) : StoresAt a s (busWrite a v t) where
  only := storesOnlyAt_trans h.only (busWrite_storesOnlyAt h.external h.wf).1
  wf := (busWrite_storesOnlyAt h.external h.wf).2
  external := by rw [busWrite_bus]; exact h.external

theorem StoresAt.dummyWrite (h : StoresAt a s t) (v : Byte) : StoresAt a s (dummyWrite a v t) := by
  unfold Machine.dummyWrite
  split
  · exact h.busWrite v
  · exact h

theorem StoresAt.mapCpu (h : StoresAt a s t) (g : Cpu → Cpu) : StoresAt a s (t.mapCpu g) :=
  ⟨storesOnlyAt_trans h.only (storesOnlyAt_cpu a g t), h.wf, h.external⟩

theorem StoresAt.modifyAt (h : StoresAt a s t) (mod : ModOp) : StoresAt a s (modifyAt mod a t) :=
  (((h.busRead a).dummyWrite _).mapCpu _).busWrite _

theorem storesOnlyAt_bus : storesOnlyAt a s t → t.bus = s.bus := fun ⟨_, _, _, _, _, _, _, _, hbus, _⟩ => hbus

/-- Finding the address reads the bus only. -/
theorem storesAt_locate (hw : s.ram.wf = true) (hn : noExternal s.bus = true) (always : Bool) (m : Mode) :
    StoresAt a s (locate always m s).state :=
  have ⟨honly, hram⟩ := locate_storesOnlyAt a always m hn
  ⟨honly, hram ▸ hw, storesOnlyAt_bus honly ▸ hn⟩

end

/-- A store with the processor alone: one write of the address that its mode gives. -/
theorem run_writeForm_storesOnlyAt {i : Instr} {m : Mode} {val : Cpu → Byte} {s t : State} (hw : i.wf = true)
    (hm : m ∈ [Mode.indx, .zp, .abs, .indy, .zpx, .zpy, .absy, .absx]) (hv : timelessVal val) (h : cpuAlone 8 s = true)
    (hr : s.ram.wf = true) (ht : run i (writeForm m val) s = .next t) : storesOnlyAt (locate true m s).ea s t := by
  rw [run_writeForm hw hm hv h] at ht
  cases ht
  exact storesOnlyAt_finish ((storesAt_locate hr (cpuAlone_noExternal h) true m).busWrite _).only

/-- A read-modify-write with the processor alone: a read, a write-back and a write, all of one address. -/
theorem run_rmwForm_storesOnlyAt {i : Instr} {m : Mode} {mod : ModOp} {s t : State} (hw : i.wf = true) (hm : m ∈ rmwModes)
    (hv : timelessMod mod) (h : cpuAlone 8 s = true) (hr : s.ram.wf = true) (ht : run i (rmwForm m mod) s = .next t) :
    storesOnlyAt (locate true m s).ea s t := by
  rw [run_rmwForm hw hm hv h] at ht
  cases ht
  exact storesOnlyAt_finish ((storesAt_locate hr (cpuAlone_noExternal h) true m).modifyAt mod).only

/-- The modes that a well-formed store has (R161). -/
theorem mode_of_store_wf {m : Mode} (h : (Instr.sta m).wf = true ∨ (Instr.stx m).wf = true ∨ (Instr.sty m).wf = true) :
    m ∈ [Mode.indx, .zp, .abs, .indy, .zpx, .zpy, .absy, .absx] := by
  revert h; cases m <;> decide

/-- The modes that a well-formed shift has in memory (R161). -/
theorem mode_of_shift_wf {m : Mode} (h : (Instr.asl m).wf = true) (hacc : m ≠ .acc) : m ∈ rmwModes := by
  revert h hacc; cases m <;> decide

theorem timelessMod_result (g : Byte → Byte) : timelessMod fun v c => c.result (g v) :=
  fun _ => ⟨fun _ _ _ => rfl, fun _ _ _ => rfl, fun _ => rfl⟩

theorem timelessMod_shifted (out : Byte → Bool) (g : Byte → Bool → Byte) :
    timelessMod fun v c => c.shifted (out v) (g v (flag .c c.p)) :=
  fun _ => ⟨fun _ _ _ => rfl, fun _ _ _ => rfl, fun _ => rfl⟩

/-- Settles O23: each of the nine is a write form or a read-modify-write form. -/
theorem storesTouchOnlyTheirAddress : Obligations.StoresTouchOnlyTheirAddress := by
  intro mk m s t hmk hw hacc h hr ht
  simp only [List.mem_cons, List.not_mem_nil, or_false] at hmk
  rcases hmk with rfl | rfl | rfl | rfl | rfl | rfl | rfl | rfl | rfl
  · exact run_writeForm_storesOnlyAt hw (mode_of_store_wf (.inl hw)) (fun _ _ _ => rfl) h hr ht
  · exact run_writeForm_storesOnlyAt hw (mode_of_store_wf (.inr (.inl hw))) (fun _ _ _ => rfl) h hr ht
  · exact run_writeForm_storesOnlyAt hw (mode_of_store_wf (.inr (.inr hw))) (fun _ _ _ => rfl) h hr ht
  · exact run_rmwForm_storesOnlyAt hw (List.contains_iff_mem.mp hw) (timelessMod_result (· + 1)) h hr ht
  · exact run_rmwForm_storesOnlyAt hw (List.contains_iff_mem.mp hw) (timelessMod_result (· - 1)) h hr ht
  · exact run_rmwForm_storesOnlyAt hw (mode_of_shift_wf hw hacc) (timelessMod_shifted _ fun v _ => v <<< 1) h hr ht
  · exact run_rmwForm_storesOnlyAt hw (mode_of_shift_wf hw hacc) (timelessMod_shifted _ fun v _ => v >>> 1) h hr ht
  · exact run_rmwForm_storesOnlyAt hw (mode_of_shift_wf hw hacc)
      (timelessMod_shifted _ fun v b => (v <<< 1) ||| (BitVec.ofBool b).setWidth 8) h hr ht
  · exact run_rmwForm_storesOnlyAt hw (mode_of_shift_wf hw hacc)
      (timelessMod_shifted _ fun v b => (v >>> 1) ||| ((BitVec.ofBool b).setWidth 8 <<< 7)) h hr ht

end Sys2Proof.Machine

namespace Sys2Proof.Machine

/-! ## The sequences at a boundary (R282, R330, R335) -/

/-- A step from `s` has begun the sequence and taken `k` more of its ticks, with the latches `lat` and the effects `t`. -/
def InSequence (kind : Sequence) (s : State) (k : Nat) (lat : Lat) (t : State) : Prop :=
  ∀ f, andThen (cpuTick [] s) (runTicks [] (f + k)) = runTicks [] f (retime (.inSeq kind (k + 2) lat) (k + 1) t)

section
variable {kind : Sequence} {s t u v : State} {k : Nat} {lat lat' : Lat} {j : Tick}

/-- The sequence that a boundary begins has taken its first tick. -/
theorem InSequence.first (he : s.cpu.eng = .boundary) (ha : cpuAlone 8 s = true)
    (hb : boundaryTick (retime .boundary 1 s) = .next (enterSeq kind (retime .boundary 1 v)))
    (hj : kind.table[0]? = some j) (hact : j.act { vec := kind.vector } v = .more lat t) : InSequence kind s 0 lat t := by
  have hseq : enterSeq kind (retime .boundary 1 v) = retime (.inSeq kind 2 lat) 1 t := by
    rw [enterSeq, seqTick_retime]
    simp only [runTick, hj, hact]
  intro f
  rw [cpuTick_alone [] (n := 7) ha, handler_boundary (cpuAlone_idle_dma ha) he, hb, hseq]
  rfl

/-- One more tick of the sequence. -/
theorem InSequence.next (h : InSequence kind s k lat t) (ha : cpuAlone 8 t = true) (hk : k < 7)
    (hj : kind.table[k + 1]? = some j) (hact : j.act lat t = .more lat' u) : InSequence kind s (k + 1) lat' u := by
  intro f
  rw [← Nat.add_assoc, Nat.add_right_comm, h (f + 1)]
  exact seq_more ha (by omega) hj hact

/-- The last tick of the sequence ends the step. -/
theorem InSequence.done (h : InSequence kind s k lat t) (he : s.cpu.eng = .boundary) (ha : cpuAlone 8 t = true) (hk : k < 7)
    (hj : kind.table[k + 1]? = some j) (hact : j.act lat t = .done u) {lat₁ : Lat} {t₁ : State}
    (h₁ : InSequence kind s 0 lat₁ t₁) : step s = .next (finishSeq (k + 2) u) := by
  have hfirst : andThen (cpuTick [] s) .next = .next (retime (.inSeq kind 2 lat₁) 1 t₁) := h₁ 0
  obtain ⟨r, hr, hr₁⟩ := andThen_next hfirst
  cases hr₁
  have hstep : step s = andThen (cpuTick [] s) (runTicks [] tickBudget) := by
    simp only [step, he, hr, andThen, afterFirstTick, retime_eng]
  rw [hstep, show tickBudget = 1099 - k + 1 + k by rw [tickBudget]; omega, h]
  exact seq_done ha (by omega) hj hact

/-- The effects after a tick that is not the last. -/
theorem InSequence.timed (h : InSequence kind s k lat t) : ∃ lat,
    andThen (cpuTick [] s) (runTicks [] k) = .next (retimed (k + 1) (setEng (.inSeq kind (k + 2) lat) t)) := by
  have h0 := h 0
  rw [Nat.zero_add] at h0
  exact ⟨lat, h0⟩

end

theorem forall_getElem?_cons {α : Type} {P : Nat → α → Prop} (x : α) (xs : List α) :
    (∀ k t, (x :: xs)[k]? = some t → P k t) ↔ P 0 x ∧ ∀ k t, xs[k]? = some t → P (k + 1) t := by
  constructor
  · exact fun h => ⟨h 0 x rfl, fun k t ht => h (k + 1) t ht⟩
  · rintro ⟨h0, h⟩ (_ | k) t ht
    · cases ht; exact h0
    · exact h k t ht

theorem forall_getElem?_nil {α : Type} {P : Nat → α → Prop} : (∀ k t, ([] : List α)[k]? = some t → P k t) ↔ True := by
  simp

@[simp] theorem push_cpu (b : Byte) (s : State) : (push b s).cpu = s.cpu.decSp :=
  congrArg Cpu.decSp (busWrite_cpu (stackAddr s) b s)

section
variable {s v : State} (he : s.cpu.eng = .boundary) (ha : cpuAlone 8 s = true) (hv : cpuAlone 8 v = true)
include he ha hv

/-- R330: NMI and IRQ, from the state with the latch cleared. -/
theorem interrupt_entered {kind : Sequence} (hk : kind ≠ .reset) (hd : dmaOffStack v.bus = true)
    (hb : boundaryTick (retime .boundary 1 s) = .next (enterSeq kind (retime .boundary 1 v))) :
    step s = .next (finishSeq 7 (enterHandler (statusPlus 0x20) kind.vector (idle (idle v)))) ∧ entersBy kind v s := by
  have htable : kind.table = interruptTable := by
    cases kind with
    | reset => exact absurd rfl hk
    | nmi | irq => rfl
  have a1 := cpuAlone_idle hv
  have a2 := cpuAlone_idle a1
  have hbus : dmaOffStack (idle (idle v)).bus = true := by rwa [idle, dummyRead_bus, idle, dummyRead_bus]
  have a3 (b : Byte) := cpuAlone_push a2 hbus b
  have a4 (b c : Byte) := cpuAlone_push (a3 b) (by rwa [push_bus]) c
  have a5 (b c d : Byte) := cpuAlone_push (a4 b c) (by rwa [push_bus, push_bus]) d
  have a6 (b c d : Byte) := cpuAlone_mapCpu (cpuAlone_busRead (a5 b c d) kind.vector) (Cpu.putFlag .i true)
  have t1 : InSequence kind s 0 _ (idle v) := InSequence.first he ha hb (by rw [htable]; rfl) rfl
  have t2 : InSequence kind s 1 _ (idle (idle v)) := t1.next a1 (by omega) (by rw [htable]; rfl) rfl
  have t3 := t2.next a2 (by omega) (by rw [htable]; rfl) rfl
  have t4 := t3.next (a3 _) (by omega) (by rw [htable]; rfl) rfl
  have t5 := t4.next (a4 _ _) (by omega) (by rw [htable]; rfl) rfl
  have t6 := t5.next (a5 _ _ _) (by omega) (by rw [htable]; rfl) rfl
  have hstatus : pushedByInterrupt = statusPlus 0x20 := funext pushedByInterrupt_eq
  refine ⟨?_, ?_⟩
  · rw [t6.done he (a6 _ _ _) (by omega) (by rw [htable]; rfl) rfl t1, hstatus]
    rfl
  · have hticks := And.intro t1.timed (And.intro t2.timed (And.intro t3.timed (And.intro t4.timed (And.intro t5.timed t6.timed))))
    simp only [push_cpu, idle_cpu, Cpu.decSp_pc, Cpu.decSp_p, hstatus] at hticks
    cases kind with
    | reset => exact absurd rfl hk
    | nmi | irq => simpa only [entersBy, entryStates, forall_getElem?_cons, forall_getElem?_nil, and_true] using hticks

omit hv in
/-- R335: reset. -/
theorem reset_entered (hb : boundaryTick (retime .boundary 1 s) = .next (enterSeq .reset (retime .boundary 1 s))) :
    step s = .next (
      let u := (s.mapCpu fun c => { c with a := 0, x := 0, y := 0, sp := 0xFD, p := 0x24 }).mapPend fun _ =>
        ⟨false, false, false⟩
      let lo := busRead 0xFFFC u
      let hi := busRead 0xFFFD lo.2
      finishSeq 8 (hi.2.mapCpu fun c => { c with pc := join hi.1 lo.1 })) ∧ entersBy .reset s s := by
  have a1 : cpuAlone 8 (resetRegisters s) = true := cpuAlone_pend (cpuAlone_mapCpu ha _) _
  have a7 := cpuAlone_busRead a1 0xFFFC
  have t1 : InSequence .reset s 0 _ (resetRegisters s) := InSequence.first he ha hb rfl rfl
  have t2 : InSequence .reset s 1 _ (resetRegisters s) := t1.next a1 (by omega) rfl rfl
  have t3 : InSequence .reset s 2 _ (resetRegisters s) := t2.next a1 (by omega) rfl rfl
  have t4 : InSequence .reset s 3 _ (resetRegisters s) := t3.next a1 (by omega) rfl rfl
  have t5 : InSequence .reset s 4 _ (resetRegisters s) := t4.next a1 (by omega) rfl rfl
  have t6 : InSequence .reset s 5 _ (resetRegisters s) := t5.next a1 (by omega) rfl rfl
  have t7 : InSequence .reset s 6 _ (busRead 0xFFFC (resetRegisters s)).2 := t6.next a1 (by omega) rfl rfl
  refine ⟨t7.done he a7 (by omega) rfl rfl t1, ?_⟩
  simp only [entersBy, entryStates, List.replicate, List.cons_append, List.nil_append, forall_getElem?_cons,
    forall_getElem?_nil, and_true]
  exact ⟨t1.timed, t2.timed, t3.timed, t4.timed, t5.timed, t6.timed, t7.timed⟩

end

/-- Settles O27: the boundary begins the sequence of the first latch, and the ticks of the sequence follow its table. -/
theorem boundaryTakesResetNmiIrqInOrder : Obligations.BoundaryTakesResetNmiIrqInOrder := by
  intro s he ha
  refine ⟨?reset, ?nmi, ?irq, ?fetch, rfl⟩
  case reset =>
    intro hr
    have hr' : (retime .boundary 1 s).pend.reset = true := hr
    exact reset_entered he ha (by rw [boundaryTick, if_pos hr'])
  case nmi =>
    intro hr hn hd
    have hr' : (retime .boundary 1 s).pend.reset = false := hr
    have hn' : (retime .boundary 1 s).pend.nmi = true := hn
    exact interrupt_entered (kind := .nmi) he ha (cpuAlone_pend ha fun l => { l with nmi := false }) nofun hd
      (by rw [boundaryTick, hr', if_neg Bool.false_ne_true, if_pos hn']; rfl)
  case irq =>
    intro hr hn hq hi hd
    have hr' : (retime .boundary 1 s).pend.reset = false := hr
    have hn' : (retime .boundary 1 s).pend.nmi = false := hn
    have hq' : ((retime .boundary 1 s).pend.irq && !flag .i (retime .boundary 1 s).cpu.p) = true := by
      rw [Bool.and_eq_true, Bool.not_eq_true']
      exact ⟨hq, hi⟩
    exact interrupt_entered (kind := .irq) he ha (cpuAlone_pend ha fun l => { l with irq := false }) nofun hd
      (by rw [boundaryTick, hr', if_neg Bool.false_ne_true, hn', if_neg Bool.false_ne_true, if_pos hq']; rfl)
  case fetch => exact fun hn hrun => cpuTick_opcodeFetched (n := 7) (.inl ⟨he, hn⟩) ha hrun []

end Sys2Proof.Machine

namespace Sys2Proof.Machine

/-! ## The stack over plain work RAM (R330, R454, R714) -/

/-- The work RAM cell of a stack pointer (R12, R105). -/
def stackCell (p : Byte) : Nat := ramCell (0x0100 + zext p)

theorem stackCell_eq (p : Byte) : stackCell p = 0x100 + p.toNat := by revert p; decide

theorem stackCell_inj {p q : Byte} : stackCell p = stackCell q ↔ p = q := by
  rw [stackCell_eq, stackCell_eq, Nat.add_left_cancel_iff, BitVec.toNat_inj]

theorem exists_of_firstMatch {cap : Caps → Bool} {a : Addr} {table : List BusEntry} {c : Component}
    (h : firstMatch cap a table = some c) : ∃ e ∈ table, e.covers a = true ∧ e.component = c := by
  rw [firstMatch_eq_find_componentsAt, componentsAt_eq_map_filter] at h
  obtain ⟨e, he, hc⟩ := List.mem_map.mp (List.mem_of_find?_eq_some h)
  obtain ⟨hmem, hcov⟩ := List.mem_filter.mp he
  exact ⟨e, hmem, hcov, hc⟩

/-- Writes of one byte by work RAM entries leave it in its cell. -/
theorem read_foldl_componentWrite {a : Addr} {v : Byte} {es : List BusEntry} (hes : ∀ e ∈ es, e.component = .ram) {s : State}
    (hw : s.ram.wf = true) (hv : es ≠ [] ∨ s.ram.read (ramCell a) = v) :
    (es.foldl (fun t e => componentWrite e.component a v t) s).ram.read (ramCell a) = v := by
  induction es generalizing s with
  | nil => exact hv.resolve_left (absurd rfl)
  | cons e rest ih =>
    rw [List.foldl_cons, hes e List.mem_cons_self]
    exact ih (fun d hd => hes d (List.mem_cons_of_mem _ hd)) (Memory.wf_write hw _ _) (.inr (Memory.read_write_same hw _ _))

/-- A write to plain work RAM is read back. -/
theorem busWrite_plainRam {s : State} {a : Addr} (h : plainRam s a = true) (hw : s.ram.wf = true) (v : Byte) :
    (busWrite a v s).ram.read (ramCell a) = v := by
  obtain ⟨hback, honly⟩ := Bool.and_eq_true_iff.mp h
  obtain ⟨e, he, hcov, hram⟩ := exists_of_firstMatch (beq_iff_eq.mp hback)
  rw [busWrite_eq_foldl_filter]
  refine read_foldl_componentWrite (fun d hd => ?_) hw (.inl (List.ne_nil_of_mem (List.mem_filter.mpr ⟨he, ?_⟩)))
  · obtain ⟨hd, hcovers⟩ := List.mem_filter.mp hd
    obtain ⟨hcov, hwr⟩ := Bool.and_eq_true_iff.mp hcovers
    simpa [hcov, hwr] using List.all_eq_true.mp honly d hd
  · rw [hcov, hram]; rfl

/-- Work RAM is canonical and alone in the stack page, and no component runs code of its own. -/
structure PlainStack (s : State) : Prop where
  plain    : ∀ b : Byte, plainRam s (0x0100 + zext b) = true
  wf       : s.ram.wf = true
  external : noExternal s.bus = true

section
variable {s t : State} (h : PlainStack s)
include h

theorem PlainStack.of_eq (hbus : t.bus = s.bus) (hram : t.ram = s.ram) : PlainStack t where
  plain b := by rw [plainRam_of_bus hbus]; exact h.plain b
  wf := hram ▸ h.wf
  external := hbus ▸ h.external

theorem PlainStack.push (v : Byte) : PlainStack (push v s) where
  plain b := by rw [plainRam_of_bus (push_bus v s)]; exact h.plain b
  wf := (busWrite_storesOnlyAt h.external h.wf).2
  external := by rw [push_bus]; exact h.external

theorem PlainStack.push_read (v : Byte) (q : Byte) :
    (Machine.push v s).ram.read (stackCell q) = if q = s.cpu.sp then v else s.ram.read (stackCell q) := by
  have hcell : ramCell (stackAddr s) = stackCell s.cpu.sp := by rw [stackAddr_eq, stackCell]
  split
  next hq =>
    rw [hq, ← hcell]
    exact busWrite_plainRam (by rw [stackAddr_eq]; exact h.plain _) h.wf v
  next hq =>
    obtain ⟨⟨hother, -⟩, -⟩ := busWrite_storesOnlyAt (a := stackAddr s) (v := v) h.external h.wf
    exact hother _ (by rwa [hcell, ne_eq, stackCell_inj])

/-- What the bus answers in the stack page. -/
theorem PlainStack.busRead_fst (q : Byte) : (busRead (0x0100 + zext q) s).1 = s.ram.read (stackCell q) :=
  peek_ram (Bool.and_eq_true_iff.mp (h.plain q)).1

/-- Taking an interrupt leaves the PC and the status byte on the stack. -/
theorem PlainStack.enterHandler_stack (status : Byte → Byte) (vec : Addr) :
    PlainStack (enterHandler status vec s) ∧ (enterHandler status vec s).cpu.sp = s.cpu.sp - 3 ∧
    (enterHandler status vec s).ram.read (stackCell s.cpu.sp) = hiByte s.cpu.pc ∧
    (enterHandler status vec s).ram.read (stackCell (s.cpu.sp - 1)) = loByte s.cpu.pc ∧
    (enterHandler status vec s).ram.read (stackCell (s.cpu.sp - 2)) = status s.cpu.p := by
  let p := Machine.push (status s.cpu.p) (Machine.push (loByte s.cpu.pc) (Machine.push (hiByte s.cpu.pc) s))
  have hp : PlainStack p := ((h.push _).push _).push _
  have hread : ReadsOnly p (enterHandler status vec s) := by
    simp only [enterHandler, push_cpu, Cpu.decSp_pc, Cpu.decSp_p]
    have hlo := (busRead_readsOnly hp.external vec).trans (mapCpu_readsOnly (Cpu.putFlag .i true) _)
    exact (hlo.trans (busRead_readsOnly (hlo.bus ▸ hp.external) _)).trans (mapCpu_readsOnly _ _)
  have hsp : ∀ q : Byte, q ≠ q - 1 ∧ q ≠ q - (1 + 1) ∧ q - 1 ≠ q - (1 + 1) := by decide
  obtain ⟨h1, h2, h12⟩ := hsp s.cpu.sp
  refine ⟨hp.of_eq hread.bus hread.ram, ?_, ?_, ?_, ?_⟩
  · simp [enterHandler, BitVec.sub_sub]
  all_goals
    rw [hread.ram]
    simp only [p, h.push_read, (h.push _).push_read, ((h.push _).push _).push_read, push_sp, BitVec.sub_sub]
  · rw [if_neg h2, if_neg h1, if_pos trivial]
  · rw [if_neg h12, if_pos trivial]
  · exact if_pos rfl

end

theorem finishSeq_bus (n : Nat) (s : State) : (finishSeq n s).bus = s.bus := rfl
theorem finishSeq_ram (n : Nat) (s : State) : (finishSeq n s).ram = s.ram := rfl
theorem finishSeq_sp (n : Nat) (s : State) : (finishSeq n s).cpu.sp = s.cpu.sp := rfl

theorem statusPlus_pulled {p : Byte} (h : statusOk p = true) : statusPlus 0x20 (statusPlus 0x20 p) = p := by
  revert p; decide

theorem idle_readsOnly {s : State} (h : noExternal s.bus = true) : ReadsOnly s (idle s) := dummyRead_readsOnly h s.cpu.pc

/-- What RTI pulls over a plain stack. -/
theorem exec_rti_plain {s : State} (ha : cpuAlone 8 s = true) (h : PlainStack s) : ∃ t, exec .rti s = .next t ∧
    t.cpu.pc = join (s.ram.read (stackCell (s.cpu.sp + 3))) (s.ram.read (stackCell (s.cpu.sp + 2))) ∧
    t.cpu.p = statusPlus 0x20 (s.ram.read (stackCell (s.cpu.sp + 1))) ∧ t.cpu.sp = s.cpu.sp + 3 := by
  obtain ⟨-, -, -, -, hexec⟩ := jumpsCallsAndReturns
  obtain ⟨-, -, -, -, hrti⟩ := hexec s ha
  have ri := idle_readsOnly h.external
  have r0 := ri.trans (dummyRead_readsOnly (ri.bus ▸ h.external) (0x0100 + zext s.cpu.sp))
  have h0 := h.of_eq r0.bus r0.ram
  have r1 := r0.trans (busRead_readsOnly h0.external (0x0100 + zext (s.cpu.sp + 1)))
  have h1 := h.of_eq r1.bus r1.ram
  have r2 := r1.trans (busRead_readsOnly h1.external (0x0100 + zext (s.cpu.sp + 2)))
  have h2 := h.of_eq r2.bus r2.ram
  refine ⟨_, hrti, ?_, ?_, ?_⟩
  · have hhi := h2.busRead_fst (s.cpu.sp + 3)
    have hlo := h1.busRead_fst (s.cpu.sp + 2)
    rw [r2.ram] at hhi
    rw [r1.ram] at hlo
    rw [← hhi, ← hlo]
    rfl
  · exact congrArg (statusPlus 0x20) ((h0.busRead_fst _).trans (by rw [r0.ram]))
  · simp [finish, idle_cpu]

/-- What taking an NMI leaves on a plain stack. -/
theorem step_nmi_stack {s t : State} (he : s.cpu.eng = .boundary) (ha : cpuAlone 8 s = true) (hr : s.pend.reset = false)
    (hn : s.pend.nmi = true) (hd : dmaOffStack s.bus = true) (h : PlainStack s) (ht : step s = .next t) :
    PlainStack t ∧ t.cpu.sp = s.cpu.sp - 3 ∧ t.ram.read (stackCell s.cpu.sp) = hiByte s.cpu.pc ∧
    t.ram.read (stackCell (s.cpu.sp - 1)) = loByte s.cpu.pc ∧
    t.ram.read (stackCell (s.cpu.sp - 2)) = statusPlus 0x20 s.cpu.p := by
  obtain ⟨-, hnmi, -⟩ := boundaryTakesResetNmiIrqInOrder s he ha
  let w := s.mapPend fun l => { l with nmi := false }
  have hs : PlainStack w := h.of_eq rfl rfl
  have ri := idle_readsOnly hs.external
  have r := ri.trans (idle_readsOnly (hs.of_eq ri.bus ri.ram).external)
  have hcpu : (idle (idle w)).cpu = s.cpu := by rw [idle_cpu, idle_cpu]; rfl
  have htaken : t = finishSeq 7 (enterHandler (statusPlus 0x20) 0xFFFA (idle (idle w))) :=
    Host.Outcome.next.inj (ht.symm.trans (hnmi hr hn hd).1)
  obtain ⟨hstack, hentered⟩ := (hs.of_eq r.bus r.ram).enterHandler_stack (statusPlus 0x20) 0xFFFA
  rw [hcpu] at hentered
  rw [htaken, finishSeq_ram, finishSeq_sp]
  exact ⟨hstack.of_eq (finishSeq_bus _ _) (finishSeq_ram _ _), hentered⟩

/-- Settles O28: the handler's entry left on the stack what RTI pulls. -/
theorem returnFromInterruptRestores : Obligations.ReturnFromInterruptRestores := by
  intro s t u he hr hn ha hd hw hp hplain ht hu hbus hram hsp
  obtain ⟨hstack, hent, hhi, hlo, hstatus⟩ := step_nmi_stack he ha hr hn hd ⟨hplain, hw, cpuAlone_noExternal ha⟩ ht
  obtain ⟨v, hv, hpc, hps, hvsp⟩ := exec_rti_plain hu (hstack.of_eq hbus hram)
  have hpull : ∀ q : Byte, q - 3 + 1 = q - 2 ∧ q - 3 + 2 = q - 1 ∧ q - 3 + 3 = q := by decide
  obtain ⟨h1, h2, h3⟩ := hpull s.cpu.sp
  rw [hram, hsp, hent] at hpc hps
  rw [hsp, hent, h3] at hvsp
  rw [h3, h2, hhi, hlo, join_hilo] at hpc
  rw [h1, hstatus, statusPlus_pulled hp] at hps
  exact ⟨v, hv, hpc, hps, hvsp⟩

end Sys2Proof.Machine

namespace Sys2Proof.Machine

/-! ## A DMA step by step (R340-R343) -/

/-- Byte `i` of a page as the DMA reads it (R342). -/
def dmaByte (page : Byte) (s : State) (i : Nat) : Byte := s.ram.read (ramCell (join page (BitVec.ofNat 8 i)))

theorem toNat_join (hi lo : Byte) : (join hi lo).toNat = 256 * hi.toNat + lo.toNat := by
  rw [join, BitVec.toNat_append, Nat.shiftLeft_eq, ← Nat.mul_comm (2 ^ 8)]
  exact (Nat.two_pow_add_eq_or_of_lt lo.isLt hi.toNat).symm

theorem dmaByte_eq {page : Byte} {s : State} {i : Nat} (hi : i < 256) :
    dmaByte page s i = s.ram.read ((256 * page.toNat + i) % 0x800) := by
  rw [dmaByte, ramCell_eq_mod, toNat_join, BitVec.toNat_ofNat, Nat.mod_eq_of_lt hi]

section
variable {s u : State} {page d : Byte} {i n : Nat}

/-- The alignment tick makes no access. -/
theorem dmaTick_align (hd : s.dma = .active page 2 d) : dmaTick page 2 d s = s.setDma (.active page 3 d) := by
  simp only [dmaTick, stepDma, hd]
  rfl

/-- Over the NES map a read tick takes the byte of the page. -/
theorem dmaTick_read (hb : s.bus = State.defaultBus) (hp : page.toNat < 0x20) (hi : i < 256)
    (hd : s.dma = .active page (3 + 2 * i) d) :
    dmaTick page (3 + 2 * i) d s = s.setDma (.active page (4 + 2 * i) (dmaByte page s i)) := by
  have hread : busRead (join page (BitVec.ofNat 8 i)) s = (dmaByte page s i, s) := by
    have hlow : (join page (BitVec.ofNat 8 i)).toNat ≤ 0x1FFF := by
      rw [toNat_join, BitVec.toNat_ofNat]
      omega
    exact (busAccess_of_componentsAt (hb ▸ componentsAt_workRam hlow) 0).1
  rw [dmaTick, if_neg (by omega), if_pos (by omega), show (3 + 2 * i - 3) / 2 = i by omega, hread]
  simp only [stepDma, hd]
  rw [if_neg (by omega), show 3 + 2 * i + 1 = 4 + 2 * i by omega]

/-- Over the NES map a write tick stores into the object table. -/
theorem dmaTick_write (hb : s.bus = State.defaultBus) (hi : i < 256) (hd : s.dma = .active page (4 + 2 * i) d) :
    dmaTick page (4 + 2 * i) d s = (s.mapPpu fun p => (p.setLatch d).writeOam d).setDma
      (if i = 255 then .idle else .active page (3 + 2 * (i + 1)) d) := by
  have hwrite : busWrite 0x2004 d s = s.mapPpu fun p => (p.setLatch d).writeOam d :=
    (busAccess_of_componentsAt (hb ▸ componentsAt_ppuPorts (by decide) (by decide)) d).2
  rw [dmaTick, if_neg (by omega), if_neg (by omega), hwrite]
  simp only [stepDma, State.mapPpu_dma, hd]
  rw [show 4 + 2 * i + 1 = 3 + 2 * (i + 1) by omega,
    ite_congr (show (514 ≤ 4 + 2 * i) = (i = 255) from propext (by omega)) (fun _ => rfl) (fun _ => rfl)]

/-- `n` steps from `s` left the processor as it was but for `n` ticks, and work RAM and the bus as they were. -/
structure Held (s : State) (n : Nat) (u : State) : Prop where
  steps : stepTimes n s = .next u
  still : othersStill (514 - n) u
  cpu   : u.cpu = { s.cpu with cycles := s.cpu.cycles + n }
  bus   : u.bus = State.defaultBus
  ram   : u.ram = s.ram

theorem othersStill_retimed (h : othersStill (n + 1) s) : othersStill n (retimed 1 s) := by
  obtain ⟨hsch, howed, hrest⟩ := h
  exact ⟨hsch, Nat.le_sub_of_add_le howed, hrest⟩

/-- A tick of the handler that changes the DMA and the picture generator only. -/
theorem Held.succ (he : s.cpu.eng = .boundary) (h : Held s n u) (hn : n < 514) {f : Ppu → Ppu} {d : Dma}
    (hw : cpuHandler [] (consume .cpu u) = .next (((retimed 1 u).mapPpu f).setDma d)) :
    Held s (n + 1) (((retimed 1 u).mapPpu f).setDma d) := by
  have heng : u.cpu.eng = .boundary := by rw [h.cpu]; exact he
  have hstill : othersStill (514 - (n + 1) + 1) u := by
    rw [show 514 - (n + 1) + 1 = 514 - n by omega]
    exact h.still
  have hstep : step u = .next (((retimed 1 u).mapPpu f).setDma d) := by
    simp only [step, heng, cpuTick_still [] hstill, hw, undone_next, andThen]
    simp only [afterFirstTick, State.setDma, State.mapPpu, retimed, State.mapUnit, State.mapCpu, heng]
  refine ⟨?_, othersStill_of_graft (othersStill_retimed hstill) rfl rfl rfl rfl, ?_, h.bus, h.ram⟩
  · rw [stepTimes, h.steps, andThen, hstep]
  · show { u.cpu with cycles := u.cpu.cycles + 1 } = _
    rw [h.cpu]
    rfl

/-- The first `i` bytes of the page are in the object table, and the next tick reads byte `i`. -/
structure Copied (page : Byte) (s : State) (i : Nat) (u : State) : Prop where
  dma  : if i = 256 then u.dma = .idle else ∃ d, u.dma = .active page (3 + 2 * i) d
  regs : u.ppu.regs = { s.ppu.regs with oamaddr := s.ppu.regs.oamaddr + BitVec.ofNat 8 i }
  wf   : u.ppu.spr.oam.wf = true
  oam  : ∀ j < i, u.ppu.spr.oam.read ((s.ppu.regs.oamaddr.toNat + j) % 256) = dmaByte page s j

/-- One more byte in the object table. -/
theorem Copied.write (hc : Copied page s i u) (hi : i < 256) {w : State}
    (hp : w.ppu = (u.ppu.setLatch (dmaByte page s i)).writeOam (dmaByte page s i))
    (hd : w.dma = if i = 255 then .idle else .active page (3 + 2 * (i + 1)) d) : Copied page s (i + 1) w := by
  have haddr : u.ppu.regs.oamaddr.toNat = (s.ppu.regs.oamaddr.toNat + i) % 256 := by
    rw [hc.regs, BitVec.toNat_add, BitVec.toNat_ofNat, Nat.mod_eq_of_lt hi]
  have hoam : w.ppu.spr.oam = u.ppu.spr.oam.write ((s.ppu.regs.oamaddr.toNat + i) % 256) (dmaByte page s i) := by
    rw [hp, ← haddr]; rfl
  refine ⟨?dma, ?regs, hoam ▸ Memory.wf_write hc.wf _ _, ?oam⟩
  case dma =>
    rw [hd]
    by_cases h : i = 255
    · rw [if_pos h, if_pos (by omega)]
    · rw [if_neg h, if_neg (by omega)]
      exact ⟨d, rfl⟩
  case regs =>
    have hregs : w.ppu.regs = { u.ppu.regs with oamaddr := u.ppu.regs.oamaddr + 1 } := by rw [hp]; rfl
    rw [hregs, hc.regs, BitVec.ofNat_add, ← BitVec.add_assoc]
    rfl
  case oam =>
    intro j hj
    rw [hoam]
    by_cases h : j = i
    · rw [h, Memory.read_write_same hc.wf]
    · rw [Memory.read_write_other hc.wf (by omega)]
      exact hc.oam j (by omega)

section
variable (he : s.cpu.eng = .boundary) (hp : page.toNat < 0x20)
include he hp

/-- A read tick and a write tick copy one byte. -/
theorem Copied.succ (h : Held s n u) (hn : n + 2 ≤ 514) (hc : Copied page s i u) (hi : i < 256) :
    ∃ w, Held s (n + 2) w ∧ Copied page s (i + 1) w := by
  obtain ⟨d, hd⟩ : ∃ d, u.dma = .active page (3 + 2 * i) d := by
    have hactive := hc.dma
    rwa [if_neg (by omega)] at hactive
  have hbyte : dmaByte page (retimed 1 u) i = dmaByte page s i := congrArg (Memory.read · _) h.ram
  obtain ⟨v, hv, hvd, hvp⟩ : ∃ v, Held s (n + 1) v ∧ v.dma = .active page (4 + 2 * i) (dmaByte page s i) ∧ v.ppu = u.ppu := by
    refine ⟨_, h.succ he (by omega) (f := id) ?_, rfl, rfl⟩
    rw [cpuHandler_of_active (s := consume .cpu u) hd, ← hbyte]
    exact congrArg _ (dmaTick_read (s := retimed 1 u) h.bus hp hi hd)
  have hwrite := (cpuHandler_of_active (T := []) (s := consume .cpu v) hvd).trans
    (congrArg _ (dmaTick_write (s := retimed 1 v) hv.bus hi hvd))
  exact ⟨_, hv.succ he (by omega) hwrite, hc.write hi (congrArg (Ppu.writeOam _ <| Ppu.setLatch _ ·) hvp) rfl⟩

/-- Two ticks to a byte. -/
theorem Copied.all (h : Held s n u) (hn : n ≤ 2) (hc : Copied page s 0 u) (hi : i ≤ 256) :
    ∃ w, Held s (n + 2 * i) w ∧ Copied page s i w := by
  induction i with
  | zero => exact ⟨u, h, hc⟩
  | succ i ih =>
    obtain ⟨w, hw, hcw⟩ := ih (by omega)
    exact hcw.succ he hp hw (show n + 2 * i + 2 ≤ 514 by omega) (by omega)

end

/-- The DMA starts with its alignment tick or without (R341). -/
theorem Copied.start (he : s.cpu.eng = .boundary) (h : Held s 0 s) (hd : s.dma = .requested page) (hw : s.ppu.spr.oam.wf = true) :
    ∃ u, Held s (if dmaAligns s.params.dmaExtraOnOdd s.cpu.cycles then 2 else 1) u ∧ Copied page s 0 u := by
  have hcopied {u : State} (hdma : u.dma = .active page 3 0) (hppu : u.ppu = s.ppu) : Copied page s 0 u :=
    ⟨⟨0, hdma⟩, by simp [hppu], hppu ▸ hw, nofun⟩
  have hstart : cpuHandler [] (consume .cpu s) = .next (((retimed 1 s).mapPpu id).setDma
      (.active page (if dmaAligns s.params.dmaExtraOnOdd s.cpu.cycles then 2 else 3) 0)) := by
    have hreads : nextTickWrites [] (consume .cpu s).cpu.eng = false := by
      show nextTickWrites [] s.cpu.eng = false
      rw [he]; rfl
    rw [cpuHandler_of_requested (s := consume .cpu s) hd, hreads, if_neg Bool.false_ne_true, startDma_eq]
    rfl
  obtain ⟨v, hv, hvd, hvp⟩ : ∃ v, Held s 1 v ∧
      v.dma = .active page (if dmaAligns s.params.dmaExtraOnOdd s.cpu.cycles then 2 else 3) 0 ∧ v.ppu = s.ppu :=
    ⟨_, h.succ he (by omega) hstart, rfl, rfl⟩
  split at hvd
  next ha =>
    have halign := (cpuHandler_of_active (T := []) (s := consume .cpu v) hvd).trans
      (congrArg _ (dmaTick_align (s := retimed 1 v) hvd))
    rw [if_pos ha]
    exact ⟨_, hv.succ he (by omega) (f := id) halign, hcopied rfl hvp⟩
  next ha =>
    rw [if_neg ha]
    exact ⟨v, hv, hcopied hvd hvp⟩

end

/-- Settles O58: the start, then two ticks to a byte. -/
theorem dmaCopiesPageToObjectTable : Obligations.DmaCopiesPageToObjectTable := by
  intro page s hd ha hb hp he hw
  have hheld : Held s 0 s := ⟨rfl, othersStill_of_graft (othersStill_of_cpuAlone ha) rfl rfl rfl rfl, rfl, hb, rfl⟩
  obtain ⟨u, hu, hcu⟩ := Copied.start he hheld hd hw
  obtain ⟨t, ht, hct⟩ := hcu.all (i := 256) he hp hu (by split <;> omega) (Nat.le_refl _)
  have hn : (if dmaAligns s.params.dmaExtraOnOdd s.cpu.cycles then 2 else 1) + 2 * 256 =
      513 + (if s.params.dmaExtraOnOdd then s.cpu.cycles % 2 else 1 - s.cpu.cycles % 2) := by
    rw [ite_congr (propext (dmaAligns_iff _ _)) (fun _ => rfl) (fun _ => rfl)]
    rcases Nat.mod_two_eq_zero_or_one s.cpu.cycles with h | h <;> simp [h]
    all_goals cases s.params.dmaExtraOnOdd <;> rfl
  rw [hn] at ht
  refine ⟨t, ht.steps, hct.dma, ht.cpu, by simp [hct.regs], ht.ram, fun i hi => ?_⟩
  rw [hct.oam i hi, dmaByte_eq hi]

end Sys2Proof.Machine

namespace Sys2Proof.Machine

/-! ## Loads, stores and transfers (R351-R362) -/

theorem lookup_eq_some_iff_mem {α β : Type} [DecidableEq α] {rows : List (α × β)} (hd : (rows.map Prod.fst).Nodup)
    (a : α) (b : β) : rows.lookup a = some b ↔ (a, b) ∈ rows := by
  induction rows with
  | nil => simp
  | cons r rest ih =>
    obtain ⟨hr, hrest⟩ := List.nodup_cons.mp hd
    by_cases ha : a = r.1
    · have hnot : (a, b) ∉ rest := fun h => hr (List.mem_map.mpr ⟨_, h, ha⟩)
      simp [List.lookup, ha, ha ▸ hnot, Prod.ext_iff, eq_comm]
    · simp [List.lookup, beq_false_of_ne ha, ha, ih hrest, Prod.ext_iff]

/-- A mnemonic whose opcodes are looked up by mode in a list with each mode once. -/
theorem encodedAs_of_lookup {mk : Mode → Instr} {rows : List (Mode × Byte)} (h : ∀ m, encode (mk m) = rows.lookup m)
    (hd : (rows.map Prod.fst).Nodup) : encodedAs mk rows :=
  encodedAs_of fun m op => by rw [h, lookup_eq_some_iff_mem hd]

/-- The ticks of the read form are those that the index R161 counts, for a mnemonic with the `+p` mark. -/
theorem readTicksAfterFetch_eq {i : Instr} {m : Mode} (hb : i.baseTicks = readTickCount m)
    (hp : i.pageTick = (m == .absx || m == .absy || m == .indy)) (crossed : Bool) :
    readTicksAfterFetch m crossed = tickCount i crossed - 1 := by
  have hpos : 1 ≤ readTickCount m := by cases m <;> decide
  rw [readTicksAfterFetch, tickCount, hb, hp, Nat.sub_add_comm hpos]

/-- The modes that a well-formed load has (R161). -/
theorem mode_of_load_wf {m : Mode} (h : (Instr.lda m).wf = true ∨ (Instr.ldx m).wf = true ∨ (Instr.ldy m).wf = true) :
    m ∈ readModes ∨ m = .zpy := by
  revert h; cases m <;> decide

/-- Settles O4: the read form with an operation that writes one register and takes N and Z from it. -/
theorem loadsSetRegisterAndNZ : Obligations.LoadsSetRegisterAndNZ := by
  refine ⟨encodedAs_of_lookup (fun m => ?_) (by decide), encodedAs_of_lookup (fun m => ?_) (by decide),
    encodedAs_of_lookup (fun m => ?_) (by decide), ?lda, ?ldx, ?ldy⟩
  case lda =>
    exact readsOperand_of (op := ldaOp) (fun _ _ => rfl) (fun _ => ⟨fun _ _ _ => rfl, fun _ => rfl⟩)
      (fun v c => setNZ_eq v (c.setA v)) fun _ hw => ⟨mode_of_load_wf (.inl hw), readTicksAfterFetch_eq rfl rfl⟩
  case ldx =>
    exact readsOperand_of (op := ldxOp) (fun _ _ => rfl) (fun _ => ⟨fun _ _ _ => rfl, fun _ => rfl⟩)
      (fun v c => setNZ_eq v (c.setX v)) fun _ hw => ⟨mode_of_load_wf (.inr (.inl hw)), readTicksAfterFetch_eq rfl rfl⟩
  case ldy =>
    exact readsOperand_of (op := ldyOp) (fun _ _ => rfl) (fun _ => ⟨fun _ _ _ => rfl, fun _ => rfl⟩)
      (fun v c => setNZ_eq v (c.setY v)) fun _ hw => ⟨mode_of_load_wf (.inr (.inr hw)), readTicksAfterFetch_eq rfl rfl⟩
  all_goals cases m <;> rfl

/-- Settles O5: the write form; finding the address leaves A, X and Y alone. -/
theorem storesWriteRegisterAtAddress : Obligations.StoresWriteRegisterAtAddress := by
  refine ⟨encodedAs_of_lookup (fun m => ?_) (by decide), encodedAs_of_lookup (fun m => ?_) (by decide),
    encodedAs_of_lookup (fun m => ?_) (by decide), ?sta, ?stx, ?sty, rfl, rfl, rfl⟩
  case sta =>
    exact storesOperand_of (fun _ _ => rfl) (fun _ _ _ => rfl) (fun al m s => have ⟨ha, _, _⟩ := locate_regs al m s; ha)
      fun _ hw => ⟨mode_of_store_wf (.inl hw), rfl⟩
  case stx =>
    exact storesOperand_of (fun _ _ => rfl) (fun _ _ _ => rfl) (fun al m s => have ⟨_, hx, _⟩ := locate_regs al m s; hx)
      fun _ hw => ⟨mode_of_store_wf (.inr (.inl hw)), rfl⟩
  case sty =>
    exact storesOperand_of (fun _ _ => rfl) (fun _ _ _ => rfl) (fun al m s => have ⟨_, _, hy⟩ := locate_regs al m s; hy)
      fun _ hw => ⟨mode_of_store_wf (.inr (.inr hw)), rfl⟩
  all_goals cases m <;> rfl

/-- Settles O6: the implied form with an operation that copies a register. -/
theorem transfersCopyRegister : Obligations.TransfersCopyRegister := by
  refine ⟨encodedBy_of rfl, encodedBy_of rfl, encodedBy_of rfl, encodedBy_of rfl, encodedBy_of rfl, encodedBy_of rfl,
    ?_, ?_, ?_, ?_, ?_, ?txs⟩
  case txs => exact registerOnly_of (fun _ => rfl) rfl ⟨fun _ _ _ => rfl, fun _ => rfl⟩ fun _ => rfl
  all_goals exact registerOnly_of (fun _ => rfl) rfl ⟨fun _ _ _ => rfl, fun _ => rfl⟩ fun _ => setNZ_eq _ _

end Sys2Proof.Machine

namespace Sys2Proof.Machine

/-! ## Pushes and pulls (R363-R366) -/

section
variable {s : State} (h : cpuAlone 8 s = true)
include h

theorem exec_pha_alone : exec .pha s = .next (finish 2 (push s.cpu.a (idle s))) := by
  have hT := phaTicks_timeless
  show run .pha phaTicks s = _
  rw [run_wf rfl, ← idle_cpu s]
  exact (alone_more hT h (by omega) rfl rfl).trans <| alone_done hT (cpuAlone_idle h) (by omega) rfl rfl

theorem exec_php_alone : exec .php s = .next (finish 2 (push (pushedByInstr s.cpu.p) (idle s))) := by
  have hT := phpTicks_timeless
  show run .php phpTicks s = _
  rw [run_wf rfl, ← idle_cpu s]
  exact (alone_more hT h (by omega) rfl rfl).trans <| alone_done hT (cpuAlone_idle h) (by omega) rfl rfl

theorem exec_pla_alone : exec .pla s = .next (finish 3 ((statusPulled s).2.mapCpu fun c =>
    (c.setA (statusPulled s).1).setNZ (statusPulled s).1)) := by
  have hT := plaTicks_timeless
  show run .pla plaTicks s = _
  rw [run_wf rfl]
  exact (alone_more hT h (by omega) rfl rfl).trans <|
    (alone_more hT (cpuAlone_idle h) (by omega) rfl rfl).trans <|
    alone_done hT (cpuAlone_openPull (cpuAlone_idle h)) (by omega) rfl rfl

theorem exec_brk_alone (hd : dmaOffStack s.bus = true) : exec .brk s = .next (
    finish 6 (enterHandler pushedByInstr brkVector ((idle s).mapCpu Cpu.incPc))) := by
  have hT := brkTicks_timeless
  have hi := cpuAlone_mapCpu (cpuAlone_idle h) Cpu.incPc
  have hbus : dmaOffStack ((idle s).mapCpu Cpu.incPc).bus = true := by rwa [State.mapCpu_bus, idle, dummyRead_bus]
  have h1 (b : Byte) := cpuAlone_push hi hbus b
  have h2 (b c : Byte) := cpuAlone_push (h1 b) (by rwa [push_bus]) c
  have h3 (b c d : Byte) := cpuAlone_push (h2 b c) (by rwa [push_bus, push_bus]) d
  have h4 (b c d : Byte) := cpuAlone_mapCpu (cpuAlone_busRead (h3 b c d) brkVector) (Cpu.putFlag .i true)
  show run .brk brkTicks s = _
  rw [run_wf rfl]
  exact (alone_more hT h (by omega) rfl rfl).trans <| (alone_more hT hi (by omega) rfl rfl).trans <|
    (alone_more hT (h1 _) (by omega) rfl rfl).trans <| (alone_more hT (h2 _ _) (by omega) rfl rfl).trans <|
    (alone_more hT (h3 _ _ _) (by omega) rfl rfl).trans <| alone_done hT (h4 _ _ _) (by omega) rfl rfl

end

/-- A push after the idle read, over the registers as they were before it. -/
theorem push_idle (v : Byte) (s : State) : push v (idle s) =
    (busWrite (0x0100 + zext s.cpu.sp) v (idle s)).mapCpu fun c => { c with sp := c.sp - 1 } := by
  rw [push, stackAddr_eq, idle_cpu]
  rfl

/-- A pull after the idle read: the bus accesses, then the new S. -/
theorem statusPulled_eq (s : State) : statusPulled s =
    let r := busRead (0x0100 + zext (s.cpu.sp + 1)) (dummyRead (0x0100 + zext s.cpu.sp) (idle s))
    (r.1, r.2.mapCpu Cpu.incSp) := by
  simp only [statusPulled, readStack, openPull, stackAddr_eq, State.mapCpu_cpu, Cpu.incSp_sp, dummyRead_cpu, idle_cpu,
    busRead_mapCpu]

/-- Settles O7: each table's ticks in order, the change of S moved behind the bus accesses. -/
theorem pushesAndPullsMoveStackPointer : Obligations.PushesAndPullsMoveStackPointer := by
  refine ⟨encodedBy_of rfl, encodedBy_of rfl, encodedBy_of rfl, encodedBy_of rfl, fun s h => ⟨?pha, ?php, ?pla, ?plp⟩⟩
  case pha => rw [exec_pha_alone h, push_idle]
  case php => rw [exec_php_alone h, push_idle, pushedByInstr_eq]
  case pla =>
    rw [exec_pla_alone h, statusPulled_eq]
    simp only [setNZ_eq]
    rfl
  case plp =>
    rw [exec_plp_alone h, statusPulled_eq, pushedByInterrupt_eq]
    rfl

/-! ### What pushes may store to -/

/-- From `s` on nothing was stored but in the stack cells of `S`; no component runs code of its own. -/
structure Pushes (S : Byte → Prop) (s t : State) : Prop where
  rel      : PushRel S s t
  external : noExternal t.bus = true

section
variable {S : Byte → Prop} {s t : State}

theorem Pushes.refl (h : noExternal s.bus = true) : Pushes S s s := ⟨pushRel_same (SameMem.refl s) rfl, h⟩

theorem Pushes.mapCpu (h : Pushes S s t) (g : Cpu → Cpu) : Pushes S s (t.mapCpu g) :=
  ⟨pushRel_trans h.rel (pushRel_cpu g t), h.external⟩

theorem Pushes.busRead (h : Pushes S s t) (a : Addr) : Pushes S s (busRead a t).2 where
  rel := pushRel_trans h.rel (pushRel_read a h.external)
  external := by rw [busRead_bus]; exact h.external

theorem Pushes.dummyRead (h : Pushes S s t) (a : Addr) : Pushes S s (dummyRead a t) where
  rel := pushRel_trans h.rel (pushRel_dummy a h.external)
  external := by rw [dummyRead_bus]; exact h.external

theorem Pushes.push (h : Pushes S s t) (hS : S t.cpu.sp) (v : Byte) : Pushes S s (push v t) where
  rel := by
    rw [Machine.push, stackAddr_eq]
    exact pushRel_trans h.rel (pushRel_trans (pushRel_write hS v h.external) (pushRel_cpu _ _))
  external := by rw [push_bus]; exact h.external

theorem Pushes.finish (h : Pushes S s t) (n : Nat) : Pushes S s (finish n t) where
  rel := pushRel_trans h.rel (pushRel_trans (pushRel_cpu _ _) (pushRel_unit _ _))
  external := h.external

/-- Taking an interrupt pushes three bytes. -/
theorem Pushes.enterHandler (h : Pushes S s t) (h0 : S t.cpu.sp) (h1 : S (t.cpu.sp - 1)) (h2 : S (t.cpu.sp - 2))
    (status : Byte → Byte) (vec : Addr) : Pushes S s (enterHandler status vec t) := by
  have hpush := ((h.push h0 (hiByte t.cpu.pc)).push (by simpa using h1) (loByte t.cpu.pc)).push
    (by simpa [BitVec.sub_sub] using h2) (status t.cpu.p)
  simp only [Machine.enterHandler, push_cpu, Cpu.decSp_pc, Cpu.decSp_p]
  exact (((hpush.busRead vec).mapCpu _).busRead _).mapCpu _

end

/-- The first `k` stack cells from `sp` down. -/
def StackTop (sp : Byte) (k : Nat) (b : Byte) : Prop := ∃ j < k, b = sp - BitVec.ofNat 8 j

/-- The four push forms with the processor alone store in as many stack cells as they push bytes. -/
theorem exec_pushes {i : Instr} {k : Nat} {s t : State} (hi : (i, k) ∈ [(Instr.pha, 1), (.php, 1), (.jsr, 2), (.brk, 3)])
    (h : cpuAlone 8 s = true) (hd : dmaOffStack s.bus = true) (ht : exec i s = .next t) :
    Pushes (StackTop s.cpu.sp k) s t := by
  have hs : Pushes (StackTop s.cpu.sp k) s s := .refl (cpuAlone_noExternal h)
  have hidle : Pushes (StackTop s.cpu.sp k) s (idle s) := hs.dummyRead _
  simp only [List.mem_cons, Prod.mk.injEq, List.not_mem_nil, or_false] at hi
  rcases hi with ⟨rfl, rfl⟩ | ⟨rfl, rfl⟩ | ⟨rfl, rfl⟩ | ⟨rfl, rfl⟩
  · cases (exec_pha_alone h).symm.trans ht
    exact (hidle.push ⟨0, by omega, by simp [idle_cpu]⟩ _).finish 2
  · cases (exec_php_alone h).symm.trans ht
    exact (hidle.push ⟨0, by omega, by simp [idle_cpu]⟩ _).finish 2
  · cases (exec_jsr_alone h hd).symm.trans ht
    have hread := ((hs.busRead s.cpu.pc).mapCpu Cpu.incPc).dummyRead (stackAddr (fetchByte s).2)
    have hpush := fun b => (hread.push ⟨0, by omega, by simp⟩ b).push ⟨1, by omega, by simp⟩
    exact (((hpush _ _).busRead _).mapCpu _).finish 5
  · cases (exec_brk_alone h hd).symm.trans ht
    exact ((hidle.mapCpu Cpu.incPc).enterHandler ⟨0, by omega, by simp [idle_cpu]⟩ ⟨1, by omega, by simp [idle_cpu]⟩
      ⟨2, by omega, by simp [idle_cpu]⟩ _ _).finish 6

/-- Settles O24: the cells written are those that S points at, push by push. -/
theorem pushesTouchOnlyStackCells : Obligations.PushesTouchOnlyStackCells := by
  intro i k s t hi h hd hw ht
  obtain ⟨-, -, hram, hrest⟩ := (exec_pushes hi h hd ht).rel hw
  refine ⟨fun n hn => hram n ?_, hrest⟩
  rintro b ⟨j, hj, rfl⟩
  exact hn j hj

end Sys2Proof.Machine

namespace Sys2Proof.Machine

/-! ## Registers that an instruction's rule does not name (R351-R366, R401-R419, R451-R472) -/

theorem wf_of_run {i : Instr} {T : Table} {s t : State} (h : run i T s = .next t) : i.wf = true := by
  unfold run at h
  split at h
  next hw => exact hw
  next => cases h

/-- A view of the registers that does not see the PC, P, the engine state and the tick count. -/
structure DataView {α : Type} (f : Cpu → α) : Prop where
  setPc  : ∀ c v, f (Cpu.setPc v c) = f c
  setP   : ∀ c v, f (Cpu.setP v c) = f c
  eng    : ∀ c e, f { c with eng := e } = f c
  cycles : ∀ c n, f { c with cycles := n } = f c

section
variable {α : Type} {f : Cpu → α} (hf : DataView f) {i : Instr}
  (ha : i.writesA = true → ∀ c v, f (Cpu.setA v c) = f c) (hx : i.writesX = true → ∀ c v, f (Cpu.setX v c) = f c)
  (hy : i.writesY = true → ∀ c v, f (Cpu.setY v c) = f c) (hs : i.writesS = true → ∀ c v, f (Cpu.setSp v c) = f c)
include hf ha hx hy hs

/-- A view that does not see the registers that the instruction's rule names is kept by every tick of the instruction.
A term that no opcode stands for is left out: INC of the accumulator would write A. -/
theorem tableOf_keeps_view (hw : i.wf = true) : TableKeeps f (tableOf i) := by
  have hpc := hf.setPc
  have hp := hf.setP
  have hflag : ∀ g b c, f (Cpu.putFlag g b c) = f c := fun _ _ _ => hp _ _
  have hnz : ∀ v c, f (Cpu.setNZ v c) = f c := fun _ _ => (hp _ _).trans (hp _ _)
  cases i
  case lda m | and m | ora m | eor m => exact keep_read hpc m fun _ _ => (hnz _ _).trans (ha rfl _ _)
  case ldx m => exact keep_read hpc m fun _ _ => (hnz _ _).trans (hx rfl _ _)
  case ldy m => exact keep_read hpc m fun _ _ => (hnz _ _).trans (hy rfl _ _)
  case adc m | sbc m =>
    exact keep_read hpc m fun _ _ => (hnz _ _).trans <| (ha rfl _ _).trans <| (hflag _ _ _).trans (hflag _ _ _)
  case cmp m | cpx m | cpy m => exact keep_read hpc m fun _ _ => (hnz _ _).trans (hflag _ _ _)
  case bit m => exact keep_read hpc m fun _ _ => (hflag _ _ _).trans <| (hflag _ _ _).trans (hflag _ _ _)
  case sta m | stx m | sty m => exact keep_write hpc m _
  case inc m | dec m => exact keep_rmw hpc m (fun _ _ => hnz _ _) fun hm => absurd hw (by subst hm; decide)
  case asl m | lsr m | rol m | ror m =>
    exact keep_rmw hpc m (fun _ _ => (hnz _ _).trans (hflag _ _ _)) fun hm v c => ha (beq_iff_eq.mpr hm) c v
  case txa | tya => exact keep_implied fun _ => (hnz _ _).trans (ha rfl _ _)
  case tax | tsx | inx | dex => exact keep_implied fun _ => (hnz _ _).trans (hx rfl _ _)
  case tay | iny | dey => exact keep_implied fun _ => (hnz _ _).trans (hy rfl _ _)
  case txs => exact keep_implied fun _ => hs rfl _ _
  case clc | sec | cli | sei | clv | cld | sed => exact keep_implied fun _ => hflag _ _ _
  case nop | una _ => exact keep_implied fun _ => rfl
  case bcc | bcs | beq | bmi | bne | bpl | bvc | bvs => exact keep_branch hpc _
  case jmp m => exact keep_jmp hpc m
  case jsr => exact keep_jsr hpc (hs rfl)
  case rts => exact keep_rts hpc (hs rfl)
  case rti => exact keep_rti hpc (hs rfl) fun _ _ => hp _ _
  case brk => exact keep_brk hpc (hs rfl) fun _ => hflag _ _ _
  case pha => exact keep_pha (hs rfl)
  case php => exact keep_php (hs rfl)
  case pla => exact keep_pla (hs rfl) fun _ _ => (hnz _ _).trans (ha rfl _ _)
  case plp => exact keep_plp (hs rfl) fun _ _ => hp _ _

theorem exec_keeps_view {s t : State} (h : exec i s = .next t) : f t.cpu = f s.cpu :=
  exec_keep hf.eng hf.cycles (tableOf_keeps_view hf ha hx hy hs (wf_of_run (exec_run h))) h

end

/-- Settles O19: each of the four registers is a view that does not see the other three. -/
theorem registersOutsideDestinationUnchanged : Obligations.RegistersOutsideDestinationUnchanged := by
  intro i s t h
  refine ⟨fun ha => ?_, fun hx => ?_, fun hy => ?_, fun hs => ?_⟩
  · exact exec_keeps_view (f := Cpu.a) ⟨fun _ _ => rfl, fun _ _ => rfl, fun _ _ => rfl, fun _ _ => rfl⟩
      (fun hw => absurd (ha.symm.trans hw) Bool.false_ne_true) (fun _ _ _ => rfl) (fun _ _ _ => rfl) (fun _ _ _ => rfl) h
  · exact exec_keeps_view (f := Cpu.x) ⟨fun _ _ => rfl, fun _ _ => rfl, fun _ _ => rfl, fun _ _ => rfl⟩
      (fun _ _ _ => rfl) (fun hw => absurd (hx.symm.trans hw) Bool.false_ne_true) (fun _ _ _ => rfl) (fun _ _ _ => rfl) h
  · exact exec_keeps_view (f := Cpu.y) ⟨fun _ _ => rfl, fun _ _ => rfl, fun _ _ => rfl, fun _ _ => rfl⟩
      (fun _ _ _ => rfl) (fun _ _ _ => rfl) (fun hw => absurd (hy.symm.trans hw) Bool.false_ne_true) (fun _ _ _ => rfl) h
  · exact exec_keeps_view (f := Cpu.sp) ⟨fun _ _ => rfl, fun _ _ => rfl, fun _ _ => rfl, fun _ _ => rfl⟩
      (fun _ _ _ => rfl) (fun _ _ _ => rfl) (fun _ _ _ => rfl) (fun hw => absurd (hs.symm.trans hw) Bool.false_ne_true) h

end Sys2Proof.Machine

namespace Sys2Proof.Machine

/-! ## Arithmetic, logic, compare and bit test (R400-R409) -/

/-- The modes and ticks of a read-form mnemonic with the accumulator's eight modes and the `+p` mark at the indexed
ones (R161). -/
theorem accumulatorRead_ticks {i : Instr} {m : Mode} (hm : readModes.contains m = true) (hb : i.baseTicks = readTickCount m)
    (hp : i.pageTick = (m == .absx || m == .absy || m == .indy)) :
    (m ∈ readModes ∨ m = .zpy) ∧ ∀ b, readTicksAfterFetch m b = tickCount i b - 1 :=
  ⟨.inl (List.contains_iff_mem.mp hm), readTicksAfterFetch_eq hb hp⟩

/-- The modes and ticks of a read-form mnemonic with no indexed mode, and so no `+p` mark (R161). -/
theorem unindexedRead_ticks {i : Instr} {m : Mode} (hm : m ∈ [Mode.imm, .zp, .abs]) (hb : i.baseTicks = readTickCount m)
    (hp : i.pageTick = false) : (m ∈ readModes ∨ m = .zpy) ∧ ∀ b, readTicksAfterFetch m b = tickCount i b - 1 := by
  have ⟨hread, hplain⟩ : readModes.contains m = true ∧ (m == .absx || m == .absy || m == .indy) = false := by
    revert hm; cases m <;> decide
  exact accumulatorRead_ticks hread hb (hp.trans hplain.symm)

section
variable {mk : Mode → Instr} (hm : ∀ m, (mk m).wf = true →
  (m ∈ readModes ∨ m = .zpy) ∧ ∀ b, readTicksAfterFetch m b = tickCount (mk m) b - 1)
include hm

/-- A read-form mnemonic that combines A with its operand into A, and takes N and Z from it. -/
theorem readsOperand_intoA (g : Byte → Byte → Byte)
    (he : ∀ m s, exec (mk m) s = run (mk m) (readForm m fun v c => (c.setA (g c.a v)).setNZ (g c.a v)) s) :
    readsOperand mk fun v c => { c with a := g c.a v, p := nzOf (g c.a v) c.p } :=
  readsOperand_of he (fun _ => ⟨fun _ _ _ => rfl, fun _ => rfl⟩) (fun v c => setNZ_eq (g c.a v) (c.setA _)) hm

/-- A read-form mnemonic that compares a register with its operand. -/
theorem readsOperand_compare (r : Cpu → Byte) (hr : timelessVal r)
    (he : ∀ m s, exec (mk m) s = run (mk m) (readForm m fun v c => c.compare (r c) v) s) :
    readsOperand mk fun v c => c.compared (r c) v :=
  readsOperand_of he (fun _ => ⟨fun c e n => by simp only [hr c e n]; rfl, fun _ => rfl⟩)
    (fun v c => compare_eq (r c) v c) hm

end

theorem timelessOp_addWithCarry (m : Byte) : timelessOp (Cpu.addWithCarry m) := ⟨fun _ _ _ => rfl, fun _ => rfl⟩

/-- Settles O8: the read form with the sum of A, operand and carry, for SBC of A, the operand's complement and carry. -/
theorem addAndSubtractWithCarry : Obligations.AddAndSubtractWithCarry := by
  refine ⟨encodedAs_of_lookup (fun m => ?_) (by decide), encodedAs_of_lookup (fun m => ?_) (by decide), ?adc, ?sbc⟩
  case adc =>
    exact readsOperand_of (op := adcOp) (fun _ _ => rfl) timelessOp_addWithCarry add_eq
      fun _ hw => accumulatorRead_ticks hw rfl rfl
  case sbc =>
    exact readsOperand_of (op := sbcOp) (fun _ _ => rfl) (fun v => timelessOp_addWithCarry (v ^^^ 0xFF))
      (fun v c => add_eq (v ^^^ 0xFF) c) fun _ hw => accumulatorRead_ticks hw rfl rfl
  all_goals cases m <;> rfl

/-- Settles O10: the three read forms that combine A with the operand. -/
theorem logicCombinesIntoAccumulator : Obligations.LogicCombinesIntoAccumulator := by
  refine ⟨encodedAs_of_lookup (fun m => ?_) (by decide), encodedAs_of_lookup (fun m => ?_) (by decide),
    encodedAs_of_lookup (fun m => ?_) (by decide), ?and, ?ora, ?eor⟩
  case and => exact readsOperand_intoA (mk := .and) (fun _ hw => accumulatorRead_ticks hw rfl rfl) (· &&& ·) fun _ _ => rfl
  case ora => exact readsOperand_intoA (mk := .ora) (fun _ hw => accumulatorRead_ticks hw rfl rfl) (· ||| ·) fun _ _ => rfl
  case eor => exact readsOperand_intoA (mk := .eor) (fun _ hw => accumulatorRead_ticks hw rfl rfl) (· ^^^ ·) fun _ _ => rfl
  all_goals cases m <;> rfl

/-- The modes that a well-formed BIT has are among those of CPX and CPY (R161). -/
theorem mode_of_bit_wf {m : Mode} (h : (Instr.bit m).wf = true) : m ∈ [Mode.imm, .zp, .abs] :=
  List.mem_cons_of_mem _ (List.contains_iff_mem.mp h)

/-- Settles O11: three read forms that compare a register with the operand, and BIT's, which writes P alone too. -/
theorem compareAndBitTestSetFlags : Obligations.CompareAndBitTestSetFlags := by
  refine ⟨encodedAs_of_lookup (fun m => ?_) (by decide), encodedAs_of_lookup (fun m => ?_) (by decide),
    encodedAs_of_lookup (fun m => ?_) (by decide), ?cmp, ?cpx, ?cpy, encodedAs_of_lookup (fun m => ?_) (by decide), ?bit⟩
  case cmp =>
    exact readsOperand_compare (mk := .cmp) (fun _ hw => accumulatorRead_ticks hw rfl rfl)
      Cpu.a (fun _ _ _ => rfl) fun _ _ => rfl
  case cpx =>
    exact readsOperand_compare (mk := .cpx) (fun _ hw => unindexedRead_ticks (List.contains_iff_mem.mp hw) rfl rfl)
      Cpu.x (fun _ _ _ => rfl) fun _ _ => rfl
  case cpy =>
    exact readsOperand_compare (mk := .cpy) (fun _ hw => unindexedRead_ticks (List.contains_iff_mem.mp hw) rfl rfl)
      Cpu.y (fun _ _ _ => rfl) fun _ _ => rfl
  case bit =>
    exact readsOperand_of (op := bitOp) (fun _ _ => rfl) (fun _ => ⟨fun _ _ _ => rfl, fun _ => rfl⟩) bit_eq
      fun _ hw => unindexedRead_ticks (mode_of_bit_wf hw) rfl rfl
  all_goals cases m <;> rfl

/-! ## Increment, decrement, shifts and rotates (R410-R419) -/

/-- A result with its flags, N and Z of P written as bits. -/
theorem result_eq (r : Byte) (c : Cpu) : c.result r = (r, { c with p := nzOf r c.p }) := by
  rw [Cpu.result, setNZ_eq]

/-- Settles O12: INC and DEC are the read-modify-write form, the other four the implied form, each with N and Z of its
result. -/
theorem incrementAndDecrement : Obligations.IncrementAndDecrement := by
  refine ⟨encodedAs_of_lookup (fun m => ?_) (by decide), encodedAs_of_lookup (fun m => ?_) (by decide), encodedBy_of rfl,
    encodedBy_of rfl, encodedBy_of rfl, encodedBy_of rfl, ?inc, ?dec, ?inx, ?iny, ?dex, ?dey, rfl, rfl⟩
  case inc =>
    exact modifiesOperand_of (fun _ _ => rfl) (timelessMod_result (· + 1)) (fun v => result_eq (v + 1))
      fun _ hw _ => ⟨List.contains_iff_mem.mp hw, rfl⟩
  case dec =>
    exact modifiesOperand_of (fun _ _ => rfl) (timelessMod_result (· - 1)) (fun v => result_eq (v - 1))
      fun _ hw _ => ⟨List.contains_iff_mem.mp hw, rfl⟩
  case inx | iny | dex | dey =>
    exact registerOnly_of (fun _ => rfl) rfl ⟨fun _ _ _ => rfl, fun _ => rfl⟩ fun _ => setNZ_eq _ _
  all_goals cases m <;> rfl

theorem timelessMod_asl : timelessMod aslMod := timelessMod_shifted (bitAt · 7) fun v _ => v <<< 1
theorem timelessMod_lsr : timelessMod lsrMod := timelessMod_shifted (bitAt · 0) fun v _ => v >>> 1
theorem timelessMod_rol : timelessMod rolMod :=
  timelessMod_shifted (bitAt · 7) fun v carry => (v <<< 1) ||| (BitVec.ofBool carry).setWidth 8
theorem timelessMod_ror : timelessMod rorMod :=
  timelessMod_shifted (bitAt · 0) fun v carry => (v >>> 1) ||| ((BitVec.ofBool carry).setWidth 8 <<< 7)

/-- A mnemonic with the modes and ticks of the shifts (R161), in memory and on A, from what its operation makes of a
byte and P. -/
theorem shift_of {mk : Mode → Instr} {mod : ModOp} (r : Byte → Byte → Byte) (out : Byte → Bool)
    (he : ∀ m s, exec (mk m) s = run (mk m) (rmwForm m mod) s) (hv : timelessMod mod)
    (hm : ∀ m, (mk m).wf = (Instr.asl m).wf ∧ (mk m).baseTicks = rmwTickCount m)
    (heq : ∀ v c, mod v c = (r v c.p, { c with p := nzOf (r v c.p) (withC (out v) c.p) })) :
    modifiesMemory mk (fun v c => (r v c.p, { c with p := nzOf (r v c.p) (withC (out v) c.p) })) ∧
    changesRegisters (mk .acc) (fun c => { c with a := r c.a c.p, p := nzOf (r c.a c.p) (withC (out c.a) c.p) }) := by
  constructor
  · refine modifiesOperand_of he hv heq fun m hw hacc => ?_
    obtain ⟨hwf, hticks⟩ := hm m
    exact ⟨mode_of_shift_wf (hwf ▸ hw) hacc, hticks.symm⟩
  · obtain ⟨hwf, _⟩ := hm .acc
    exact modifiesA_of (he .acc) hwf hv fun c => by rw [heq]; rfl

/-- Settles O13: each of the four is the read-modify-write form or the accumulator form, with the result that its `_eq`
lemma gives as a number. -/
theorem shiftsMoveBitThroughCarry : Obligations.ShiftsMoveBitThroughCarry := by
  refine ⟨encodedAs_of_lookup (fun m => ?_) (by decide), encodedAs_of_lookup (fun m => ?_) (by decide),
    encodedAs_of_lookup (fun m => ?_) (by decide), encodedAs_of_lookup (fun m => ?_) (by decide), fun mk r out hmk => ?forms⟩
  case forms =>
    simp only [List.mem_cons, List.not_mem_nil, or_false, Prod.mk.injEq] at hmk
    rcases hmk with ⟨rfl, hr, hout⟩ | ⟨rfl, hr, hout⟩ | ⟨rfl, hr, hout⟩ | ⟨rfl, hr, hout⟩
    · exact shift_of r out (fun _ _ => rfl) timelessMod_asl (fun _ => ⟨rfl, rfl⟩) (by rw [hr, hout]; exact asl_eq)
    · exact shift_of r out (fun _ _ => rfl) timelessMod_lsr (fun _ => ⟨rfl, rfl⟩) (by rw [hr, hout]; exact lsr_eq)
    · exact shift_of r out (fun _ _ => rfl) timelessMod_rol (fun _ => ⟨rfl, rfl⟩) (by rw [hr, hout]; exact rol_eq)
    · exact shift_of r out (fun _ _ => rfl) timelessMod_ror (fun _ => ⟨rfl, rfl⟩) (by rw [hr, hout]; exact ror_eq)
  all_goals cases m <;> rfl

end Sys2Proof.Machine

namespace Sys2Proof.Machine

/-! ## BRK (R455) -/

theorem Cpu.putFlag_i_eq (b : Bool) (c : Cpu) : c.putFlag .i b = { c with p := withI b c.p } :=
  congrArg c.setP (putI_eq b c.p)

/-- Settles O15: the ticks of BRK in order; the registers that change between the bus accesses do not enter them. -/
theorem breakTakesIrqVector : Obligations.BreakTakesIrqVector := by
  refine ⟨encodedBy_of rfl, fun s h hd => ?_⟩
  rw [exec_brk_alone h hd]
  simp [enterHandler, push, stackAddr_eq, idle_cpu, busWrite_mapCpu, busRead_mapCpu, mapCpu_mapCpu, pushedByInstr_eq,
    brkVector, Cpu.putFlag_i_eq, Cpu.incPc, Cpu.decSp, Cpu.setPc, Cpu.setSp, BitVec.sub_sub]

/-! ## Branches (R456-R463) -/

/-- A branch that is taken where a flag is set. -/
theorem branchesIf_set {i : Instr} {f : Flag} (he : ∀ s, exec i s = run i (branchForm fun p => flag f p) s)
    (hw : i.wf = true) : branchesIf i fun p => p.getLsbD f.bit :=
  branchesIf_of he hw fun _ => rfl

/-- A branch that is taken where a flag is clear. -/
theorem branchesIf_clear {i : Instr} {f : Flag} (he : ∀ s, exec i s = run i (branchForm fun p => !flag f p) s)
    (hw : i.wf = true) : branchesIf i fun p => p.getLsbD f.bit == false :=
  branchesIf_of he hw fun p => (beq_false (flag f p)).symm

/-- Settles O16: each of the eight is the branch form with one flag, set or clear, for its condition. -/
theorem branchesGoToTargetIfConditionHolds : Obligations.BranchesGoToTargetIfConditionHolds :=
  ⟨encodedBy_of rfl, encodedBy_of rfl, encodedBy_of rfl, encodedBy_of rfl, encodedBy_of rfl, encodedBy_of rfl,
    encodedBy_of rfl, encodedBy_of rfl,
    branchesIf_clear (f := .c) (fun _ => rfl) rfl, branchesIf_set (f := .c) (fun _ => rfl) rfl,
    branchesIf_set (f := .z) (fun _ => rfl) rfl, branchesIf_set (f := .n) (fun _ => rfl) rfl,
    branchesIf_clear (f := .z) (fun _ => rfl) rfl, branchesIf_clear (f := .n) (fun _ => rfl) rfl,
    branchesIf_clear (f := .v) (fun _ => rfl) rfl, branchesIf_set (f := .v) (fun _ => rfl) rfl⟩

end Sys2Proof.Machine

namespace Sys2Proof.Machine

/-! ## Flag instructions (R464-R470) -/

/-- The registers at T2 of an implied instruction, or behind its end, where its operation has just made them. -/
def ImpliedRun (op : Cpu → Cpu) (o : Byte) (r : Cpu) : Prop := r.eng = .inInstr o 2 {} ∨ ∃ c, r = (op c).setEng .boundary

/-- A CPU tick at T2 of an implied instruction is a DMA tick, or runs the operation and ends the instruction (R291). -/
theorem cpuHandler_impliedForm {op : Cpu → Cpu} {s t : State} {o : Byte} (he : s.cpu.eng = .inInstr o 2 {})
    (h : cpuHandler (impliedForm op) s = .next t) : ImpliedRun op o t.cpu := by
  rcases cpuHandler_cases h with ⟨page, k, data, _, rfl⟩ | ⟨page, rfl⟩ | h
  · exact .inl (by rw [dmaTick_cpu]; exact he)
  · exact .inl (by rw [startDma_cpu]; exact he)
  · have heng : (s.mapCpu Cpu.tick).cpu.eng = .inInstr o 2 {} := he
    simp only [engineTick, heng] at h
    cases h
    exact .inr ⟨_, rfl⟩

/-- Where an implied instruction ends at a boundary, its operation has just made the registers, whatever the other units
did meanwhile. -/
theorem run_impliedForm_cpu {i : Instr} {op : Cpu → Cpu} {s t : State} (h : run i (impliedForm op) s = .next t)
    (he : t.cpu.eng = .boundary) : ∃ c, t.cpu = (op c).setEng .boundary := by
  have hend : ImpliedRun op (opcodeOf i) t.cpu := by
    unfold run at h
    split at h
    next =>
      refine runTicks_inv (I := fun u => ImpliedRun op (opcodeOf i) u.cpu) (fun u v hu hq => by rw [hq.cpu]; exact hu)
        (fun u v hu hr _ hv => ?_) (.inl rfl) rfl h
      rcases hu with hu | ⟨c, hu⟩
      · exact cpuHandler_impliedForm (s := consume .cpu u) hu hv
      · rw [hu] at hr; cases hr
    next => cases h
  exact hend.resolve_left fun hin => by rw [he] at hin; cases hin

/-- An instruction that only writes a flag has written it where it ends at a boundary. -/
theorem flag_of_run_putFlag {i : Instr} {f : Flag} {b : Bool} {s t : State}
    (h : run i (impliedForm (Cpu.putFlag f b)) s = .next t) (he : t.cpu.eng = .boundary) : flag f t.cpu.p = b := by
  obtain ⟨c, hc⟩ := run_impliedForm_cpu h he
  rw [hc]
  exact (flag_putFlag f f b c.p).trans (if_pos rfl)

/-- An instruction of the implied form that writes one flag. -/
theorem changesRegisters_of_putFlag {i : Instr} {f : Flag} {b : Bool} {w : Byte → Byte}
    (he : ∀ s, exec i s = run i (impliedForm (Cpu.putFlag f b)) s) (hw : i.wf = true) (heq : ∀ p, putFlag f b p = w p) :
    changesRegisters i fun c => { c with p := w c.p } :=
  registerOnly_of he hw (timelessOp_putFlag f b) fun c => congrArg c.setP (heq c.p)

/-- R400: D does not enter the sum. -/
theorem added_withD (b : Bool) (m : Byte) (c : Cpu) :
    Cpu.added m { c with p := withD b c.p } = { c.added m with p := withD b (c.added m).p } := by
  have h := ignoresD_addWithCarry m b c
  rw [add_eq, add_eq] at h
  exact h

/-- Settles O17: each of the seven is the implied form that writes one flag, which CLI and SEI have written when they end
at a boundary. -/
theorem flagInstructionsWriteOneFlag : Obligations.FlagInstructionsWriteOneFlag := by
  refine ⟨encodedBy_of rfl, encodedBy_of rfl, encodedBy_of rfl, encodedBy_of rfl, encodedBy_of rfl, encodedBy_of rfl,
    encodedBy_of rfl, ?clc, ?sec, ?cli, ?sei, ?clv, ?cld, ?sed, ?afterCli, ?afterSei, added_withD⟩
  case clc | sec => exact changesRegisters_of_putFlag (fun _ => rfl) rfl (putC_eq _)
  case cli | sei => exact changesRegisters_of_putFlag (fun _ => rfl) rfl (putI_eq _)
  case clv => exact changesRegisters_of_putFlag (fun _ => rfl) rfl (putV_eq _)
  case cld | sed => exact changesRegisters_of_putFlag (fun _ => rfl) rfl (putD_eq _)
  case afterCli =>
    intro s t h hirq he
    have hi : flag .i t.cpu.p = false := flag_of_run_putFlag (exec_run h) he
    rw [noneTaken, hirq, hi]
    exact Bool.and_false _
  case afterSei =>
    intro s t h hreset hnmi he
    have hi : flag .i t.cpu.p = true := flag_of_run_putFlag (exec_run h) he
    exact (noneTaken_iff t).mpr ⟨hreset, hnmi, fun _ => hi⟩

end Sys2Proof.Machine

namespace Sys2Proof.Machine

/-! ## Unassigned slots (R471, R472, R701)

The fault of an unassigned slot names the state before the transition that raised it. Only an opcode fetch raises it at
rest, so a run inside an instruction can be told from it by the engine of that state. -/

theorem andThen_fault {r : Result} {g : State → Result} {q : Fault} (h : andThen r g = .fault q) :
    r = .fault q ∨ ∃ s, r = .next s ∧ g s = .fault q := by
  cases r with
  | next s => exact .inr ⟨s, rfl, h⟩
  | fault _ => exact .inl h
  | refused _ => cases h

/-- R701: the state that the fault of a transition names is the one before it. -/
theorem state_of_fire_unassigned {T : Table} {e : Event} {s r : State} (h : fire T e s = .fault (.unassignedOpcode r)) :
    r = s := by
  unfold fire guarded at h
  split at h
  · cases h
  · unfold undone at h
    split at h
    next q _ => cases q <;> cases h; rfl
    all_goals cases h

section
variable {T : Table} {n : Nat} {s r : State}

/-- The transitions before a CPU tick leave the registers alone, so the state that the fault names has them as they were. -/
theorem cpu_of_untilCpuTick_unassigned (h : untilCpuTick T n s = .fault (.unassignedOpcode r)) : r.cpu = s.cpu := by
  induction n generalizing s with
  | zero => cases h
  | succ n ih =>
    simp only [untilCpuTick] at h
    split at h
    · cases h
    · rw [state_of_fire_unassigned h]; rfl
    · rename_i e rest hne _
      rcases andThen_fault h with hf | ⟨u, hu, h⟩
      · rw [state_of_fire_unassigned hf]; rfl
      · have hcpu : u.cpu = s.cpu := (fire_quiet (by rintro rfl; exact hne rfl) hu).cpu
        exact (ih h).trans hcpu

/-- A run begun inside an instruction or sequence is inside it before each of its transitions. -/
theorem inside_of_runTicks_unassigned (hs : s.cpu.eng.atRest = false) (h : runTicks T n s = .fault (.unassignedOpcode r)) :
    r.cpu.eng.atRest = false := by
  induction n generalizing s with
  | zero => cases h
  | succ n ih =>
    rcases andThen_fault h with hf | ⟨u, _, h⟩
    · rw [cpu_of_untilCpuTick_unassigned hf]; exact hs
    · split at h
      · cases h
      · rename_i hgoes
        simp only [Bool.or_eq_true, not_or, Bool.not_eq_true] at hgoes
        exact ih hgoes.1 h

/-- The run of an instruction that the parameter lets run raises the fault of no state at rest. -/
theorem inside_of_exec_unassigned {i : Instr} (hw : i.wf = true) (hr : runnable s (opcodeOf i) = true)
    (h : exec i s = .fault (.unassignedOpcode r)) : r.cpu.eng.atRest = false := by
  rw [exec_eq_run hw hr, run, if_pos hw] at h
  exact inside_of_runTicks_unassigned (s := start i s) rfl h

end

theorem wf_una_iff (op : Byte) : (Instr.una op).wf = true ↔ op ∈ unassignedOpcodes := List.contains_iff_mem

/-- R472: an unassigned slot under `nop2` is the no-op. -/
theorem exec_una_nop2 {op : Byte} {s : State} (hop : op ∈ unassignedOpcodes) (hn : s.params.unassigned = .nop2)
    (h : cpuAlone 8 s = true) : exec (.una op) s = .next (finish 1 (idle s)) := by
  have hw : (Instr.una op).wf = true := (wf_una_iff op).mpr hop
  rw [exec_eq_run hw (by rw [runnable, hn]; rfl)]
  exact run_impliedForm hw ⟨fun _ _ _ => rfl, fun _ => rfl⟩ h

section
variable {s : State} (he : s.cpu.eng = .boundary) (hn : noneTaken s = true) (h : cpuAlone 9 s = true)
include he hn h

/-- R472: under `refuse` the fetch of an unassigned slot stops the step in the state before it. -/
theorem step_refused_slot (hp : s.params.unassigned = .refuse) (hop : peek s.cpu.pc s ∈ unassignedOpcodes) :
    step s = .fault (.unassignedOpcode s) := by
  have hfetch : fetchOpcode (retime .boundary 1 s) = .fault (.unassignedOpcode (retime .boundary 1 s)) := by
    unfold fetchOpcode
    rw [fetchByte_retime]
    exact if_pos ⟨hp, List.contains_iff_mem.mpr hop⟩
  simp only [step, he, first_tick (.inl ⟨he, hn⟩) h, hfetch]
  rfl

/-- A step that fetches an opcode which the parameter lets run does not stop as an unassigned slot does. -/
theorem step_ne_unassigned (hr : runnable s (peek s.cpu.pc s) = true) : step s ≠ .fault (.unassignedOpcode s) := by
  intro hf
  obtain ⟨hstep, -⟩ := stepRunsDecodedInstruction s (.inl ⟨he, hn⟩) h hr
  have hparams : (opcodeFetched s).params = s.params := (busRead_readsOnly (cpuAlone_noExternal h) s.cpu.pc).params
  have hr' : runnable (opcodeFetched s) (opcodeOf (decode (peek s.cpu.pc s))) = true := by
    rw [opcodeOf_decode, runnable, hparams]; exact hr
  have hinside := inside_of_exec_unassigned (decode_wf _) hr' (hstep.symm.trans hf)
  rw [he] at hinside
  cases hinside

end

/-- Settles O18: the implied form with no operation; under `refuse` the fetch stops exactly for the slots listed, and what
runs behind any other fetch is inside an instruction. -/
theorem noOpsChangeNothing : Obligations.NoOpsChangeNothing := by
  refine ⟨encodedBy_of rfl, ?nop, fun _ _ hop hn h => exec_una_nop2 hop hn h, fun s he hn h hp _ => ⟨fun hf => ?_, ?_⟩⟩
  case nop => exact registerOnly_of (op := nopOp) (fun _ => rfl) rfl ⟨fun _ _ _ => rfl, fun _ => rfl⟩ fun _ => rfl
  · refine Decidable.byContradiction fun hop => step_ne_unassigned he hn h ?_ hf
    simp only [runnable, List.contains_eq_mem, hop, decide_false, Bool.not_false, Bool.or_true]
  · exact step_refused_slot he hn h hp

end Sys2Proof.Machine

namespace Sys2Proof.Machine

/-! ## A dot of the picture generator, phase by phase (R500)

Where IRQ and NMI reach no external code, a fetch gives a byte and changes no part of the picture generator, so that each
phase changes its own parts only. -/

/-- The two states differ at most in the picture generator, the cartridge and the IRQ latch. -/
def SameButDot (s t : State) : Prop := t = { s with ppu := t.ppu, cart := t.cart, pend := { s.pend with irq := t.pend.irq } }

theorem SameButDot.refl (s : State) : SameButDot s s := rfl

theorem SameButDot.mapPpu (f : Ppu → Ppu) (s : State) : SameButDot s (s.mapPpu f) := rfl

theorem SameButDot.trans {s t u : State} (h : SameButDot s t) (k : SameButDot t u) : SameButDot s u := by
  unfold SameButDot at h
  rw [h] at k
  exact k

theorem SameButDot.nmi {s t : State} (h : SameButDot s t) : t.pend.nmi = s.pend.nmi := congrArg (·.pend.nmi) h

theorem SameButDot.sink {s t : State} (h : SameButDot s t) : t.sink = s.sink := congrArg (·.sink) h

theorem SameButDot.bus {s t : State} (h : SameButDot s t) : t.bus = s.bus := congrArg (·.bus) h

/-- A function that, where signals are plain, changes no more than that. -/
def DotPhase (f : State → State) : Prop := ∀ s, plainSignals s.bus = true → SameButDot s (f s)

theorem DotPhase.comp {f g : State → State} (hf : DotPhase f) (hg : DotPhase g) : DotPhase fun s => g (f s) :=
  fun s h => (hf s h).trans (hg _ ((hf s h).bus ▸ h))

theorem DotPhase.ite {f : State → State} {p : State → Prop} [∀ s, Decidable (p s)] (hf : DotPhase f) :
    DotPhase fun s => if p s then f s else s := by
  intro s h
  dsimp only
  split
  · exact hf s h
  · exact .refl s

theorem DotPhase.mapPpu (f : State → Ppu → Ppu) : DotPhase fun s => s.mapPpu (f s) := fun s _ => .mapPpu (f s) s

/-! ### Fetches -/

/-- The byte a fetch gives depends on the cartridge and the memories alone (R620). -/
theorem ppuFetch_fst_congr {s t : State} (hc : t.cart = s.cart) (hm : t.ppu.mem = s.ppu.mem) (a : PpuAddr) :
    (ppuFetch a t).1 = (ppuFetch a s).1 := by
  simp only [ppuFetch, ppuReadVia, patternReadVia, paletteRead, hc, hm]
  split
  · rfl
  · split <;> rfl

theorem signalIrq_sameButDot {x : ExtRun} {s : State} (h : plainSignals s.bus = true) (b : Bool) :
    SameButDot s (signalIrqVia x b s) ∧ (signalIrqVia x b s).ppu = s.ppu := by
  simp only [plainSignals, Bool.and_eq_true] at h
  unfold signalIrqVia busIrqVia
  split
  · split
    · exact ⟨rfl, rfl⟩
    · rename_i he
      rw [he] at h
      cases h.1
    · exact ⟨rfl, rfl⟩
  · exact ⟨rfl, rfl⟩

/-- A fetch leaves the whole picture generator alone: beside giving its byte it can only be seen by the mapper (R651). -/
theorem ppuFetch_frame {s : State} (h : plainSignals s.bus = true) (a : PpuAddr) :
    SameButDot s (ppuFetch a s).2 ∧ (ppuFetch a s).2.ppu = s.ppu := by
  unfold ppuFetch ppuReadVia
  split
  · have hirq := signalIrq_sameButDot (x := quietRun) (s := s.mapCart fun c => { c with st := (s.cart.mapPpuRead a).st }) h
      (s.cart.mapPpuRead a).irq
    exact ⟨.trans (t := s.mapCart fun c => { c with st := (s.cart.mapPpuRead a).st }) rfl hirq.1, hirq.2⟩
  · split <;> exact ⟨rfl, rfl⟩

theorem ppuFetch_ppu {s : State} (h : plainSignals s.bus = true) (a : PpuAddr) : (ppuFetch a s).2.ppu = s.ppu :=
  (ppuFetch_frame h a).2

/-- A fetch and the latching of its byte. -/
theorem DotPhase.fetch (a : State → PpuAddr) (f : State → Byte → Ppu → Ppu) :
    DotPhase fun s => (ppuFetch (a s) s).2.mapPpu (f s (ppuFetch (a s) s).1) :=
  fun s h => (ppuFetch_frame h (a s)).1.trans (.mapPpu _ _)

theorem fetchNametable_phase : DotPhase fetchNametable := .fetch _ fun _ v => Ppu.mapBg fun b => { b with nextId := v }

/-! ### Background work (R510-R520) -/

theorem bgFetch_phase (d : Nat) : DotPhase (bgFetch d) := by
  unfold bgFetch
  split
  · exact (DotPhase.mapPpu fun _ => Ppu.mapBg PpuBg.load).comp fetchNametable_phase
  · exact .fetch _ fun s v => Ppu.mapBg fun b => { b with nextAttr := attrBits s.ppu.scr.v v }
  · exact .fetch _ fun _ v => Ppu.mapBg fun b => { b with nextLo := v }
  · exact .fetch _ fun _ v => Ppu.mapBg fun b => { b with nextHi := v }
  · exact .mapPpu fun _ => Ppu.moveV incX
  · exact fun s _ => .refl s

theorem bgShiftFetch_phase (d : Nat) : DotPhase (bgShiftFetch d) :=
  .ite ((DotPhase.mapPpu fun _ => Ppu.mapBg PpuBg.shift).comp (bgFetch_phase d))

theorem bgWork_phase (ln d : Nat) : DotPhase (bgWork ln d) :=
  have incY : DotPhase (bgIncY d) := .ite (.mapPpu fun _ => Ppu.moveV incY)
  have copyX : DotPhase (bgCopyX d) := .ite (.mapPpu fun _ p => p.moveV (copyX · p.scr.t))
  have copyY : DotPhase (bgCopyY ln d) := .ite (.mapPpu fun _ p => p.moveV (copyY · p.scr.t))
  have reread : DotPhase (bgReread d) := .ite fetchNametable_phase
  ((((bgShiftFetch_phase d).comp incY).comp copyX).comp copyY).comp reread

/-- The latches and shifters behind the fetch step of dot `d` (R511), from those before it. -/
def bgFetched (d : Nat) (s : State) : PpuBg :=
  { (if (d - 1) % 8 = 0 then s.ppu.bg.load else s.ppu.bg) with
    nextId := if (d - 1) % 8 = 0 then (ppuFetch (ntAddr s.ppu.scr.v) s).1 else s.ppu.bg.nextId
    nextAttr := if (d - 1) % 8 = 2 then attrBits s.ppu.scr.v (ppuFetch (attrAddr s.ppu.scr.v) s).1 else s.ppu.bg.nextAttr
    nextLo := if (d - 1) % 8 = 4 then (ppuFetch (patAddr s.ppu 0) s).1 else s.ppu.bg.nextLo
    nextHi := if (d - 1) % 8 = 6 then (ppuFetch (patAddr s.ppu 8) s).1 else s.ppu.bg.nextHi }

theorem fetchNametable_ppu {s : State} (h : plainSignals s.bus = true) : (fetchNametable s).ppu =
    s.ppu.mapBg fun b => { b with nextId := (ppuFetch (ntAddr s.ppu.scr.v) s).1 } := by
  simp only [fetchNametable, State.mapPpu_ppu, ppuFetch_ppu h]

/-- The fetch step of a dot changes the background, and `v` where it is the last of eight. -/
theorem bgFetch_ppu (d : Nat) {s : State} (h : plainSignals s.bus = true) : (bgFetch d s).ppu =
    (s.ppu.mapBg fun _ => bgFetched d s).moveV fun v => if (d - 1) % 8 = 7 then incX v else v := by
  unfold bgFetch bgFetched
  split
  next hk =>
    have hv : ∀ a, (ppuFetch a (s.mapPpu (Ppu.mapBg PpuBg.load))).1 = (ppuFetch a s).1 := ppuFetch_fst_congr rfl rfl
    simp [fetchNametable_ppu (s := s.mapPpu _) h, hv, hk, Ppu.mapBg, Ppu.moveV, Ppu.mapScr, PpuBg.load]
  next hk => simp [hk, fetchAttribute, ppuFetch_ppu h, Ppu.mapBg, Ppu.moveV, Ppu.mapScr]
  next hk => simp [hk, fetchPatternLo, ppuFetch_ppu h, Ppu.mapBg, Ppu.moveV, Ppu.mapScr]
  next hk => simp [hk, fetchPatternHi, ppuFetch_ppu h, Ppu.mapBg, Ppu.moveV, Ppu.mapScr]
  next hk => simp [hk, Ppu.mapBg, Ppu.moveV, Ppu.mapScr]
  next h0 h2 h4 h6 h7 => simp only [if_neg h0, if_neg h2, if_neg h4, if_neg h6, if_neg h7]; rfl

theorem bgActive_iff (d : Nat) : bgActive d = true ↔ 2 ≤ d ∧ d ≤ 257 ∨ 321 ≤ d ∧ d ≤ 337 := by simp [bgActive]

theorem bgShiftFetch_ppu (d : Nat) {s : State} (h : plainSignals s.bus = true) : (bgShiftFetch d s).ppu =
    (s.ppu.mapBg fun b => if bgActive d then bgFetched d (s.mapPpu (Ppu.mapBg PpuBg.shift)) else b).moveV fun v =>
      if bgActive d ∧ (d - 1) % 8 = 7 then incX v else v := by
  unfold bgShiftFetch
  split
  next hd =>
    simp only [hd, true_and]
    exact bgFetch_ppu d (s := s.mapPpu (Ppu.mapBg PpuBg.shift)) h
  next hd => simp only [hd]; rfl

theorem bgIncY_ppu (d : Nat) (s : State) : (bgIncY d s).ppu = s.ppu.moveV fun v => if d = 256 then incY v else v := by
  unfold bgIncY
  split <;> rfl

theorem bgCopyX_ppu (d : Nat) (s : State) :
    (bgCopyX d s).ppu = s.ppu.moveV fun v => if d = 257 then copyX v s.ppu.scr.t else v := by
  unfold bgCopyX
  split <;> rfl

theorem bgCopyY_ppu (ln d : Nat) (s : State) :
    (bgCopyY ln d s).ppu = s.ppu.moveV fun v => if ln = 261 ∧ 280 ≤ d ∧ d ≤ 304 then copyY v s.ppu.scr.t else v := by
  unfold bgCopyY
  split <;> rfl

/-- The latches and shifters behind the background work of dot `d`, from the state before it. -/
def bgAfter (d : Nat) (s : State) : PpuBg :=
  if bgActive d then bgFetched d (s.mapPpu (Ppu.mapBg PpuBg.shift))
  else { s.ppu.bg with nextId := if d = 338 ∨ d = 340 then (ppuFetch (ntAddr s.ppu.scr.v) s).1 else s.ppu.bg.nextId }

/-- At the dots of a reread nothing else is done (R520). -/
theorem bgWork_reread {ln d : Nat} (hd : d = 338 ∨ d = 340) (s : State) : bgWork ln d s = fetchNametable s := by
  have hb : bgActive d = false := by rw [← Bool.not_eq_true, bgActive_iff]; omega
  have h256 : d ≠ 256 := by omega
  have h257 : d ≠ 257 := by omega
  have h280 : ¬(ln = 261 ∧ 280 ≤ d ∧ d ≤ 304) := by omega
  simp only [bgWork, bgReread, bgCopyY, bgCopyX, bgIncY, bgShiftFetch, hd, hb, h256, h257, h280, if_true, if_false,
    Bool.false_eq_true]

/-- The increments and copies one after the other are the one scheduled for the dot. -/
theorem scrollAfter_eq (ln d : Nat) (v t : Scroll) : scrollAfter ln d v t =
    (let v := if bgActive d ∧ (d - 1) % 8 = 7 then incX v else v
     let v := if d = 256 then incY v else v
     let v := if d = 257 then copyX v t else v
     if ln = 261 ∧ 280 ≤ d ∧ d ≤ 304 then copyY v t else v) := by
  have hinc : (bgActive d ∧ (d - 1) % 8 = 7) ↔ (d % 8 = 0 ∧ (8 ≤ d ∧ d ≤ 248 ∨ 328 ≤ d ∧ d ≤ 336)) ∨ d = 256 := by
    rw [bgActive_iff]; omega
  simp only [scrollAfter, hinc]
  rcases Nat.lt_trichotomy d 256 with hd | rfl | hd
  · have h256 : d ≠ 256 := by omega
    have h257 : d ≠ 257 := by omega
    have h280 : ¬(ln = 261 ∧ 280 ≤ d ∧ d ≤ 304) := by omega
    simp only [h256, h257, h280, or_false, if_false]
  · simp
  · have h256 : d ≠ 256 := by omega
    by_cases hx : d % 8 = 0 ∧ (8 ≤ d ∧ d ≤ 248 ∨ 328 ≤ d ∧ d ≤ 336)
    · have h257 : d ≠ 257 := by omega
      have h280 : ¬(ln = 261 ∧ 280 ≤ d ∧ d ≤ 304) := by omega
      simp only [hx, h257, h280, if_true, if_false, h256, or_false, and_self]
    · by_cases h257 : d = 257
      · subst h257; simp
      · simp only [hx, h256, h257, or_false, if_false]

/-- Background work changes the background and `v`, and nothing else of the picture generator. -/
theorem bgWork_ppu (ln d : Nat) {s : State} (h : plainSignals s.bus = true) : (bgWork ln d s).ppu =
    (s.ppu.mapBg fun _ => bgAfter d s).moveV fun v => scrollAfter ln d v s.ppu.scr.t := by
  by_cases hd : d = 338 ∨ d = 340
  · have hb : bgActive d = false := by rw [← Bool.not_eq_true, bgActive_iff]; omega
    have hv : scrollAfter ln d s.ppu.scr.v s.ppu.scr.t = s.ppu.scr.v := by
      unfold scrollAfter
      rw [if_neg (by omega), if_neg (by omega), if_neg (by omega), if_neg (by omega)]
    rw [bgWork_reread hd, fetchNametable_ppu h]
    simp only [bgAfter, hb, hd, if_true, Ppu.moveV, Ppu.mapScr, Ppu.mapBg, hv]
    rfl
  · have hb : (bgWork ln d s).ppu = (bgCopyY ln d (bgCopyX d (bgIncY d (bgShiftFetch d s)))).ppu := by
      rw [bgWork, bgReread, if_neg hd]
    rw [hb, bgCopyY_ppu, bgCopyX_ppu, bgIncY_ppu, bgShiftFetch_ppu d h]
    simp only [bgAfter, if_neg hd, scrollAfter_eq]
    rfl

/-- At the dots of the sprite fetches background work makes no access (R511, R534). -/
theorem bgWork_cart {ln d : Nat} (hd : 258 ≤ d ∧ d ≤ 320) (s : State) : (bgWork ln d s).cart = s.cart := by
  have hb : bgActive d = false := by rw [← Bool.not_eq_true, bgActive_iff]; omega
  have h256 : d ≠ 256 := by omega
  have h257 : d ≠ 257 := by omega
  have h338 : ¬(d = 338 ∨ d = 340) := by omega
  simp only [bgWork, bgReread, bgCopyY, bgCopyX, bgIncY, bgShiftFetch, hb, h256, h257, h338, if_false, Bool.false_eq_true]
  split <;> rfl

/-! ### Sprite work (R530-R538) -/

theorem spriteWork_phase (ln d : Nat) : DotPhase (spriteWork ln d) :=
  have clear : DotPhase (sprClear ln d) := .ite (.mapPpu fun _ => Ppu.mapSpr (PpuSprites.clear (decide (ln ≤ 239))))
  have evaluate : DotPhase (sprEvaluate ln d) := .ite (.mapPpu fun _ => Ppu.evalSprite ((d - 65) / 3))
  have latch : DotPhase (sprLatch d) := .ite (.mapPpu fun _ => Ppu.mapSpr PpuSprites.latch)
  have fetchLo : DotPhase (sprFetchLo d) := .ite (.fetch _ fun _ v => Ppu.mapSpr fun q => { q with sprLo := v })
  have fetchHi : DotPhase (sprFetchHi d) :=
    .ite (.fetch (fun s => slotAddr ((d - 263) / 8) s.ppu + 8) fun _ v => Ppu.loadSlot ((d - 263) / 8) v)
  have shift : DotPhase (sprShift d) := .ite (.mapPpu fun _ => Ppu.mapSpr fun q => { q with slots := q.slots.map Slot.shift })
  ((((clear.comp evaluate).comp latch).comp fetchLo).comp fetchHi).comp shift

/-- Rendering work of a dot where it is done: background, then sprites (R500). -/
theorem renderWork_phase (ln d : Nat) : DotPhase (renderWork ln d) :=
  .ite ((bgWork_phase ln d).comp (spriteWork_phase ln d))

/-- The slots behind the sprite work of dot `d`, from the state before it. -/
def slotsAfter (d : Nat) (s : State) : List Slot :=
  if 2 ≤ d ∧ d ≤ 257 then s.ppu.spr.slots.map Slot.shift
  else if 263 ≤ d ∧ d ≤ 319 ∧ (d - 263) % 8 = 0 then
    s.ppu.spr.slots.set ((d - 263) / 8)
      (s.ppu.loadedSlot ((d - 263) / 8) s.ppu.spr.sprLo (ppuFetch (slotAddr ((d - 263) / 8) s.ppu + 8) s).1)
  else s.ppu.spr.slots

/-- The low plane in its latch behind the sprite work of dot `d`. -/
def sprLoAfter (d : Nat) (s : State) : Byte :=
  if 261 ≤ d ∧ d ≤ 317 ∧ (d - 261) % 8 = 0 then (ppuFetch (slotAddr ((d - 261) / 8) s.ppu) s).1 else s.ppu.spr.sprLo

theorem sprFetchLo_ppu (d : Nat) {s : State} (h : plainSignals s.bus = true) :
    (sprFetchLo d s).ppu = s.ppu.mapSpr fun q => { q with sprLo := sprLoAfter d s } := by
  unfold sprFetchLo sprLoAfter
  split
  · simp only [fetchSpriteLo, State.mapPpu_ppu, ppuFetch_ppu h]
  · rfl

/-- Up to dot 257 the table is cleared, evaluated and latched, and the slots shift. -/
theorem spriteWork_ppu_early {ln d : Nat} (hd : d ≤ 257) (s : State) : (spriteWork ln d s).ppu =
    (sprEvaluate ln d (sprClear ln d s)).ppu.mapSpr fun q => { q with
      slots := if 2 ≤ d then q.slots.map Slot.shift else q.slots
      countCur := if d = 257 then q.countNext else q.countCur
      spr0Cur := if d = 257 then q.spr0Next else q.spr0Cur } := by
  have hlo : ¬(261 ≤ d ∧ d ≤ 317 ∧ (d - 261) % 8 = 0) := by omega
  have hhi : ¬(263 ≤ d ∧ d ≤ 319 ∧ (d - 263) % 8 = 0) := by omega
  simp only [spriteWork, sprShift, sprFetchHi, sprFetchLo, sprLatch, hlo, hhi, hd, and_true, if_false]
  by_cases h2 : 2 ≤ d <;> by_cases h257 : d = 257 <;> simp only [h2, h257, if_true, if_false] <;> rfl

/-- From dot 258 on the slots are fetched and loaded. -/
theorem spriteWork_ppu_late {ln d : Nat} (hd : 257 < d) {s : State} (h : plainSignals s.bus = true) :
    (spriteWork ln d s).ppu = s.ppu.mapSpr fun q => { q with slots := slotsAfter d s, sprLo := sprLoAfter d s } := by
  have h1 : d ≠ 1 := by omega
  have heval : ¬(ln ≤ 239 ∧ 65 ≤ d ∧ d ≤ 254 ∧ (d - 65) % 3 = 0) := by omega
  have h257 : d ≠ 257 := by omega
  have hshift : ¬(2 ≤ d ∧ d ≤ 257) := by omega
  simp only [spriteWork, sprShift, sprLatch, sprEvaluate, sprClear, h1, heval, h257, hshift, if_false]
  by_cases hhi : 263 ≤ d ∧ d ≤ 319 ∧ (d - 263) % 8 = 0
  · have hlo : ¬(261 ≤ d ∧ d ≤ 317 ∧ (d - 261) % 8 = 0) := by omega
    simp only [sprFetchHi, sprFetchLo, slotsAfter, sprLoAfter, hshift, hhi, hlo, and_self, if_true, if_false, fetchSpriteHi,
      State.mapPpu_ppu, ppuFetch_ppu h]
    rfl
  · simp only [sprFetchHi, hhi, if_false, sprFetchLo_ppu d h, slotsAfter, hshift]
    rfl

/-! ### The pixel and the position (R540-R550) -/

/-- What the pixel and the move of the beam leave as rendering work left it. -/
structure BehindPixel (s t : State) : Prop where
  bg       : t.ppu.bg = s.ppu.bg
  scr      : t.ppu.scr = s.ppu.scr
  spr      : t.ppu.spr = s.ppu.spr
  vblank   : t.ppu.regs.vblank = s.ppu.regs.vblank
  overflow : t.ppu.regs.spriteOverflow = s.ppu.regs.spriteOverflow
  hit      : s.ppu.regs.sprite0Hit = true → t.ppu.regs.sprite0Hit = true
  cart     : t.cart = s.cart
  pend     : t.pend = s.pend

theorem pixelWork_behind (ln d : Nat) (s : State) : BehindPixel s (pixelWork ln d s) := by
  unfold pixelWork
  split
  · exact ⟨rfl, rfl, rfl, rfl, rfl, fun h => Bool.or_eq_true_iff.mpr (.inl h), rfl, rfl⟩
  · exact ⟨rfl, rfl, rfl, rfl, rfl, id, rfl, rfl⟩

/-- The move of the beam changes its position, the buffer shown and the sink alone. -/
structure BehindDot (s t : State) : Prop where
  ppu  : t.ppu = { s.ppu with pos := t.ppu.pos, out := { s.ppu.out with back := t.ppu.out.back } }
  cart : t.cart = s.cart
  pend : t.pend = s.pend

theorem BehindDot.trans {s t u : State} (h : BehindDot s t) (k : BehindDot t u) : BehindDot s u := by
  refine ⟨?_, k.cart.trans h.cart, k.pend.trans h.pend⟩
  rw [k.ppu, h.ppu]

theorem moveTo_behind (ln d : Nat) (s : State) : BehindDot s (s.mapPpu (Ppu.moveTo ln d)) := ⟨rfl, rfl, rfl⟩

theorem endFrame_behind (s : State) : BehindDot s (endFrame s) := ⟨rfl, rfl, rfl⟩

theorem wrapFrame_behind (s : State) : BehindDot s (wrapFrame s) := by
  unfold wrapFrame
  split
  · exact (moveTo_behind 0 _ s).trans (endFrame_behind _)
  · exact ⟨rfl, rfl, rfl⟩

theorem advance_behind (ln d : Nat) (s : State) : BehindDot s (advance ln d s) := by
  unfold advance
  split
  · exact (moveTo_behind 0 0 s).trans (endFrame_behind _)
  · split
    · exact (moveTo_behind (ln + 1) 0 s).trans (wrapFrame_behind _)
    · exact .trans (t := s.mapPpu (Ppu.moveDot (d + 1))) ⟨rfl, rfl, rfl⟩ (wrapFrame_behind _)

theorem BehindPixel.of_ppu {r s t : State} (h : BehindPixel r s) (k : BehindDot s t) : BehindPixel r t := by
  refine ⟨?_, ?_, ?_, ?_, ?_, fun hr => ?_, k.cart.trans h.cart, k.pend.trans h.pend⟩ <;> rw [k.ppu]
  · exact h.bg
  · exact h.scr
  · exact h.spr
  · exact h.vblank
  · exact h.overflow
  · exact h.hit hr

/-! ### Line events (R502, R503) -/

/-- The control state behind phase 1, from that before it. -/
def lineFlags (ln d : Nat) (q : PpuRegs) : PpuRegs :=
  if ln = 241 ∧ d = 1 then q.enterVblank else if ln = 261 ∧ d = 1 then q.clearFlags else q

theorem lineEvents_eq_self {ln d : Nat} (hd : d ≠ 1) (s : State) : lineEvents ln d s = s := by
  unfold lineEvents
  rw [if_neg (by omega), if_neg (by omega)]

theorem lineFlags_eq_self {ln d : Nat} (hd : d ≠ 1) (q : PpuRegs) : lineFlags ln d q = q := by
  unfold lineFlags
  rw [if_neg (by omega), if_neg (by omega)]

/-- The signal of vblank changes the latches alone. -/
theorem vblankNmi_frame {s : State} (h : plainSignals s.bus = true) : ∃ f, vblankNmi s = s.mapPend f := by
  obtain ⟨f, hf, -⟩ := busNmi_plain (x := quietRun) h
  unfold vblankNmi busNmi
  split
  · exact ⟨f, hf⟩
  · exact ⟨id, rfl⟩

/-- Phase 1 changes the status flags and the latches alone. -/
theorem lineEvents_frame (ln d : Nat) {s : State} (h : plainSignals s.bus = true) :
    ∃ f, lineEvents ln d s = (s.mapPpu (Ppu.mapRegs (lineFlags ln d))).mapPend f := by
  unfold lineEvents lineFlags
  split
  · exact vblankNmi_frame (s := s.mapPpu (Ppu.mapRegs PpuRegs.enterVblank)) h
  · split <;> exact ⟨id, rfl⟩

/-! ### Phases 1 and 2 together -/

/-- Entry `(d - 65) / 3` is evaluated at dot `d` of line `ln`, and in range (R531). -/
def Ppu.finds (ln d : Nat) (p : Ppu) : Bool :=
  decide (ln ≤ 239 ∧ 65 ≤ d ∧ d ≤ 254 ∧ (d - 65) % 3 = 0) && p.spriteInRange ((d - 65) / 3)

theorem Ppu.finds_eq_false {ln d : Nat} (h : ¬(ln ≤ 239 ∧ 65 ≤ d ∧ d ≤ 254 ∧ (d - 65) % 3 = 0)) (p : Ppu) :
    p.finds ln d = false := by simp only [Ppu.finds, decide_eq_false h, Bool.false_and]

/-- The secondary table and the counts of the next line behind dot `d` (R530, R531), from those before it. -/
def Ppu.selected (ln d : Nat) (p : Ppu) : PpuSprites :=
  if d = 1 then p.spr.clear (decide (ln ≤ 239))
  else if p.finds ln d && decide (p.spr.countNext < 8) then p.spr.take ((d - 65) / 3) else p.spr

/-- The sprites behind a dot of rendering work (R530-R538), from the state before it. -/
def spritesAfter (ln d : Nat) (s : State) : PpuSprites :=
  { s.ppu.selected ln d with
    slots := slotsAfter d s
    sprLo := sprLoAfter d s
    countCur := if d = 257 then (s.ppu.selected ln d).countNext else (s.ppu.selected ln d).countCur
    spr0Cur := if d = 257 then (s.ppu.selected ln d).spr0Next else (s.ppu.selected ln d).spr0Cur }

/-- A ninth sprite is found at dot `d` of line `ln` (R531). -/
def Ppu.findsNinth (ln d : Nat) (p : Ppu) : Bool := p.finds ln d && decide (8 ≤ p.spr.countNext)

theorem Ppu.findsNinth_eq_false {ln d : Nat} {p : Ppu} (h : p.finds ln d = false) : p.findsNinth ln d = false := by
  rw [Ppu.findsNinth, h, Bool.false_and]

/-- Evaluation takes the sprite found, or sets the overflow flag for a ninth. -/
theorem sprEvaluate_ppu (ln d : Nat) (s : State) : (sprEvaluate ln d s).ppu =
    (s.ppu.mapSpr fun q =>
      if s.ppu.finds ln d && decide (q.countNext < 8) then q.take ((d - 65) / 3) else q).mapRegs fun q =>
        { q with spriteOverflow := q.spriteOverflow || s.ppu.findsNinth ln d } := by
  unfold sprEvaluate Ppu.findsNinth Ppu.finds
  by_cases he : ln ≤ 239 ∧ 65 ≤ d ∧ d ≤ 254 ∧ (d - 65) % 3 = 0
  · rw [if_pos he, State.mapPpu_ppu, Ppu.evalSprite]
    by_cases hr : s.ppu.spriteInRange ((d - 65) / 3) = true
    · by_cases hc : s.ppu.spr.countNext < 8
      · have hc' : ¬8 ≤ s.ppu.spr.countNext := by omega
        simp [hr, hc, hc', he, Ppu.mapSpr, Ppu.mapRegs]
      · have hc' : 8 ≤ s.ppu.spr.countNext := by omega
        simp [hr, hc, hc', he, Ppu.mapSpr, Ppu.mapRegs]
    · simp [hr, Ppu.mapSpr, Ppu.mapRegs]
  · simp [he, Ppu.mapSpr, Ppu.mapRegs]

/-- The selection keeps the primary table, the slots, the latch and the counts of this line. -/
theorem Ppu.selected_keeps (ln d : Nat) (p : Ppu) : (p.selected ln d).slots = p.spr.slots ∧
    (p.selected ln d).sprLo = p.spr.sprLo ∧ (p.selected ln d).oam = p.spr.oam ∧
    (p.selected ln d).countCur = p.spr.countCur ∧ (p.selected ln d).spr0Cur = p.spr.spr0Cur := by
  unfold Ppu.selected
  split
  · exact ⟨rfl, rfl, rfl, rfl, rfl⟩
  · split <;> exact ⟨rfl, rfl, rfl, rfl, rfl⟩

theorem Ppu.selected_eq_self {ln d : Nat} (h1 : d ≠ 1) {p : Ppu} (hf : p.finds ln d = false) : p.selected ln d = p.spr := by
  simp only [Ppu.selected, h1, hf, Bool.false_and, if_false, Bool.false_eq_true]

/-- Clear and evaluation together. -/
theorem sprSelect_ppu (ln d : Nat) (s : State) : (sprEvaluate ln d (sprClear ln d s)).ppu =
    (s.ppu.mapSpr fun _ => s.ppu.selected ln d).mapRegs fun q =>
      { q with spriteOverflow := q.spriteOverflow || s.ppu.findsNinth ln d } := by
  rw [sprEvaluate_ppu]
  by_cases h1 : d = 1
  · subst h1
    have hf (p : Ppu) : p.finds ln 1 = false := Ppu.finds_eq_false (by omega) p
    have hninth (p : Ppu) : p.findsNinth ln 1 = false := Ppu.findsNinth_eq_false (hf p)
    simp only [sprClear, hf, hninth, Ppu.selected, if_true]
    rfl
  · simp only [sprClear, h1, Ppu.selected, if_false]
    rfl

/-- The dots before the sprite fetches: nothing of the sprites is looked up in memory. -/
theorem slotsAfter_early {d : Nat} (hd : d ≤ 257) (s : State) :
    slotsAfter d s = if 2 ≤ d then s.ppu.spr.slots.map Slot.shift else s.ppu.spr.slots := by
  have hhi : ¬(263 ≤ d ∧ d ≤ 319 ∧ (d - 263) % 8 = 0) := by omega
  simp only [slotsAfter, hd, hhi, and_true, if_false]

theorem sprLoAfter_early {d : Nat} (hd : d ≤ 257) (s : State) : sprLoAfter d s = s.ppu.spr.sprLo := if_neg (by omega)

/-- The background work of the dot does not enter what the sprites fetch. -/
theorem sprites_bgWork {ln d : Nat} (hd : 257 < d) {s : State} (h : plainSignals s.bus = true) :
    slotsAfter d (bgWork ln d s) = slotsAfter d s ∧ sprLoAfter d (bgWork ln d s) = sprLoAfter d s := by
  have hp := bgWork_ppu ln d h
  have hfetch (hd' : 258 ≤ d ∧ d ≤ 320) (a) : (ppuFetch a (bgWork ln d s)).1 = (ppuFetch a s).1 :=
    ppuFetch_fst_congr (bgWork_cart hd' s) (hp ▸ rfl) a
  have hshift : ¬(2 ≤ d ∧ d ≤ 257) := by omega
  simp only [slotsAfter, sprLoAfter, hshift, if_false]
  constructor
  · split
    next hd' => rw [hfetch (by omega), hp]; rfl
    next => rw [hp]; rfl
  · split
    next hd' => rw [hfetch (by omega), hp]; rfl
    next => rw [hp]; rfl

/-- What background and sprite work do to the picture generator. -/
theorem work_ppu (ln d : Nat) {s : State} (h : plainSignals s.bus = true) : (spriteWork ln d (bgWork ln d s)).ppu =
    (((s.ppu.mapBg fun _ => bgAfter d s).moveV fun v => scrollAfter ln d v s.ppu.scr.t).mapSpr fun _ =>
      spritesAfter ln d s).mapRegs fun q =>
        { q with spriteOverflow := q.spriteOverflow || s.ppu.findsNinth ln d } := by
  have hbus := (bgWork_phase ln d s h).bus
  have hp := bgWork_ppu ln d h
  by_cases hd : d ≤ 257
  · rw [spriteWork_ppu_early hd, sprSelect_ppu, hp]
    obtain ⟨hslots, hlo, -⟩ := Ppu.selected_keeps ln d s.ppu
    rw [spritesAfter, slotsAfter_early hd, sprLoAfter_early hd, ← hslots, ← hlo]
    rfl
  · have h1 : d ≠ 1 := by omega
    have h257 : d ≠ 257 := by omega
    have heval : ¬(ln ≤ 239 ∧ 65 ≤ d ∧ d ≤ 254 ∧ (d - 65) % 3 = 0) := by omega
    have hf : s.ppu.finds ln d = false := Ppu.finds_eq_false heval s.ppu
    obtain ⟨hslots, hlo⟩ := sprites_bgWork (ln := ln) (Nat.lt_of_not_le hd) h
    rw [spriteWork_ppu_late (Nat.lt_of_not_le hd) (hbus ▸ h), hslots, hlo, hp]
    simp only [spritesAfter, Ppu.selected_eq_self h1 hf, Ppu.findsNinth_eq_false hf, h257, Bool.or_false, if_false]
    rfl

/-- The state behind phases 1 and 2. -/
def rendered (s : State) : State :=
  renderWork s.ppu.pos.scanline s.ppu.pos.dot (lineEvents s.ppu.pos.scanline s.ppu.pos.dot s)

theorem ppuHandler_behind (s : State) : BehindPixel (rendered s) (ppuHandler s) :=
  (pixelWork_behind _ _ (rendered s)).of_ppu (advance_behind _ _ _)

theorem lineFlags_mask (ln d : Nat) (q : PpuRegs) : (lineFlags ln d q).mask = q.mask := by
  unfold lineFlags
  split
  · rfl
  · split <;> rfl

theorem Ppu.works_iff (p : Ppu) :
    p.works = true ↔ (p.pos.scanline ≤ 239 ∨ p.pos.scanline = 261) ∧ p.rendering = true := by simp [Ppu.works]

/-- Dot 1 clears the secondary table and the counts, and does no other work. -/
theorem bgAfter_one (s : State) : bgAfter 1 s = s.ppu.bg := rfl

theorem spritesAfter_one (ln : Nat) (s : State) : spritesAfter ln 1 s = s.ppu.spr.clear (decide (ln ≤ 239)) := by
  rw [spritesAfter, slotsAfter_early (by omega), sprLoAfter_early (by omega)]
  rfl

section plain
variable {s : State} (h : plainSignals s.bus = true)
include h

theorem lineEvents_rendering (ln d : Nat) : (lineEvents ln d s).ppu.rendering = s.ppu.rendering := by
  obtain ⟨f, hf⟩ := lineEvents_frame ln d h
  rw [hf]
  simp only [State.mapPend_ppu, State.mapPpu_ppu, Ppu.rendering, Ppu.mapRegs_regs, lineFlags_mask]

/-- Where no rendering work is done, phase 1 is all (R505). -/
theorem rendered_of_idle (hw : s.ppu.works = false) :
    rendered s = lineEvents s.ppu.pos.scanline s.ppu.pos.dot s := by
  refine if_neg fun hwork => ?_
  rw [lineEvents_rendering h, ← Ppu.works_iff, hw] at hwork
  cases hwork

/-- What a dot of rendering work does to the picture generator in phases 1 and 2. -/
theorem rendered_ppu (hw : s.ppu.works = true) :
    let ln := s.ppu.pos.scanline
    let d := s.ppu.pos.dot
    (rendered s).ppu =
      (((s.ppu.mapBg fun _ => bgAfter d s).moveV fun v => scrollAfter ln d v s.ppu.scr.t).mapSpr fun _ =>
        spritesAfter ln d s).mapRegs fun q => { lineFlags ln d q with
          spriteOverflow := (lineFlags ln d q).spriteOverflow || s.ppu.findsNinth ln d } := by
  intro ln d
  obtain ⟨f, hf⟩ := lineEvents_frame ln d h
  have hrender : rendered s = spriteWork ln d (bgWork ln d (lineEvents ln d s)) := by
    refine if_pos ?_
    rw [lineEvents_rendering h, ← Ppu.works_iff, hw]
  rw [hrender]
  by_cases hd : d = 1
  · have hninth (p : Ppu) : p.findsNinth ln 1 = false := Ppu.findsNinth_eq_false (Ppu.finds_eq_false (by omega) p)
    rw [hf, work_ppu ln d (s := (s.mapPpu _).mapPend f) h]
    simp only [hd, hninth, bgAfter_one, spritesAfter_one, State.mapPend_ppu, State.mapPpu_ppu, Ppu.mapRegs_scr]
    rfl
  · rw [lineEvents_eq_self hd, work_ppu ln d h]
    simp only [lineFlags_eq_self hd]

/-- The control state behind phases 1 and 2, from that before them. -/
theorem rendered_regs : (rendered s).ppu.regs =
    let q := lineFlags s.ppu.pos.scanline s.ppu.pos.dot s.ppu.regs
    { q with spriteOverflow := q.spriteOverflow || (s.ppu.works && s.ppu.findsNinth s.ppu.pos.scanline s.ppu.pos.dot) } := by
  cases hw : s.ppu.works
  · obtain ⟨f, hf⟩ := lineEvents_frame s.ppu.pos.scanline s.ppu.pos.dot h
    rw [rendered_of_idle h hw, hf]
    simp only [State.mapPend_ppu, State.mapPpu_ppu, Ppu.mapRegs_regs, Bool.false_and, Bool.or_false]
  · rw [rendered_ppu h hw]
    simp only [Bool.true_and]
    rfl

/-- Phases 1 and 2 move neither the beam nor the buffers. -/
theorem rendered_pos_out : (rendered s).ppu.pos = s.ppu.pos ∧ (rendered s).ppu.out = s.ppu.out := by
  cases hw : s.ppu.works
  · obtain ⟨f, hf⟩ := lineEvents_frame s.ppu.pos.scanline s.ppu.pos.dot h
    rw [rendered_of_idle h hw, hf]
    exact ⟨rfl, rfl⟩
  · rw [rendered_ppu h hw]
    exact ⟨rfl, rfl⟩

/-- After the line events the dot changes no more than a phase does. -/
theorem rendered_phase : SameButDot (lineEvents s.ppu.pos.scanline s.ppu.pos.dot s) (rendered s) := by
  obtain ⟨f, hf⟩ := lineEvents_frame s.ppu.pos.scanline s.ppu.pos.dot h
  exact renderWork_phase _ _ _ (by rw [hf]; exact h)

theorem rendered_sink_params : (rendered s).sink = s.sink ∧ (rendered s).params = s.params := by
  have hp := rendered_phase h
  obtain ⟨f, hf⟩ := lineEvents_frame s.ppu.pos.scanline s.ppu.pos.dot h
  rw [hf] at hp
  exact ⟨hp.sink, congrArg (·.params) hp⟩

end plain

/-! ### Phases 3 and 4: the pixel and the beam -/

theorem pixelWork_hidden {ln d : Nat} (hd : 239 < ln ∨ d = 0 ∨ 256 < d) (s : State) :
    pixelWork ln d s = s := if_neg (by omega)

/-- The pixel leaves the beam, the buffer shown, the sink and the mask alone. -/
theorem pixelWork_frame (ln d : Nat) (s : State) : (pixelWork ln d s).ppu.pos = s.ppu.pos ∧
    (pixelWork ln d s).ppu.out.back = s.ppu.out.back ∧ (pixelWork ln d s).sink = s.sink ∧
    (pixelWork ln d s).params = s.params ∧ (pixelWork ln d s).ppu.regs.mask = s.ppu.regs.mask := by
  unfold pixelWork
  split
  · refine ⟨rfl, ?_, rfl, rfl, rfl⟩
    simp only [State.mapPpu_ppu, Ppu.composePixel, Ppu.mapRegs_out, Ppu.storePixel, Ppu.mapOut_out]
    split <;> rfl
  · exact ⟨rfl, rfl, rfl, rfl, rfl⟩

/-- Where the last dot of a frame is skipped (R501). -/
theorem skipsLastDot_iff (ln d : Nat) (s : State) : skipsLastDot ln d s = true ↔
    ln = 261 ∧ d = 339 ∧ s.ppu.pos.frameCount % 2 = 1 ∧ (s.params.oddFrameSkip = .always ∨ s.ppu.rendering = true) := by
  have hskip : skipApplies s = true ↔ s.params.oddFrameSkip = .always ∨ s.ppu.rendering = true := by
    unfold skipApplies
    cases s.params.oddFrameSkip <;> simp
  simp only [skipsLastDot, Bool.and_eq_true, beq_iff_eq, hskip, and_assoc]

theorem endFrame_notices (s : State) :
    (endFrame s).sink.notices = s.sink.notices + (if s.sink.registered then 1 else 0) := by
  change (if s.sink.registered then { s.sink with notices := s.sink.notices + 1 } else s.sink).notices = _
  split <;> rfl

/-- The frame ends at its last dot, or at the one before where the last is skipped. -/
theorem advance_frameEnd {ln d : Nat} {s : State} (hend : skipsLastDot ln d s = true ∨ ln = 261 ∧ d = 340) :
    advance ln d s = endFrame (s.mapPpu (Ppu.moveTo 0 0)) := by
  unfold advance
  split
  next => rfl
  next hskip =>
    obtain ⟨rfl, rfl⟩ := hend.resolve_left hskip
    rfl

/-- Inside a frame the beam moves on, to the next line at the end of its line. -/
theorem advance_inside {ln d : Nat} {s : State} (hend : ¬(skipsLastDot ln d s = true ∨ ln = 261 ∧ d = 340))
    (hln : s.ppu.pos.scanline = ln) (hlt : ln < 262) :
    advance ln d s = s.mapPpu (if d = 340 then Ppu.moveTo (ln + 1) 0 else Ppu.moveDot (d + 1)) := by
  obtain ⟨hskip, hlast⟩ := not_or.mp hend
  rw [advance, if_neg hskip]
  by_cases hd : d = 340
  · subst hd
    exact wrapFrame_of_ne (s := s.mapPpu (Ppu.moveTo (ln + 1) 0)) (by change ln + 1 ≠ 262; omega)
  · rw [if_neg hd, if_neg (by omega)]
    exact wrapFrame_of_ne (s := s.mapPpu (Ppu.moveDot (d + 1))) (by change s.ppu.pos.scanline ≠ 262; omega)

/-- The state behind phases 1 to 3, from which the beam moves on. -/
def drawn (s : State) : State := pixelWork s.ppu.pos.scanline s.ppu.pos.dot (rendered s)

theorem ppuHandler_eq (s : State) : ppuHandler s = advance s.ppu.pos.scanline s.ppu.pos.dot (drawn s) := rfl

section plain
variable {s : State} (h : plainSignals s.bus = true)
include h

theorem drawn_pos : (drawn s).ppu.pos = s.ppu.pos := (pixelWork_frame _ _ _).1.trans (rendered_pos_out h).1

theorem drawn_skips : skipsLastDot s.ppu.pos.scanline s.ppu.pos.dot (drawn s) = true ↔
    s.ppu.pos.scanline = 261 ∧ s.ppu.pos.dot = 339 ∧ s.ppu.pos.frameCount % 2 = 1 ∧
      (s.params.oddFrameSkip = .always ∨ s.ppu.rendering = true) := by
  obtain ⟨-, -, -, hparams, hmask⟩ := pixelWork_frame s.ppu.pos.scanline s.ppu.pos.dot (rendered s)
  have hrender : (drawn s).ppu.rendering = s.ppu.rendering := by
    simp only [Ppu.rendering, drawn, hmask, rendered_regs h, lineFlags_mask]
  rw [skipsLastDot_iff, drawn_pos h, hrender, drawn, hparams, (rendered_sink_params h).2]

/-- On a visible dot nothing comes behind the pixel but the move to the next dot. -/
theorem ppuHandler_visible (hln : s.ppu.pos.scanline ≤ 239) (hd : 1 ≤ s.ppu.pos.dot) (hd' : s.ppu.pos.dot ≤ 256) :
    (ppuHandler s).ppu = ((rendered s).ppu.composePixel s.params.sprite0HitX255 (s.ppu.pos.dot - 1)
      s.ppu.pos.scanline).moveDot (s.ppu.pos.dot + 1) := by
  have hend : ¬(skipsLastDot s.ppu.pos.scanline s.ppu.pos.dot (drawn s) = true ∨
      s.ppu.pos.scanline = 261 ∧ s.ppu.pos.dot = 340) := by rw [drawn_skips h]; omega
  rw [ppuHandler_eq, advance_inside hend (congrArg PpuPos.scanline (drawn_pos h)) (by omega), if_neg (by omega), drawn,
    pixelWork, if_pos ⟨hln, hd, hd'⟩, (rendered_sink_params h).2]
  rfl

end plain

end Sys2Proof.Machine

namespace Sys2Proof.Machine

/-! ## The beam and the line events (R501-R503, R545, R550, R551) -/

/-- Settles O42: the beam moves on as `advance` says, from the position before the dot. -/
theorem beamAdvancesThroughFrame : Obligations.BeamAdvancesThroughFrame := by
  intro s hln hd h p t skips
  have hskips : skipsLastDot p.scanline p.dot (drawn s) = true ↔ skips := drawn_skips h
  have hpos := drawn_pos h
  obtain ⟨-, hback, hsink, -, -⟩ := pixelWork_frame p.scanline p.dot (rendered s)
  have hout := (rendered_pos_out h).2
  have hsink' := (rendered_sink_params h).1
  refine ⟨fun hend => ?last, fun hend => ?inside⟩
  case last =>
    have hlast : p.scanline = 261 := hend.elim And.left And.left
    have hhidden : 239 < p.scanline := by rw [hlast]; decide
    have ht : t = endFrame ((drawn s).mapPpu (Ppu.moveTo 0 0)) :=
      advance_frameEnd (hend.imp_left hskips.mpr)
    have hdrawn : drawn s = rendered s := pixelWork_hidden (.inl hhidden) _
    rw [ht]
    refine ⟨?_, ?_, ?_, ?_, ?_⟩
    · change PpuPos.mk 0 0 ((drawn s).ppu.pos.frameCount + 1) = _
      rw [hpos]
    · exact congrArg not (hback.trans (congrArg PpuOut.back hout))
    · change (drawn s).ppu.out.fb0 = _
      rw [hdrawn, hout]
    · change (drawn s).ppu.out.fb1 = _
      rw [hdrawn, hout]
    · rw [endFrame_notices, ← hsink', ← hsink]
      rfl
  case inside =>
    have ht : t = (drawn s).mapPpu (if p.dot = 340 then Ppu.moveTo (p.scanline + 1) 0 else Ppu.moveDot (p.dot + 1)) :=
      advance_inside (hend ∘ Or.imp_left hskips.mp) (congrArg PpuPos.scanline hpos) hln
    rw [ht]
    refine ⟨?_, ?_, hsink.trans hsink'⟩
    · split
      · change PpuPos.mk (p.scanline + 1) 0 (drawn s).ppu.pos.frameCount = _
        rw [hpos]
      · change PpuPos.mk (drawn s).ppu.pos.scanline (p.dot + 1) (drawn s).ppu.pos.frameCount = _
        rw [hpos]
    · rw [← hout]
      refine Eq.trans ?_ hback
      split <;> rfl

/-! ### From vblank to vblank (R551) -/

theorem dots_keeps (k : Nat) (s : State) : (dots k s).params = s.params ∧ (dots k s).bus = s.bus := by
  induction k with
  | zero => exact ⟨rfl, rfl⟩
  | succ k ih => exact ⟨(ppuHandler_keeps _).params.trans ih.1, (ppuHandler_bus _).trans ih.2⟩

theorem dots_add (k m : Nat) (s : State) : dots (m + k) s = dots k (dots m s) := by
  induction k with
  | zero => rfl
  | succ k ih => exact congrArg ppuHandler ih

/-- The place of dot number `i` of frame `f`. -/
def beamAt (i f : Nat) : PpuPos := ⟨i / 341, i % 341, f⟩

/-- The number of dots of frame `f`, where the skip always applies. -/
def frameLength (f : Nat) : Nat := 89342 - f % 2

section frame
variable {s : State} {i f : Nat} (h : plainSignals s.bus = true) (hskip : s.params.oddFrameSkip = .always)
  (hpos : s.ppu.pos = beamAt i f)
include h hskip hpos

/-- A dot moves the beam to the place of the next number, the last dot of a frame to the first of the next. -/
theorem ppuHandler_beamAt (hi : i < frameLength f) : (ppuHandler s).ppu.pos =
    if i + 1 = frameLength f then beamAt 0 (f + 1) else beamAt (i + 1) f := by
  unfold frameLength at hi ⊢
  have hln : s.ppu.pos.scanline < 262 := by rw [hpos]; change i / 341 < 262; omega
  have hd : s.ppu.pos.dot < 341 := by rw [hpos]; change i % 341 < 341; omega
  obtain ⟨hlast, hinside⟩ := beamAdvancesThroughFrame s hln hd h
  simp only [hpos, beamAt, hskip, true_or, and_true] at hlast hinside
  split
  · exact (hlast (by omega)).1
  · rw [(hinside (by omega)).1, beamAt]
    split <;> simp only [PpuPos.mk.injEq, and_true] <;> omega

theorem dots_inFrame (k : Nat) (hk : i + k < frameLength f) : (dots k s).ppu.pos = beamAt (i + k) f := by
  induction k with
  | zero => exact hpos
  | succ k ih =>
    obtain ⟨hparams, hbus⟩ := dots_keeps k s
    refine (ppuHandler_beamAt (hbus ▸ h) (hparams ▸ hskip) (ih (by omega)) (by omega)).trans (if_neg ?_)
    omega

theorem dots_nextFrame (k : Nat) (hi : i < frameLength f) (hk : k < frameLength (f + 1)) :
    (dots (frameLength f - i + k) s).ppu.pos = beamAt k (f + 1) := by
  obtain ⟨m, hm⟩ : ∃ m, frameLength f - i = m + 1 := ⟨frameLength f - i - 1, by omega⟩
  obtain ⟨hparams, hbus⟩ := dots_keeps m s
  obtain ⟨hparams', hbus'⟩ := dots_keeps (m + 1) s
  have hlast := dots_inFrame h hskip hpos m (by omega)
  have hnext : (dots (m + 1) s).ppu.pos = beamAt 0 (f + 1) :=
    (ppuHandler_beamAt (hbus ▸ h) (hparams ▸ hskip) hlast (by omega)).trans (if_pos (by omega))
  rw [hm, dots_add, dots_inFrame (hbus' ▸ h) (hparams' ▸ hskip) hnext k (by omega), Nat.zero_add]

end frame

/-- (241, 1) is the place of dot number 82182. -/
theorem beamAt_vblank {i f : Nat} : (beamAt i f).scanline = 241 ∧ (beamAt i f).dot = 1 ↔ i = 82182 := by
  change i / 341 = 241 ∧ i % 341 = 1 ↔ _
  omega

/-- Settles O43: the frame's dots from number 82182 on, then those of the next frame up to it. -/
theorem frameLengthBetweenVblanks : Obligations.FrameLengthBetweenVblanks := by
  intro s hln hd hskip h n
  have hpos : s.ppu.pos = beamAt 82182 s.ppu.pos.frameCount := by
    change _ = PpuPos.mk 241 1 _
    rw [← hln, ← hd]
  have hn : n = frameLength s.ppu.pos.frameCount := rfl
  have hlen : 82182 < frameLength s.ppu.pos.frameCount := by unfold frameLength; omega
  have hlen' : 82182 < frameLength (s.ppu.pos.frameCount + 1) := by unfold frameLength; omega
  constructor
  · have hnext := dots_nextFrame h hskip hpos 82182 hlen hlen'
    rwa [Nat.sub_add_cancel (by omega)] at hnext
  · intro k h0 hk hvblank
    by_cases hin : 82182 + k < frameLength s.ppu.pos.frameCount
    · rw [dots_inFrame h hskip hpos k hin, beamAt_vblank] at hvblank
      omega
    · obtain ⟨m, rfl⟩ : ∃ m, k = frameLength s.ppu.pos.frameCount - 82182 + m := Nat.exists_eq_add_of_le (by omega)
      rw [dots_nextFrame h hskip hpos m hlen (by omega), beamAt_vblank] at hvblank
      omega

end Sys2Proof.Machine

namespace Sys2Proof.Machine

/-! ### The status flags and the backdrop (R502, R503, R545) -/

theorem plainSignals_cpuFirst (rest : List BusEntry) : plainSignals (⟨none, .cpu⟩ :: rest) = true := rfl

/-- Where the processor comes first on the bus, NMI sets its latch. -/
theorem busNmi_cpuFirst {s : State} {rest : List BusEntry} (hb : s.bus = ⟨none, .cpu⟩ :: rest) :
    (busNmi s).pend.nmi = true := by
  unfold busNmi busNmiVia
  rw [hb]
  rfl

/-- The signal of vblank goes out where `ctrl[7]` is set. -/
theorem vblankNmi_nmi {s : State} {rest : List BusEntry} (hb : s.bus = ⟨none, .cpu⟩ :: rest) :
    (vblankNmi s).pend.nmi = (s.pend.nmi || s.ppu.regs.ctrl.getLsbD 7) := by
  have hen : s.ppu.nmiEnabled = s.ppu.regs.ctrl.getLsbD 7 := rfl
  rw [vblankNmi, ← hen]
  split
  next h => rw [busNmi_cpuFirst hb, h, Bool.or_true]
  next h => rw [Bool.eq_false_iff.mpr h, Bool.or_false]

/-- Outside the visible dots the control state of a dot is that behind phases 1 and 2. -/
theorem ppuHandler_regs_hidden {s : State} (hd : 239 < s.ppu.pos.scanline ∨ s.ppu.pos.dot = 0 ∨ 256 < s.ppu.pos.dot) :
    (ppuHandler s).ppu.regs = (rendered s).ppu.regs := by
  rw [ppuHandler_eq, (advance_behind _ _ _).ppu, drawn, pixelWork_hidden hd]

/-- The latch behind a dot is that behind the line events: fetches may signal IRQ alone. -/
theorem ppuHandler_nmi {s : State} (h : plainSignals s.bus = true) :
    (ppuHandler s).pend.nmi = (lineEvents s.ppu.pos.scanline s.ppu.pos.dot s).pend.nmi :=
  (congrArg Pending.nmi (ppuHandler_behind s).pend).trans (rendered_phase h).nmi

/-- Settles O44: phase 1 sets and clears the flags and signals NMI; behind it a dot can only set the two sprite flags. -/
theorem vblankFlagAndNmi : Obligations.VblankFlagAndNmi := by
  intro s rest hb p t
  have h : plainSignals s.bus = true := hb ▸ plainSignals_cpuFirst rest
  have hbehind : BehindPixel (rendered s) t := ppuHandler_behind s
  have hregs := rendered_regs h
  have hnmi := ppuHandler_nmi h
  refine ⟨fun ⟨hln, hd⟩ => ?enter, fun ⟨hln, hd⟩ => ?clear, fun hne => ?noNmi, fun hne => ?only⟩
  case enter =>
    refine ⟨?_, hnmi.trans ?_⟩
    · rw [hbehind.vblank, hregs, lineFlags, if_pos ⟨hln, hd⟩]
      rfl
    · rw [lineEvents, if_pos ⟨hln, hd⟩]
      exact vblankNmi_nmi (s := s.mapPpu _) hb
  case clear =>
    have h241 : ¬(p.scanline = 241 ∧ p.dot = 1) := by omega
    have hninth : s.ppu.findsNinth p.scanline p.dot = false :=
      Ppu.findsNinth_eq_false (Ppu.finds_eq_false (ln := p.scanline) (d := p.dot) (by omega) s.ppu)
    have hflags : t.ppu.regs = s.ppu.regs.clearFlags := by
      refine (ppuHandler_regs_hidden (.inl (Nat.lt_of_lt_of_eq (by decide) hln.symm))).trans ?_
      rw [hregs, hninth, lineFlags, if_neg h241, if_pos ⟨hln, hd⟩]
      simp only [Bool.and_false, Bool.or_false]
    rw [hflags]
    exact ⟨rfl, rfl, rfl⟩
  case noNmi =>
    rw [hnmi, lineEvents, if_neg hne]
    split <;> rfl
  case only =>
    have hflags : lineFlags p.scanline p.dot s.ppu.regs = s.ppu.regs := by
      rw [lineFlags, if_neg (by omega), if_neg (by omega)]
    refine ⟨?_, fun hset => hbehind.hit ?_, fun hset => hbehind.overflow.trans ?_⟩
    · rw [hbehind.vblank, hregs, hflags]
    · rw [hregs, hflags]
      exact hset
    · rw [hregs, hflags]
      exact Bool.or_eq_true_iff.mpr (.inl hset)

/-- Without rendering both pixels are transparent, and the pixel is the backdrop (R545). -/
theorem composePixel_backdrop (h255 : Config.Sprite0HitX255) (x y : Nat) {p : Ppu} (hr : p.rendering = false) :
    (p.composePixel h255 x y).out = (p.storePixel x y (p.regs.mask.extractLsb' 5 3 ++
      (if p.regs.mask.getLsbD 0 then p.mem.palette.read 0 &&& 0x30 else p.mem.palette.read 0))).out := by
  obtain ⟨hbg, hfg⟩ := Bool.or_eq_false_iff.mp hr
  have hpix : choosePixel (p.bgPixel x) (p.fgPixel x) = (0, 0) := by
    rw [Ppu.bgPixel, hbg, Ppu.fgPixel, hfg]
    rfl
  rw [Ppu.composePixel, hpix]
  rfl

/-- A pixel stored in the back buffer is read back from it. -/
theorem storePixel_read {p : Ppu} (x y : Nat) (c : BitVec 9) (h0 : p.out.fb0.wf = true) (h1 : p.out.fb1.wf = true) :
    (if p.out.back then (p.storePixel x y c).out.fb1 else (p.storePixel x y c).out.fb0).read (256 * y + x) = c := by
  unfold Ppu.storePixel
  cases hb : p.out.back <;> simp [hb, Memory.read_write_same, h0, h1]

/-- Settles O45: phase 1 changes flags alone, phase 2 nothing, and phase 3 stores the backdrop. -/
theorem noRenderingDrawsBackdrop : Obligations.NoRenderingDrawsBackdrop := by
  intro s hw h t
  have hbehind : BehindPixel (rendered s) t := ppuHandler_behind s
  obtain ⟨f, hf⟩ := lineEvents_frame s.ppu.pos.scanline s.ppu.pos.dot h
  have hrend : rendered s = (s.mapPpu (Ppu.mapRegs (lineFlags s.ppu.pos.scanline s.ppu.pos.dot))).mapPend f :=
    (rendered_of_idle h hw).trans hf
  rw [hrend] at hbehind
  refine ⟨hbehind.bg, hbehind.scr, hbehind.spr, hbehind.cart, fun hln hd hd' h0 h1 => ?_⟩
  have hr : s.ppu.rendering = false := by
    rw [← Bool.not_eq_true]
    intro hr
    rw [(Ppu.works_iff _).mpr ⟨.inl hln, hr⟩] at hw
    cases hw
  have hmask := lineFlags_mask s.ppu.pos.scanline s.ppu.pos.dot s.ppu.regs
  have hr' : (rendered s).ppu.rendering = false := by
    rw [hrend]
    simp only [Ppu.rendering, State.mapPend_ppu, State.mapPpu_ppu, Ppu.mapRegs_regs, hmask]
    exact hr
  have hout := composePixel_backdrop s.params.sprite0HitX255 (s.ppu.pos.dot - 1) s.ppu.pos.scanline hr'
  rw [(congrArg Ppu.out (ppuHandler_visible h hln hd hd')).trans hout, hrend]
  simp only [State.mapPend_ppu, State.mapPpu_ppu, Ppu.mapRegs_regs, hmask]
  exact storePixel_read _ _ _ h0 h1

end Sys2Proof.Machine

namespace Sys2Proof.Machine

/-! ## The scroll register (R512, R516-R519) -/

theorem coarseX_toNat (v : Scroll) : (coarseX v).toNat = v.toNat % 32 := by simp [coarseX]

theorem coarseY_toNat (v : Scroll) : (coarseY v).toNat = v.toNat / 32 % 32 := by
  simp [coarseY, Nat.shiftRight_eq_div_pow]

theorem fineY_toNat (v : Scroll) : (fineY v).toNat = v.toNat / 4096 % 8 := by
  simp [fineY, Nat.shiftRight_eq_div_pow]

theorem nametableX_eq (v : Scroll) : v.getLsbD 10 = decide (v.toNat / 1024 % 2 = 1) := by
  rw [← BitVec.testBit_toNat, Nat.testBit_eq_decide_div_mod_eq]

theorem nametableY_eq (v : Scroll) : v.getLsbD 11 = decide (v.toNat / 2048 % 2 = 1) := by
  rw [← BitVec.testBit_toNat, Nat.testBit_eq_decide_div_mod_eq]

section fields
variable {v w : Scroll}

theorem coarseX_congr (h : w.toNat % 32 = v.toNat % 32) : coarseX w = coarseX v :=
  BitVec.eq_of_toNat_eq (by rw [coarseX_toNat, coarseX_toNat, h])

theorem coarseY_congr (h : w.toNat / 32 % 32 = v.toNat / 32 % 32) : coarseY w = coarseY v :=
  BitVec.eq_of_toNat_eq (by rw [coarseY_toNat, coarseY_toNat, h])

theorem fineY_congr (h : w.toNat / 4096 % 8 = v.toNat / 4096 % 8) : fineY w = fineY v :=
  BitVec.eq_of_toNat_eq (by rw [fineY_toNat, fineY_toNat, h])

theorem nametableX_congr (h : w.toNat / 1024 % 2 = v.toNat / 1024 % 2) : w.getLsbD 10 = v.getLsbD 10 := by
  rw [nametableX_eq, nametableX_eq, h]

theorem nametableY_congr (h : w.toNat / 2048 % 2 = v.toNat / 2048 % 2) : w.getLsbD 11 = v.getLsbD 11 := by
  rw [nametableY_eq, nametableY_eq, h]

end fields

/-- One more in the lowest field, short of its end, changes no other field. -/
theorem coarseX_step {v : Scroll} (h : coarseX v ≠ 31) : coarseX (v + 1) = coarseX v + 1 ∧
    (v + 1).getLsbD 10 = v.getLsbD 10 ∧ coarseY (v + 1) = coarseY v ∧ (v + 1).getLsbD 11 = v.getLsbD 11 ∧
    fineY (v + 1) = fineY v := by
  have hne : v.toNat % 32 ≠ 31 := fun he => h (BitVec.eq_of_toNat_eq ((coarseX_toNat v).trans he))
  have hadd : (v + 1).toNat = v.toNat + 1 := BitVec.toNat_add_of_lt (by have := v.isLt; simp; omega)
  refine ⟨BitVec.eq_of_toNat_eq ?_, nametableX_congr (by omega), coarseY_congr (by omega), nametableY_congr (by omega),
    fineY_congr (by omega)⟩
  rw [BitVec.toNat_add, coarseX_toNat, coarseX_toNat, hadd]
  simp

/-- One more in coarse Y, short of its end, changes no other field. -/
theorem coarseY_step {v : Scroll} (h : coarseY v ≠ 31) : coarseY (v + 0x20) = coarseY v + 1 ∧
    coarseX (v + 0x20) = coarseX v ∧ (v + 0x20).getLsbD 10 = v.getLsbD 10 ∧
    (v + 0x20).getLsbD 11 = v.getLsbD 11 ∧ fineY (v + 0x20) = fineY v := by
  have hne : v.toNat / 32 % 32 ≠ 31 := fun he => h (BitVec.eq_of_toNat_eq ((coarseY_toNat v).trans he))
  have hadd : (v + 0x20).toNat = v.toNat + 32 := BitVec.toNat_add_of_lt (by have := v.isLt; simp; omega)
  refine ⟨BitVec.eq_of_toNat_eq ?_, coarseX_congr (by omega), nametableX_congr (by omega), nametableY_congr (by omega),
    fineY_congr (by omega)⟩
  rw [BitVec.toNat_add, coarseY_toNat, coarseY_toNat, hadd]
  simp

/-- One more in fine Y, short of its end, changes no other field. -/
theorem fineY_step {v : Scroll} (h : fineY v ≠ 7) : fineY (v + 0x1000) = fineY v + 1 ∧
    coarseX (v + 0x1000) = coarseX v ∧ (v + 0x1000).getLsbD 10 = v.getLsbD 10 ∧
    (v + 0x1000).getLsbD 11 = v.getLsbD 11 ∧ coarseY (v + 0x1000) = coarseY v := by
  have hne : v.toNat / 4096 % 8 ≠ 7 := fun he => h (BitVec.eq_of_toNat_eq ((fineY_toNat v).trans he))
  have hadd : (v + 0x1000).toNat = v.toNat + 4096 := BitVec.toNat_add_of_lt (by have := v.isLt; simp; omega)
  refine ⟨BitVec.eq_of_toNat_eq ?_, coarseX_congr (by omega), nametableX_congr (by omega), nametableY_congr (by omega),
    coarseY_congr (by omega)⟩
  rw [BitVec.toNat_add, fineY_toNat, fineY_toNat, hadd]
  simp

/-! The masks take whole fields. -/

theorem and_31 (x : BitVec 5) : x &&& 31#5 = x := BitVec.and_allOnes

theorem and_7 (x : BitVec 3) : x &&& 7#3 = x := BitVec.and_allOnes

theorem copyX_fields (v t : Scroll) : coarseX (copyX v t) = coarseX t ∧ (copyX v t).getLsbD 10 = t.getLsbD 10 ∧
    coarseY (copyX v t) = coarseY v ∧ (copyX v t).getLsbD 11 = v.getLsbD 11 ∧ fineY (copyX v t) = fineY v := by
  simp [copyX, coarseX, coarseY, fineY, BitVec.extractLsb'_and, BitVec.extractLsb'_or, and_31, and_7]

theorem copyY_fields (v t : Scroll) : fineY (copyY v t) = fineY t ∧ (copyY v t).getLsbD 11 = t.getLsbD 11 ∧
    coarseY (copyY v t) = coarseY t ∧ (copyY v t).getLsbD 10 = v.getLsbD 10 ∧ coarseX (copyY v t) = coarseX v := by
  simp [copyY, coarseX, coarseY, fineY, BitVec.extractLsb'_and, BitVec.extractLsb'_or, and_31, and_7]

theorem incX_fields (v : Scroll) : coarseX (incX v) = coarseX v + 1 ∧
    (incX v).getLsbD 10 = (v.getLsbD 10 != (coarseX v == 31)) ∧ coarseY (incX v) = coarseY v ∧
    (incX v).getLsbD 11 = v.getLsbD 11 ∧ fineY (incX v) = fineY v := by
  by_cases h : coarseX v = 31
  · rw [incX, if_pos h, h]
    simp [coarseX, coarseY, fineY, BitVec.extractLsb'_and, BitVec.extractLsb'_xor, and_31, and_7]
  · rw [incX, if_neg h, beq_eq_false_iff_ne.mpr h, Bool.bne_false]
    exact coarseX_step h

/-- The carry out of fine Y clears it and leaves the other fields (R517). -/
theorem clearFineY_fields (v : Scroll) : coarseX (v &&& 0x0FFF) = coarseX v ∧ (v &&& 0x0FFF).getLsbD 10 = v.getLsbD 10 ∧
    coarseY (v &&& 0x0FFF) = coarseY v ∧ (v &&& 0x0FFF).getLsbD 11 = v.getLsbD 11 ∧ fineY (v &&& 0x0FFF) = 0 := by
  simp [coarseX, coarseY, fineY, BitVec.extractLsb'_and, and_31]

/-- The carry clears coarse Y at its two ends, and at 29 flips the nametable (R517). -/
theorem wrapY_fields (v : Scroll) : coarseX (v &&& 0x7C1F) = coarseX v ∧ (v &&& 0x7C1F).getLsbD 10 = v.getLsbD 10 ∧
    coarseY (v &&& 0x7C1F) = 0 ∧ (v &&& 0x7C1F).getLsbD 11 = v.getLsbD 11 ∧ fineY (v &&& 0x7C1F) = fineY v := by
  simp [coarseX, coarseY, fineY, BitVec.extractLsb'_and, and_31, and_7]

theorem flipY_fields (v : Scroll) : coarseX (v ^^^ 0x0800) = coarseX v ∧ (v ^^^ 0x0800).getLsbD 10 = v.getLsbD 10 ∧
    coarseY (v ^^^ 0x0800) = coarseY v ∧ (v ^^^ 0x0800).getLsbD 11 = !v.getLsbD 11 ∧ fineY (v ^^^ 0x0800) = fineY v := by
  simp [coarseX, coarseY, fineY, BitVec.extractLsb'_xor]

theorem incY_fields (v : Scroll) : fineY (incY v) = fineY v + 1 ∧ coarseX (incY v) = coarseX v ∧
    (incY v).getLsbD 10 = v.getLsbD 10 ∧
    coarseY (incY v) = (if fineY v ≠ 7 then coarseY v else if coarseY v = 29 then 0 else coarseY v + 1) ∧
    (incY v).getLsbD 11 = (v.getLsbD 11 != (fineY v == 7 && coarseY v == 29)) := by
  by_cases hf : fineY v = 7
  · obtain ⟨hx, h10, hy, h11, hfine⟩ := clearFineY_fields v
    obtain ⟨wx, w10, wy, w11, wfine⟩ := wrapY_fields (v &&& 0x0FFF)
    rw [incY, if_neg (Classical.not_not.mpr hf), if_neg (Classical.not_not.mpr hf), hf, BEq.rfl, Bool.true_and]
    dsimp only
    rw [hy]
    by_cases h29 : coarseY v = 29
    · obtain ⟨fx, f10, fy, f11, ffine⟩ := flipY_fields (v &&& 0x0FFF &&& 0x7C1F)
      rw [if_pos h29, if_pos h29, h29, BEq.rfl, Bool.bne_true]
      exact ⟨by rw [ffine, wfine, hfine]; rfl, by rw [fx, wx, hx], by rw [f10, w10, h10], by rw [fy, wy],
        by rw [f11, w11, h11]⟩
    · rw [if_neg h29, if_neg h29, beq_eq_false_iff_ne.mpr h29, Bool.bne_false]
      by_cases h31 : coarseY v = 31
      · rw [if_pos h31]
        exact ⟨by rw [wfine, hfine]; rfl, by rw [wx, hx], by rw [w10, h10], by rw [wy, h31]; rfl, by rw [w11, h11]⟩
      · obtain ⟨sy, sx, s10, s11, sfine⟩ := coarseY_step (v := v &&& 0x0FFF) (by rw [hy]; exact h31)
        rw [if_neg h31]
        exact ⟨by rw [sfine, hfine]; rfl, by rw [sx, hx], by rw [s10, h10], by rw [sy, hy], by rw [s11, h11]⟩
  · obtain ⟨hfine, hx, h10, h11, hy⟩ := fineY_step hf
    rw [incY, if_pos hf, if_pos hf, beq_eq_false_iff_ne.mpr hf, Bool.false_and, Bool.bne_false]
    exact ⟨hfine, hx, h10, hy, h11⟩

/-- Settles O46: phase 2 steps `v` as scheduled, and each step changes its fields. -/
theorem scrollIncrementsAndCopies : Obligations.ScrollIncrementsAndCopies := by
  refine ⟨fun s hw h => ?_, fun v t => ⟨incX_fields v, incY_fields v, copyX_fields v t, copyY_fields v t⟩⟩
  rw [(ppuHandler_behind s).scr, rendered_ppu h hw]
  rfl

end Sys2Proof.Machine

namespace Sys2Proof.Machine

/-! ## The background (R510-R515, R520)

The fetch addresses are put together from fields that share no bit, so that `|||` is `+`. -/

theorem add_eq_or_of_bits {x y : PpuAddr} (h : ∀ i < 14, (x.getLsbD i && y.getLsbD i) = false) : x + y = x ||| y :=
  BitVec.add_eq_or_of_and_eq_zero _ _ (BitVec.eq_of_getLsbD_eq fun i hi => by
    rw [BitVec.getLsbD_and, h i hi, BitVec.getLsbD_zero])

/-- `NtAddr()` (R512). -/
theorem ntAddr_eq_add (v : Scroll) : ntAddr v = 0x2000 + (v &&& 0x0FFF).setWidth 14 := by
  refine (add_eq_or_of_bits ?_).symm
  simp only [Nat.forall_lt_succ_right]
  simp

theorem attrRow_eq (v : Scroll) : ((v >>> 4) &&& 0x38).setWidth 14 = 8 * ((coarseY v).setWidth 14 / 4 : PpuAddr) := by
  have hrow : ∀ y : BitVec 5, (8 : PpuAddr) * (y.setWidth 14 / (4 : PpuAddr)) = y.setWidth 14 <<< 1 &&& 0x38 := by decide
  rw [hrow]
  apply BitVec.eq_of_getLsbD_eq
  simp only [Nat.forall_lt_succ_right, coarseY]
  simp

theorem attrColumn_eq (v : Scroll) : ((v >>> 2) &&& 0x07).setWidth 14 = ((coarseX v).setWidth 14 / 4 : PpuAddr) := by
  have hcolumn : ∀ x : BitVec 5, x.setWidth 14 / (4 : PpuAddr) = x.setWidth 14 >>> 2 := by decide
  rw [hcolumn]
  apply BitVec.eq_of_getLsbD_eq
  simp only [Nat.forall_lt_succ_right, coarseX]
  simp

/-- The attribute address (R513). -/
theorem attrAddr_eq_add (v : Scroll) : attrAddr v =
    0x23C0 + (v &&& 0x0C00).setWidth 14 + 8 * ((coarseY v).setWidth 14 / 4) + (coarseX v).setWidth 14 / 4 := by
  rw [← attrRow_eq, ← attrColumn_eq, attrAddr]
  have h1 : 0x23C0 + (v &&& 0x0C00).setWidth 14 = (0x23C0 ||| (v &&& 0x0C00).setWidth 14 : PpuAddr) :=
    add_eq_or_of_bits (by simp only [Nat.forall_lt_succ_right]; simp)
  have h2 : (0x23C0 ||| (v &&& 0x0C00).setWidth 14 : PpuAddr) + ((v >>> 4) &&& 0x38).setWidth 14 =
      0x23C0 ||| (v &&& 0x0C00).setWidth 14 ||| ((v >>> 4) &&& 0x38).setWidth 14 :=
    add_eq_or_of_bits (by simp only [Nat.forall_lt_succ_right]; simp)
  rw [h1, h2]
  exact (add_eq_or_of_bits (by simp only [Nat.forall_lt_succ_right]; simp)).symm

theorem mul16_eq_shift (x : PpuAddr) : (16 : PpuAddr) * x = x <<< 4 := by
  rw [BitVec.shiftLeft_eq_mul_twoPow, BitVec.mul_comm]
  rfl

/-- `PatAddr(plane)` (R514). -/
theorem patAddr_eq_add (p : Ppu) {plane : PpuAddr} (hp : plane = 0 ∨ plane = 8) : patAddr p plane =
    (if p.regs.ctrl.getLsbD 4 then 0x1000 else 0 : PpuAddr) + (16 : PpuAddr) * p.bg.nextId.setWidth 14 +
      (fineY p.scr.v).setWidth 14 + plane := by
  have htable : ∀ i < 14, (BitVec.getLsbD (if p.regs.ctrl.getLsbD 4 then 0x1000 else 0 : PpuAddr) i &&
      (p.bg.nextId.setWidth 14 <<< 4 : PpuAddr).getLsbD i) = false := by
    cases p.regs.ctrl.getLsbD 4 <;> simp only [Nat.forall_lt_succ_right] <;> simp
  have hplane : ∀ i < 14, (BitVec.getLsbD ((if p.regs.ctrl.getLsbD 4 then 0x1000 else 0 : PpuAddr) |||
      p.bg.nextId.setWidth 14 <<< 4) i && plane.getLsbD i) = false := by
    rcases hp with rfl | rfl <;> cases p.regs.ctrl.getLsbD 4 <;> simp only [Nat.forall_lt_succ_right] <;> simp
  have hrow : ∀ i < 14, (BitVec.getLsbD ((if p.regs.ctrl.getLsbD 4 then 0x1000 else 0 : PpuAddr) |||
      p.bg.nextId.setWidth 14 <<< 4 ||| plane) i && ((fineY p.scr.v).setWidth 14 : PpuAddr).getLsbD i) = false := by
    rcases hp with rfl | rfl <;> cases p.regs.ctrl.getLsbD 4 <;> simp only [Nat.forall_lt_succ_right] <;> simp
  rw [mul16_eq_shift, add_eq_or_of_bits htable, BitVec.add_assoc, BitVec.add_comm _ plane, ← BitVec.add_assoc,
    add_eq_or_of_bits hplane, add_eq_or_of_bits hrow]
  unfold patAddr bitAt
  cases p.regs.ctrl.getLsbD 4 <;> rfl

theorem attrBits_eq (v : Scroll) (a : Byte) : attrBits v a =
    (a >>> (4 * (coarseY v / 2 % 2).toNat + 2 * (coarseX v / 2 % 2).toNat)) &&& 3 := by
  have hbit : ∀ x : BitVec 5, (x / 2 % 2).toNat = (bitAt x 1).toNat := by decide
  rw [hbit, hbit, BitVec.shiftRight_add, attrBits]
  cases bitAt (coarseY v) 1 <;> cases bitAt (coarseX v) 1 <;> rfl

/-- Settles O47: the shift and the fetch step of the dot, with their addresses as sums. -/
theorem backgroundFetchSchedule : Obligations.BackgroundFetchSchedule := by
  intro s hw h d v b t active loads shifted loaded copies
  have hbg : t = bgAfter d s := by
    change (ppuHandler s).ppu.bg = _
    rw [(ppuHandler_behind s).bg, rendered_ppu h hw]
    rfl
  have hactive : bgActive d = true ↔ active := bgActive_iff d
  rw [hbg]
  have hlo : patAddr s.ppu 0 = _ := (patAddr_eq_add s.ppu (.inl rfl)).trans (BitVec.add_zero _)
  have hhi : patAddr s.ppu 8 = _ := patAddr_eq_add s.ppu (.inr rfl)
  have hfetch (a) : (ppuFetch a (s.mapPpu (Ppu.mapBg PpuBg.shift))).1 = (ppuFetch a s).1 :=
    ppuFetch_fst_congr (s := s) (t := s.mapPpu (Ppu.mapBg PpuBg.shift)) rfl rfl a
  by_cases ha : active
  · have hk (k : Nat) (hk : k < 7) : (d - 1) % 8 = k ↔ d % 8 = k + 1 := by
      have hd : 2 ≤ d := ha.elim And.left fun h => by omega
      omega
    have hrest : ¬(d = 338 ∨ d = 340) := by omega
    have hcopies (bit : Bool) : (copies bit).setWidth 16 = if bit then 0x00FF else 0x0000 := by cases bit <;> rfl
    rw [bgAfter, if_pos (hactive.mpr ha)]
    refine ⟨?_, ?_, ?_, ?_, ?_, ?_, ?_, ?_⟩
    case refine_1 | refine_2 | refine_3 | refine_4 =>
      simp only [bgFetched, loaded, shifted, loads, ha, true_and, hcopies, hk 0 (by omega), if_true]
      split <;> rfl
    case refine_5 =>
      simp only [bgFetched, loads, ha, true_and, hk 0 (by omega), hrest, or_false, hfetch, ntAddr_eq_add]
      rfl
    case refine_6 =>
      simp only [bgFetched, ha, true_and, hk 2 (by omega), hfetch, attrAddr_eq_add, attrBits_eq]
      rfl
    case refine_7 =>
      rw [← hlo]
      simp only [bgFetched, ha, true_and, hk 4 (by omega), hfetch]
      rfl
    case refine_8 =>
      rw [← hhi]
      simp only [bgFetched, ha, true_and, hk 6 (by omega), hfetch]
      rfl
  · have hidle : bgActive d = false := by rw [← Bool.not_eq_true, hactive]; exact ha
    simp only [bgAfter, hidle, loads, ha, shifted, loaded, false_and, false_or, if_false, ← ntAddr_eq_add]
    exact ⟨rfl, rfl, rfl, rfl, rfl, rfl, rfl, rfl⟩

end Sys2Proof.Machine

namespace Sys2Proof.Machine

/-! ## Sprite evaluation (R530-R532) -/

/-- What a dot of rendering work does to the sprites. -/
theorem ppuHandler_sprites {s : State} (h : plainSignals s.bus = true) (hw : s.ppu.works = true) :
    (ppuHandler s).ppu.spr = spritesAfter s.ppu.pos.scanline s.ppu.pos.dot s := by
  rw [(ppuHandler_behind s).spr, rendered_ppu h hw]
  rfl

theorem Memory.read_write {w : Nat} {m : Memory w} (h : m.wf = true) (a b : Nat) (v : BitVec w) :
    (m.write a v).read b = if b = a then v else m.read b := Memory.read_write_above b v ((Memory.wf_iff_above m).mp h)

/-- The four bytes of an entry are copied, and no other cell changes (R531). -/
theorem copyEntry_read {oam2 : Memory 8} (hwf : oam2.wf = true) (n c : Nat) (oam : Memory 8) (i : Nat) :
    (copyEntry n c oam oam2).read i = if i / 4 = c then oam.read (4 * n + i % 4) else oam2.read i := by
  have h1 := Memory.wf_write hwf (4 * c) (oam.read (4 * n))
  have h2 := Memory.wf_write h1 (4 * c + 1) (oam.read (4 * n + 1))
  have h3 := Memory.wf_write h2 (4 * c + 2) (oam.read (4 * n + 2))
  rw [copyEntry, Memory.read_write h3, Memory.read_write h2, Memory.read_write h1, Memory.read_write hwf]
  by_cases hi : i / 4 = c
  · obtain ⟨j, hj, rfl⟩ : ∃ j < 4, i = 4 * c + j := ⟨i % 4, by omega, by omega⟩
    have hmod : (4 * c + j) % 4 = j := by omega
    rw [if_pos hi, hmod]
    simp only [Nat.add_left_cancel_iff, Nat.add_eq_left]
    rcases (by omega : j = 0 ∨ j = 1 ∨ j = 2 ∨ j = 3) with rfl | rfl | rfl | rfl <;> rfl
  · have hne (j : Nat) (hj : j < 4) : i ≠ 4 * c + j := by omega
    rw [if_neg hi, if_neg (hne 3 (by omega)), if_neg (hne 2 (by omega)), if_neg (hne 1 (by omega))]
    exact if_neg (hne 0 (by omega))

theorem oam2Cleared_read : ∀ i < 32, oam2Cleared.read i = 0xFF := by decide

/-- An entry is found at every third dot from 65 to 254 of a visible line that it covers (R531). -/
theorem Ppu.finds_iff (p : Ppu) (d : Nat) :
    let y := (p.spr.oam.read (4 * ((d - 65) / 3))).toNat
    p.finds p.pos.scanline d = true ↔ (p.pos.scanline ≤ 239 ∧ 65 ≤ d ∧ d ≤ 254 ∧ d % 3 = 2) ∧
      (y ≤ p.pos.scanline ∧ p.pos.scanline < y + (if p.regs.ctrl.getLsbD 5 then 16 else 8)) := by
  intro y
  have height : p.spriteHeight = if p.regs.ctrl.getLsbD 5 then 16 else 8 := rfl
  simp only [Ppu.finds, Ppu.spriteInRange, Bool.and_eq_true, decide_eq_true_eq, height]
  generalize (if p.regs.ctrl.getLsbD 5 then 16 else 8) = k
  omega

/-- Settles O48: what `selected` says of the dot's clear and evaluation, and the counts taken over at dot 257. -/
theorem spriteEvaluationSelectsEight : Obligations.SpriteEvaluationSelectsEight := by
  intro s hw hwf h ln d q t n y inRange evaluates
  have hfinds : s.ppu.finds ln d = true ↔ evaluates ∧ inRange := s.ppu.finds_iff d
  have hspr : t.spr = spritesAfter ln d s := ppuHandler_sprites h hw
  have hoverflow : t.regs.spriteOverflow = ((lineFlags ln d s.ppu.regs).spriteOverflow ||
      (s.ppu.finds ln d && decide (8 ≤ q.countNext))) := by
    refine (ppuHandler_behind s).overflow.trans ?_
    rw [rendered_regs h, hw, Bool.true_and]
    rfl
  have hflags : ¬(ln = 261 ∧ d = 1) → (lineFlags ln d s.ppu.regs).spriteOverflow = s.ppu.regs.spriteOverflow := by
    intro hne
    unfold lineFlags
    rw [if_neg hne]
    split <;> rfl
  obtain ⟨-, -, hoam, hcur, hzero⟩ := Ppu.selected_keeps ln d s.ppu
  rw [hspr, hoverflow]
  refine ⟨fun hd => ?clear, fun he hr hc => ?take, fun he hr hc => ?ninth, fun hno hne => ?keepFlag, fun hd hno => ?keep,
    fun hd => ?latch, fun hd => ?keepCur, hoam⟩
  case clear =>
    rw [hd, spritesAfter_one]
    refine ⟨rfl, rfl, fun i hi => ?_⟩
    simp only [PpuSprites.clear, decide_eq_true_eq]
    split
    · exact oam2Cleared_read i hi
    · rfl
  case take =>
    have hd : d ≠ 1 := by omega
    have hc' : ¬8 ≤ q.countNext := Nat.not_le.mpr hc
    have hsel : s.ppu.selected ln d = q.take n := by
      rw [Ppu.selected, if_neg hd, hfinds.mpr ⟨he, hr⟩, decide_eq_true hc]
      rfl
    have hread (i : Nat) : (q.take n).oam2.read i = _ := copyEntry_read hwf n q.countNext q.oam i
    rw [spritesAfter, hsel]
    refine ⟨rfl, rfl, fun j hj => ?_, fun i hi => ?_, ?_⟩
    · have hdiv : (4 * q.countNext + j) / 4 = q.countNext := by omega
      have hmod : (4 * q.countNext + j) % 4 = j := by omega
      rw [hread, hdiv, hmod, if_pos rfl]
    · rw [hread, if_neg hi]
    · rw [decide_eq_false hc', Bool.and_false, Bool.or_false, hflags (by omega)]
  case ninth =>
    have hd : d ≠ 1 := by omega
    have hc' : ¬q.countNext < 8 := Nat.not_lt.mpr hc
    have hsel : s.ppu.selected ln d = q := by
      rw [Ppu.selected, if_neg hd, decide_eq_false hc', Bool.and_false]
      rfl
    rw [spritesAfter, hsel]
    refine ⟨?_, rfl, rfl⟩
    rw [hfinds.mpr ⟨he, hr⟩, decide_eq_true hc, Bool.true_and, Bool.or_true]
  case keepFlag =>
    rw [Bool.eq_false_iff.mpr (hno ∘ hfinds.mp), Bool.false_and, Bool.or_false, hflags hne]
  case keep =>
    have hsel : s.ppu.selected ln d = q := Ppu.selected_eq_self hd (Bool.eq_false_iff.mpr (hno ∘ hfinds.mp))
    rw [spritesAfter, hsel]
    exact ⟨rfl, rfl, rfl⟩
  case latch =>
    have hno : ¬(evaluates ∧ inRange) := by omega
    have hsel : s.ppu.selected ln d = q := Ppu.selected_eq_self (by omega) (Bool.eq_false_iff.mpr (hno ∘ hfinds.mp))
    simp only [spritesAfter, hd, if_true]
    rw [← hd, hsel]
    exact ⟨rfl, rfl⟩
  case keepCur =>
    simp only [spritesAfter, hd, if_false]
    exact ⟨hcur, hzero⟩

end Sys2Proof.Machine

namespace Sys2Proof.Machine

/-! ## Sprite patterns and slots (R534-R538) -/

/-- A sprite of 8 rows takes its table from `ctrl[3]` (R536). -/
theorem spriteAddr_small {p : Ppu} {row : Nat} (tile attr : Byte) (h5 : bitAt p.regs.ctrl 5 = false) (hr : row < 8) :
    (spriteAddr p tile attr row).toNat = 4096 * (p.regs.ctrl.toNat / 8 % 2) + 16 * tile.toNat +
      (if bitAt attr 7 then 7 - row else row) := by
  have htile := tile.isLt
  have htable : (if bitAt p.regs.ctrl 3 then 0x1000 else 0) = 4096 * (p.regs.ctrl.toNat / 8 % 2) := by
    rw [bitAt, ← BitVec.testBit_toNat, Nat.testBit_eq_decide_div_mod_eq]
    simp only [decide_eq_true_eq]
    split <;> omega
  have hrow : (if bitAt attr 7 then 7 - row else row) < 8 := by split <;> omega
  simp only [spriteAddr, h5, Bool.false_eq_true, if_false, htable, BitVec.toNat_ofNat]
  omega

/-- A sprite of 16 rows takes its table from bit 0 of the tile, and its lower half from the next tile (R536). -/
theorem spriteAddr_tall {p : Ppu} {row : Nat} (tile attr : Byte) (h5 : p.regs.ctrl.getLsbD 5 = true) (hr : row < 16) :
    let r := if attr.getLsbD 7 then 15 - row else row
    (spriteAddr p tile attr row).toNat =
      4096 * (tile.toNat % 2) + 16 * (2 * (tile.toNat / 2) + r / 8) + r % 8 := by
  intro r
  have htile := tile.isLt
  have hrow : r < 16 := by unfold r; split <;> omega
  simp only [spriteAddr, bitAt, h5, if_true, BitVec.toNat_ofNat]
  change (tile.toNat % 2 * 0x1000 +
    (if r < 8 then tile.toNat - tile.toNat % 2 else tile.toNat - tile.toNat % 2 + 1) * 16 + r % 8) % 2 ^ 14 = _
  split <;> omega

theorem reverse8_bit : ∀ (b : Byte), ∀ j < 8, (reverse8 b).getLsbD j = b.getLsbD (7 - j) := by decide

/-- Settles O49: the addresses in numbers, and the entry a slot takes its own from. -/
theorem spritePatternAddress : Obligations.SpritePatternAddress := by
  refine ⟨fun p tile attr row => spriteAddr_small tile attr, fun p tile attr row => spriteAddr_tall tile attr,
    fun p i hi hy hln => ?covered, fun p i hi => if_neg (Nat.not_lt.mpr hi), reverse8_bit⟩
  case covered =>
    have hrow : p.pos.scanline - (p.spr.oam2.read (4 * i)).toNat < p.spriteHeight := Nat.sub_lt_left_of_lt_add hy hln
    rw [slotAddr, if_pos hi]
    simp only [Ppu.entry, spriteRow, hy, hrow, and_self, if_true]

theorem Slot.shift_eq (e : Slot) : e.shift = if 0 < e.xcnt.toNat then { e with xcnt := e.xcnt - 1 }
    else { e with patLo := e.patLo <<< 1, patHi := e.patHi <<< 1 } := by
  have hzero : e.xcnt = 0 ↔ ¬0 < e.xcnt.toNat := by rw [Nat.not_lt, Nat.le_zero, BitVec.toNat_eq]; rfl
  simp only [Slot.shift, hzero, ite_not]

/-- Settles O50: the slots and the latch behind the dot are those `slotsAfter` and `sprLoAfter` say. -/
theorem spriteSlotsLoadAndShift : Obligations.SpriteSlotsLoadAndShift := by
  intro s hw hlen h d q t i
  have hspr : t = spritesAfter s.ppu.pos.scanline d s := ppuHandler_sprites h hw
  have hslots : t.slots = slotsAfter d s := congrArg PpuSprites.slots hspr
  have hlo : t.sprLo = sprLoAfter d s := congrArg PpuSprites.sprLo hspr
  have hload (h1 : 263 ≤ d) (h2 : d ≤ 319) (h3 : d % 8 = 7) : t.slots = q.slots.set i
      (s.ppu.loadedSlot i q.sprLo (ppuFetch (slotAddr i s.ppu + 8) s).1) := by
    have hshift : ¬(2 ≤ d ∧ d ≤ 257) := by omega
    have hhi : 263 ≤ d ∧ d ≤ 319 ∧ (d - 263) % 8 = 0 := by omega
    rw [hslots, slotsAfter, if_neg hshift, if_pos hhi]
  have hi (h2 : d ≤ 319) : i < q.slots.length := by
    rw [hlen]
    change (d - 263) / 8 < 8
    omega
  refine ⟨fun h1 h2 h3 hc => ?load, fun h1 h2 h3 hc => ?empty, fun h1 h2 h3 k hk => ?others, fun h1 h2 h3 => ?latch,
    fun hno => ?keepLatch, fun h1 h2 k hk => ?shift, fun h1 h2 => ?keep⟩
  case load =>
    rw [hload h1 h2 h3, List.getElem?_set_self (hi h2), Ppu.loadedSlot, if_pos hc]
    rfl
  case empty => rw [hload h1 h2 h3, List.getElem?_set_self (hi h2), Ppu.loadedSlot, if_neg (Nat.not_lt.mpr hc)]
  case others => rw [hload h1 h2 h3, List.getElem?_set_ne (Ne.symm hk)]
  case latch =>
    have hfetch : 261 ≤ d ∧ d ≤ 317 ∧ (d - 261) % 8 = 0 := by omega
    rw [hlo, sprLoAfter, if_pos hfetch]
  case keepLatch =>
    have hfetch : ¬(261 ≤ d ∧ d ≤ 317 ∧ (d - 261) % 8 = 0) := by omega
    rw [hlo, sprLoAfter, if_neg hfetch]
  case shift =>
    have hk' : k < q.slots.length := hlen.symm ▸ hk
    refine ⟨q.slots[k], List.getElem?_eq_getElem hk', ?_⟩
    rw [hslots, slotsAfter, if_pos ⟨h1, h2⟩, List.getElem?_map, List.getElem?_eq_getElem hk',
      Option.map_some, Slot.shift_eq]
  case keep =>
    have hhi : ¬(263 ≤ d ∧ d ≤ 319 ∧ (d - 263) % 8 = 0) := by omega
    rw [hslots, slotsAfter, if_neg h1, if_neg hhi]

/-! ## The pixel (R540-R544) -/

/-- The pixel of a slot that has counted down, 0 where it is transparent or still counts (R541). -/
def Slot.pixel (e : Slot) : Nat :=
  if e.xcnt = 0 then 2 * (e.patHi.getLsbD 7).toNat + (e.patLo.getLsbD 7).toNat else 0

theorem bitNat_eq_toNat (b : Bool) : bitNat b = b.toNat := by cases b <;> rfl

theorem firstOpaque_cons (n : Nat) (e : Slot) (rest : List Slot) : firstOpaque n (e :: rest) =
    if e.pixel = 0 then firstOpaque (n + 1) rest
    else ⟨e.pixel, 4 + e.attr.toNat % 4, !e.attr.getLsbD 5, n == 0⟩ := by
  have hattr : (e.attr &&& 3).toNat = e.attr.toNat % 4 := by
    rw [BitVec.toNat_and]
    exact Nat.and_two_pow_sub_one_eq_mod e.attr.toNat 2
  simp only [firstOpaque, Slot.pixel, bitNat_eq_toNat, hattr, bitAt]
  by_cases hx : e.xcnt = 0
  · simp only [hx, if_true, true_and, ite_not]
  · simp only [hx, if_false, false_and, if_true]

theorem firstOpaque_clear {slots : List Slot} (h : ∀ e ∈ slots, e.pixel = 0) (n : Nat) :
    firstOpaque n slots = FgPixel.clear := by
  induction slots generalizing n with
  | nil => rfl
  | cons e rest ih =>
    rw [firstOpaque_cons, if_pos (h e List.mem_cons_self)]
    exact ih (fun e' he' => h e' (List.mem_cons_of_mem e he')) (n + 1)

/-- The first opaque slot gives the sprite pixel (R541). -/
theorem firstOpaque_eq {slots : List Slot} {i : Nat} {e : Slot} (n : Nat) (hi : slots[i]? = some e) (he : e.pixel ≠ 0)
    (hlow : ∀ j < i, ∀ e', slots[j]? = some e' → e'.pixel = 0) :
    firstOpaque n slots = ⟨e.pixel, 4 + e.attr.toNat % 4, !e.attr.getLsbD 5, n + i == 0⟩ := by
  induction slots generalizing n i with
  | nil => cases hi
  | cons e0 rest ih =>
    rw [firstOpaque_cons]
    cases i with
    | zero =>
      obtain rfl : e0 = e := Option.some.inj hi
      exact if_neg he
    | succ i =>
      rw [if_pos (hlow 0 (Nat.succ_pos i) e0 rfl),
        ih (n + 1) hi fun j hj e' he' => hlow (j + 1) (Nat.succ_lt_succ hj) e' he', Nat.add_right_comm n 1 i, Nat.add_assoc n i 1]

/-- Where sprites are shown (R541). -/
theorem fgPixel_eq (x : Nat) (p : Ppu) : p.fgPixel x =
    if p.regs.mask.getLsbD 4 = true ∧ (p.regs.mask.getLsbD 2 = true ∨ 8 ≤ x) then firstOpaque 0 p.spr.slots
    else FgPixel.clear := by
  simp only [Ppu.fgPixel, bitAt, Bool.and_eq_true, Bool.or_eq_true, decide_eq_true_eq]

/-- Where the background is shown, and what of it (R540). -/
theorem bgPixel_eq (x : Nat) (p : Ppu) : p.bgPixel x =
    let b := 15 - p.scr.fineX.toNat
    if p.regs.mask.getLsbD 3 = true ∧ (p.regs.mask.getLsbD 1 = true ∨ 8 ≤ x) then
      (2 * (p.bg.patHi.getLsbD b).toNat + (p.bg.patLo.getLsbD b).toNat,
       2 * (p.bg.attrHi.getLsbD b).toNat + (p.bg.attrLo.getLsbD b).toNat)
    else (0, 0) := by
  simp only [Ppu.bgPixel, bitAt, bitNat_eq_toNat, Bool.and_eq_true, Bool.or_eq_true, decide_eq_true_eq]

/-- The palette address of the pixel that the priority table shows (R542, R544). -/
theorem pixelAddr_choosePixel {bg : Nat × Nat} {pal : Nat} (hpal : bg.1 ≠ 0 → bg.2 = pal) (f : FgPixel) :
    pixelAddr (choosePixel bg f) = BitVec.ofNat 14 (if bg.1 = 0 ∧ f.pix = 0 then 0x3F00
      else if bg.1 ≠ 0 ∧ (f.pix = 0 ∨ f.front = false) then 0x3F00 + 4 * pal + bg.1 else 0x3F00 + 4 * f.pal + f.pix) := by
  by_cases hb : bg.1 = 0
  · by_cases hf : f.pix = 0 <;> simp [pixelAddr, choosePixel, hb, hf]
  · rw [← hpal hb]
    by_cases hf : f.pix = 0
    · simp [pixelAddr, choosePixel, hb, hf]
    · cases hfront : f.front <;> simp [pixelAddr, choosePixel, hb, hf, hfront]

/-- The pixel of a visible dot is composed from what phase 2 left of the state before the dot. -/
theorem rendered_visible {s : State} (hln : s.ppu.pos.scanline ≤ 239) :
    rendered s = renderWork s.ppu.pos.scanline s.ppu.pos.dot s := by
  have h241 : ¬(s.ppu.pos.scanline = 241 ∧ s.ppu.pos.dot = 1) := by omega
  have h261 : ¬(s.ppu.pos.scanline = 261 ∧ s.ppu.pos.dot = 1) := by omega
  rw [rendered, lineEvents, if_neg h241, if_neg h261]

/-- The hit is set exactly by its rule (R543). -/
theorem hitsAt_iff (h : Config.Sprite0HitX255) (x : Nat) (bg : Nat × Nat) (f : FgPixel) (p : Ppu) :
    p.hitsAt h x bg f = true ↔
      bg.1 ≠ 0 ∧ f.pix ≠ 0 ∧ p.spr.spr0Cur = true ∧ f.slot0 = true ∧ ¬(x = 255 ∧ h = .excluded) := by
  simp only [Ppu.hitsAt, Bool.and_eq_true, bne_iff_ne, Bool.not_eq_true', Bool.and_eq_false_imp, beq_iff_eq, and_assoc]
  simp

section store
variable {p : Ppu} (x y : Nat) (c : BitVec 9)

/-- A stored pixel goes to the back buffer alone (R57). -/
theorem storePixel_front : if p.out.back then (p.storePixel x y c).out.fb0 = p.out.fb0
    else (p.storePixel x y c).out.fb1 = p.out.fb1 := by
  unfold Ppu.storePixel
  cases hb : p.out.back <;> simp [hb]

theorem storePixel_read_other (h0 : p.out.fb0.wf = true) (h1 : p.out.fb1.wf = true) {n : Nat} (hn : n ≠ 256 * y + x) :
    (if p.out.back then (p.storePixel x y c).out.fb1 else (p.storePixel x y c).out.fb0).read n =
      (if p.out.back then p.out.fb1 else p.out.fb0).read n := by
  unfold Ppu.storePixel
  cases hb : p.out.back <;> simp [hb, Memory.read_write_other, h0, h1, hn]

end store

/-- Settles O51: the sprite pixel, the priority and the hit as `ComposePixel` takes them, and the cell it stores to. -/
theorem pixelPriorityAndColour : Obligations.PixelPriorityAndColour := by
  refine ⟨?sprite, ?handler, ?pixel⟩
  case sprite =>
    intro x p pix on
    rw [fgPixel_eq]
    constructor
    · intro hclear
      split
      next hon => exact firstOpaque_clear (hclear.resolve_left (Classical.not_not.mpr hon)) 0
      next => rfl
    · intro hon i e hi he hlow
      rw [if_pos hon, firstOpaque_eq 0 hi he hlow, Nat.zero_add]
      rfl
  case handler =>
    intro s hln hd hd' h p
    rw [ppuHandler_visible h hln hd hd', rendered_visible hln]
    exact ⟨rfl, rfl⟩
  case pixel =>
    intro h x y p _ _ h0 h1 bgOn b bg bgPal f addr colour out t
    have hbg : (p.bgPixel x).1 = bg := by
      rw [bgPixel_eq]
      exact apply_ite Prod.fst _ _ _
    have hpal : (p.bgPixel x).1 ≠ 0 → (p.bgPixel x).2 = bgPal := by
      rw [bgPixel_eq]
      dsimp only
      split
      · exact fun _ => rfl
      · exact fun hne => absurd rfl hne
    have haddr : pixelAddr (choosePixel (p.bgPixel x) f) = BitVec.ofNat 14 addr := by
      rw [pixelAddr_choosePixel hpal, hbg]
    have hout : t.out = (p.storePixel x y out).out := by
      change (p.storePixel x y (p.pixelOut (pixelAddr (choosePixel (p.bgPixel x) f)))).out = _
      rw [haddr]
      rfl
    rw [hout]
    refine ⟨storePixel_read x y out h0 h1, storePixel_front x y out, fun n hn => storePixel_read_other x y out h0 h1 hn, ?_⟩
    rw [← hbg, ← hitsAt_iff, ← Bool.or_eq_true_iff]
    rfl

end Sys2Proof.Machine

namespace Sys2Proof.Machine

/-! ## The picture generator's address space (R620-R623) -/

/-- R622: cell `off` of logical nametable `n` is that cell of its physical nametable. -/
theorem nametableIndex_eq {n off : Nat} (hn : n < 4) (hoff : off < 0x400) (m : Config.Mirroring) :
    nametableIndex m (BitVec.ofNat 14 (0x2000 + 0x400 * n + off)) = 0x400 * physicalTable m n + off := by
  have haddr : ((BitVec.ofNat 14 (0x2000 + 0x400 * n + off)).toNat - 0x2000) % 0x1000 = 0x400 * n + off := by
    rw [BitVec.toNat_ofNat]
    omega
  have htable : (0x400 * n + off) / 0x400 = n := by omega
  have hcell : (0x400 * n + off) % 0x400 = off := by omega
  rw [nametableIndex, haddr, htable, hcell, Nat.mul_comm]

theorem toNat_sub_0x1000 {a : PpuAddr} (h : 0x1000 ≤ a.toNat) : (a - 0x1000).toNat = a.toNat - 0x1000 :=
  BitVec.toNat_sub_of_le (BitVec.le_def.mpr h)

/-- R622: 0x3000 to 0x3EFF mirrors the nametables 0x1000 below. -/
theorem nametableIndex_mirror {a : PpuAddr} (hlo : 0x3000 ≤ a.toNat) (m : Config.Mirroring) :
    nametableIndex m (a - 0x1000) = nametableIndex m a := by
  have haddr : ((a - 0x1000).toNat - 0x2000) % 0x1000 = (a.toNat - 0x2000) % 0x1000 := by
    rw [toNat_sub_0x1000 (by omega)]
    omega
  rw [nametableIndex, nametableIndex, haddr]

/-- R623: the palette repeats every 0x20 addresses through 0x3FFF. -/
theorem paletteIndex_eq {i : Nat} (hi : i < 0x20) (n : Nat) :
    paletteIndex (BitVec.ofNat 14 (0x3F00 + 0x20 * n + i)) =
      if i = 0x10 ∨ i = 0x14 ∨ i = 0x18 ∨ i = 0x1C then i - 0x10 else i := by
  have haddr : (BitVec.ofNat 14 (0x3F00 + 0x20 * n + i)).toNat % 0x20 = i := by
    rw [BitVec.toNat_ofNat]
    omega
  rw [paletteIndex, haddr]

section regions
variable {x : ExtRun} {a : PpuAddr} {v : Byte} {s : State}

theorem ppuRead_nametable (hlo : 0x2000 ≤ a.toNat) (hhi : a.toNat < 0x3F00) :
    ppuReadVia x a s = (s.ppu.mem.vram.read (nametableIndex s.cart.mirroring a), s) := by
  rw [ppuReadVia, if_neg (by omega), if_pos hhi]

theorem ppuRead_palette (hlo : 0x3F00 ≤ a.toNat) :
    ppuReadVia x a s = ((s.ppu.mem.palette.read (paletteIndex a)).setWidth 8, s) := by
  rw [ppuReadVia, if_neg (by omega), if_neg (by omega), paletteRead]

theorem ppuWrite_nametable (hlo : 0x2000 ≤ a.toNat) (hhi : a.toNat < 0x3F00) : ppuWriteVia x a v s =
    s.mapPpu (Ppu.mapMem fun m => { m with vram := m.vram.write (nametableIndex s.cart.mirroring a) v }) := by
  rw [ppuWriteVia, if_neg (by omega), if_pos hhi]

theorem ppuWrite_palette (hlo : 0x3F00 ≤ a.toNat) : ppuWriteVia x a v s = s.mapPpu (paletteWrite a v) := by
  rw [ppuWriteVia, if_neg (by omega), if_neg (by omega)]

end regions

/-- A palette entry is the low 6 bits of the byte written (R623). -/
theorem setWidth_8_setWidth_6 (v : Byte) : (v.setWidth 6).setWidth 8 = v &&& 0x3F :=
  BitVec.eq_of_toNat_eq (by
    simp only [BitVec.toNat_setWidth, BitVec.toNat_and]
    rw [show (0x3F : Byte).toNat = 2 ^ 6 - 1 from rfl, Nat.and_two_pow_sub_one_eq_mod]
    omega)

/-- Settles O52: an access goes to the cell its region's table names, and two cells are one exactly if their indices are. -/
theorem nametableAndPaletteMirrors : Obligations.NametableAndPaletteMirrors := by
  intro a b v s hvram hpalette
  refine ⟨fun ha ha' hb hb' => ?nametable, fun ha hb => ?palette, fun ha ha' hb => ?apart,
    fun m ha _ => (nametableIndex_mirror ha m).symm, fun n off hn hoff => ?modes, fun n i _ hi => paletteIndex_eq hi n⟩
  case nametable =>
    rw [ppuWrite, ppuWrite_nametable ha ha', ppuRead, ppuRead, ppuRead_nametable hb hb', ppuRead_nametable hb hb']
    exact Memory.read_write hvram _ _ v
  case palette =>
    rw [ppuWrite, ppuWrite_palette ha, ppuRead, ppuRead, ppuRead_palette hb, ppuRead_palette hb]
    change (((s.ppu.mem.palette.write (paletteIndex a) (v.setWidth 6)).read (paletteIndex b)).setWidth 8) = _
    rw [Memory.read_write hpalette, apply_ite (BitVec.setWidth 8), setWidth_8_setWidth_6]
  case apart =>
    rw [ppuWrite, ppuWrite_nametable ha ha', ppuRead, ppuRead, ppuRead_palette hb, ppuRead_palette hb]
    rfl
  case modes =>
    have htables : ∀ n < 4, physicalTable .horizontal n = n / 2 ∧ physicalTable .vertical n = n % 2 ∧
        physicalTable .single0 n = 0 ∧ physicalTable .single1 n = 1 ∧ physicalTable .fourScreen n = n := by decide
    obtain ⟨hhorizontal, hvertical, hsingle0, hsingle1, hfour⟩ := htables n hn
    simp only [nametableIndex_eq hn hoff, hhorizontal, hvertical, hsingle0, hsingle1, hfour, Nat.mul_zero, Nat.zero_add,
      Nat.mul_one, and_self]

end Sys2Proof.Machine

namespace Sys2Proof.Machine

/-! ## The picture generator's ports on the NES map (R104, R600)

Each register of the ports gets its own rule for a write and, where it has one, for a read. -/

/-- On the NES map, address `a` is register `r` of the picture generator. -/
structure PortAt (a : Addr) (s : State) (r : Nat) : Prop where
  bus : s.bus = State.defaultBus
  lo  : 0x2000 ≤ a.toNat
  hi  : a.toNat ≤ 0x3FFF
  reg : a.toNat % 8 = r

section registers
variable {a : Addr} {s : State} {r : Nat}

theorem PortAt.plainSignals (h : PortAt a s r) : plainSignals s.bus = true := h.bus ▸ rfl

theorem PortAt.busRead_eq (h : PortAt a s r) : busRead a s = ppuPortReadVia extRun a s :=
  (busAccess_of_componentsAt (h.bus ▸ componentsAt_ppuPorts h.lo h.hi) 0).1

theorem PortAt.busWrite_eq (h : PortAt a s r) (d : Byte) : busWrite a d s = ppuPortWriteVia extRun a d s :=
  (busAccess_of_componentsAt (h.bus ▸ componentsAt_ppuPorts h.lo h.hi) d).2

theorem busRead_status (h : PortAt a s 2) : busRead a s = readStatus s := by
  rw [h.busRead_eq, ppuPortReadVia, h.reg]
  rfl

theorem busRead_oamData (h : PortAt a s 4) : busRead a s = readOam s := by
  rw [h.busRead_eq, ppuPortReadVia, h.reg]
  rfl

theorem busRead_data (h : PortAt a s 7) : busRead a s = readDataVia extRun s := by
  rw [h.busRead_eq, ppuPortReadVia, h.reg]
  rfl

/-- A write-only register (R611). -/
theorem busRead_writeOnly (h : PortAt a s r) (hr : r ∈ [0, 1, 3, 5, 6]) :
    busRead a s = (s.ppu.port.ioLatch, s) := by
  rw [h.busRead_eq, ppuPortReadVia, h.reg]
  simp only [List.mem_cons, List.not_mem_nil, or_false] at hr
  rcases hr with rfl | rfl | rfl | rfl | rfl <;> rfl

variable (d : Byte)

theorem busWrite_ctrl (h : PortAt a s 0) : busWrite a d s = writeControlVia extRun d (s.mapPpu (Ppu.setLatch d)) := by
  rw [h.busWrite_eq, ppuPortWriteVia, h.reg]
  rfl

theorem busWrite_mask (h : PortAt a s 1) : busWrite a d s = (s.mapPpu (Ppu.setLatch d)).mapPpu (Ppu.writeMask d) := by
  rw [h.busWrite_eq, ppuPortWriteVia, h.reg]
  rfl

theorem busWrite_status (h : PortAt a s 2) : busWrite a d s = s.mapPpu (Ppu.setLatch d) := by
  rw [h.busWrite_eq, ppuPortWriteVia, h.reg]
  rfl

theorem busWrite_oamAddr (h : PortAt a s 3) :
    busWrite a d s = (s.mapPpu (Ppu.setLatch d)).mapPpu (Ppu.writeOamAddr d) := by
  rw [h.busWrite_eq, ppuPortWriteVia, h.reg]
  rfl

theorem busWrite_oamData (h : PortAt a s 4) : busWrite a d s = (s.mapPpu (Ppu.setLatch d)).mapPpu (Ppu.writeOam d) := by
  rw [h.busWrite_eq, ppuPortWriteVia, h.reg]
  rfl

theorem busWrite_scroll (h : PortAt a s 5) : busWrite a d s = (s.mapPpu (Ppu.setLatch d)).mapPpu (Ppu.writeScroll d) := by
  rw [h.busWrite_eq, ppuPortWriteVia, h.reg]
  rfl

theorem busWrite_addr (h : PortAt a s 6) : busWrite a d s = (s.mapPpu (Ppu.setLatch d)).mapPpu (Ppu.writeAddr d) := by
  rw [h.busWrite_eq, ppuPortWriteVia, h.reg]
  rfl

end registers

/-! ### PPUCTRL and PPUDATA where signals are plain (R601, R608, R609, R613) -/

theorem busNmi_defaultBus {x : ExtRun} {s : State} (h : s.bus = State.defaultBus) :
    busNmiVia x s = s.mapPend fun l => { l with nmi := true } := by
  unfold busNmiVia
  rw [h]
  rfl

/-- A control write raises NMI exactly under R613's condition. -/
theorem writeControl_defaultBus {x : ExtRun} {s : State} (h : s.bus = State.defaultBus) (d : Byte) :
    writeControlVia x d s = (s.mapPpu (Ppu.writeCtrl d)).mapPend fun l =>
      { l with nmi := l.nmi || (s.params.nmiOnEnable && d.getLsbD 7 && !s.ppu.regs.ctrl.getLsbD 7 && s.ppu.regs.vblank) } := by
  have hnmi : busNmiVia x (s.mapPpu (Ppu.writeCtrl d)) = _ := busNmi_defaultBus h
  simp only [writeControlVia, Ppu.nmiEnabled, bitAt, hnmi]
  split
  next hraise => rw [hraise]; simp only [Bool.or_true]
  next hraise =>
    rw [Bool.not_eq_true] at hraise
    rw [hraise]
    simp only [Bool.or_false]
    rfl

theorem State.mapCart_mapPpu (s : State) (f : Ppu → Ppu) (g : Cart → Cart) :
    (s.mapPpu f).mapCart g = (s.mapCart g).mapPpu f := rfl

theorem State.mapPpu_congr {s : State} {f g : Ppu → Ppu} (h : f s.ppu = g s.ppu) : s.mapPpu f = s.mapPpu g := by
  rw [State.mapPpu, State.mapPpu, h]

section memory
variable {x : ExtRun} {s : State}

/-- A plain signal neither reads nor changes the picture generator. -/
theorem signalIrq_mapPpu (h : plainSignals s.bus = true) (b : Bool) (f : Ppu → Ppu) :
    signalIrqVia x b (s.mapPpu f) = (signalIrqVia x b s).mapPpu f := by
  simp only [plainSignals, Bool.and_eq_true] at h
  unfold signalIrqVia busIrqVia
  rw [State.mapPpu_bus]
  split
  · split
    · rfl
    · rename_i he
      rw [he] at h
      cases h.1
    · rfl
  · rfl

theorem afterMapper_mapPpu (h : plainSignals s.bus = true) (r : Config.MapReply) (f : Ppu → Ppu) :
    afterMapperVia x r (s.mapPpu f) = (afterMapperVia x r s).mapPpu f :=
  signalIrq_mapPpu (s := s.mapCart fun c => { c with st := r.st }) h r.irq f

theorem afterMapper_ppu (h : plainSignals s.bus = true) (r : Config.MapReply) : (afterMapperVia x r s).ppu = s.ppu :=
  (signalIrq_sameButDot (s := s.mapCart fun c => { c with st := r.st }) h r.irq).2

theorem ppuRead_ppu (h : plainSignals s.bus = true) (a : PpuAddr) : (ppuReadVia x a s).2.ppu = s.ppu := by
  unfold ppuReadVia
  split
  · exact afterMapper_ppu h _
  · split <;> rfl

/-- A write of the address space changes the memories of the picture generator and no other part of it. -/
theorem ppuWrite_ppu (h : plainSignals s.bus = true) (a : PpuAddr) (v : Byte) :
    ∃ f, (ppuWriteVia x a v s).ppu = s.ppu.mapMem f := by
  unfold ppuWriteVia
  split
  · refine ⟨id, ?_⟩
    unfold patternWriteVia
    dsimp only
    split
    · exact afterMapper_ppu (s := s.mapCart _) h _
    · exact afterMapper_ppu h _
  · split
    · exact ⟨_, State.mapPpu_ppu s _⟩
    · exact ⟨_, State.mapPpu_ppu s (Ppu.mapMem _)⟩

/-- The data port does not come into a write of the address space. -/
theorem ppuWrite_mapPort (h : plainSignals s.bus = true) (a : PpuAddr) (v : Byte) (f : PpuPort → PpuPort) :
    ppuWriteVia x a v (s.mapPpu (Ppu.mapPort f)) = (ppuWriteVia x a v s).mapPpu (Ppu.mapPort f) := by
  unfold ppuWriteVia
  split
  · unfold patternWriteVia
    dsimp only [State.mapPpu_cart]
    split
    · rw [State.mapCart_mapPpu]
      exact afterMapper_mapPpu (s := s.mapCart _) h _ _
    · exact afterMapper_mapPpu h _ _
  · split <;> rfl

end memory

/-- A data write is one of the address space at `v & 0x3FFF`, beside the latch and the step of `v` (R608). -/
theorem busWrite_data {a : Addr} {s : State} (h : PortAt a s 7) (d : Byte) :
    busWrite a d s = ((ppuWrite s.ppu.portAddr d s).mapPpu (Ppu.setLatch d)).mapPpu Ppu.stepV := by
  rw [h.busWrite_eq, ppuPortWriteVia, h.reg]
  exact congrArg (State.mapPpu Ppu.stepV) (ppuWrite_mapPort h.plainSignals _ d _)

/-- Every register's own effect leaves the latch that the write has set (R612). -/
theorem busWrite_ioLatch {a : Addr} {s : State} {r : Nat} (h : PortAt a s r) (d : Byte) :
    (busWrite a d s).ppu.port.ioLatch = d := by
  rw [h.busWrite_eq]
  unfold ppuPortWriteVia
  dsimp only
  split
  case h_1 => -- a control write may signal NMI
    rw [writeControl_defaultBus (s := s.mapPpu _) h.bus]
    rfl
  case h_7 => -- a data write may call the mapper
    obtain ⟨f, hf⟩ := ppuWrite_ppu (x := extRun) (s := s.mapPpu (Ppu.setLatch d)) h.plainSignals s.ppu.portAddr d
    exact congrArg (fun p => p.port.ioLatch) hf
  all_goals rfl

/-! ### The status register and the latch (R603, R610-R612) -/

theorem toNat_append_eq {m n : Nat} (x : BitVec m) (y : BitVec n) : (x ++ y).toNat = 2 ^ n * x.toNat + y.toNat := by
  rw [BitVec.toNat_append, Nat.shiftLeft_eq, Nat.mul_comm, Nat.two_pow_add_eq_or_of_lt y.isLt]

theorem toNat_ite_zero (b : Bool) (c : Byte) : (if b then c else 0).toNat = c.toNat * b.toNat := by
  cases b <;> simp

/-- R603's concatenation as a sum. -/
theorem statusByte_eq (p : Ppu) : p.statusByte = (if p.regs.vblank then 0x80 else 0) +
    (if p.regs.sprite0Hit then 0x40 else 0) + (if p.regs.spriteOverflow then 0x20 else 0) + (p.port.ioLatch &&& 0x1F) := by
  apply BitVec.eq_of_toNat_eq
  have hlow : (p.port.ioLatch &&& 0x1F).toNat = p.port.ioLatch.toNat % 32 := by
    rw [BitVec.toNat_and]
    exact Nat.and_two_pow_sub_one_eq_mod p.port.ioLatch.toNat 5
  have hvblank := p.regs.vblank.toNat_le
  have hhit := p.regs.sprite0Hit.toNat_le
  have hoverflow := p.regs.spriteOverflow.toNat_le
  simp only [Ppu.statusByte, BitVec.toNat_add, hlow, toNat_append_eq, toNat_ite_zero, BitVec.toNat_ofBool,
    BitVec.extractLsb'_toNat, BitVec.reduceToNat, Nat.shiftRight_zero]
  omega

/-- Settles O53: register by register, what a read returns is what it leaves in the latch, and a write leaves its byte. -/
theorem statusReadAndIoLatch : Obligations.StatusReadAndIoLatch := by
  intro a v s hbus hlo hhi
  have port {r : Nat} (hr : a.toNat % 8 = r) : PortAt a s r := ⟨hbus, hlo, hhi, hr⟩
  refine ⟨fun hr => ?status, fun hr => busRead_writeOnly (port rfl) hr, fun hr => ?latch, busWrite_ioLatch (port rfl) v⟩
  case status =>
    dsimp only
    rw [← statusByte_eq]
    exact ⟨busRead_status (port hr), busWrite_status v (port hr)⟩
  case latch =>
    simp only [List.mem_cons, List.not_mem_nil, or_false] at hr
    rcases hr with hr | hr | hr
    · rw [busRead_status (port hr)]; rfl
    · rw [busRead_oamData (port hr)]; rfl
    · rw [busRead_data (port hr)]; rfl

/-! ### Control, mask and object table (R601, R602, R604, R605, R613) -/

/-- R605: the third byte of each entry reads without bits 4:2. -/
theorem oamByte_eq (p : Ppu) : p.oamByte = if p.regs.oamaddr.toNat % 4 = 2 then p.spr.oam.read p.regs.oamaddr.toNat &&& 0xE3
    else p.spr.oam.read p.regs.oamaddr.toNat := by
  have hattr : p.regs.oamaddr &&& 3 = 2 ↔ p.regs.oamaddr.toNat % 4 = 2 := by
    rw [← BitVec.toNat_inj, BitVec.toNat_and]
    exact Eq.congr_left (Nat.and_two_pow_sub_one_eq_mod p.regs.oamaddr.toNat 2)
  simp only [Ppu.oamByte, hattr]

/-- Settles O54: each write is the register's own effect after the latch, and the object-table read is `oamByte`. -/
theorem controlMaskAndObjectPorts : Obligations.ControlMaskAndObjectPorts := by
  intro a d s hbus hlo hhi
  have port {r : Nat} (hr : a.toNat % 8 = r) : PortAt a s r := ⟨hbus, hlo, hhi, hr⟩
  refine ⟨fun hr => ?ctrl, fun hr => ?mask, fun hr => ?oamAddr, fun hr hoam => ?oamData⟩
  case ctrl =>
    rw [busWrite_ctrl d (port hr), writeControl_defaultBus (s := s.mapPpu _) hbus]
    exact ⟨rfl, rfl, rfl⟩
  case mask => rw [busWrite_mask d (port hr)]; rfl
  case oamAddr => rw [busWrite_oamAddr d (port hr)]; rfl
  case oamData =>
    rw [busWrite_oamData d (port hr), busRead_oamData (port hr)]
    exact ⟨rfl, fun n => Memory.read_write hoam _ n d, oamByte_eq s.ppu, rfl, rfl⟩

/-! ### Scroll and address (R606, R607)

The masks take whole fields, which is compared bit by bit. -/

/-- The first write replaces the lowest field, the masked byte `d >>> 3` being 5 bits wide. -/
theorem scrollX_fields (t : Scroll) (d : Byte) :
    let r : Scroll := (t &&& 0x7FE0) ||| (d >>> 3).setWidth 15
    coarseX r = (d >>> 3).setWidth 5 ∧ coarseY r = coarseY t ∧ fineY r = fineY t ∧
      r.extractLsb' 10 2 = t.extractLsb' 10 2 := by
  refine ⟨?_, ?_, ?_, ?_⟩
  all_goals
    ext i hi
    interval_cases i <;> simp [coarseX, coarseY, fineY]

/-- The second write replaces the two fields of the row. -/
theorem scrollY_fields (t : Scroll) (d : Byte) :
    let r : Scroll := (t &&& 0x0C1F) ||| ((d &&& 7).setWidth 15 <<< 12) ||| ((d >>> 3).setWidth 15 <<< 5)
    coarseY r = (d >>> 3).setWidth 5 ∧ fineY r = d.setWidth 3 ∧ coarseX r = coarseX t ∧
      r.extractLsb' 10 2 = t.extractLsb' 10 2 := by
  refine ⟨?_, ?_, ?_, ?_⟩
  all_goals
    ext i hi
    interval_cases i <;> simp [coarseX, coarseY, fineY]

theorem setWidth_3_and_7 (d : Byte) : (d &&& 7).setWidth 3 = d.setWidth 3 := by
  rw [BitVec.setWidth_and]
  exact BitVec.and_allOnes

theorem toNat_shiftLeft_8_or {x y : Scroll} (hx : x.toNat < 128) (hy : y.toNat < 256) :
    (x <<< 8 ||| y).toNat = 256 * x.toNat + y.toNat := by
  have hlt : x.toNat <<< 8 < 2 ^ 15 := by
    rw [Nat.shiftLeft_eq]
    omega
  rw [BitVec.toNat_or, BitVec.toNat_shiftLeft, Nat.mod_eq_of_lt hlt, ← Nat.shiftLeft_add_eq_or_of_lt hy,
    Nat.shiftLeft_eq, Nat.mul_comm]

/-- The first address write replaces the high byte by 6 bits. -/
theorem addrHigh_toNat (t : Scroll) (d : Byte) :
    ((t &&& (0x00FF : Scroll)) ||| ((d &&& 0x3F).setWidth 15 <<< 8)).toNat = 256 * (d.toNat % 64) + t.toNat % 256 := by
  have hhigh : ((d &&& 0x3F).setWidth 15).toNat = d.toNat % 64 := by
    rw [BitVec.toNat_setWidth_of_le (by decide), BitVec.toNat_and]
    exact Nat.and_two_pow_sub_one_eq_mod d.toNat 6
  have hlow : (t &&& (0x00FF : Scroll)).toNat = t.toNat % 256 := by
    rw [BitVec.toNat_and]
    exact Nat.and_two_pow_sub_one_eq_mod t.toNat 8
  rw [BitVec.or_comm, toNat_shiftLeft_8_or (by omega) (by omega), hhigh, hlow]

/-- The second replaces the low byte. -/
theorem addrLow_toNat (t : Scroll) (d : Byte) :
    ((t &&& (0x7F00 : Scroll)) ||| d.setWidth 15).toNat = 256 * (t.toNat / 256) + d.toNat := by
  have hmask : t &&& (0x7F00 : Scroll) = t >>> 8 <<< 8 := by
    ext i hi
    interval_cases i <;> simp
  have hhigh : (t >>> 8).toNat = t.toNat / 256 := by rw [BitVec.toNat_ushiftRight, Nat.shiftRight_eq_div_pow]
  have hlow : (d.setWidth 15).toNat = d.toNat := BitVec.toNat_setWidth_of_le (by decide)
  have ht := t.isLt
  have hd := d.isLt
  rw [hmask, toNat_shiftLeft_8_or (by omega) (by omega), hhigh, hlow]

/-- Settles O55: of the two writes the toggle chooses one, and its masks take whole fields. -/
theorem scrollAndAddressPorts : Obligations.ScrollAndAddressPorts := by
  intro a d s hbus hlo hhi q r
  have port {r : Nat} (hr : a.toNat % 8 = r) : PortAt a s r := ⟨hbus, hlo, hhi, hr⟩
  have scroll (hr : a.toNat % 8 = 5) : r = (s.ppu.writeScroll d).scr :=
    congrArg (fun u => u.ppu.scr) (busWrite_scroll d (port hr))
  have addr (hr : a.toNat % 8 = 6) : r = (s.ppu.writeAddr d).scr :=
    congrArg (fun u => u.ppu.scr) (busWrite_addr d (port hr))
  refine ⟨fun hr hw => ?scrollFirst, fun hr hw => ?scrollSecond, fun hr hw => ?addrFirst, fun hr hw => ?addrSecond⟩
  case scrollFirst =>
    have hwrite : r = _ := (scroll hr).trans (if_neg (Bool.not_eq_true _ ▸ hw))
    obtain ⟨hx, hy, hfine, hnametable⟩ := scrollX_fields q.t d
    rw [hwrite]
    exact ⟨hx, hy, hfine, hnametable, setWidth_3_and_7 d, rfl, rfl⟩
  case scrollSecond =>
    have hwrite : r = _ := (scroll hr).trans (if_pos hw)
    obtain ⟨hy, hfine, hx, hnametable⟩ := scrollY_fields q.t d
    rw [hwrite]
    exact ⟨hy, hfine, hx, hnametable, rfl, rfl, rfl⟩
  case addrFirst =>
    have hwrite : r = _ := (addr hr).trans (if_neg (Bool.not_eq_true _ ▸ hw))
    rw [hwrite]
    exact ⟨addrHigh_toNat q.t d, rfl, rfl, rfl⟩
  case addrSecond =>
    have hwrite : r = _ := (addr hr).trans (if_pos hw)
    rw [hwrite]
    exact ⟨addrLow_toNat q.t d, rfl, rfl, rfl⟩

/-! ### The data port (R608, R609, R624) -/

/-- The two fields of a palette read's byte do not overlap (R609). -/
theorem latchHigh_or_entry (l : Byte) (e : BitVec 6) : (l &&& 0xC0) ||| e.setWidth 8 = (l &&& 0xC0) + e.setWidth 8 := by
  refine (BitVec.add_eq_or_of_and_eq_zero _ _ ?_).symm
  ext i hi
  interval_cases i <;> simp

/-- Settles O56: a write and a delayed read are accesses at `v & 0x3FFF`; under the palette the buffer takes a nametable
byte, so that only the picture generator changes. -/
theorem dataPortReadsAndWrites : Obligations.DataPortReadsAndWrites := by
  intro a d s hbus hlo hhi hr at14 next
  have port : PortAt a s 7 := ⟨hbus, hlo, hhi, hr⟩
  refine ⟨?write, fun hlow => ?delayed, fun hhigh => ?palette⟩
  case write =>
    rw [busWrite_data port]
    obtain ⟨f, hf⟩ := ppuWrite_ppu (x := extRun) port.plainSignals at14 d
    refine ⟨?_, rfl, rfl⟩
    change (((ppuWriteVia extRun at14 d s).ppu.setLatch d).stepV).scr = _
    rw [hf]
    rfl
  case delayed =>
    have hppu : (ppuReadVia extRun at14 s).2.ppu = s.ppu := ppuRead_ppu port.plainSignals at14
    have hbyte : s.ppu.dataByte = s.ppu.port.readBuffer := if_pos hlow
    have haddr : s.ppu.bufferAddr = at14 := if_pos hlow
    rw [busRead_data port, readDataVia, hbyte, haddr]
    refine congrArg (Prod.mk _) (State.mapPpu_congr ?_)
    rw [ppuRead, hppu]
    rfl
  case palette =>
    have hnot : ¬ at14.toNat < 0x3F00 := Nat.not_lt.mpr hhigh
    have hbyte : s.ppu.dataByte = (s.ppu.port.ioLatch &&& 0xC0) + (ppuRead at14 s).1 := by
      rw [ppuRead, ppuRead_palette hhigh, ← latchHigh_or_entry]
      exact if_neg hnot
    have haddr : s.ppu.bufferAddr = at14 - 0x1000 := if_neg hnot
    have hbelow : (at14 - 0x1000).toNat = at14.toNat - 0x1000 := toNat_sub_0x1000 (by omega)
    have hlt := at14.isLt
    have hbuffer : ppuRead (at14 - 0x1000) s = _ := ppuRead_nametable (by omega) (by omega)
    dsimp only
    rw [busRead_data port, readDataVia, hbyte, haddr, ← ppuRead, hbuffer]
    rfl

end Sys2Proof.Machine

namespace Sys2Proof.Machine

/-! ## Power-on (R750) -/

/-- Settles O31: field by field, the value that the power-on state gives; the unwritten framebuffers read 0. -/
theorem powerOnValues : Obligations.PowerOnValues := by
  have hdividers : ∀ d ∈ State.reset.dividers, d.acc = 0 := by decide
  have hunits (u : UnitId) :
      (State.reset.unit u).owed = 0 ∧ (State.reset.unit u).paused = false ∧ (State.reset.unit u).disposed = false := by
    cases u <;> exact ⟨rfl, rfl, rfl⟩
  have hframes (n : Nat) : State.reset.ppu.out.fb0.read n = 0 ∧ State.reset.ppu.out.fb1.read n = 0 := ⟨rfl, rfl⟩
  exact ⟨rfl, rfl, hdividers, hunits, rfl, rfl, rfl, rfl, rfl, rfl, rfl, rfl, rfl, rfl, rfl, rfl, rfl, rfl, rfl, hframes, rfl⟩

end Sys2Proof.Machine

namespace Sys2Proof.Machine

/-! ## The controllers on the NES map (R660-R662)

Each port gets its own rule for a read with the strobe down and one for a read with it held; a sequence of reads is then a
walk through the states that the rule names. -/

/-- What a write of the strobe makes of the controllers: the shift registers take the buttons (R661). -/
def Pads.latch (d : Byte) (c : Pads) : Pads :=
  { c with strobe := d.getLsbD 0, shift0 := c.buttons0, shift1 := c.buttons1 }

section ports
variable {s : State} (hbus : s.bus = State.defaultBus)
include hbus

theorem busRead_0x4016 : busRead 0x4016 s = padsRead 0x4016 s :=
  (busAccess_of_componentsAt (hbus ▸ by decide : componentsAt 0x4016 s.bus = [.pads]) 0).1

/-- The controllers come before the sound generator (R105). -/
theorem busRead_0x4017 : busRead 0x4017 s = padsRead 0x4017 s :=
  (busAccess_of_componentsAt (hbus ▸ by decide : componentsAt 0x4017 s.bus = [.pads, .sound]) 0).1

theorem busWrite_0x4016 (d : Byte) : busWrite 0x4016 d s = s.mapPads (Pads.latch d) :=
  (busAccess_of_componentsAt (hbus ▸ by decide : componentsAt 0x4016 s.bus = [.pads]) d).2

theorem busRead_0x4016_down (h : s.pads.strobe = false) : busRead 0x4016 s =
    (s.pads.shift0 &&& 1, s.mapPads fun c => { c with shift0 := shiftOut c.shift0 }) := by
  rw [busRead_0x4016 hbus, padsRead]
  simp [h]

theorem busRead_0x4017_down (h : s.pads.strobe = false) : busRead 0x4017 s =
    (s.pads.shift1 &&& 1, s.mapPads fun c => { c with shift1 := shiftOut c.shift1 }) := by
  rw [busRead_0x4017 hbus, padsRead]
  simp [h]

theorem busRead_0x4016_held (h : s.pads.strobe = true) : busRead 0x4016 s = (s.pads.buttons0 &&& 1, s) := by
  rw [busRead_0x4016 hbus, padsRead]
  simp [h]

end ports

/-- Reads that walk through the states `t 0`, `t 1`, ... give the bytes of those states. -/
theorem readTimes_of_states {a : Addr} {t : Nat → State} {byte : Nat → Byte}
    (h : ∀ j, busRead a (t j) = (byte j, t (j + 1))) (k : Nat) :
    readTimes a k (t 0) = ((List.range k).map byte, t k) := by
  induction k with
  | zero => rfl
  | succ k ih => simp only [readTimes, ih, h, List.range_succ, List.map_append, List.map_cons, List.map_nil]

theorem shiftOut_getLsbD (b : Byte) {j : Nat} (hj : j < 8) : (shiftOut b).getLsbD j = (j == 7 || b.getLsbD (j + 1)) := by
  interval_cases j <;> simp [shiftOut]

/-- After `k` shifts bit `j` is bit `j + k` of the latch, and 1 where that is past the eighth (R661). -/
theorem iterate_shiftOut_getLsbD (b : Byte) (k : Nat) {j : Nat} (hj : j < 8) :
    (shiftOut^[k] b).getLsbD j = (decide (8 ≤ j + k) || b.getLsbD (j + k)) := by
  induction k generalizing j with
  | zero => simp [hj]
  | succ k ih =>
    rw [Function.iterate_succ_apply', shiftOut_getLsbD _ hj]
    by_cases hlast : j = 7
    · subst hlast
      rw [decide_eq_true (by omega)]
      rfl
    · have hstep : j + (k + 1) = j + 1 + k := by omega
      rw [ih (by omega), hstep, beq_false_of_ne hlast, Bool.false_or]

/-- The bit of the `k`-th read after a latch: button `k`, and 1 after the eighth (R661). -/
theorem iterate_shiftOut_and_one (b : Byte) (k : Nat) :
    shiftOut^[k] b &&& 1 = if k < 8 then (b >>> k) &&& 1 else 1 := by
  have hbit (x : Byte) : x &&& 1 = (BitVec.ofBool (x.getLsbD 0)).setWidth 8 := BitVec.and_one_eq_setWidth_ofBool_getLsbD
  rw [hbit, hbit, iterate_shiftOut_getLsbD b k (by decide), BitVec.getLsbD_ushiftRight, Nat.zero_add, Nat.add_zero]
  split
  next hk => rw [decide_eq_false (by omega), Bool.false_or]
  next hk => rw [decide_eq_true (by omega), Bool.true_or]; rfl

/-- Reads of a shift register `b`, each of which shifts out one bit. -/
theorem readTimes_of_shiftOut {a : Addr} {t : Byte → State} (h : ∀ b, busRead a (t b) = (b &&& 1, t (shiftOut b)))
    (b : Byte) (k : Nat) :
    (readTimes a k (t b)).1 = (List.range k).map fun j => if j < 8 then (b >>> j) &&& 1 else 1 := by
  have hread (j : Nat) := h (shiftOut^[j] b)
  simp only [← Function.iterate_succ_apply', iterate_shiftOut_and_one] at hread
  exact congrArg Prod.fst (readTimes_of_states (t := fun j => t (shiftOut^[j] b)) hread k)

section reads
variable {s : State} (hbus : s.bus = State.defaultBus)
include hbus

theorem readTimes_0x4016_down (h : s.pads.strobe = false) (k : Nat) : (readTimes 0x4016 k s).1 =
    (List.range k).map fun j => if j < 8 then (s.pads.shift0 >>> j) &&& 1 else 1 :=
  readTimes_of_shiftOut (t := fun b => s.mapPads fun c => { c with shift0 := b })
    (fun b => busRead_0x4016_down (s := s.mapPads fun c => { c with shift0 := b }) hbus h) s.pads.shift0 k

theorem readTimes_0x4017_down (h : s.pads.strobe = false) (k : Nat) : (readTimes 0x4017 k s).1 =
    (List.range k).map fun j => if j < 8 then (s.pads.shift1 >>> j) &&& 1 else 1 :=
  readTimes_of_shiftOut (t := fun b => s.mapPads fun c => { c with shift1 := b })
    (fun b => busRead_0x4017_down (s := s.mapPads fun c => { c with shift1 := b }) hbus h) s.pads.shift1 k

theorem readTimes_0x4016_held (h : s.pads.strobe = true) (k : Nat) :
    (readTimes 0x4016 k s).1 = List.replicate k (s.pads.buttons0 &&& 1) := by
  have hread := readTimes_of_states (t := fun _ => s) (fun _ => busRead_0x4016_held hbus h) k
  rw [hread, List.map_const', List.length_range]

end reads

theorem setButton_getLsbD (down : Bool) (button : Fin 8) (b : Byte) {j : Nat} (hj : j < 8) :
    (setButton down button b).getLsbD j = if j = button.val then down else b.getLsbD j := by
  have hmask : (BitVec.twoPow 8 button.val).getLsbD j = decide (j = button.val) := by
    rw [BitVec.getLsbD_twoPow, decide_eq_true button.isLt, Bool.true_and]
    exact decide_eq_decide.mpr eq_comm
  cases down with
  | true =>
    change (b ||| BitVec.twoPow 8 button.val).getLsbD j = _
    rw [BitVec.getLsbD_or, hmask]
    by_cases h : j = button.val <;> simp [h]
  | false =>
    change (b &&& ~~~BitVec.twoPow 8 button.val).getLsbD j = _
    rw [BitVec.getLsbD_and, BitVec.getLsbD_not, hmask]
    by_cases h : j = button.val <;> simp [h, hj]

/-- A key operation on either port, button by button. -/
theorem key_buttons (down : Bool) (port : Fin 2) (button : Fin 8) (s : State) {j : Nat} (hj : j < 8) :
    (key down port button s).pads.buttons0.getLsbD j =
      (if port == 0 && j == button.val then down else s.pads.buttons0.getLsbD j) ∧
    (key down port button s).pads.buttons1.getLsbD j =
      (if port == 1 && j == button.val then down else s.pads.buttons1.getLsbD j) := by
  match port with
  | 0 => simp [key, setButton_getLsbD down button _ hj]
  | 1 => simp [key, setButton_getLsbD down button _ hj]

theorem key_keeps (down : Bool) (port : Fin 2) (button : Fin 8) (s : State) :
    (key down port button s).pads.shift0 = s.pads.shift0 ∧ (key down port button s).pads.shift1 = s.pads.shift1 ∧
    (key down port button s).pads.strobe = s.pads.strobe := by
  match port with
  | 0 | 1 => exact ⟨rfl, rfl, rfl⟩

/-- Settles O57: the second strobe write leaves the buttons in both shift registers, which the reads empty bit by bit. -/
theorem controllersLatchAndShiftButtons : Obligations.ControllersLatchAndShiftButtons := by
  refine ⟨fun hi lo k s hbus hhi hlo => ?ports, fun port b s => ⟨?keyDown, ?keyUp⟩⟩
  case ports =>
    have hheld : busWrite 0x4016 hi s = s.mapPads (Pads.latch hi) := busWrite_0x4016 hbus hi
    have hdown : busWrite 0x4016 lo (s.mapPads (Pads.latch hi)) = (s.mapPads (Pads.latch hi)).mapPads (Pads.latch lo) :=
      busWrite_0x4016 (s := s.mapPads (Pads.latch hi)) hbus lo
    rw [hheld, hdown]
    exact ⟨readTimes_0x4016_down (s := (s.mapPads (Pads.latch hi)).mapPads (Pads.latch lo)) hbus hlo k,
      readTimes_0x4017_down (s := (s.mapPads (Pads.latch hi)).mapPads (Pads.latch lo)) hbus hlo k,
      readTimes_0x4016_held (s := s.mapPads (Pads.latch hi)) hbus hhi k, rfl⟩
  case keyDown =>
    obtain ⟨hshift0, hshift1, hstrobe⟩ := key_keeps true port b s
    refine ⟨key true port b s, rfl, hshift0, hshift1, hstrobe, fun j hj => ?_⟩
    simpa only [Bool.if_true_left, Bool.decide_eq_true, Bool.or_comm] using key_buttons true port b s hj
  case keyUp =>
    obtain ⟨hshift0, hshift1, hstrobe⟩ := key_keeps false port b s
    refine ⟨key false port b s, rfl, hshift0, hshift1, hstrobe, fun j hj => ?_⟩
    simpa only [Bool.if_false_left, Bool.decide_eq_true, Bool.and_comm] using key_buttons false port b s hj

end Sys2Proof.Machine

namespace Sys2Proof.Machine

/-! ## The cartridge on the NES map (R650, R651) -/

/-- The processor's entry is the first of the NES map that takes an IRQ (R104, R255). -/
theorem firstIrqCapable_defaultBus : firstCapable (·.irqCapable) State.defaultBus = some .cpu := rfl

/-- R650: a contract call leaves the mapper's next state, and its `Bus.IRQ()` sets the latch. -/
theorem afterMapper_defaultBus {x : ExtRun} {s : State} (hbus : s.bus = State.defaultBus) (r : Config.MapReply) :
    afterMapperVia x r s = { s with
      cart := { s.cart with st := r.st }
      pend := { s.pend with irq := s.pend.irq || r.irq } } :=
  signalIrqVia_of_cpu (s := s.mapCart fun c => { c with st := r.st }) (hbus ▸ firstIrqCapable_defaultBus) r.irq

/-- A cartridge memory after a write: stored at an accepted offset of cartridge RAM only (R650, R651). -/
def storeAccepted (r : Config.MapReply) (v : Byte) (m : Memory 8) : Memory 8 :=
  if r.accepted && r.ram then m.write r.offset v else m

theorem storeAccepted_read {m : Memory 8} (hm : m.wf = true) (r : Config.MapReply) (v : Byte) (n : Nat) :
    (storeAccepted r v m).read n = if r.accepted ∧ r.ram ∧ n = r.offset then v else m.read n := by
  unfold storeAccepted
  split
  next h =>
    obtain ⟨haccepted, hram⟩ := Bool.and_eq_true_iff.mp h
    simp only [Memory.read_write hm, haccepted, hram, true_and]
  next h => exact (if_neg fun hn => h (Bool.and_eq_true_iff.mpr ⟨hn.1, hn.2.1⟩)).symm

section contract
variable {x : ExtRun} {s : State} (hbus : s.bus = State.defaultBus)
include hbus

theorem cartWrite_defaultBus (a : Addr) (v : Byte) : cartWriteVia x a v s =
    { s with
      cart := { s.cart with
        st := (s.cart.mapCpuWrite a v).st
        prg := storeAccepted (s.cart.mapCpuWrite a v) v s.cart.prg }
      pend := { s.pend with irq := s.pend.irq || (s.cart.mapCpuWrite a v).irq } } := by
  unfold cartWriteVia storeAccepted
  dsimp only
  split
  · exact afterMapper_defaultBus (s := s.mapCart _) hbus _
  · exact afterMapper_defaultBus hbus _

theorem patternWrite_defaultBus (a : PpuAddr) (v : Byte) : patternWriteVia x a v s =
    { s with
      cart := { s.cart with
        st := (s.cart.mapPpuWrite a).st
        chr := storeAccepted (s.cart.mapPpuWrite a) v s.cart.chr }
      pend := { s.pend with irq := s.pend.irq || (s.cart.mapPpuWrite a).irq } } := by
  unfold patternWriteVia storeAccepted
  dsimp only
  split
  · exact afterMapper_defaultBus (s := s.mapCart _) hbus _
  · exact afterMapper_defaultBus hbus _

theorem busRead_cart {a : Addr} (ha : 0x4020 ≤ a.toNat) : busRead a s = cartReadVia extRun a s :=
  (busAccess_of_componentsAt (hbus ▸ componentsAt_cart ha) 0).1

theorem busWrite_cart {a : Addr} (ha : 0x4020 ≤ a.toNat) (v : Byte) : busWrite a v s = cartWriteVia extRun a v s :=
  (busAccess_of_componentsAt (hbus ▸ componentsAt_cart ha) v).2

end contract

/-- R650's example: one window from `lo` to the top of the address space. -/
theorem windowReply_top (st lo : Nat) {a : Nat} (ha : a ≤ 0xFFFF) : windowReply st [⟨lo, 0xFFFF, 0, false⟩] a =
    if lo ≤ a then ⟨true, a - lo, none, false, st, false⟩ else ⟨false, 0, none, false, st, false⟩ := by
  simp [windowReply, ha]

/-- Settles O60: on the NES map each access is one contract call, whose reply gives the byte, the cell and the latch. -/
theorem cartridgeAnswersThroughMapper : Obligations.CartridgeAnswersThroughMapper := by
  refine ⟨fun s hbus => ⟨fun a ha => ?read, fun a v ha hprg => ?write, fun x a ha => ?patternRead,
    fun x a v ha hchr => ?patternWrite⟩, fun c ppu m hc a => ?flat⟩
  case read => rw [busRead_cart hbus ha, cartReadVia, afterMapper_defaultBus hbus]
  case write =>
    rw [busWrite_cart hbus ha, cartWrite_defaultBus hbus]
    exact ⟨_, rfl, storeAccepted_read hprg _ v⟩
  case patternRead => rw [ppuReadVia, if_pos ha, patternReadVia, afterMapper_defaultBus hbus]
  case patternWrite =>
    rw [ppuWriteVia, if_pos ha, patternWrite_defaultBus hbus]
    exact ⟨_, rfl, storeAccepted_read hchr _ v⟩
  case flat =>
    have hreply : c.mapCpuRead a = windowReply c.st [⟨0x8000, 0xFFFF, 0, false⟩] a.toNat := by rw [Cart.mapCpuRead, hc]
    rw [hreply, windowReply_top c.st 0x8000 (Nat.le_of_lt_succ a.isLt)]
    exact ⟨fun ha => by rw [if_pos ha]; exact ⟨rfl, rfl, rfl, rfl⟩, fun ha => by rw [if_neg (by omega)]⟩

end Sys2Proof.Machine
